-- ==== Sys2Proof/Word.lean ====
section
/-! DEFINITION. The words of the machine: 64-bit registers, 32-bit instruction words and tags, bytes, and the 2,048
bits of a vector register. Numbers that software can add, mask or store are bit vectors; counts are natural numbers. -/

namespace Sys2Proof

/-- A scalar or address register, and every control and status register (R81, R86). -/
abbrev Word := BitVec 64

/-- An instruction word (R68). -/
abbrev IWord := BitVec 32

/-- A format tag (R22). -/
abbrev Tag := BitVec 32

/-- A byte of memory. -/
abbrev Byte := BitVec 8

/-- The bits of one line of 128 bytes, byte 0 in the low bits (R25). -/
abbrev LineBits := BitVec 1024

/-- The bits of one vector register or shadow (R37). -/
abbrev RegBits := BitVec 2048

/-- The `len` bits of `w` from bit `lo` up, as a number. -/
def bitsNat {n : Nat} (w : BitVec n) (lo len : Nat) : Nat := (w.extractLsb' lo len).toNat

end Sys2Proof
end

