-- ==== Sys2Proof/Syntax.lean ====
section
/-! DEFINITION. The instructions, commands and events of spec/opcode_table.json: one constructor of Instr for
each row. A word's operands are its encoding's fields, each at the width the table gives it; an event's operands say
which part of the machine it befalls; a headgate command carries its function and its operand doublewords. -/

namespace Sys2Proof

/-- The operands of a headgate command (R269): the reserved bits D0[63:16], then O1 to O7 (D1 to D7). -/
structure CmdOps where
  res : BitVec 48
  o1 : BitVec 64
  o2 : BitVec 64
  o3 : BitVec 64
  o4 : BitVec 64
  o5 : BitVec 64
  o6 : BitVec 64
  o7 : BitVec 64
  deriving DecidableEq, Repr

/-- What a host write carries (R326): 8 aligned bytes, 64 aligned bytes, or a write of another shape, which is
discarded and counted. -/
inductive HostWrite where
  | dword (v : BitVec 64)
  | line (v : BitVec 512)
  | other
  deriving DecidableEq, Repr

/-- The structures whose errors R340 names. -/
inductive ErrorSite where
  | scratchpad (core off : Nat)
  | registerFile (core bank : Nat)
  | accumulator (core pair : Nat)
  | slice (slice line : Nat)
  | culvert (core lane : Nat)
  | hbm (line : Nat)
  deriving DecidableEq, Repr

/-- An error the machine found (R340): where, and whether ECC could not correct it. -/
structure ErrorReport where
  site : ErrorSite
  uncorrected : Bool
  deriving DecidableEq, Repr

/-- What an RDMA access that arrives at a network queue carries of one line (R336): it reads `n` bytes, writes them, or writes
the whole line with the tag that travels with it. -/
inductive RemoteWork where
  | read (n : Nat)
  | write (n : Nat) (data : BitVec 1024)
  | line (tag : BitVec 32) (data : BitVec 1024)
  deriving DecidableEq, Repr

/-- An RDMA access that arrives at a network queue (R336). -/
structure RemoteAccess where
  qp : Nat
  key : BitVec 32
  va : BitVec 64
  work : RemoteWork
  deriving DecidableEq, Repr

/-- A CXL.mem request of a peer to this device's T0 (R333). -/
structure PeerAccess where
  pa : Nat
  write : Bool
  tag : BitVec 32
  data : BitVec 1024
  deriving DecidableEq, Repr

/-- One constructor for each row of spec/opcode_table.json. -/
inductive Instr where
  /-- ADD: Writes s[d] := s[a] + s[b] modulo 2^64. (R87) -/
  | add (d : BitVec 5) (a : BitVec 5) (b : BitVec 5)
  /-- SUB: Writes s[d] := s[a] - s[b]. (R87) -/
  | sub (d : BitVec 5) (a : BitVec 5) (b : BitVec 5)
  /-- MUL: Writes the low 64 bits of s[a] x s[b] to s[d]. (R87) -/
  | mul (d : BitVec 5) (a : BitVec 5) (b : BitVec 5)
  /-- MULH: Writes the high 64 bits of the signed 128-bit product to s[d]. (R87) -/
  | mulh (d : BitVec 5) (a : BitVec 5) (b : BitVec 5)
  /-- MULHU: Writes the high 64 bits of the unsigned 128-bit product to s[d]. (R87) -/
  | mulhu (d : BitVec 5) (a : BitVec 5) (b : BitVec 5)
  /-- DIV: Writes the signed quotient truncated toward zero; division by zero gives all ones and sets DIVZERO. (R88) -/
  | div (d : BitVec 5) (a : BitVec 5) (b : BitVec 5)
  /-- DIVU: Writes the unsigned quotient of s[a] by s[b]. (R88) -/
  | divu (d : BitVec 5) (a : BitVec 5) (b : BitVec 5)
  /-- REM: Writes the signed remainder, with the sign of the dividend. (R88) -/
  | rem (d : BitVec 5) (a : BitVec 5) (b : BitVec 5)
  /-- REMU: Writes the unsigned remainder. (R88) -/
  | remu (d : BitVec 5) (a : BitVec 5) (b : BitVec 5)
  /-- AND: Writes the bitwise AND of s[a] and s[b]. (R87) -/
  | and (d : BitVec 5) (a : BitVec 5) (b : BitVec 5)
  /-- OR: Writes the bitwise OR of s[a] and s[b]. (R87) -/
  | or (d : BitVec 5) (a : BitVec 5) (b : BitVec 5)
  /-- XOR: Writes the bitwise XOR of s[a] and s[b]. (R87) -/
  | xor (d : BitVec 5) (a : BitVec 5) (b : BitVec 5)
  /-- SHL: Shifts s[a] left by s[b][5:0]. (R87) -/
  | shl (d : BitVec 5) (a : BitVec 5) (b : BitVec 5)
  /-- SHRL: Shifts s[a] right logically by s[b][5:0]. (R87) -/
  | shrl (d : BitVec 5) (a : BitVec 5) (b : BitVec 5)
  /-- SHRA: Shifts s[a] right arithmetically by s[b][5:0]. (R87) -/
  | shra (d : BitVec 5) (a : BitVec 5) (b : BitVec 5)
  /-- SLT: Writes 1 if s[a] < s[b] signed, else 0. (R87) -/
  | slt (d : BitVec 5) (a : BitVec 5) (b : BitVec 5)
  /-- SLTU: Writes 1 if s[a] < s[b] unsigned, else 0. (R87) -/
  | sltu (d : BitVec 5) (a : BitVec 5) (b : BitVec 5)
  /-- MIN: Writes the signed minimum of s[a] and s[b]. (R87) -/
  | min (d : BitVec 5) (a : BitVec 5) (b : BitVec 5)
  /-- MAX: Writes the signed maximum of s[a] and s[b]. (R87) -/
  | max (d : BitVec 5) (a : BitVec 5) (b : BitVec 5)
  /-- MINU: Writes the unsigned minimum of s[a] and s[b]. (R87) -/
  | minu (d : BitVec 5) (a : BitVec 5) (b : BitVec 5)
  /-- MAXU: Writes the unsigned maximum of s[a] and s[b]. (R87) -/
  | maxu (d : BitVec 5) (a : BitVec 5) (b : BitVec 5)
  /-- CLZ: Writes the leading zero count of s[a], 64 when zero. (R87) -/
  | clz (d : BitVec 5) (a : BitVec 5)
  /-- CTZ: Writes the trailing zero count of s[a], 64 when zero. (R87) -/
  | ctz (d : BitVec 5) (a : BitVec 5)
  /-- POPC: Writes the number of one bits of s[a]. (R87) -/
  | popc (d : BitVec 5) (a : BitVec 5)
  /-- BFX: Extracts a zero-extended bit field of s[a] into s[d]. (R89) -/
  | bfx (d : BitVec 5) (a : BitVec 5) (p : BitVec 6) (l : BitVec 6)
  /-- BFXS: Extracts a sign-extended bit field of s[a] into s[d]. (R89) -/
  | bfxs (d : BitVec 5) (a : BitVec 5) (p : BitVec 6) (l : BitVec 6)
  /-- BFI: Inserts the low bits of s[a] into a field of s[d]. (R89) -/
  | bfi (d : BitVec 5) (a : BitVec 5) (p : BitVec 6) (l : BitVec 6)
  /-- FSHL: Funnel-shifts s[a]:s[b] left by s[c][5:0] and keeps the high half. (R87) -/
  | fshl (d : BitVec 5) (a : BitVec 5) (b : BitVec 5) (c : BitVec 5)
  /-- FSHR: Funnel-shifts s[a]:s[b] right by s[c][5:0] and keeps the low half. (R87) -/
  | fshr (d : BitVec 5) (a : BitVec 5) (b : BitVec 5) (c : BitVec 5)
  /-- SEL: Writes s[a] if s[c] is nonzero, else s[b]. (R87) -/
  | sel (d : BitVec 5) (a : BitVec 5) (b : BitVec 5) (c : BitVec 5)
  /-- ADDI: Adds a sign-extended immediate to s[a]. (R90) -/
  | addi (d : BitVec 5) (a : BitVec 5) (i : BitVec 13)
  /-- ANDI: ANDs s[a] with a sign-extended immediate. (R90) -/
  | andi (d : BitVec 5) (a : BitVec 5) (i : BitVec 13)
  /-- ORI: ORs s[a] with a sign-extended immediate. (R90) -/
  | ori (d : BitVec 5) (a : BitVec 5) (i : BitVec 13)
  /-- XORI: XORs s[a] with a sign-extended immediate. (R90) -/
  | xori (d : BitVec 5) (a : BitVec 5) (i : BitVec 13)
  /-- SHLI: Shifts s[a] left by an immediate amount. (R90) -/
  | shli (d : BitVec 5) (a : BitVec 5) (s : BitVec 6)
  /-- SHRLI: Shifts s[a] right logically by an immediate amount. (R90) -/
  | shrli (d : BitVec 5) (a : BitVec 5) (s : BitVec 6)
  /-- SHRAI: Shifts s[a] right arithmetically by an immediate amount. (R90) -/
  | shrai (d : BitVec 5) (a : BitVec 5) (s : BitVec 6)
  /-- SLTI: Writes 1 if s[a] is below the immediate, signed. (R90) -/
  | slti (d : BitVec 5) (a : BitVec 5) (i : BitVec 13)
  /-- LUI: Sets s[d] to the sign-extended immediate shifted left by 13. (R91) -/
  | lui (d : BitVec 5) (i : BitVec 18)
  /-- AUIPC: Sets s[d] to PC plus the sign-extended immediate shifted left by 13. (R91) -/
  | auipc (d : BitVec 5) (i : BitVec 18)
  /-- BEQ: Branches if s[a] equals s[b]. (R92) -/
  | beq (a : BitVec 5) (b : BitVec 5) (o : BitVec 13)
  /-- BNE: Branches if s[a] differs from s[b]. (R92) -/
  | bne (a : BitVec 5) (b : BitVec 5) (o : BitVec 13)
  /-- BLT: Branches if s[a] < s[b] signed. (R92) -/
  | blt (a : BitVec 5) (b : BitVec 5) (o : BitVec 13)
  /-- BGE: Branches if s[a] >= s[b] signed. (R92) -/
  | bge (a : BitVec 5) (b : BitVec 5) (o : BitVec 13)
  /-- BLTU: Branches if s[a] < s[b] unsigned. (R92) -/
  | bltu (a : BitVec 5) (b : BitVec 5) (o : BitVec 13)
  /-- BGEU: Branches if s[a] >= s[b] unsigned. (R92) -/
  | bgeu (a : BitVec 5) (b : BitVec 5) (o : BitVec 13)
  /-- JMP: Jumps to PC plus a signed word offset. (R93) -/
  | jmp (o : BitVec 23)
  /-- JAL: Jumps PC-relative and writes the link to s[d]. (R93) -/
  | jal (d : BitVec 5) (i : BitVec 18)
  /-- JR: Jumps to s[a], faulting ALIGN if not a multiple of 4. (R93) -/
  | jr (a : BitVec 5)
  /-- JALR: Jumps to s[a] plus an immediate and writes the link to s[d]. (R93) -/
  | jalr (d : BitVec 5) (a : BitVec 5) (i : BitVec 13)
  /-- CALLT: Calls indirectly through the function table after checking index, signature and alignment. (R96) -/
  | callt (a : BitVec 5) (s : BitVec 9)
  /-- RET: Jumps to s1. (R93) -/
  | ret
  /-- BQT: Waits for and pops the BQ head, branching if its B bit is 1. (R95) -/
  | bqt (o : BitVec 23)
  /-- BQF: Waits for and pops the BQ head, branching if its B bit is 0. (R95) -/
  | bqf (o : BitVec 23)
  /-- BQPOP: Waits for and pops the BQ head into s[d]. (R95) -/
  | bqpop (d : BitVec 5)
  /-- NOP: Does nothing. (R96) -/
  | nop
  /-- SEQLVL: Writes the shadow count and ROT flag of sequencer level l. (R98) -/
  | seqlvl (l : BitVec 3) (a : BitVec 5) (r : BitVec 1)
  /-- SEQLVL_GET_SHADOW: Reads the shadow count and ROT of level l into s[a]. (R98) -/
  | seqlvlGetShadow (l : BitVec 3) (a : BitVec 5)
  /-- SEQLVL_GET_ACTIVE: Reads the active count and ROT of level l into s[a]. (R98) -/
  | seqlvlGetActive (l : BitVec 3) (a : BitVec 5)
  /-- SEQLVL_GET_COUNTER: Reads the running counter i_l into s[a]. (R98) -/
  | seqlvlGetCounter (l : BitVec 3) (a : BitVec 5)
  /-- SEQSTR: Writes the shadow stride of a stream at level l. (R98) -/
  | seqstr (l : BitVec 3) (a : BitVec 5) (n : BitVec 5)
  /-- SEQSTR_GET_SHADOW: Reads the shadow stride of a stream at level l. (R98) -/
  | seqstrGetShadow (l : BitVec 3) (a : BitVec 5) (n : BitVec 5)
  /-- SEQSTR_GET_ACTIVE: Reads the active stride of a stream at level l. (R98) -/
  | seqstrGetActive (l : BitVec 3) (a : BitVec 5) (n : BitVec 5)
  /-- SEQCAP: Captures the next n words and their s-register values into the shadow block. (R99) -/
  | seqcap (n : BitVec 10)
  /-- SEQGO: Waits for any running nest, copies the shadow set to the active set and starts the nest. (R101) -/
  | seqgo
  /-- SEQBRK: Makes the current nest iteration the last. (R104) -/
  | seqbrk
  /-- SEQWAIT: Waits until no nest is active. (R104) -/
  | seqwait
  /-- RRBSET: Waits until no nest is active and sets RRB to the immediate. (R105) -/
  | rrbset (i : BitVec 10)
  /-- SPAWN: Releases at device scope, checks the record in s[a..a+3] and pushes it onto a work queue. (R107) -/
  | spawn (d : BitVec 5) (a : BitVec 5) (b : BitVec 5)
  /-- JOIN: Releases and decrements a join counter at its home, launching its record when it reaches zero. (R108) -/
  | join (d : BitVec 5) (a : BitVec 5) (b : BitVec 5)
  /-- EXIT: Waits for every earlier word, releases, decrements the join block and frees the core. (R109) -/
  | exit
  /-- EVSET: Releases, sets an event and releases the records that wait on it. (R110) -/
  | evset (d : BitVec 5) (a : BitVec 5) (i : BitVec 13)
  /-- EVCLR: Clears an event of the job. (R110) -/
  | evclr (d : BitVec 5) (a : BitVec 5) (i : BitVec 13)
  /-- EVTEST: Reads an event without changing it, acquiring when it is set. (R110) -/
  | evtest (d : BitVec 5) (a : BitVec 5) (i : BitVec 13)
  /-- TILE: Computes this member's frequency-proportional share of T tiles. (R111) -/
  | tile (d : BitVec 5) (a : BitVec 5) (c : BitVec 5)
  /-- TILENEXT: Takes the next chunk from the gang's shared counter. (R112) -/
  | tilenext (d : BitVec 5) (a : BitVec 5) (c : BitVec 5)
  /-- GBAR: Releases at die scope and arrives at the gang barrier. (R113) -/
  | gbar
  /-- CSRR: Reads a CSR into s[d], draining first for certain CSRs. (R304) -/
  | csrr (d : BitVec 5) (c : BitVec 12)
  /-- CSRW: Writes a CSR from s[a] and returns its old value. (R304) -/
  | csrw (d : BitVec 5) (a : BitVec 5) (c : BitVec 12)
  /-- CSRS: Sets CSR bits from s[a] and returns the old value. (R304) -/
  | csrs (d : BitVec 5) (a : BitVec 5) (c : BitVec 12)
  /-- CSRC: Clears CSR bits from s[a] and returns the old value. (R304) -/
  | csrc (d : BitVec 5) (a : BitVec 5) (c : BitVec 12)
  /-- TRAP: Takes a trap with cause TRAPI and the immediate in TVAL. (R302) -/
  | trap (i : BitVec 18)
  /-- ERET: Drains the trap rings, exchanges the bank back and resumes the user rings at EPC. (R303) -/
  | eret
  /-- SPILL: Waits for quiet engines and writes the run's state to the core's save area. (R311) -/
  | spill
  /-- FILL: Checks and restores a saved run image from s[a]. (R312) -/
  | fill (a : BitVec 5)
  /-- HALT: Ends the run without release, settling commands and freeing the core. (R313) -/
  | halt
  /-- TLBI: Invalidates the job's translations for a range of pages. (R316) -/
  | tlbi (a : BitVec 5) (b : BitVec 5)
  /-- LATINV: Drains and reloads the lattice cache from LATB. (R317) -/
  | latinv
  /-- ISYNC: Drains stores and discards the instruction cache and cached table entries. (R318) -/
  | isync
  /-- LDS: Loads a sign- or zero-extended scalar into s[d], holding the ring head. (R120) -/
  | lds (d : BitVec 5) (b : BitVec 5) (z : BitVec 2) (x : BitVec 1) (o : BitVec 10)
  /-- STS: Stores the low bytes of s[d] at EA, keeping the line tag. (R120) -/
  | sts (d : BitVec 5) (b : BitVec 5) (z : BitVec 2) (o : BitVec 10)
  /-- LDA: Loads a doubleword into a[d]. (R120) -/
  | lda (d : BitVec 5) (b : BitVec 5) (o : BitVec 10)
  /-- STA: Stores a[d] as a doubleword at EA. (R120) -/
  | sta (d : BitVec 5) (b : BitVec 5) (o : BitVec 10)
  /-- LDF: Waits for full, loads the word and sets it empty, acquiring at cluster scope. (R121) -/
  | ldf (d : BitVec 5) (b : BitVec 5) (o : BitVec 10)
  /-- STE: Waits for empty, releases, stores the word and sets it full. (R121) -/
  | ste (d : BitVec 5) (b : BitVec 5) (o : BitVec 10)
  /-- LDFT: Waits for full and loads the word, leaving it full. (R121) -/
  | ldft (d : BitVec 5) (b : BitVec 5) (o : BitVec 10)
  /-- FESET: Sets the full/empty bits of n scratchpad words. (R122) -/
  | feset (a : BitVec 5) (b : BitVec 5) (s : BitVec 5)
  /-- ADDA: Writes a[d] := a[a] + a[b]. (R119) -/
  | adda (d : BitVec 5) (a : BitVec 5) (b : BitVec 5)
  /-- SUBA: Writes a[d] := a[a] - a[b]. (R119) -/
  | suba (d : BitVec 5) (a : BitVec 5) (b : BitVec 5)
  /-- ADDAI: Adds a sign-extended immediate to a[a]. (R119) -/
  | addai (d : BitVec 5) (a : BitVec 5) (i : BitVec 13)
  /-- SHLAI: Shifts a[a] left by an immediate. (R119) -/
  | shlai (d : BitVec 5) (a : BitVec 5) (s : BitVec 6)
  /-- MULAI: Multiplies a[a] by a sign-extended immediate. (R119) -/
  | mulai (d : BitVec 5) (a : BitVec 5) (i : BitVec 13)
  /-- ANDAI: ANDs a[a] with a sign-extended immediate. (R119) -/
  | andai (d : BitVec 5) (a : BitVec 5) (i : BitVec 13)
  /-- MOVSA: Copies a captured s register into a[d]. (R119) -/
  | movsa (d : BitVec 5) (a : BitVec 5)
  /-- MOVAS: Copies a[a] into a pending s register. (R119) -/
  | movas (d : BitVec 5) (a : BitVec 5)
  /-- VLD: Loads one tagged register entry into a flume. (R123) -/
  | vld (q : BitVec 3) (b : BitVec 5) (s : BitVec 4) (e : BitVec 3) (o : BitVec 8)
  /-- VLDP: Loads two tagged entries into a flume together. (R124) -/
  | vldp (q : BitVec 3) (b : BitVec 5) (s : BitVec 4) (e : BitVec 3) (o : BitVec 8)
  /-- VST: Pops one entry from an output flume and writes its lines. (R123) -/
  | vst (q : BitVec 3) (b : BitVec 5) (s : BitVec 4) (e : BitVec 3) (o : BitVec 8)
  /-- VSTP: Pops two entries and writes them as one native line, converting if needed. (R125) -/
  | vstp (q : BitVec 3) (b : BitVec 5) (s : BitVec 4) (o : BitVec 8)
  /-- VLDX: Gathers elements by an index entry into a flume. (R129) -/
  | vldx (q : BitVec 3) (b : BitVec 5) (s : BitVec 4) (i : BitVec 3)
  /-- VSTX: Scatters a data entry's elements by an index entry. (R129) -/
  | vstx (q : BitVec 3) (b : BitVec 5) (s : BitVec 4) (i : BitVec 3)
  /-- VLDC: Loads a scratchpad line following a copy's arrival pointer. (R127) -/
  | vldc (q : BitVec 3) (b : BitVec 5) (s : BitVec 4) (e : BitVec 3) (o : BitVec 8)
  /-- PREF: Asks home slices to hold n lines; no architectural effect. (R128) -/
  | pref (n : BitVec 3) (b : BitVec 5) (s : BitVec 4) (o : BitVec 8)
  /-- STRDEF: Reads and checks a stream descriptor. (R132) -/
  | strdef (s : BitVec 4) (b : BitVec 5)
  /-- STRGO: Starts a generator of s[N] load steps into the stream's flume. (R132) -/
  | strgo (s : BitVec 4) (b : BitVec 5) (n : BitVec 5)
  /-- STRSTOP: Stops the stream's generator or sink and returns steps issued. (R132) -/
  | strstop (s : BitVec 4) (n : BitVec 5)
  /-- STRSINK: Starts a sink of s[N] store steps from the stream's flume. (R132) -/
  | strsink (s : BitVec 4) (b : BitVec 5) (n : BitVec 5)
  /-- SBAR: Orders later accesses of m2 streams after earlier accesses of m1 streams at a scope. (R135) -/
  | sbar (c : BitVec 3) (a : BitVec 5) (b : BitVec 5)
  /-- BIND: Binds one of v56-v63 to a flume in split order. (R134) -/
  | bind (q : BitVec 3) (v : BitVec 3)
  /-- UNBIND: Releases a bound register. (R134) -/
  | unbind (v : BitVec 3)
  /-- QSTAT: Samples a flume's status into s[d]. (R134) -/
  | qstat (d : BitVec 5) (q : BitVec 3)
  /-- AADD: Atomically adds at the home and returns the old value. (R137) -/
  | aadd (d : BitVec 5) (b : BitVec 5) (c : BitVec 5) (t : BitVec 3)
  /-- AMIN: Atomic minimum at the home. (R137) -/
  | amin (d : BitVec 5) (b : BitVec 5) (c : BitVec 5) (t : BitVec 3)
  /-- AMAX: Atomic maximum at the home. (R137) -/
  | amax (d : BitVec 5) (b : BitVec 5) (c : BitVec 5) (t : BitVec 3)
  /-- AAND: Atomic bitwise AND at the home. (R137) -/
  | aand (d : BitVec 5) (b : BitVec 5) (c : BitVec 5) (t : BitVec 3)
  /-- AOR: Atomic bitwise OR at the home. (R137) -/
  | aor (d : BitVec 5) (b : BitVec 5) (c : BitVec 5) (t : BitVec 3)
  /-- AXOR: Atomic bitwise XOR at the home. (R137) -/
  | axor (d : BitVec 5) (b : BitVec 5) (c : BitVec 5) (t : BitVec 3)
  /-- ASWAP: Atomic swap at the home. (R137) -/
  | aswap (d : BitVec 5) (b : BitVec 5) (c : BitVec 5) (t : BitVec 3)
  /-- ACAS: Atomic compare-and-swap at the home. (R137) -/
  | acas (d : BitVec 5) (b : BitVec 5) (c : BitVec 5) (e : BitVec 5) (t : BitVec 3)
  /-- ACONT: Compare-and-swap that, on success, launches the template record from the slice. (R139) -/
  | acont (d : BitVec 5) (b : BitVec 5) (c : BitVec 5) (e : BitVec 5) (t : BitVec 3)
  /-- WAPP: Appends popped groups to work vectors by fetch-and-add and merged payload writes. (R142) -/
  | wapp (d : BitVec 5) (b : BitVec 5) (q : BitVec 3) (v : BitVec 3)
  /-- FENCE: Orders the core's A-word accesses at a scope in ACQ, REL or FULL mode. (R143) -/
  | fence (c : BitVec 3) (m : BitVec 2)
  /-- FENCESC: Drains at device scope and completes at the next heartbeat tick in a device-wide order. (R144) -/
  | fencesc
  /-- RCFENCE: Drains stores and empties the shape-record cache. (R146) -/
  | rcfence
  /-- OWNWAIT: Waits until the range's tiles read THREAD and acquires the engine writes. (R147) -/
  | ownwait (a : BitVec 5) (b : BitVec 5)
  /-- VADD: Polymorphic lane-wise addition in the lattice's compute format. (R159) -/
  | vadd (d : BitVec 6) (a : BitVec 6) (b : BitVec 6) (m : BitVec 5)
  /-- VSUB: Polymorphic lane-wise subtraction. (R159) -/
  | vsub (d : BitVec 6) (a : BitVec 6) (b : BitVec 6) (m : BitVec 5)
  /-- VMUL: Polymorphic lane-wise multiplication, complex for CF formats. (R159) -/
  | vmul (d : BitVec 6) (a : BitVec 6) (b : BitVec 6) (m : BitVec 5)
  /-- VFMA: Fused a x b + c with vd as third source. (R159) -/
  | vfma (d : BitVec 6) (a : BitVec 6) (b : BitVec 6) (m : BitVec 5)
  /-- VFMS: Fused a x b - c. (R159) -/
  | vfms (d : BitVec 6) (a : BitVec 6) (b : BitVec 6) (m : BitVec 5)
  /-- VFNMA: Fused c - a x b. (R159) -/
  | vfnma (d : BitVec 6) (a : BitVec 6) (b : BitVec 6) (m : BitVec 5)
  /-- VMIN: Lane-wise minimum on exact values. (R160) -/
  | vmin (d : BitVec 6) (a : BitVec 6) (b : BitVec 6) (m : BitVec 5)
  /-- VMAX: Lane-wise maximum on exact values. (R160) -/
  | vmax (d : BitVec 6) (a : BitVec 6) (b : BitVec 6) (m : BitVec 5)
  /-- VABS: Lane-wise absolute value. (R159) -/
  | vabs (d : BitVec 6) (a : BitVec 6) (m : BitVec 5)
  /-- VNEG: Lane-wise negation. (R159) -/
  | vneg (d : BitVec 6) (a : BitVec 6) (m : BitVec 5)
  /-- VDIV: Lane-wise correctly rounded division. (R159) -/
  | vdiv (d : BitVec 6) (a : BitVec 6) (b : BitVec 6) (m : BitVec 5)
  /-- VSQRT: Lane-wise correctly rounded square root. (R159) -/
  | vsqrt (d : BitVec 6) (a : BitVec 6) (m : BitVec 5)
  /-- VRCP: Lane-wise reciprocal by the reference algorithm. (R66) -/
  | vrcp (d : BitVec 6) (a : BitVec 6) (m : BitVec 5)
  /-- VRSQ: Lane-wise reciprocal square root by the reference algorithm. (R66) -/
  | vrsq (d : BitVec 6) (a : BitVec 6) (m : BitVec 5)
  /-- VEXP2: Lane-wise 2^x by the reference algorithm. (R63) -/
  | vexp2 (d : BitVec 6) (a : BitVec 6) (m : BitVec 5)
  /-- VLOG2: Lane-wise log2 by the reference algorithm. (R63) -/
  | vlog2 (d : BitVec 6) (a : BitVec 6) (m : BitVec 5)
  /-- VSIN: Lane-wise sine by the reference algorithm. (R64) -/
  | vsin (d : BitVec 6) (a : BitVec 6) (m : BitVec 5)
  /-- VCOS: Lane-wise cosine by the reference algorithm. (R64) -/
  | vcos (d : BitVec 6) (a : BitVec 6) (m : BitVec 5)
  /-- VTANH: Lane-wise hyperbolic tangent by the reference algorithm. (R65) -/
  | vtanh (d : BitVec 6) (a : BitVec 6) (m : BitVec 5)
  /-- VCONJ: Lane-wise complex conjugate. (R159) -/
  | vconj (d : BitVec 6) (a : BitVec 6) (m : BitVec 5)
  /-- VCMULJ: Lane-wise a x conj(b). (R159) -/
  | vcmulj (d : BitVec 6) (a : BitVec 6) (b : BitVec 6) (m : BitVec 5)
  /-- VAND: Lane-wise bitwise AND in va's format. (R162) -/
  | vand (d : BitVec 6) (a : BitVec 6) (b : BitVec 6) (m : BitVec 5)
  /-- VOR: Lane-wise bitwise OR. (R162) -/
  | vor (d : BitVec 6) (a : BitVec 6) (b : BitVec 6) (m : BitVec 5)
  /-- VXOR: Lane-wise bitwise XOR. (R162) -/
  | vxor (d : BitVec 6) (a : BitVec 6) (b : BitVec 6) (m : BitVec 5)
  /-- VNOT: Lane-wise bit inversion. (R162) -/
  | vnot (d : BitVec 6) (a : BitVec 6) (m : BitVec 5)
  /-- VSHL: Lane-wise integer left shift. (R162) -/
  | vshl (d : BitVec 6) (a : BitVec 6) (b : BitVec 6) (m : BitVec 5)
  /-- VSHR: Lane-wise integer right shift. (R162) -/
  | vshr (d : BitVec 6) (a : BitVec 6) (b : BitVec 6) (m : BitVec 5)
  /-- VCLZ: Lane-wise leading zero count. (R162) -/
  | vclz (d : BitVec 6) (a : BitVec 6) (m : BitVec 5)
  /-- VPOPC: Lane-wise population count. (R162) -/
  | vpopc (d : BitVec 6) (a : BitVec 6) (m : BitVec 5)
  /-- VCMP: Compares lanes exactly and writes a predicate. (R163) -/
  | vcmp (c : BitVec 3) (p : BitVec 4) (a : BitVec 6) (b : BitVec 6) (g : BitVec 4)
  /-- VSEL: Selects lanes of va or vb by a predicate. (R164) -/
  | vsel (d : BitVec 6) (a : BitVec 6) (b : BitVec 6) (p : BitVec 4)
  /-- PAND: Predicate AND. (R165) -/
  | pand (d : BitVec 4) (a : BitVec 4) (b : BitVec 4)
  /-- POR: Predicate OR. (R165) -/
  | por (d : BitVec 4) (a : BitVec 4) (b : BitVec 4)
  /-- PXOR: Predicate XOR. (R165) -/
  | pxor (d : BitVec 4) (a : BitVec 4) (b : BitVec 4)
  /-- PNOT: Predicate NOT. (R165) -/
  | pnot (d : BitVec 4) (a : BitVec 4)
  /-- PTAIL: Sets predicate lanes below a captured count. (R165) -/
  | ptail (d : BitVec 4) (s : BitVec 5)
  /-- PCNT: Sets lanes below the popcount of pa AND pb. (R165) -/
  | pcnt (d : BitVec 4) (a : BitVec 4) (b : BitVec 4)
  /-- PFIRST: Keeps only the lowest set bit of pa AND pb. (R165) -/
  | pfirst (d : BitVec 4) (a : BitVec 4) (b : BitVec 4)
  /-- VCVT: Converts lanes to another format with unit scale. (R166) -/
  | vcvt (d : BitVec 6) (a : BitVec 6) (f : BitVec 5) (r : BitVec 3) (n : BitVec 1) (p : BitVec 2)
  /-- VCVTH: Converts between registers of half or double element count. (R168) -/
  | vcvth (d : BitVec 6) (a : BitVec 6) (f : BitVec 5) (h : BitVec 1) (m : BitVec 5)
  /-- VSCALE: Multiplies lanes by 2^k from a captured s register. (R169) -/
  | vscale (d : BitVec 6) (a : BitVec 6) (s : BitVec 5) (m : BitVec 5)
  /-- VQNT: Quantises lanes, choosing the scale over the register. (R167) -/
  | vqnt (d : BitVec 6) (a : BitVec 6) (f : BitVec 5) (r : BitVec 3) (n : BitVec 1) (p : BitVec 2)
  /-- VTAG: Rewrites a register's bits under a new tag without consuming it. (R170) -/
  | vtag (d : BitVec 6) (a : BitVec 6) (s : BitVec 5)
  /-- VTAGQ: Pushes a register's tag summary into BQ. (R171) -/
  | vtagq (a : BitVec 6)
  /-- VRED: Reduces active lanes into lane 0. (R173) -/
  | vred (d : BitVec 6) (a : BitVec 6) (i : BitVec 6) (p : BitVec 4)
  /-- VSCAN: Inclusive prefix scan over active lanes. (R173) -/
  | vscan (d : BitVec 6) (a : BitVec 6) (i : BitVec 6) (m : BitVec 5)
  /-- VPERM: Permutes lanes of va by an index register. (R174) -/
  | vperm (d : BitVec 6) (a : BitVec 6) (b : BitVec 6) (m : BitVec 5)
  /-- VRGATH: Gathers lanes from eight consecutive registers by index. (R174) -/
  | vrgath (d : BitVec 6) (a : BitVec 6) (b : BitVec 6) (m : BitVec 5)
  /-- VSLIDE: Slides lanes down by an immediate. (R174) -/
  | vslide (d : BitVec 6) (a : BitVec 6) (k : BitVec 6) (m : BitVec 5)
  /-- VBCAST: Broadcasts a captured s register into every active lane. (R175) -/
  | vbcast (d : BitVec 6) (f : BitVec 5) (s : BitVec 5) (m : BitVec 5)
  /-- VIOTA: Writes prefix popcounts of a predicate as INT32. (R175) -/
  | viota (d : BitVec 6) (p : BitVec 4)
  /-- VMOV: Copies active lanes with tag and tangents without consuming. (R175) -/
  | vmov (d : BitVec 6) (a : BitVec 6) (m : BitVec 5)
  /-- VPART: Partitions lanes by key into four packed entries of an output flume. (R176) -/
  | vpart (d : BitVec 6) (a : BitVec 6) (b : BitVec 6) (p : BitVec 4)
  /-- VAPPEND: Packs active lanes into one output flume entry. (R176) -/
  | vappend (d : BitVec 6) (a : BitVec 6) (p : BitVec 4)
  /-- VTGET: Copies a tangent shadow into a primal register. (R177) -/
  | vtget (d : BitVec 6) (a : BitVec 6) (t : BitVec 2) (m : BitVec 5)
  /-- VTSET: Writes a register's lanes into a tangent shadow. (R177) -/
  | vtset (d : BitVec 6) (a : BitVec 6) (t : BitVec 2) (m : BitVec 5)
  /-- VTZERO: Zeroes active lanes of a tangent shadow or all shadows. (R177) -/
  | vtzero (d : BitVec 6) (t : BitVec 2) (p : BitVec 4)
  /-- VBQ: Pushes a predicate summary into BQ. (R179) -/
  | vbq (m : BitVec 4) (a : BitVec 4) (b : BitVec 4)
  /-- MCFG: Loads the matrix configuration. (R186) -/
  | mcfg (f : BitVec 5) (g : BitVec 5)
  /-- MMA: Accumulates A x B from scratchpad into a tile. (R187) -/
  | mma (w : BitVec 4) (r : BitVec 4) (e : BitVec 5) (f : BitVec 5) (g : BitVec 5)
  /-- MXV: Multiplies a locked register batch by streamed weights into a tile. (R191) -/
  | mxv (w : BitVec 4) (r : BitVec 4) (e : BitVec 5) (f : BitVec 5) (g : BitVec 5)
  /-- MLDC: Loads a tile from scratchpad rows. (R192) -/
  | mldc (w : BitVec 4) (r : BitVec 4) (e : BitVec 5) (f : BitVec 5) (g : BitVec 5)
  /-- MZERO: Zeroes a tile and sets its format. (R192) -/
  | mzero (w : BitVec 4) (r : BitVec 4) (e : BitVec 5) (f : BitVec 5)
  /-- MDRAIN: Writes a tile as converted scratchpad lines, optionally transposed. (R193) -/
  | mdrain (w : BitVec 4) (r : BitVec 4) (e : BitVec 5) (f : BitVec 5) (g : BitVec 5)
  /-- CPY: Copies between memory and scratchpad through a shape record. (R197) -/
  | cpy (w : BitVec 4) (r : BitVec 4) (e : BitVec 5) (f : BitVec 5) (g : BitVec 5)
  /-- CPYZ: Fills scratchpad lines with zeros under a given tag. (R200) -/
  | cpyz (w : BitVec 4) (r : BitVec 4) (e : BitVec 5) (f : BitVec 5) (g : BitVec 5)
  /-- CPYB: Arms or clears the current byte-counting barrier. (R202) -/
  | cpyb (w : BitVec 4) (r : BitVec 4) (e : BitVec 5) (f : BitVec 5)
  /-- CPYQ: Quiesces in-flight copies and writes a report. (R203) -/
  | cpyq (w : BitVec 4) (r : BitVec 4) (e : BitVec 5)
  /-- CPYCAN: Cancels in-flight copies by tag or all. (R204) -/
  | cpycan (w : BitVec 4) (r : BitVec 4) (e : BitVec 5)
  /-- DUAL: Prefix making the next X word or MMA dual. (R205) -/
  | dual (n : BitVec 2)
  /-- TKN: Prefix giving an A or X word await and raise tokens. (R205) -/
  | tkn (w : BitVec 4) (r : BitVec 4)
  /-- EXT: Prefix supplying high bits of an extendable field. (R75) -/
  | ext (i : BitVec 23)
  /-- SEQF: Prefix forwarding a captured word only on first iterations. (R100) -/
  | seqf (l : BitVec 3)
  /-- SEQL: Prefix forwarding a captured word only on last iterations. (R100) -/
  | seql (l : BitVec 3)
  /-- SEQ_ADVANCE: After an iteration's last word the sequencer advances counters, offsets and RRB or ends the nest. (R103) -/
  | seqAdvance
  /-- GENERATOR_STEP: A stream generator issues one load step into its flume when room allows. (R132) -/
  | generatorStep (st : BitVec 4)
  /-- SINK_STEP: A stream sink issues one store step from its flume when an entry is present. (R132) -/
  | sinkStep (st : BitVec 4)
  /-- COMMAND_COMPLETE: An M or Y command's writes are performed; it ORs flags, releases claims and raises its token. (R181) -/
  | commandComplete (k : Nat)
  /-- COPY_LINE_LANDED: A copy line lands, advancing the arrival pointer and the current barrier's ARRIVED. (R201) -/
  | copyLineLanded (k : Nat)
  /-- TRAP_TAKEN: Once rings settle, the core takes a fault or trap, sets CAUSE, EPC, TVAL and enters the handler. (R296) -/
  | trapTaken
  /-- WAITTIMEOUT: A timed wait exceeds WAITLIM ticks and faults at the waiting word. (R21) -/
  | waittimeout
  /-- HEARTBEAT_TICK: Every 128 ns the package heartbeat counter increments. (R145) -/
  | heartbeatTick
  /-- GBAR_COMPLETE: When every live member has arrived, the barrier sets SLAST and SLAG and resets the TILENEXT counter. (R113) -/
  | gbarComplete
  /-- GANG_PREEMPT_EVENT: The gang-barrier unit delivers a pre-emption request to every member in one event. (R306) -/
  | gangPreemptEvent
  /-- LAUNCH_QUEUE_DRAIN: A slice launch queue drains a record into its die's ready queue or the spillway. (R256) -/
  | launchQueueDrain (slice : Nat)
  /-- DEFERRED_LAUNCH_APPLY: An ACONT, JOIN or EXIT waiting for launch-queue room is applied and pushes its record. (R140) -/
  | deferredLaunchApply
  /-- ADMIT: The distributor admits one record from a work queue by VF, job and queue arbitration. (R260) -/
  | admitJob (die : Nat)
  /-- DISPATCH: An idle core pops a ready entry, checks it and starts the run. (R264) -/
  | dispatch
  /-- GANG_RESERVE: A gang entry reserves idle cores and all members start together once enough are reserved. (R265) -/
  | gangReserve (die : Nat)
  /-- EVENT_RELEASE: A die releases records waiting on a set event into its ready queue. (R258) -/
  | eventRelease (die : Nat) (job : Nat) (ev : BitVec 16)
  /-- SPILLWAY_REENTER: A spilled READY record re-enters the ready queue when room appears. (R256) -/
  | spillwayReenter (die : Nat) (job : Nat)
  /-- VF_PERIOD_END: The 1,000 µs accounting period of VF usage rolls over. (R260) -/
  | vfPeriodEnd
  /-- QUEUE_AGE: An unserved nonempty queue's effective level drops by one each AGE microseconds. (R262) -/
  | queueAge (queue : Nat)
  /-- WEIR_GRANT: Every microsecond the weir grants cluster current and heat tokens. (R339) -/
  | weirGrant
  /-- MIGRATION_EPOCH: At epoch end the migration engine takes candidates and clears counts. (R279) -/
  | migrationEpoch
  /-- MIGRATE_PAGE: The migration engine copies, freezes and commits one page move by CAS. (R280) -/
  | migratePage
  /-- BLOCK_WRITEBACK: A home slice codes and writes back a compressed block, waiting for an overflow block if needed. (R283) -/
  | blockWriteback (line : Nat)
  /-- NORIA_RECODE_LINE: The noria recodes, skips or counts one line of an entry at its home. (R290) -/
  | noriaRecodeLine (die : Nat)
  /-- SELF_TEST: A targeted self-test of a unit runs and classifies its errors, repairing or fencing. (R340) -/
  | selfTest (unit : Nat)
  /-- CULVERT_REMAP: A failing culvert lane is remapped to a spare under load. (R342) -/
  | culvertRemap (core : Nat)
  /-- ERROR_DETECTED: A corrected or uncorrected error is counted and schedules a self-test. (R340) -/
  | errorDetected (e : ErrorReport)
  /-- MODULE_RESET: Reset clears state, boots verified firmware and copies the speed table. (R337) -/
  | moduleReset
  /-- NET_ACK: A network line's acknowledgement returns and the line counts as landed. (R335) -/
  | netAck (k : Nat)
  /-- NETQ_FAIL: Retries exhaust or the remote refuses; the queue leaves READY and NETQ is raised. (R336) -/
  | netqFail (qp : Nat) (refused : Bool)
  /-- INCOMING_RDMA: An incoming RDMA access with the local key is translated and applied. (R336) -/
  | incomingRdma (r : RemoteAccess)
  /-- CXL_MEM_REQUEST: A peer's CXL.mem request is served at the line's home. (R333) -/
  | cxlMemRequest (r : PeerAccess)
  /-- DATA_WRITE: A host write through DATA is translated and applied as a narrow store. (R328) -/
  | dataWrite (fn : Nat) (off : Nat) (w : HostWrite)
  /-- DATA_READ: A host read through DATA returns bytes after earlier host writes. (R328) -/
  | dataRead (fn : Nat) (off : Nat) (n : Nat)
  /-- REGISTER_WRITE: A host write to a window register without a row of its own, such as WINCTL or MSI-X. (R327) -/
  | registerWrite (fn : Nat) (off : Nat) (w : HostWrite)
  /-- JOBCREATE: Creates a job with its descriptor fields. (R269) -/
  | jobcreate (fn : Nat) (o : CmdOps)
  /-- JOBSTOP: Stops admission and moves waiting records to the fault queue. (R269) -/
  | jobstop (fn : Nat) (o : CmdOps)
  /-- JOBDESTROY: Removes a stopped, quiet job. (R269) -/
  | jobdestroy (fn : Nat) (o : CmdOps)
  /-- QCREATE: Creates a work queue. (R269) -/
  | qcreate (fn : Nat) (o : CmdOps)
  /-- QDESTROY: Removes an empty work queue. (R269) -/
  | qdestroy (fn : Nat) (o : CmdOps)
  /-- QPUSH: Pushes a record onto a work queue from the host. (R269) -/
  | qpush (fn : Nat) (o : CmdOps)
  /-- SPILLADD: Adds a spillway block to the job's free list. (R269) -/
  | spilladd (fn : Nat) (o : CmdOps)
  /-- EVHOST_SET: Sets a job event from the host, as EVSET. (R269) -/
  | evhostSet (fn : Nat) (o : CmdOps)
  /-- EVHOST_CLEAR: Clears a job event from the host, as EVCLR. (R269) -/
  | evhostClear (fn : Nat) (o : CmdOps)
  /-- RQSET: Sets a die's ready queue. (R263) -/
  | rqset (fn : Nat) (o : CmdOps)
  /-- VFSLICE: Sets a VF's occupancy quota. (R260) -/
  | vfslice (fn : Nat) (o : CmdOps)
  /-- SPEEDSET: Lowers a core's class or fences it. (R266) -/
  | speedset (fn : Nat) (o : CmdOps)
  /-- PTECAS: Compare-and-swaps a page-table entry at its home. (R293) -/
  | ptecas (fn : Nat) (o : CmdOps)
  /-- INVAL: Invalidates a job's translations for a range. (R277) -/
  | inval (fn : Nat) (o : CmdOps)
  /-- CLEAN: Writes back and drops a range's slice lines, then sets an event. (R293) -/
  | clean (fn : Nat) (o : CmdOps)
  /-- MIGCFG: Configures migration enable, thresholds and epoch. (R279) -/
  | migcfg (fn : Nat) (o : CmdOps)
  /-- MIGFREE: Adds a free frame to the migration engine's list. (R293) -/
  | migfree (fn : Nat) (o : CmdOps)
  /-- COMPSET: Moves a page into a new frame with changed COMP and sets an event. (R288) -/
  | compset (fn : Nat) (o : CmdOps)
  /-- OVFSET: Sets the overflow pool window and free stack. (R285) -/
  | ovfset (fn : Nat) (o : CmdOps)
  /-- OVFADD: Pushes a chunk's overflow indices. (R285) -/
  | ovfadd (fn : Nat) (o : CmdOps)
  /-- NORSET: Places a die's noria ring. (R289) -/
  | norset (fn : Nat) (o : CmdOps)
  /-- NORPUSH: Appends a recoding entry to a die's noria ring. (R289) -/
  | norpush (fn : Nat) (o : CmdOps)
  /-- SRSLICE: Seeds the slice stochastic generators. (R292) -/
  | srslice (fn : Nat) (o : CmdOps)
  /-- KEYJOB: Assigns or removes a job's key slot. (R275) -/
  | keyjob (fn : Nat) (o : CmdOps)
  /-- CXLRANGE: Declares a T1 range's tag kind. (R291) -/
  | cxlrange (fn : Nat) (o : CmdOps)
  /-- LOAD: Checks and loads a code object into a job slot. (R236) -/
  | load (fn : Nat) (o : CmdOps)
  /-- PREEMPT: Requests pre-emption of a gang or of every gang of a job. (R330) -/
  | preempt (fn : Nat) (o : CmdOps)
  /-- TAGSET: Rewrites a line with a new tag in one step. (R330) -/
  | tagset (fn : Nat) (o : CmdOps)
  /-- TAGGET: Returns a line's stored tag and read tag. (R330) -/
  | tagget (fn : Nat) (o : CmdOps)
  /-- FEATSET: Sets a VF's feature mask and signature requirement. (R330) -/
  | featset (fn : Nat) (o : CmdOps)
  /-- KEYSET_STAGE: Stages a key slot's data key. (R330) -/
  | keysetStage (fn : Nat) (o : CmdOps)
  /-- KEYSET_INSTALL: Gives the tweak key and changes the slot's keys. (R330) -/
  | keysetInstall (fn : Nat) (o : CmdOps)
  /-- VKEYSET_STAGE: Stages x of a verification key. (R330) -/
  | vkeysetStage (fn : Nat) (o : CmdOps)
  /-- VKEYSET_INSTALL: Gives y and installs the verification key if its digest matches. (R330) -/
  | vkeysetInstall (fn : Nat) (o : CmdOps)
  /-- SVNINC: Raises the anti-rollback counter and revokes older objects. (R320) -/
  | svninc (fn : Nat) (o : CmdOps)
  /-- INTMAP: Maps an interrupt source to a vector. (R331) -/
  | intmap (fn : Nat) (o : CmdOps)
  /-- NETQP_CREATE: Creates a network queue pair. (R335) -/
  | netqpCreate (fn : Nat) (o : CmdOps)
  /-- NETQP_DESTROY: Destroys a network queue pair. (R335) -/
  | netqpDestroy (fn : Nat) (o : CmdOps)
  /-- FWSTAGE: Verifies and writes a firmware image into the other bank. (R337) -/
  | fwstage (fn : Nat) (o : CmdOps)
  /-- LONG_COMMAND_DONE: A long command finishes, DONE turns 1 and CMDDONE is raised. (R329) -/
  | longCommandDone (fn : Nat)
  /-- TELREAD: Returns a telemetry group's counters. (R343) -/
  | telread (fn : Nat) (o : CmdOps)
  /-- PWRCAP: Sets the module power budget. (R343) -/
  | pwrcap (fn : Nat) (o : CmdOps)
  /-- ILLEGAL_WORD: The splitter meets a fetched word that encodes no assigned instruction and raises ILLEGAL with the word in TVAL. Such words include ENG 0b111, an unassigned opcode, a nonzero reserved field, or a field value the formats forbid. (R78) -/
  | illegalWord (w : BitVec 32)
  /-- ACCESS_APPLIED: An A-word or stream-step access reaches its line's home and is applied at one instant: a store leaves the store queue, a load reads, or an atomic is applied with its verdict. Its data or verdict then returns to the core, which writes a pending register, frees the ring head, or raises a token. (R207) -/
  | accessApplied
  /-- SHAPE_RECORD_CACHE_EVICTION: An entry leaves the copy engine's shape-record cache of the cache's own choice, at any time between RCFENCE, FILL and run end. (R221) -/
  | shapeRecordCacheEviction (k : Nat)
  deriving DecidableEq, Repr

end Sys2Proof
end

