-- ==== Sys2Proof/WellFormed.lean ====
section
/-! DEFINITION. Which terms of Instr stand for an instruction: the field values that R69 to R72, R82 and the entries
name as ILLEGAL when that depends on the word's bits alone (R78), and the ranges of an event's operands. -/

namespace Sys2Proof

/-- Sequencer levels l0 to l5 (R69). -/
def levelOk (l : BitVec 3) : Bool := decide (l.toNat ≤ 5)

/-- A load's flume, q0 to q5 (R70). -/
def inputFlume (q : BitVec 3) : Bool := decide (q.toNat ≤ 5)

/-- A store's flume, q6 or q7 (R70). -/
def outputFlume (q : BitVec 3) : Bool := decide (6 ≤ q.toNat)

/-- SCOPE 0 to 4 (R70). -/
def scopeOk (c : BitVec 3) : Bool := decide (c.toNat ≤ 4)

/-- An even register number, as the pairs of B128 need (R136). -/
def evenReg (r : BitVec 5) : Bool := decide (r.toNat % 2 = 0)

/-- The CSR numbers R82 lists. -/
def csrListed (c : BitVec 12) : Bool :=
  decide (c.toNat ≤ 0x006) || decide (0x400 ≤ c.toNat ∧ c.toNat ≤ 0x40D) ||
  decide (0x800 ≤ c.toNat ∧ c.toNat ≤ 0x805) || decide (c.toNat = 0xC00)

/-- The field values of an instruction are ones its entry allows (R78). -/
def Instr.wellFormed : Instr → Bool
  | .add _ _ _ => true
  | .sub _ _ _ => true
  | .mul _ _ _ => true
  | .mulh _ _ _ => true
  | .mulhu _ _ _ => true
  | .div _ _ _ => true
  | .divu _ _ _ => true
  | .rem _ _ _ => true
  | .remu _ _ _ => true
  | .and _ _ _ => true
  | .or _ _ _ => true
  | .xor _ _ _ => true
  | .shl _ _ _ => true
  | .shrl _ _ _ => true
  | .shra _ _ _ => true
  | .slt _ _ _ => true
  | .sltu _ _ _ => true
  | .min _ _ _ => true
  | .max _ _ _ => true
  | .minu _ _ _ => true
  | .maxu _ _ _ => true
  | .clz _ _ => true
  | .ctz _ _ => true
  | .popc _ _ => true
  | .bfx _ _ p l => decide (p.toNat + l.toNat + 1 ≤ 64)
  | .bfxs _ _ p l => decide (p.toNat + l.toNat + 1 ≤ 64)
  | .bfi _ _ p l => decide (p.toNat + l.toNat + 1 ≤ 64)
  | .fshl _ _ _ _ => true
  | .fshr _ _ _ _ => true
  | .sel _ _ _ _ => true
  | .addi _ _ _ => true
  | .andi _ _ _ => true
  | .ori _ _ _ => true
  | .xori _ _ _ => true
  | .shli _ _ _ => true
  | .shrli _ _ _ => true
  | .shrai _ _ _ => true
  | .slti _ _ _ => true
  | .lui _ _ => true
  | .auipc _ _ => true
  | .beq _ _ _ => true
  | .bne _ _ _ => true
  | .blt _ _ _ => true
  | .bge _ _ _ => true
  | .bltu _ _ _ => true
  | .bgeu _ _ _ => true
  | .jmp _ => true
  | .jal _ _ => true
  | .jr _ => true
  | .jalr _ _ _ => true
  | .callt _ _ => true
  | .ret => true
  | .bqt _ => true
  | .bqf _ => true
  | .bqpop _ => true
  | .nop => true
  | .seqlvl l _ _ => levelOk l
  | .seqlvlGetShadow l _ => levelOk l
  | .seqlvlGetActive l _ => levelOk l
  | .seqlvlGetCounter l _ => levelOk l
  | .seqstr l _ n => levelOk l && decide (n.toNat < 16)
  | .seqstrGetShadow l _ n => levelOk l && decide (n.toNat < 16)
  | .seqstrGetActive l _ n => levelOk l && decide (n.toNat < 16)
  | .seqcap n => decide (1 ≤ n.toNat ∧ n.toNat ≤ 64)
  | .seqgo => true
  | .seqbrk => true
  | .seqwait => true
  | .rrbset i => decide (i.toNat ≤ 23)
  | .spawn _ a _ => decide (4 ≤ a.toNat ∧ a.toNat ≤ 28)
  | .join _ _ _ => true
  | .exit => true
  | .evset _ _ _ => true
  | .evclr _ _ _ => true
  | .evtest _ _ _ => true
  | .tile _ _ _ => true
  | .tilenext _ _ _ => true
  | .gbar => true
  | .csrr _ c => csrListed c
  | .csrw _ _ c => csrListed c && decide (c.extractLsb' 10 2 ≠ 3#2)
  | .csrs _ _ c => csrListed c && decide (c.extractLsb' 10 2 ≠ 3#2)
  | .csrc _ _ c => csrListed c && decide (c.extractLsb' 10 2 ≠ 3#2)
  | .trap _ => true
  | .eret => true
  | .spill => true
  | .fill _ => true
  | .halt => true
  | .tlbi _ _ => true
  | .latinv => true
  | .isync => true
  | .lds _ _ z x _ => !(decide (x = 1#1) && decide (z = 3#2))
  | .sts _ _ _ _ => true
  | .lda _ _ _ => true
  | .sta _ _ _ => true
  | .ldf _ _ _ => true
  | .ste _ _ _ => true
  | .ldft _ _ _ => true
  | .feset _ _ s => decide (s.toNat ≤ 1)
  | .adda _ _ _ => true
  | .suba _ _ _ => true
  | .addai _ _ _ => true
  | .shlai _ _ _ => true
  | .mulai _ _ _ => true
  | .andai _ _ _ => true
  | .movsa _ _ => true
  | .movas _ _ => true
  | .vld q _ _ _ _ => inputFlume q
  | .vldp q _ _ _ _ => inputFlume q
  | .vst q _ _ _ _ => outputFlume q
  | .vstp q _ _ _ => outputFlume q
  | .vldx q _ _ i => inputFlume q && outputFlume i
  | .vstx q _ _ i => outputFlume q && outputFlume i && decide (q ≠ i)
  | .vldc q _ _ _ _ => inputFlume q
  | .pref _ _ _ _ => true
  | .strdef _ _ => true
  | .strgo _ _ _ => true
  | .strstop _ _ => true
  | .strsink _ _ _ => true
  | .sbar c _ _ => scopeOk c
  | .bind _ _ => true
  | .unbind _ => true
  | .qstat _ _ => true
  | .aadd _ _ _ t => decide (t.toNat < 6)
  | .amin _ _ _ t => decide (t.toNat < 6)
  | .amax _ _ _ t => decide (t.toNat < 6)
  | .aand _ _ _ t => decide (t = 0#3 ∨ t = 1#3 ∨ t = 3#3 ∨ t = 4#3)
  | .aor _ _ _ t => decide (t = 0#3 ∨ t = 1#3 ∨ t = 3#3 ∨ t = 4#3)
  | .axor _ _ _ t => decide (t = 0#3 ∨ t = 1#3 ∨ t = 3#3 ∨ t = 4#3)
  | .aswap d _ c t => decide (t ≠ 7#3) && (decide (t ≠ 6#3) || (evenReg d && evenReg c))
  | .acas d _ c e t => decide (t ≠ 7#3) && (decide (t ≠ 6#3) || (evenReg d && evenReg c && evenReg e))
  | .acont _ _ _ e t => decide (t.toNat < 6) && decide (e.toNat ≤ 30)
  | .wapp _ _ q v => outputFlume q && decide (v.toNat ≤ 1)
  | .fence c m => scopeOk c && decide (m ≠ 3#2)
  | .fencesc => true
  | .rcfence => true
  | .ownwait _ _ => true
  | .vadd _ _ _ _ => true
  | .vsub _ _ _ _ => true
  | .vmul _ _ _ _ => true
  | .vfma _ _ _ _ => true
  | .vfms _ _ _ _ => true
  | .vfnma _ _ _ _ => true
  | .vmin _ _ _ _ => true
  | .vmax _ _ _ _ => true
  | .vabs _ _ _ => true
  | .vneg _ _ _ => true
  | .vdiv _ _ _ _ => true
  | .vsqrt _ _ _ => true
  | .vrcp _ _ _ => true
  | .vrsq _ _ _ => true
  | .vexp2 _ _ _ => true
  | .vlog2 _ _ _ => true
  | .vsin _ _ _ => true
  | .vcos _ _ _ => true
  | .vtanh _ _ _ => true
  | .vconj _ _ _ => true
  | .vcmulj _ _ _ _ => true
  | .vand _ _ _ _ => true
  | .vor _ _ _ _ => true
  | .vxor _ _ _ _ => true
  | .vnot _ _ _ => true
  | .vshl _ _ _ _ => true
  | .vshr _ _ _ _ => true
  | .vclz _ _ _ => true
  | .vpopc _ _ _ => true
  | .vcmp _ _ _ _ _ => true
  | .vsel _ _ _ _ => true
  | .pand _ _ _ => true
  | .por _ _ _ => true
  | .pxor _ _ _ => true
  | .pnot _ _ => true
  | .ptail _ _ => true
  | .pcnt _ _ _ => true
  | .pfirst _ _ _ => true
  | .vcvt _ _ f r _ _ => decide (f.toNat < 0x16) && decide (r ≠ 5#3 ∧ r ≠ 6#3)
  | .vcvth _ _ f _ _ => decide (f.toNat < 0x16)
  | .vscale _ _ _ _ => true
  | .vqnt _ _ f r _ _ => decide (f.toNat < 0x16) && decide (r ≠ 5#3 ∧ r ≠ 6#3)
  | .vtag _ _ _ => true
  | .vtagq _ => true
  | .vred _ _ i _ => decide (i.toNat ≤ 5)
  | .vscan _ _ i _ => decide (i.toNat ≤ 5)
  | .vperm _ _ _ _ => true
  | .vrgath _ a _ _ => decide (a.toNat % 8 = 0 ∧ a.toNat ≤ 48)
  | .vslide _ _ _ _ => true
  | .vbcast _ f _ _ => decide (f.toNat < 0x16 ∧ f ≠ 0x14#5)
  | .viota _ _ => true
  | .vmov _ _ _ => true
  | .vpart _ _ _ _ => true
  | .vappend _ _ _ => true
  | .vtget _ _ t _ => decide (t ≠ 0#2)
  | .vtset _ _ t _ => decide (t ≠ 0#2)
  | .vtzero _ _ _ => true
  | .vbq m _ _ => decide (m.toNat ≤ 2)
  | .mcfg _ _ => true
  | .mma _ _ _ _ _ => true
  | .mxv _ _ _ _ _ => true
  | .mldc _ _ _ _ _ => true
  | .mzero _ _ _ _ => true
  | .mdrain _ _ _ _ _ => true
  | .cpy _ _ _ _ _ => true
  | .cpyz _ _ _ _ _ => true
  | .cpyb _ _ _ _ => true
  | .cpyq _ _ _ => true
  | .cpycan _ _ _ => true
  | .dual n => decide (n ≠ 0#2)
  | .tkn _ _ => true
  | .ext _ => true
  | .seqf l => levelOk l
  | .seql l => levelOk l
  | .seqAdvance => true
  | .generatorStep _ => true
  | .sinkStep _ => true
  | .commandComplete _ => true
  | .copyLineLanded _ => true
  | .trapTaken => true
  | .waittimeout => true
  | .heartbeatTick => true
  | .gbarComplete => true
  | .gangPreemptEvent => true
  | .launchQueueDrain slice => decide (slice < 512)
  | .deferredLaunchApply => true
  | .admitJob die => decide (die < 4)
  | .dispatch => true
  | .gangReserve die => decide (die < 4)
  | .eventRelease die _ _ => decide (die < 4)
  | .spillwayReenter die _ => decide (die < 4)
  | .vfPeriodEnd => true
  | .queueAge queue => decide (queue < 4096)
  | .weirGrant => true
  | .migrationEpoch => true
  | .migratePage => true
  | .blockWriteback _ => true
  | .noriaRecodeLine die => decide (die < 4)
  | .selfTest _ => true
  | .culvertRemap core => decide (core < 1024)
  | .errorDetected _ => true
  | .moduleReset => true
  | .netAck _ => true
  | .netqFail qp _ => decide (qp < 1024)
  | .incomingRdma r => decide (r.qp < 1024)
  | .cxlMemRequest r => decide (r.pa % 128 = 0)
  | .dataWrite fn _ _ => decide (fn < 33)
  | .dataRead fn _ _ => decide (fn < 33)
  | .registerWrite fn _ _ => decide (fn < 33)
  | .jobcreate fn _ => decide (fn < 33)
  | .jobstop fn _ => decide (fn < 33)
  | .jobdestroy fn _ => decide (fn < 33)
  | .qcreate fn _ => decide (fn < 33)
  | .qdestroy fn _ => decide (fn < 33)
  | .qpush fn _ => decide (fn < 33)
  | .spilladd fn _ => decide (fn < 33)
  | .evhostSet fn _ => decide (fn < 33)
  | .evhostClear fn _ => decide (fn < 33)
  | .rqset fn _ => decide (fn < 33)
  | .vfslice fn _ => decide (fn < 33)
  | .speedset fn _ => decide (fn < 33)
  | .ptecas fn _ => decide (fn < 33)
  | .inval fn _ => decide (fn < 33)
  | .clean fn _ => decide (fn < 33)
  | .migcfg fn _ => decide (fn < 33)
  | .migfree fn _ => decide (fn < 33)
  | .compset fn _ => decide (fn < 33)
  | .ovfset fn _ => decide (fn < 33)
  | .ovfadd fn _ => decide (fn < 33)
  | .norset fn _ => decide (fn < 33)
  | .norpush fn _ => decide (fn < 33)
  | .srslice fn _ => decide (fn < 33)
  | .keyjob fn _ => decide (fn < 33)
  | .cxlrange fn _ => decide (fn < 33)
  | .load fn _ => decide (fn < 33)
  | .preempt fn _ => decide (fn < 33)
  | .tagset fn _ => decide (fn < 33)
  | .tagget fn _ => decide (fn < 33)
  | .featset fn _ => decide (fn < 33)
  | .keysetStage fn _ => decide (fn < 33)
  | .keysetInstall fn _ => decide (fn < 33)
  | .vkeysetStage fn _ => decide (fn < 33)
  | .vkeysetInstall fn _ => decide (fn < 33)
  | .svninc fn _ => decide (fn < 33)
  | .intmap fn _ => decide (fn < 33)
  | .netqpCreate fn _ => decide (fn < 33)
  | .netqpDestroy fn _ => decide (fn < 33)
  | .fwstage fn _ => decide (fn < 33)
  | .longCommandDone fn => decide (fn < 33)
  | .telread fn _ => decide (fn < 33)
  | .pwrcap fn _ => decide (fn < 33)
  | .illegalWord _ => true
  | .accessApplied => true
  | .shapeRecordCacheEviction _ => true

end Sys2Proof
end

