-- ==== Sys2Proof/Decode.lean ====
section
/-! DEFINITION. Decoding a 32-bit word (R68 to R73, R78), total, rejecting by name; and encoding an instruction from the
same encoding tables. -/

namespace Sys2Proof

/-- Why a word is no instruction (R78). -/
inductive Reject where
  /-- ENG is 0b111. -/
  | engine
  /-- ENG and OP name an unassigned cell of R73. -/
  | opcode
  /-- A reserved field is not zero, or a fixed field differs. -/
  | fields
  /-- A field value that the formats or the word's entry name as ILLEGAL. -/
  | value
  deriving DecidableEq, Repr

/-- Bits [lo+len-1:lo] of a word. -/
abbrev fld (w : IWord) (lo len : Nat) : BitVec len := w.extractLsb' lo len

/-- The words of engine C: what the fields say once ENG is known, by OP (R73). -/
def decodeC (op : BitVec 6) (w : IWord) : Except Reject Instr :=
  if op = 1 then 
    if fld w 0 8 = 0#8 then .ok (.add (fld w 18 5) (fld w 13 5) (fld w 8 5)) else
    .error .fields
  else if op = 2 then 
    if fld w 0 8 = 0#8 then .ok (.sub (fld w 18 5) (fld w 13 5) (fld w 8 5)) else
    .error .fields
  else if op = 3 then 
    if fld w 0 8 = 0#8 then .ok (.mul (fld w 18 5) (fld w 13 5) (fld w 8 5)) else
    .error .fields
  else if op = 4 then 
    if fld w 0 8 = 0#8 then .ok (.mulh (fld w 18 5) (fld w 13 5) (fld w 8 5)) else
    .error .fields
  else if op = 5 then 
    if fld w 0 8 = 0#8 then .ok (.mulhu (fld w 18 5) (fld w 13 5) (fld w 8 5)) else
    .error .fields
  else if op = 6 then 
    if fld w 0 8 = 0#8 then .ok (.div (fld w 18 5) (fld w 13 5) (fld w 8 5)) else
    .error .fields
  else if op = 7 then 
    if fld w 0 8 = 0#8 then .ok (.divu (fld w 18 5) (fld w 13 5) (fld w 8 5)) else
    .error .fields
  else if op = 8 then 
    if fld w 0 8 = 0#8 then .ok (.rem (fld w 18 5) (fld w 13 5) (fld w 8 5)) else
    .error .fields
  else if op = 9 then 
    if fld w 0 8 = 0#8 then .ok (.remu (fld w 18 5) (fld w 13 5) (fld w 8 5)) else
    .error .fields
  else if op = 10 then 
    if fld w 0 8 = 0#8 then .ok (.and (fld w 18 5) (fld w 13 5) (fld w 8 5)) else
    .error .fields
  else if op = 11 then 
    if fld w 0 8 = 0#8 then .ok (.or (fld w 18 5) (fld w 13 5) (fld w 8 5)) else
    .error .fields
  else if op = 12 then 
    if fld w 0 8 = 0#8 then .ok (.xor (fld w 18 5) (fld w 13 5) (fld w 8 5)) else
    .error .fields
  else if op = 13 then 
    if fld w 0 8 = 0#8 then .ok (.shl (fld w 18 5) (fld w 13 5) (fld w 8 5)) else
    .error .fields
  else if op = 14 then 
    if fld w 0 8 = 0#8 then .ok (.shrl (fld w 18 5) (fld w 13 5) (fld w 8 5)) else
    .error .fields
  else if op = 15 then 
    if fld w 0 8 = 0#8 then .ok (.shra (fld w 18 5) (fld w 13 5) (fld w 8 5)) else
    .error .fields
  else if op = 16 then 
    if fld w 0 8 = 0#8 then .ok (.slt (fld w 18 5) (fld w 13 5) (fld w 8 5)) else
    .error .fields
  else if op = 17 then 
    if fld w 0 8 = 0#8 then .ok (.sltu (fld w 18 5) (fld w 13 5) (fld w 8 5)) else
    .error .fields
  else if op = 18 then 
    if fld w 0 8 = 0#8 then .ok (.min (fld w 18 5) (fld w 13 5) (fld w 8 5)) else
    .error .fields
  else if op = 19 then 
    if fld w 0 8 = 0#8 then .ok (.max (fld w 18 5) (fld w 13 5) (fld w 8 5)) else
    .error .fields
  else if op = 20 then 
    if fld w 0 8 = 0#8 then .ok (.minu (fld w 18 5) (fld w 13 5) (fld w 8 5)) else
    .error .fields
  else if op = 21 then 
    if fld w 0 8 = 0#8 then .ok (.maxu (fld w 18 5) (fld w 13 5) (fld w 8 5)) else
    .error .fields
  else if op = 22 then 
    if fld w 0 13 = 0#13 then .ok (.clz (fld w 18 5) (fld w 13 5)) else
    .error .fields
  else if op = 23 then 
    if fld w 0 13 = 0#13 then .ok (.ctz (fld w 18 5) (fld w 13 5)) else
    .error .fields
  else if op = 24 then 
    if fld w 0 13 = 0#13 then .ok (.popc (fld w 18 5) (fld w 13 5)) else
    .error .fields
  else if op = 25 then 
    if fld w 0 1 = 0#1 then .ok (.bfx (fld w 18 5) (fld w 13 5) (fld w 7 6) (fld w 1 6)) else
    .error .fields
  else if op = 26 then 
    if fld w 0 1 = 0#1 then .ok (.bfxs (fld w 18 5) (fld w 13 5) (fld w 7 6) (fld w 1 6)) else
    .error .fields
  else if op = 27 then 
    if fld w 0 1 = 0#1 then .ok (.bfi (fld w 18 5) (fld w 13 5) (fld w 7 6) (fld w 1 6)) else
    .error .fields
  else if op = 28 then 
    if fld w 0 3 = 0#3 then .ok (.fshl (fld w 18 5) (fld w 13 5) (fld w 8 5) (fld w 3 5)) else
    .error .fields
  else if op = 29 then 
    if fld w 0 3 = 0#3 then .ok (.fshr (fld w 18 5) (fld w 13 5) (fld w 8 5) (fld w 3 5)) else
    .error .fields
  else if op = 30 then 
    if fld w 0 3 = 0#3 then .ok (.sel (fld w 18 5) (fld w 13 5) (fld w 8 5) (fld w 3 5)) else
    .error .fields
  else if op = 32 then 
    .ok (.addi (fld w 18 5) (fld w 13 5) (fld w 0 13))
  else if op = 33 then 
    .ok (.andi (fld w 18 5) (fld w 13 5) (fld w 0 13))
  else if op = 34 then 
    .ok (.ori (fld w 18 5) (fld w 13 5) (fld w 0 13))
  else if op = 35 then 
    .ok (.xori (fld w 18 5) (fld w 13 5) (fld w 0 13))
  else if op = 36 then 
    if fld w 6 7 = 0#7 then .ok (.shli (fld w 18 5) (fld w 13 5) (fld w 0 6)) else
    .error .fields
  else if op = 37 then 
    if fld w 6 7 = 0#7 then .ok (.shrli (fld w 18 5) (fld w 13 5) (fld w 0 6)) else
    .error .fields
  else if op = 38 then 
    if fld w 6 7 = 0#7 then .ok (.shrai (fld w 18 5) (fld w 13 5) (fld w 0 6)) else
    .error .fields
  else if op = 39 then 
    .ok (.slti (fld w 18 5) (fld w 13 5) (fld w 0 13))
  else if op = 40 then 
    .ok (.lui (fld w 18 5) (fld w 0 18))
  else if op = 41 then 
    .ok (.auipc (fld w 18 5) (fld w 0 18))
  else if op = 48 then 
    .ok (.beq (fld w 18 5) (fld w 13 5) (fld w 0 13))
  else if op = 49 then 
    .ok (.bne (fld w 18 5) (fld w 13 5) (fld w 0 13))
  else if op = 50 then 
    .ok (.blt (fld w 18 5) (fld w 13 5) (fld w 0 13))
  else if op = 51 then 
    .ok (.bge (fld w 18 5) (fld w 13 5) (fld w 0 13))
  else if op = 52 then 
    .ok (.bltu (fld w 18 5) (fld w 13 5) (fld w 0 13))
  else if op = 53 then 
    .ok (.bgeu (fld w 18 5) (fld w 13 5) (fld w 0 13))
  else if op = 54 then 
    .ok (.jmp (fld w 0 23))
  else if op = 55 then 
    .ok (.jal (fld w 18 5) (fld w 0 18))
  else if op = 56 then 
    if fld w 0 13 = 0#13 ∧ fld w 18 5 = 0#5 then .ok (.jr (fld w 13 5)) else
    .error .fields
  else if op = 57 then 
    .ok (.jalr (fld w 18 5) (fld w 13 5) (fld w 0 13))
  else if op = 58 then 
    if fld w 0 9 = 0#9 then .ok (.callt (fld w 18 5) (fld w 9 9)) else
    .error .fields
  else if op = 59 then 
    if fld w 0 23 = 0#23 then .ok (.ret) else
    .error .fields
  else if op = 60 then 
    .ok (.bqt (fld w 0 23))
  else if op = 61 then 
    .ok (.bqf (fld w 0 23))
  else if op = 62 then 
    if fld w 0 18 = 0#18 then .ok (.bqpop (fld w 18 5)) else
    .error .fields
  else if op = 63 then 
    if fld w 0 23 = 0#23 then .ok (.nop) else
    .error .fields
  else .error .opcode

/-- The words of engine A: what the fields say once ENG is known, by OP (R73). -/
def decodeA (op : BitVec 6) (w : IWord) : Except Reject Instr :=
  if op = 1 then 
    .ok (.lds (fld w 18 5) (fld w 13 5) (fld w 11 2) (fld w 10 1) (fld w 0 10))
  else if op = 2 then 
    if fld w 10 1 = 0#1 then .ok (.sts (fld w 18 5) (fld w 13 5) (fld w 11 2) (fld w 0 10)) else
    .error .fields
  else if op = 3 then 
    if fld w 10 3 = 6#3 then .ok (.lda (fld w 18 5) (fld w 13 5) (fld w 0 10)) else
    .error .fields
  else if op = 4 then 
    if fld w 10 3 = 6#3 then .ok (.sta (fld w 18 5) (fld w 13 5) (fld w 0 10)) else
    .error .fields
  else if op = 5 then 
    if fld w 10 3 = 6#3 then .ok (.ldf (fld w 18 5) (fld w 13 5) (fld w 0 10)) else
    .error .fields
  else if op = 6 then 
    if fld w 10 3 = 6#3 then .ok (.ste (fld w 18 5) (fld w 13 5) (fld w 0 10)) else
    .error .fields
  else if op = 7 then 
    if fld w 10 3 = 6#3 then .ok (.ldft (fld w 18 5) (fld w 13 5) (fld w 0 10)) else
    .error .fields
  else if op = 8 then 
    if fld w 0 3 = 0#3 ∧ fld w 18 5 = 0#5 then .ok (.feset (fld w 13 5) (fld w 8 5) (fld w 3 5)) else
    .error .fields
  else if op = 9 then 
    if fld w 0 8 = 0#8 then .ok (.adda (fld w 18 5) (fld w 13 5) (fld w 8 5)) else
    .error .fields
  else if op = 10 then 
    if fld w 0 8 = 0#8 then .ok (.suba (fld w 18 5) (fld w 13 5) (fld w 8 5)) else
    .error .fields
  else if op = 11 then 
    .ok (.addai (fld w 18 5) (fld w 13 5) (fld w 0 13))
  else if op = 12 then 
    if fld w 6 7 = 0#7 then .ok (.shlai (fld w 18 5) (fld w 13 5) (fld w 0 6)) else
    .error .fields
  else if op = 13 then 
    .ok (.mulai (fld w 18 5) (fld w 13 5) (fld w 0 13))
  else if op = 14 then 
    .ok (.andai (fld w 18 5) (fld w 13 5) (fld w 0 13))
  else if op = 15 then 
    if fld w 0 13 = 0#13 then .ok (.movsa (fld w 18 5) (fld w 13 5)) else
    .error .fields
  else if op = 16 then 
    if fld w 0 13 = 0#13 then .ok (.movas (fld w 18 5) (fld w 13 5)) else
    .error .fields
  else if op = 17 then 
    .ok (.vld (fld w 20 3) (fld w 15 5) (fld w 11 4) (fld w 8 3) (fld w 0 8))
  else if op = 18 then 
    .ok (.vldp (fld w 20 3) (fld w 15 5) (fld w 11 4) (fld w 8 3) (fld w 0 8))
  else if op = 19 then 
    .ok (.vst (fld w 20 3) (fld w 15 5) (fld w 11 4) (fld w 8 3) (fld w 0 8))
  else if op = 20 then 
    if fld w 8 3 = 0#3 then .ok (.vstp (fld w 20 3) (fld w 15 5) (fld w 11 4) (fld w 0 8)) else
    .error .fields
  else if op = 21 then 
    if fld w 0 8 = 0#8 then .ok (.vldx (fld w 20 3) (fld w 15 5) (fld w 11 4) (fld w 8 3)) else
    .error .fields
  else if op = 22 then 
    if fld w 0 8 = 0#8 then .ok (.vstx (fld w 20 3) (fld w 15 5) (fld w 11 4) (fld w 8 3)) else
    .error .fields
  else if op = 23 then 
    .ok (.vldc (fld w 20 3) (fld w 15 5) (fld w 11 4) (fld w 8 3) (fld w 0 8))
  else if op = 24 then 
    if fld w 8 3 = 0#3 then .ok (.pref (fld w 20 3) (fld w 15 5) (fld w 11 4) (fld w 0 8)) else
    .error .fields
  else if op = 25 then 
    if fld w 0 14 = 0#14 then .ok (.strdef (fld w 19 4) (fld w 14 5)) else
    .error .fields
  else if op = 26 then 
    if fld w 0 9 = 0#9 then .ok (.strgo (fld w 19 4) (fld w 14 5) (fld w 9 5)) else
    .error .fields
  else if op = 27 then 
    if fld w 0 9 = 0#9 ∧ fld w 14 5 = 0#5 then .ok (.strstop (fld w 19 4) (fld w 9 5)) else
    .error .fields
  else if op = 28 then 
    if fld w 0 9 = 0#9 then .ok (.strsink (fld w 19 4) (fld w 14 5) (fld w 9 5)) else
    .error .fields
  else if op = 29 then 
    if fld w 0 8 = 0#8 ∧ fld w 18 2 = 0#2 then .ok (.sbar (fld w 20 3) (fld w 13 5) (fld w 8 5)) else
    .error .fields
  else if op = 30 then 
    if fld w 0 7 = 0#7 ∧ fld w 13 10 = 0#10 then .ok (.bind (fld w 10 3) (fld w 7 3)) else
    .error .fields
  else if op = 31 then 
    if fld w 0 7 = 0#7 ∧ fld w 10 13 = 0#13 then .ok (.unbind (fld w 7 3)) else
    .error .fields
  else if op = 32 then 
    if fld w 0 10 = 0#10 ∧ fld w 13 5 = 0#5 then .ok (.qstat (fld w 18 5) (fld w 10 3)) else
    .error .fields
  else if op = 33 then 
    if fld w 3 5 = 0#5 then .ok (.aadd (fld w 18 5) (fld w 13 5) (fld w 8 5) (fld w 0 3)) else
    .error .fields
  else if op = 34 then 
    if fld w 3 5 = 0#5 then .ok (.amin (fld w 18 5) (fld w 13 5) (fld w 8 5) (fld w 0 3)) else
    .error .fields
  else if op = 35 then 
    if fld w 3 5 = 0#5 then .ok (.amax (fld w 18 5) (fld w 13 5) (fld w 8 5) (fld w 0 3)) else
    .error .fields
  else if op = 36 then 
    if fld w 3 5 = 0#5 then .ok (.aand (fld w 18 5) (fld w 13 5) (fld w 8 5) (fld w 0 3)) else
    .error .fields
  else if op = 37 then 
    if fld w 3 5 = 0#5 then .ok (.aor (fld w 18 5) (fld w 13 5) (fld w 8 5) (fld w 0 3)) else
    .error .fields
  else if op = 38 then 
    if fld w 3 5 = 0#5 then .ok (.axor (fld w 18 5) (fld w 13 5) (fld w 8 5) (fld w 0 3)) else
    .error .fields
  else if op = 39 then 
    if fld w 3 5 = 0#5 then .ok (.aswap (fld w 18 5) (fld w 13 5) (fld w 8 5) (fld w 0 3)) else
    .error .fields
  else if op = 40 then 
    .ok (.acas (fld w 18 5) (fld w 13 5) (fld w 8 5) (fld w 3 5) (fld w 0 3))
  else if op = 41 then 
    .ok (.acont (fld w 18 5) (fld w 13 5) (fld w 8 5) (fld w 3 5) (fld w 0 3))
  else if op = 42 then 
    if fld w 0 7 = 0#7 then .ok (.wapp (fld w 18 5) (fld w 13 5) (fld w 10 3) (fld w 7 3)) else
    .error .fields
  else if op = 43 then 
    if fld w 0 18 = 0#18 then .ok (.fence (fld w 20 3) (fld w 18 2)) else
    .error .fields
  else if op = 44 then 
    if fld w 0 23 = 0#23 then .ok (.fencesc) else
    .error .fields
  else if op = 45 then 
    if fld w 0 23 = 0#23 then .ok (.rcfence) else
    .error .fields
  else if op = 46 then 
    if fld w 0 8 = 0#8 ∧ fld w 18 5 = 0#5 then .ok (.ownwait (fld w 13 5) (fld w 8 5)) else
    .error .fields
  else .error .opcode

/-- The words of engine X: what the fields say once ENG is known, by OP (R73). -/
def decodeX (op : BitVec 6) (w : IWord) : Except Reject Instr :=
  if op = 1 then 
    .ok (.vadd (fld w 17 6) (fld w 11 6) (fld w 5 6) (fld w 0 5))
  else if op = 2 then 
    .ok (.vsub (fld w 17 6) (fld w 11 6) (fld w 5 6) (fld w 0 5))
  else if op = 3 then 
    .ok (.vmul (fld w 17 6) (fld w 11 6) (fld w 5 6) (fld w 0 5))
  else if op = 4 then 
    .ok (.vfma (fld w 17 6) (fld w 11 6) (fld w 5 6) (fld w 0 5))
  else if op = 5 then 
    .ok (.vfms (fld w 17 6) (fld w 11 6) (fld w 5 6) (fld w 0 5))
  else if op = 6 then 
    .ok (.vfnma (fld w 17 6) (fld w 11 6) (fld w 5 6) (fld w 0 5))
  else if op = 7 then 
    .ok (.vmin (fld w 17 6) (fld w 11 6) (fld w 5 6) (fld w 0 5))
  else if op = 8 then 
    .ok (.vmax (fld w 17 6) (fld w 11 6) (fld w 5 6) (fld w 0 5))
  else if op = 9 then 
    if fld w 5 6 = 0#6 then .ok (.vabs (fld w 17 6) (fld w 11 6) (fld w 0 5)) else
    .error .fields
  else if op = 10 then 
    if fld w 5 6 = 0#6 then .ok (.vneg (fld w 17 6) (fld w 11 6) (fld w 0 5)) else
    .error .fields
  else if op = 11 then 
    .ok (.vdiv (fld w 17 6) (fld w 11 6) (fld w 5 6) (fld w 0 5))
  else if op = 12 then 
    if fld w 5 6 = 0#6 then .ok (.vsqrt (fld w 17 6) (fld w 11 6) (fld w 0 5)) else
    .error .fields
  else if op = 13 then 
    if fld w 5 6 = 0#6 then .ok (.vrcp (fld w 17 6) (fld w 11 6) (fld w 0 5)) else
    .error .fields
  else if op = 14 then 
    if fld w 5 6 = 0#6 then .ok (.vrsq (fld w 17 6) (fld w 11 6) (fld w 0 5)) else
    .error .fields
  else if op = 15 then 
    if fld w 5 6 = 0#6 then .ok (.vexp2 (fld w 17 6) (fld w 11 6) (fld w 0 5)) else
    .error .fields
  else if op = 16 then 
    if fld w 5 6 = 0#6 then .ok (.vlog2 (fld w 17 6) (fld w 11 6) (fld w 0 5)) else
    .error .fields
  else if op = 17 then 
    if fld w 5 6 = 0#6 then .ok (.vsin (fld w 17 6) (fld w 11 6) (fld w 0 5)) else
    .error .fields
  else if op = 18 then 
    if fld w 5 6 = 0#6 then .ok (.vcos (fld w 17 6) (fld w 11 6) (fld w 0 5)) else
    .error .fields
  else if op = 19 then 
    if fld w 5 6 = 0#6 then .ok (.vtanh (fld w 17 6) (fld w 11 6) (fld w 0 5)) else
    .error .fields
  else if op = 20 then 
    if fld w 5 6 = 0#6 then .ok (.vconj (fld w 17 6) (fld w 11 6) (fld w 0 5)) else
    .error .fields
  else if op = 21 then 
    .ok (.vcmulj (fld w 17 6) (fld w 11 6) (fld w 5 6) (fld w 0 5))
  else if op = 22 then 
    .ok (.vand (fld w 17 6) (fld w 11 6) (fld w 5 6) (fld w 0 5))
  else if op = 23 then 
    .ok (.vor (fld w 17 6) (fld w 11 6) (fld w 5 6) (fld w 0 5))
  else if op = 24 then 
    .ok (.vxor (fld w 17 6) (fld w 11 6) (fld w 5 6) (fld w 0 5))
  else if op = 25 then 
    if fld w 5 6 = 0#6 then .ok (.vnot (fld w 17 6) (fld w 11 6) (fld w 0 5)) else
    .error .fields
  else if op = 26 then 
    .ok (.vshl (fld w 17 6) (fld w 11 6) (fld w 5 6) (fld w 0 5))
  else if op = 27 then 
    .ok (.vshr (fld w 17 6) (fld w 11 6) (fld w 5 6) (fld w 0 5))
  else if op = 28 then 
    if fld w 5 6 = 0#6 then .ok (.vclz (fld w 17 6) (fld w 11 6) (fld w 0 5)) else
    .error .fields
  else if op = 29 then 
    if fld w 5 6 = 0#6 then .ok (.vpopc (fld w 17 6) (fld w 11 6) (fld w 0 5)) else
    .error .fields
  else if op = 30 then 
    .ok (.vcmp (fld w 20 3) (fld w 16 4) (fld w 10 6) (fld w 4 6) (fld w 0 4))
  else if op = 31 then 
    if fld w 4 1 = 0#1 then .ok (.vsel (fld w 17 6) (fld w 11 6) (fld w 5 6) (fld w 0 4)) else
    .error .fields
  else if op = 32 then 
    if fld w 0 11 = 0#11 then .ok (.pand (fld w 19 4) (fld w 15 4) (fld w 11 4)) else
    .error .fields
  else if op = 33 then 
    if fld w 0 11 = 0#11 then .ok (.por (fld w 19 4) (fld w 15 4) (fld w 11 4)) else
    .error .fields
  else if op = 34 then 
    if fld w 0 11 = 0#11 then .ok (.pxor (fld w 19 4) (fld w 15 4) (fld w 11 4)) else
    .error .fields
  else if op = 35 then 
    if fld w 0 15 = 0#15 then .ok (.pnot (fld w 19 4) (fld w 15 4)) else
    .error .fields
  else if op = 36 then 
    if fld w 0 6 = 0#6 ∧ fld w 11 8 = 0#8 then .ok (.ptail (fld w 19 4) (fld w 6 5)) else
    .error .fields
  else if op = 37 then 
    if fld w 0 11 = 0#11 then .ok (.pcnt (fld w 19 4) (fld w 15 4) (fld w 11 4)) else
    .error .fields
  else if op = 38 then 
    if fld w 0 11 = 0#11 then .ok (.pfirst (fld w 19 4) (fld w 15 4) (fld w 11 4)) else
    .error .fields
  else if op = 39 then 
    .ok (.vcvt (fld w 17 6) (fld w 11 6) (fld w 6 5) (fld w 3 3) (fld w 2 1) (fld w 0 2))
  else if op = 40 then 
    .ok (.vcvth (fld w 17 6) (fld w 11 6) (fld w 6 5) (fld w 5 1) (fld w 0 5))
  else if op = 41 then 
    if fld w 10 1 = 0#1 then .ok (.vscale (fld w 17 6) (fld w 11 6) (fld w 5 5) (fld w 0 5)) else
    .error .fields
  else if op = 42 then 
    .ok (.vqnt (fld w 17 6) (fld w 11 6) (fld w 6 5) (fld w 3 3) (fld w 2 1) (fld w 0 2))
  else if op = 43 then 
    if fld w 0 5 = 0#5 ∧ fld w 10 1 = 0#1 then .ok (.vtag (fld w 17 6) (fld w 11 6) (fld w 5 5)) else
    .error .fields
  else if op = 44 then 
    if fld w 0 11 = 0#11 ∧ fld w 17 6 = 0#6 then .ok (.vtagq (fld w 11 6)) else
    .error .fields
  else if op = 45 then 
    if fld w 4 1 = 0#1 then .ok (.vred (fld w 17 6) (fld w 11 6) (fld w 5 6) (fld w 0 4)) else
    .error .fields
  else if op = 46 then 
    .ok (.vscan (fld w 17 6) (fld w 11 6) (fld w 5 6) (fld w 0 5))
  else if op = 47 then 
    .ok (.vperm (fld w 17 6) (fld w 11 6) (fld w 5 6) (fld w 0 5))
  else if op = 48 then 
    .ok (.vrgath (fld w 17 6) (fld w 11 6) (fld w 5 6) (fld w 0 5))
  else if op = 49 then 
    .ok (.vslide (fld w 17 6) (fld w 11 6) (fld w 5 6) (fld w 0 5))
  else if op = 50 then 
    if fld w 10 1 = 0#1 ∧ fld w 16 1 = 0#1 then .ok (.vbcast (fld w 17 6) (fld w 11 5) (fld w 5 5) (fld w 0 5)) else
    .error .fields
  else if op = 51 then 
    if fld w 4 13 = 0#13 then .ok (.viota (fld w 17 6) (fld w 0 4)) else
    .error .fields
  else if op = 52 then 
    if fld w 5 6 = 0#6 then .ok (.vmov (fld w 17 6) (fld w 11 6) (fld w 0 5)) else
    .error .fields
  else if op = 53 then 
    if fld w 4 1 = 0#1 then .ok (.vpart (fld w 17 6) (fld w 11 6) (fld w 5 6) (fld w 0 4)) else
    .error .fields
  else if op = 54 then 
    if fld w 4 7 = 0#7 then .ok (.vappend (fld w 17 6) (fld w 11 6) (fld w 0 4)) else
    .error .fields
  else if op = 55 then 
    if fld w 7 4 = 0#4 then .ok (.vtget (fld w 17 6) (fld w 11 6) (fld w 5 2) (fld w 0 5)) else
    .error .fields
  else if op = 56 then 
    if fld w 7 4 = 0#4 then .ok (.vtset (fld w 17 6) (fld w 11 6) (fld w 5 2) (fld w 0 5)) else
    .error .fields
  else if op = 57 then 
    if fld w 4 1 = 0#1 ∧ fld w 7 10 = 0#10 then .ok (.vtzero (fld w 17 6) (fld w 5 2) (fld w 0 4)) else
    .error .fields
  else if op = 58 then 
    if fld w 0 11 = 0#11 then .ok (.vbq (fld w 19 4) (fld w 15 4) (fld w 11 4)) else
    .error .fields
  else .error .opcode

/-- The words of engine M: what the fields say once ENG is known, by OP (R73). -/
def decodeM (op : BitVec 6) (w : IWord) : Except Reject Instr :=
  if op = 1 then 
    if fld w 10 13 = 0#13 then .ok (.mcfg (fld w 5 5) (fld w 0 5)) else
    .error .fields
  else if op = 2 then 
    .ok (.mma (fld w 19 4) (fld w 15 4) (fld w 10 5) (fld w 5 5) (fld w 0 5))
  else if op = 3 then 
    .ok (.mxv (fld w 19 4) (fld w 15 4) (fld w 10 5) (fld w 5 5) (fld w 0 5))
  else if op = 4 then 
    .ok (.mldc (fld w 19 4) (fld w 15 4) (fld w 10 5) (fld w 5 5) (fld w 0 5))
  else if op = 5 then 
    if fld w 0 5 = 0#5 then .ok (.mzero (fld w 19 4) (fld w 15 4) (fld w 10 5) (fld w 5 5)) else
    .error .fields
  else if op = 6 then 
    .ok (.mdrain (fld w 19 4) (fld w 15 4) (fld w 10 5) (fld w 5 5) (fld w 0 5))
  else .error .opcode

/-- The words of engine Y: what the fields say once ENG is known, by OP (R73). -/
def decodeY (op : BitVec 6) (w : IWord) : Except Reject Instr :=
  if op = 1 then 
    .ok (.cpy (fld w 19 4) (fld w 15 4) (fld w 10 5) (fld w 5 5) (fld w 0 5))
  else if op = 2 then 
    .ok (.cpyz (fld w 19 4) (fld w 15 4) (fld w 10 5) (fld w 5 5) (fld w 0 5))
  else if op = 3 then 
    if fld w 0 5 = 0#5 then .ok (.cpyb (fld w 19 4) (fld w 15 4) (fld w 10 5) (fld w 5 5)) else
    .error .fields
  else if op = 4 then 
    if fld w 0 10 = 0#10 then .ok (.cpyq (fld w 19 4) (fld w 15 4) (fld w 10 5)) else
    .error .fields
  else if op = 5 then 
    if fld w 0 10 = 0#10 then .ok (.cpycan (fld w 19 4) (fld w 15 4) (fld w 10 5)) else
    .error .fields
  else .error .opcode

/-- The words of engine Z: what the fields say once ENG is known, by OP (R73). -/
def decodeZ (op : BitVec 6) (w : IWord) : Except Reject Instr :=
  if op = 1 then 
    if fld w 1 14 = 0#14 then .ok (.seqlvl (fld w 20 3) (fld w 15 5) (fld w 0 1)) else
    if fld w 0 15 = 256#15 then .ok (.seqlvlGetShadow (fld w 20 3) (fld w 15 5)) else
    if fld w 0 15 = 512#15 then .ok (.seqlvlGetActive (fld w 20 3) (fld w 15 5)) else
    if fld w 0 15 = 768#15 then .ok (.seqlvlGetCounter (fld w 20 3) (fld w 15 5)) else
    .error .fields
  else if op = 2 then 
    if fld w 0 10 = 0#10 then .ok (.seqstr (fld w 20 3) (fld w 15 5) (fld w 10 5)) else
    if fld w 0 10 = 256#10 then .ok (.seqstrGetShadow (fld w 20 3) (fld w 15 5) (fld w 10 5)) else
    if fld w 0 10 = 512#10 then .ok (.seqstrGetActive (fld w 20 3) (fld w 15 5) (fld w 10 5)) else
    .error .fields
  else if op = 3 then 
    if fld w 10 13 = 0#13 then .ok (.seqcap (fld w 0 10)) else
    .error .fields
  else if op = 4 then 
    if fld w 0 23 = 0#23 then .ok (.seqgo) else
    .error .fields
  else if op = 5 then 
    if fld w 0 23 = 0#23 then .ok (.seqbrk) else
    .error .fields
  else if op = 6 then 
    if fld w 0 23 = 0#23 then .ok (.seqwait) else
    .error .fields
  else if op = 7 then 
    if fld w 10 13 = 0#13 then .ok (.rrbset (fld w 0 10)) else
    .error .fields
  else if op = 8 then 
    if fld w 0 8 = 0#8 then .ok (.spawn (fld w 18 5) (fld w 13 5) (fld w 8 5)) else
    .error .fields
  else if op = 9 then 
    if fld w 0 8 = 0#8 then .ok (.join (fld w 18 5) (fld w 13 5) (fld w 8 5)) else
    .error .fields
  else if op = 10 then 
    if fld w 0 23 = 0#23 then .ok (.exit) else
    .error .fields
  else if op = 11 then 
    .ok (.evset (fld w 18 5) (fld w 13 5) (fld w 0 13))
  else if op = 12 then 
    .ok (.evclr (fld w 18 5) (fld w 13 5) (fld w 0 13))
  else if op = 13 then 
    .ok (.evtest (fld w 18 5) (fld w 13 5) (fld w 0 13))
  else if op = 14 then 
    if fld w 0 3 = 0#3 ∧ fld w 8 5 = 0#5 then .ok (.tile (fld w 18 5) (fld w 13 5) (fld w 3 5)) else
    .error .fields
  else if op = 15 then 
    if fld w 0 3 = 0#3 ∧ fld w 8 5 = 0#5 then .ok (.tilenext (fld w 18 5) (fld w 13 5) (fld w 3 5)) else
    .error .fields
  else if op = 16 then 
    if fld w 0 23 = 0#23 then .ok (.gbar) else
    .error .fields
  else if op = 24 then 
    if fld w 12 6 = 0#6 then .ok (.csrr (fld w 18 5) (fld w 0 12)) else
    .error .fields
  else if op = 25 then 
    if fld w 12 1 = 0#1 then .ok (.csrw (fld w 18 5) (fld w 13 5) (fld w 0 12)) else
    .error .fields
  else if op = 26 then 
    if fld w 12 1 = 0#1 then .ok (.csrs (fld w 18 5) (fld w 13 5) (fld w 0 12)) else
    .error .fields
  else if op = 27 then 
    if fld w 12 1 = 0#1 then .ok (.csrc (fld w 18 5) (fld w 13 5) (fld w 0 12)) else
    .error .fields
  else if op = 32 then 
    if fld w 18 5 = 0#5 then .ok (.trap (fld w 0 18)) else
    .error .fields
  else if op = 33 then 
    if fld w 0 23 = 0#23 then .ok (.eret) else
    .error .fields
  else if op = 34 then 
    if fld w 0 23 = 0#23 then .ok (.spill) else
    .error .fields
  else if op = 35 then 
    if fld w 0 13 = 0#13 ∧ fld w 18 5 = 0#5 then .ok (.fill (fld w 13 5)) else
    .error .fields
  else if op = 36 then 
    if fld w 0 23 = 0#23 then .ok (.halt) else
    .error .fields
  else if op = 37 then 
    if fld w 0 8 = 0#8 ∧ fld w 18 5 = 0#5 then .ok (.tlbi (fld w 13 5) (fld w 8 5)) else
    .error .fields
  else if op = 38 then 
    if fld w 0 23 = 0#23 then .ok (.latinv) else
    .error .fields
  else if op = 39 then 
    if fld w 0 23 = 0#23 then .ok (.isync) else
    .error .fields
  else .error .opcode

/-- The words of engine P: what the fields say once ENG is known, by OP (R73). -/
def decodeP (op : BitVec 6) (w : IWord) : Except Reject Instr :=
  if op = 1 then 
    if fld w 0 21 = 0#21 then .ok (.dual (fld w 21 2)) else
    .error .fields
  else if op = 2 then 
    if fld w 0 15 = 0#15 then .ok (.tkn (fld w 19 4) (fld w 15 4)) else
    .error .fields
  else if op = 3 then 
    .ok (.ext (fld w 0 23))
  else if op = 4 then 
    if fld w 0 20 = 0#20 then .ok (.seqf (fld w 20 3)) else
    .error .fields
  else if op = 5 then 
    if fld w 0 20 = 0#20 then .ok (.seql (fld w 20 3)) else
    .error .fields
  else .error .opcode

/-- The fields of a word by its engine (R68). -/
def decodeFields (w : IWord) : Except Reject Instr :=
  let op := fld w 23 6
  if fld w 29 3 = 0 then decodeC op w
  else if fld w 29 3 = 1 then decodeA op w
  else if fld w 29 3 = 2 then decodeX op w
  else if fld w 29 3 = 3 then decodeM op w
  else if fld w 29 3 = 4 then decodeY op w
  else if fld w 29 3 = 5 then decodeZ op w
  else if fld w 29 3 = 6 then decodeP op w
  else .error .engine

/-- The instruction a word encodes, or why it encodes none (R78). -/
def decode (w : IWord) : Except Reject Instr :=
  match decodeFields w with
  | .ok i => if i.wellFormed then .ok i else .error .value
  | .error e => .error e

/-- The decoder on the bytes of memory: four bytes, little-endian (R68). -/
def decodeBytes (b0 b1 b2 b3 : Byte) : Except Reject Instr := decode (b3 ++ b2 ++ b1 ++ b0)

/-- The word of an instruction; none for a row of the table that is an event or a command. -/
def encode : Instr → Option IWord
  | .add d a b => some (0#3 ++ 1#6 ++ d ++ a ++ b ++ 0#8)
  | .sub d a b => some (0#3 ++ 2#6 ++ d ++ a ++ b ++ 0#8)
  | .mul d a b => some (0#3 ++ 3#6 ++ d ++ a ++ b ++ 0#8)
  | .mulh d a b => some (0#3 ++ 4#6 ++ d ++ a ++ b ++ 0#8)
  | .mulhu d a b => some (0#3 ++ 5#6 ++ d ++ a ++ b ++ 0#8)
  | .div d a b => some (0#3 ++ 6#6 ++ d ++ a ++ b ++ 0#8)
  | .divu d a b => some (0#3 ++ 7#6 ++ d ++ a ++ b ++ 0#8)
  | .rem d a b => some (0#3 ++ 8#6 ++ d ++ a ++ b ++ 0#8)
  | .remu d a b => some (0#3 ++ 9#6 ++ d ++ a ++ b ++ 0#8)
  | .and d a b => some (0#3 ++ 10#6 ++ d ++ a ++ b ++ 0#8)
  | .or d a b => some (0#3 ++ 11#6 ++ d ++ a ++ b ++ 0#8)
  | .xor d a b => some (0#3 ++ 12#6 ++ d ++ a ++ b ++ 0#8)
  | .shl d a b => some (0#3 ++ 13#6 ++ d ++ a ++ b ++ 0#8)
  | .shrl d a b => some (0#3 ++ 14#6 ++ d ++ a ++ b ++ 0#8)
  | .shra d a b => some (0#3 ++ 15#6 ++ d ++ a ++ b ++ 0#8)
  | .slt d a b => some (0#3 ++ 16#6 ++ d ++ a ++ b ++ 0#8)
  | .sltu d a b => some (0#3 ++ 17#6 ++ d ++ a ++ b ++ 0#8)
  | .min d a b => some (0#3 ++ 18#6 ++ d ++ a ++ b ++ 0#8)
  | .max d a b => some (0#3 ++ 19#6 ++ d ++ a ++ b ++ 0#8)
  | .minu d a b => some (0#3 ++ 20#6 ++ d ++ a ++ b ++ 0#8)
  | .maxu d a b => some (0#3 ++ 21#6 ++ d ++ a ++ b ++ 0#8)
  | .clz d a => some (0#3 ++ 22#6 ++ d ++ a ++ 0#13)
  | .ctz d a => some (0#3 ++ 23#6 ++ d ++ a ++ 0#13)
  | .popc d a => some (0#3 ++ 24#6 ++ d ++ a ++ 0#13)
  | .bfx d a p l => some (0#3 ++ 25#6 ++ d ++ a ++ p ++ l ++ 0#1)
  | .bfxs d a p l => some (0#3 ++ 26#6 ++ d ++ a ++ p ++ l ++ 0#1)
  | .bfi d a p l => some (0#3 ++ 27#6 ++ d ++ a ++ p ++ l ++ 0#1)
  | .fshl d a b c => some (0#3 ++ 28#6 ++ d ++ a ++ b ++ c ++ 0#3)
  | .fshr d a b c => some (0#3 ++ 29#6 ++ d ++ a ++ b ++ c ++ 0#3)
  | .sel d a b c => some (0#3 ++ 30#6 ++ d ++ a ++ b ++ c ++ 0#3)
  | .addi d a i => some (0#3 ++ 32#6 ++ d ++ a ++ i)
  | .andi d a i => some (0#3 ++ 33#6 ++ d ++ a ++ i)
  | .ori d a i => some (0#3 ++ 34#6 ++ d ++ a ++ i)
  | .xori d a i => some (0#3 ++ 35#6 ++ d ++ a ++ i)
  | .shli d a s => some (0#3 ++ 36#6 ++ d ++ a ++ 0#7 ++ s)
  | .shrli d a s => some (0#3 ++ 37#6 ++ d ++ a ++ 0#7 ++ s)
  | .shrai d a s => some (0#3 ++ 38#6 ++ d ++ a ++ 0#7 ++ s)
  | .slti d a i => some (0#3 ++ 39#6 ++ d ++ a ++ i)
  | .lui d i => some (0#3 ++ 40#6 ++ d ++ i)
  | .auipc d i => some (0#3 ++ 41#6 ++ d ++ i)
  | .beq a b o => some (0#3 ++ 48#6 ++ a ++ b ++ o)
  | .bne a b o => some (0#3 ++ 49#6 ++ a ++ b ++ o)
  | .blt a b o => some (0#3 ++ 50#6 ++ a ++ b ++ o)
  | .bge a b o => some (0#3 ++ 51#6 ++ a ++ b ++ o)
  | .bltu a b o => some (0#3 ++ 52#6 ++ a ++ b ++ o)
  | .bgeu a b o => some (0#3 ++ 53#6 ++ a ++ b ++ o)
  | .jmp o => some (0#3 ++ 54#6 ++ o)
  | .jal d i => some (0#3 ++ 55#6 ++ d ++ i)
  | .jr a => some (0#3 ++ 56#6 ++ 0#5 ++ a ++ 0#13)
  | .jalr d a i => some (0#3 ++ 57#6 ++ d ++ a ++ i)
  | .callt a s => some (0#3 ++ 58#6 ++ a ++ s ++ 0#9)
  | .ret => some (0#3 ++ 59#6 ++ 0#23)
  | .bqt o => some (0#3 ++ 60#6 ++ o)
  | .bqf o => some (0#3 ++ 61#6 ++ o)
  | .bqpop d => some (0#3 ++ 62#6 ++ d ++ 0#18)
  | .nop => some (0#3 ++ 63#6 ++ 0#23)
  | .seqlvl l a r => some (5#3 ++ 1#6 ++ l ++ a ++ 0#14 ++ r)
  | .seqlvlGetShadow l a => some (5#3 ++ 1#6 ++ l ++ a ++ 256#15)
  | .seqlvlGetActive l a => some (5#3 ++ 1#6 ++ l ++ a ++ 512#15)
  | .seqlvlGetCounter l a => some (5#3 ++ 1#6 ++ l ++ a ++ 768#15)
  | .seqstr l a n => some (5#3 ++ 2#6 ++ l ++ a ++ n ++ 0#10)
  | .seqstrGetShadow l a n => some (5#3 ++ 2#6 ++ l ++ a ++ n ++ 256#10)
  | .seqstrGetActive l a n => some (5#3 ++ 2#6 ++ l ++ a ++ n ++ 512#10)
  | .seqcap n => some (5#3 ++ 3#6 ++ 0#13 ++ n)
  | .seqgo => some (5#3 ++ 4#6 ++ 0#23)
  | .seqbrk => some (5#3 ++ 5#6 ++ 0#23)
  | .seqwait => some (5#3 ++ 6#6 ++ 0#23)
  | .rrbset i => some (5#3 ++ 7#6 ++ 0#13 ++ i)
  | .spawn d a b => some (5#3 ++ 8#6 ++ d ++ a ++ b ++ 0#8)
  | .join d a b => some (5#3 ++ 9#6 ++ d ++ a ++ b ++ 0#8)
  | .exit => some (5#3 ++ 10#6 ++ 0#23)
  | .evset d a i => some (5#3 ++ 11#6 ++ d ++ a ++ i)
  | .evclr d a i => some (5#3 ++ 12#6 ++ d ++ a ++ i)
  | .evtest d a i => some (5#3 ++ 13#6 ++ d ++ a ++ i)
  | .tile d a c => some (5#3 ++ 14#6 ++ d ++ a ++ 0#5 ++ c ++ 0#3)
  | .tilenext d a c => some (5#3 ++ 15#6 ++ d ++ a ++ 0#5 ++ c ++ 0#3)
  | .gbar => some (5#3 ++ 16#6 ++ 0#23)
  | .csrr d c => some (5#3 ++ 24#6 ++ d ++ 0#6 ++ c)
  | .csrw d a c => some (5#3 ++ 25#6 ++ d ++ a ++ 0#1 ++ c)
  | .csrs d a c => some (5#3 ++ 26#6 ++ d ++ a ++ 0#1 ++ c)
  | .csrc d a c => some (5#3 ++ 27#6 ++ d ++ a ++ 0#1 ++ c)
  | .trap i => some (5#3 ++ 32#6 ++ 0#5 ++ i)
  | .eret => some (5#3 ++ 33#6 ++ 0#23)
  | .spill => some (5#3 ++ 34#6 ++ 0#23)
  | .fill a => some (5#3 ++ 35#6 ++ 0#5 ++ a ++ 0#13)
  | .halt => some (5#3 ++ 36#6 ++ 0#23)
  | .tlbi a b => some (5#3 ++ 37#6 ++ 0#5 ++ a ++ b ++ 0#8)
  | .latinv => some (5#3 ++ 38#6 ++ 0#23)
  | .isync => some (5#3 ++ 39#6 ++ 0#23)
  | .lds d b z x o => some (1#3 ++ 1#6 ++ d ++ b ++ z ++ x ++ o)
  | .sts d b z o => some (1#3 ++ 2#6 ++ d ++ b ++ z ++ 0#1 ++ o)
  | .lda d b o => some (1#3 ++ 3#6 ++ d ++ b ++ 6#3 ++ o)
  | .sta d b o => some (1#3 ++ 4#6 ++ d ++ b ++ 6#3 ++ o)
  | .ldf d b o => some (1#3 ++ 5#6 ++ d ++ b ++ 6#3 ++ o)
  | .ste d b o => some (1#3 ++ 6#6 ++ d ++ b ++ 6#3 ++ o)
  | .ldft d b o => some (1#3 ++ 7#6 ++ d ++ b ++ 6#3 ++ o)
  | .feset a b s => some (1#3 ++ 8#6 ++ 0#5 ++ a ++ b ++ s ++ 0#3)
  | .adda d a b => some (1#3 ++ 9#6 ++ d ++ a ++ b ++ 0#8)
  | .suba d a b => some (1#3 ++ 10#6 ++ d ++ a ++ b ++ 0#8)
  | .addai d a i => some (1#3 ++ 11#6 ++ d ++ a ++ i)
  | .shlai d a s => some (1#3 ++ 12#6 ++ d ++ a ++ 0#7 ++ s)
  | .mulai d a i => some (1#3 ++ 13#6 ++ d ++ a ++ i)
  | .andai d a i => some (1#3 ++ 14#6 ++ d ++ a ++ i)
  | .movsa d a => some (1#3 ++ 15#6 ++ d ++ a ++ 0#13)
  | .movas d a => some (1#3 ++ 16#6 ++ d ++ a ++ 0#13)
  | .vld q b s e o => some (1#3 ++ 17#6 ++ q ++ b ++ s ++ e ++ o)
  | .vldp q b s e o => some (1#3 ++ 18#6 ++ q ++ b ++ s ++ e ++ o)
  | .vst q b s e o => some (1#3 ++ 19#6 ++ q ++ b ++ s ++ e ++ o)
  | .vstp q b s o => some (1#3 ++ 20#6 ++ q ++ b ++ s ++ 0#3 ++ o)
  | .vldx q b s i => some (1#3 ++ 21#6 ++ q ++ b ++ s ++ i ++ 0#8)
  | .vstx q b s i => some (1#3 ++ 22#6 ++ q ++ b ++ s ++ i ++ 0#8)
  | .vldc q b s e o => some (1#3 ++ 23#6 ++ q ++ b ++ s ++ e ++ o)
  | .pref n b s o => some (1#3 ++ 24#6 ++ n ++ b ++ s ++ 0#3 ++ o)
  | .strdef s b => some (1#3 ++ 25#6 ++ s ++ b ++ 0#14)
  | .strgo s b n => some (1#3 ++ 26#6 ++ s ++ b ++ n ++ 0#9)
  | .strstop s n => some (1#3 ++ 27#6 ++ s ++ 0#5 ++ n ++ 0#9)
  | .strsink s b n => some (1#3 ++ 28#6 ++ s ++ b ++ n ++ 0#9)
  | .sbar c a b => some (1#3 ++ 29#6 ++ c ++ 0#2 ++ a ++ b ++ 0#8)
  | .bind q v => some (1#3 ++ 30#6 ++ 0#10 ++ q ++ v ++ 0#7)
  | .unbind v => some (1#3 ++ 31#6 ++ 0#13 ++ v ++ 0#7)
  | .qstat d q => some (1#3 ++ 32#6 ++ d ++ 0#5 ++ q ++ 0#10)
  | .aadd d b c t => some (1#3 ++ 33#6 ++ d ++ b ++ c ++ 0#5 ++ t)
  | .amin d b c t => some (1#3 ++ 34#6 ++ d ++ b ++ c ++ 0#5 ++ t)
  | .amax d b c t => some (1#3 ++ 35#6 ++ d ++ b ++ c ++ 0#5 ++ t)
  | .aand d b c t => some (1#3 ++ 36#6 ++ d ++ b ++ c ++ 0#5 ++ t)
  | .aor d b c t => some (1#3 ++ 37#6 ++ d ++ b ++ c ++ 0#5 ++ t)
  | .axor d b c t => some (1#3 ++ 38#6 ++ d ++ b ++ c ++ 0#5 ++ t)
  | .aswap d b c t => some (1#3 ++ 39#6 ++ d ++ b ++ c ++ 0#5 ++ t)
  | .acas d b c e t => some (1#3 ++ 40#6 ++ d ++ b ++ c ++ e ++ t)
  | .acont d b c e t => some (1#3 ++ 41#6 ++ d ++ b ++ c ++ e ++ t)
  | .wapp d b q v => some (1#3 ++ 42#6 ++ d ++ b ++ q ++ v ++ 0#7)
  | .fence c m => some (1#3 ++ 43#6 ++ c ++ m ++ 0#18)
  | .fencesc => some (1#3 ++ 44#6 ++ 0#23)
  | .rcfence => some (1#3 ++ 45#6 ++ 0#23)
  | .ownwait a b => some (1#3 ++ 46#6 ++ 0#5 ++ a ++ b ++ 0#8)
  | .vadd d a b m => some (2#3 ++ 1#6 ++ d ++ a ++ b ++ m)
  | .vsub d a b m => some (2#3 ++ 2#6 ++ d ++ a ++ b ++ m)
  | .vmul d a b m => some (2#3 ++ 3#6 ++ d ++ a ++ b ++ m)
  | .vfma d a b m => some (2#3 ++ 4#6 ++ d ++ a ++ b ++ m)
  | .vfms d a b m => some (2#3 ++ 5#6 ++ d ++ a ++ b ++ m)
  | .vfnma d a b m => some (2#3 ++ 6#6 ++ d ++ a ++ b ++ m)
  | .vmin d a b m => some (2#3 ++ 7#6 ++ d ++ a ++ b ++ m)
  | .vmax d a b m => some (2#3 ++ 8#6 ++ d ++ a ++ b ++ m)
  | .vabs d a m => some (2#3 ++ 9#6 ++ d ++ a ++ 0#6 ++ m)
  | .vneg d a m => some (2#3 ++ 10#6 ++ d ++ a ++ 0#6 ++ m)
  | .vdiv d a b m => some (2#3 ++ 11#6 ++ d ++ a ++ b ++ m)
  | .vsqrt d a m => some (2#3 ++ 12#6 ++ d ++ a ++ 0#6 ++ m)
  | .vrcp d a m => some (2#3 ++ 13#6 ++ d ++ a ++ 0#6 ++ m)
  | .vrsq d a m => some (2#3 ++ 14#6 ++ d ++ a ++ 0#6 ++ m)
  | .vexp2 d a m => some (2#3 ++ 15#6 ++ d ++ a ++ 0#6 ++ m)
  | .vlog2 d a m => some (2#3 ++ 16#6 ++ d ++ a ++ 0#6 ++ m)
  | .vsin d a m => some (2#3 ++ 17#6 ++ d ++ a ++ 0#6 ++ m)
  | .vcos d a m => some (2#3 ++ 18#6 ++ d ++ a ++ 0#6 ++ m)
  | .vtanh d a m => some (2#3 ++ 19#6 ++ d ++ a ++ 0#6 ++ m)
  | .vconj d a m => some (2#3 ++ 20#6 ++ d ++ a ++ 0#6 ++ m)
  | .vcmulj d a b m => some (2#3 ++ 21#6 ++ d ++ a ++ b ++ m)
  | .vand d a b m => some (2#3 ++ 22#6 ++ d ++ a ++ b ++ m)
  | .vor d a b m => some (2#3 ++ 23#6 ++ d ++ a ++ b ++ m)
  | .vxor d a b m => some (2#3 ++ 24#6 ++ d ++ a ++ b ++ m)
  | .vnot d a m => some (2#3 ++ 25#6 ++ d ++ a ++ 0#6 ++ m)
  | .vshl d a b m => some (2#3 ++ 26#6 ++ d ++ a ++ b ++ m)
  | .vshr d a b m => some (2#3 ++ 27#6 ++ d ++ a ++ b ++ m)
  | .vclz d a m => some (2#3 ++ 28#6 ++ d ++ a ++ 0#6 ++ m)
  | .vpopc d a m => some (2#3 ++ 29#6 ++ d ++ a ++ 0#6 ++ m)
  | .vcmp c p a b g => some (2#3 ++ 30#6 ++ c ++ p ++ a ++ b ++ g)
  | .vsel d a b p => some (2#3 ++ 31#6 ++ d ++ a ++ b ++ 0#1 ++ p)
  | .pand d a b => some (2#3 ++ 32#6 ++ d ++ a ++ b ++ 0#11)
  | .por d a b => some (2#3 ++ 33#6 ++ d ++ a ++ b ++ 0#11)
  | .pxor d a b => some (2#3 ++ 34#6 ++ d ++ a ++ b ++ 0#11)
  | .pnot d a => some (2#3 ++ 35#6 ++ d ++ a ++ 0#15)
  | .ptail d s => some (2#3 ++ 36#6 ++ d ++ 0#8 ++ s ++ 0#6)
  | .pcnt d a b => some (2#3 ++ 37#6 ++ d ++ a ++ b ++ 0#11)
  | .pfirst d a b => some (2#3 ++ 38#6 ++ d ++ a ++ b ++ 0#11)
  | .vcvt d a f r n p => some (2#3 ++ 39#6 ++ d ++ a ++ f ++ r ++ n ++ p)
  | .vcvth d a f h m => some (2#3 ++ 40#6 ++ d ++ a ++ f ++ h ++ m)
  | .vscale d a s m => some (2#3 ++ 41#6 ++ d ++ a ++ 0#1 ++ s ++ m)
  | .vqnt d a f r n p => some (2#3 ++ 42#6 ++ d ++ a ++ f ++ r ++ n ++ p)
  | .vtag d a s => some (2#3 ++ 43#6 ++ d ++ a ++ 0#1 ++ s ++ 0#5)
  | .vtagq a => some (2#3 ++ 44#6 ++ 0#6 ++ a ++ 0#11)
  | .vred d a i p => some (2#3 ++ 45#6 ++ d ++ a ++ i ++ 0#1 ++ p)
  | .vscan d a i m => some (2#3 ++ 46#6 ++ d ++ a ++ i ++ m)
  | .vperm d a b m => some (2#3 ++ 47#6 ++ d ++ a ++ b ++ m)
  | .vrgath d a b m => some (2#3 ++ 48#6 ++ d ++ a ++ b ++ m)
  | .vslide d a k m => some (2#3 ++ 49#6 ++ d ++ a ++ k ++ m)
  | .vbcast d f s m => some (2#3 ++ 50#6 ++ d ++ 0#1 ++ f ++ 0#1 ++ s ++ m)
  | .viota d p => some (2#3 ++ 51#6 ++ d ++ 0#13 ++ p)
  | .vmov d a m => some (2#3 ++ 52#6 ++ d ++ a ++ 0#6 ++ m)
  | .vpart d a b p => some (2#3 ++ 53#6 ++ d ++ a ++ b ++ 0#1 ++ p)
  | .vappend d a p => some (2#3 ++ 54#6 ++ d ++ a ++ 0#7 ++ p)
  | .vtget d a t m => some (2#3 ++ 55#6 ++ d ++ a ++ 0#4 ++ t ++ m)
  | .vtset d a t m => some (2#3 ++ 56#6 ++ d ++ a ++ 0#4 ++ t ++ m)
  | .vtzero d t p => some (2#3 ++ 57#6 ++ d ++ 0#10 ++ t ++ 0#1 ++ p)
  | .vbq m a b => some (2#3 ++ 58#6 ++ m ++ a ++ b ++ 0#11)
  | .mcfg f g => some (3#3 ++ 1#6 ++ 0#13 ++ f ++ g)
  | .mma w r e f g => some (3#3 ++ 2#6 ++ w ++ r ++ e ++ f ++ g)
  | .mxv w r e f g => some (3#3 ++ 3#6 ++ w ++ r ++ e ++ f ++ g)
  | .mldc w r e f g => some (3#3 ++ 4#6 ++ w ++ r ++ e ++ f ++ g)
  | .mzero w r e f => some (3#3 ++ 5#6 ++ w ++ r ++ e ++ f ++ 0#5)
  | .mdrain w r e f g => some (3#3 ++ 6#6 ++ w ++ r ++ e ++ f ++ g)
  | .cpy w r e f g => some (4#3 ++ 1#6 ++ w ++ r ++ e ++ f ++ g)
  | .cpyz w r e f g => some (4#3 ++ 2#6 ++ w ++ r ++ e ++ f ++ g)
  | .cpyb w r e f => some (4#3 ++ 3#6 ++ w ++ r ++ e ++ f ++ 0#5)
  | .cpyq w r e => some (4#3 ++ 4#6 ++ w ++ r ++ e ++ 0#10)
  | .cpycan w r e => some (4#3 ++ 5#6 ++ w ++ r ++ e ++ 0#10)
  | .dual n => some (6#3 ++ 1#6 ++ n ++ 0#21)
  | .tkn w r => some (6#3 ++ 2#6 ++ w ++ r ++ 0#15)
  | .ext i => some (6#3 ++ 3#6 ++ i)
  | .seqf l => some (6#3 ++ 4#6 ++ l ++ 0#20)
  | .seql l => some (6#3 ++ 5#6 ++ l ++ 0#20)
  | .seqAdvance => none
  | .generatorStep _ => none
  | .sinkStep _ => none
  | .commandComplete _ => none
  | .copyLineLanded _ => none
  | .trapTaken => none
  | .waittimeout => none
  | .heartbeatTick => none
  | .gbarComplete => none
  | .gangPreemptEvent => none
  | .launchQueueDrain _ => none
  | .deferredLaunchApply => none
  | .admitJob _ => none
  | .dispatch => none
  | .gangReserve _ => none
  | .eventRelease _ _ _ => none
  | .spillwayReenter _ _ => none
  | .vfPeriodEnd => none
  | .queueAge _ => none
  | .weirGrant => none
  | .migrationEpoch => none
  | .migratePage => none
  | .blockWriteback _ => none
  | .noriaRecodeLine _ => none
  | .selfTest _ => none
  | .culvertRemap _ => none
  | .errorDetected _ => none
  | .moduleReset => none
  | .netAck _ => none
  | .netqFail _ _ => none
  | .incomingRdma _ => none
  | .cxlMemRequest _ => none
  | .dataWrite _ _ _ => none
  | .dataRead _ _ _ => none
  | .registerWrite _ _ _ => none
  | .jobcreate _ _ => none
  | .jobstop _ _ => none
  | .jobdestroy _ _ => none
  | .qcreate _ _ => none
  | .qdestroy _ _ => none
  | .qpush _ _ => none
  | .spilladd _ _ => none
  | .evhostSet _ _ => none
  | .evhostClear _ _ => none
  | .rqset _ _ => none
  | .vfslice _ _ => none
  | .speedset _ _ => none
  | .ptecas _ _ => none
  | .inval _ _ => none
  | .clean _ _ => none
  | .migcfg _ _ => none
  | .migfree _ _ => none
  | .compset _ _ => none
  | .ovfset _ _ => none
  | .ovfadd _ _ => none
  | .norset _ _ => none
  | .norpush _ _ => none
  | .srslice _ _ => none
  | .keyjob _ _ => none
  | .cxlrange _ _ => none
  | .load _ _ => none
  | .preempt _ _ => none
  | .tagset _ _ => none
  | .tagget _ _ => none
  | .featset _ _ => none
  | .keysetStage _ _ => none
  | .keysetInstall _ _ => none
  | .vkeysetStage _ _ => none
  | .vkeysetInstall _ _ => none
  | .svninc _ _ => none
  | .intmap _ _ => none
  | .netqpCreate _ _ => none
  | .netqpDestroy _ _ => none
  | .fwstage _ _ => none
  | .longCommandDone _ => none
  | .telread _ _ => none
  | .pwrcap _ _ => none
  | .illegalWord _ => none
  | .accessApplied => none
  | .shapeRecordCacheEviction _ => none

/-- The decoder at the bit numbering of spec/opcode_table.json: one word of 32 bits, stored little-endian. -/
def decodeTableWord (nbits w : Nat) : Option Instr :=
  let b (k : Nat) : Byte := BitVec.ofNat 8 ((w % 2 ^ nbits) >>> (8 * k))
  match decodeBytes (b 0) (b 1) (b 2) (b 3) with
  | .ok i => some i
  | .error _ => none

end Sys2Proof
end

