-- ==== Sys2Proof/Machine/Num.lean ====
section
/-! DEFINITION. Exact values (R45): a polymorphic word computes an exact result from exact operands. A finite value is a
sign and a ratio of natural numbers, so that sums, products, quotients and scalings are exact; zero keeps its sign. -/

namespace Sys2Proof.Machine

/-- An exact value, an infinity, or NaN. A NaN keeps the sign of the element it was decoded from (R53). -/
inductive Num where
  | nan (neg : Bool)
  | inf (neg : Bool)
  | fin (neg : Bool) (n d : Nat)
  deriving DecidableEq, Repr

namespace Num

def zero : Num := .fin false 0 1
def one : Num := .fin false 1 1

def ofNat (n : Nat) : Num := .fin false n 1

def ofInt (i : Int) : Num := .fin (decide (i < 0)) i.natAbs 1

/-- 2 to the power `e`. -/
def pow2 (e : Int) : Num := if 0 ≤ e then .fin false (2 ^ e.toNat) 1 else .fin false 1 (2 ^ (-e).toNat)

def isNaN : Num → Bool | .nan _ => true | _ => false
def isInf : Num → Bool | .inf _ => true | _ => false
def isFin : Num → Bool | .fin _ _ _ => true | _ => false
def isZero : Num → Bool | .fin _ n _ => n == 0 | _ => false

def sign : Num → Bool | .nan s => s | .inf s => s | .fin s _ _ => s

def neg : Num → Num | .nan s => .nan (!s) | .inf s => .inf (!s) | .fin s n d => .fin (!s) n d
def abs : Num → Num | .nan _ => .nan false | .inf _ => .inf false | .fin _ n d => .fin false n d

/-- The numerators of two ratios over one denominator. -/
def align (n1 d1 n2 d2 : Nat) : Nat × Nat × Nat :=
  if d1 = d2 then (n1, n2, d1)
  else if d1 % d2 = 0 then (n1, n2 * (d1 / d2), d1)
  else if d2 % d1 = 0 then (n1 * (d2 / d1), n2, d2)
  else (n1 * d2, n2 * d1, d1 * d2)

/-- The exact sum. `down` says that the rounding mode is RDN, which makes an exact zero of unlike signs negative (R46). -/
def add (down : Bool) : Num → Num → Num
  | .nan _, _ => .nan false
  | _, .nan _ => .nan false
  | .inf s, .inf t => if s = t then .inf s else .nan false
  | .inf s, .fin _ _ _ => .inf s
  | .fin _ _ _, .inf t => .inf t
  | .fin s n1 d1, .fin t n2 d2 =>
    let (m1, m2, d) := align n1 d1 n2 d2
    if s = t then .fin s (m1 + m2) d
    else if m1 = m2 then .fin down 0 1
    else if m2 < m1 then .fin s (m1 - m2) d
    else .fin t (m2 - m1) d

def sub (down : Bool) (x y : Num) : Num := add down x y.neg

/-- The exact product; 0 × Inf is NaN. -/
def mul : Num → Num → Num
  | .nan _, _ => .nan false
  | _, .nan _ => .nan false
  | .inf s, .inf t => .inf (s != t)
  | .inf s, .fin t n _ => if n = 0 then .nan false else .inf (s != t)
  | .fin s n _, .inf t => if n = 0 then .nan false else .inf (s != t)
  | .fin s n1 d1, .fin t n2 d2 => .fin (s != t) (n1 * n2) (d1 * d2)

/-- The exact quotient; 0 / 0 and Inf / Inf are NaN, and a nonzero finite value over zero is infinite. -/
def div : Num → Num → Num
  | .nan _, _ => .nan false
  | _, .nan _ => .nan false
  | .inf _, .inf _ => .nan false
  | .inf s, .fin t _ _ => .inf (s != t)
  | .fin s _ _, .inf t => .fin (s != t) 0 1
  | .fin s n1 d1, .fin t n2 d2 =>
    if n2 = 0 then (if n1 = 0 then .nan false else .inf (s != t))
    else .fin (s != t) (n1 * d2) (d1 * n2)

/-- x × 2^e, exact; infinities and NaN unchanged (R26). -/
def scale (x : Num) (e : Int) : Num :=
  match x with
  | .fin s n d => if 0 ≤ e then .fin s (n * 2 ^ e.toNat) d else .fin s n (d * 2 ^ (-e).toNat)
  | y => y

/-- -1, 0 or 1 as x is below, equal to or above y, for values that are not NaN; -0 equals +0. -/
def cmp (x y : Num) : Int :=
  match x, y with
  | .inf s, .inf t => if s = t then 0 else if s then -1 else 1
  | .inf s, _ => if s then -1 else 1
  | _, .inf t => if t then 1 else -1
  | .fin s n1 d1, .fin t n2 d2 =>
    let (m1, m2, _) := align n1 d1 n2 d2
    let a : Int := if s then -(m1 : Int) else m1
    let b : Int := if t then -(m2 : Int) else m2
    if a < b then -1 else if a = b then 0 else 1
  | _, _ => 0

/-- The exponent of a nonzero ratio: the greatest e with 2^e ≤ n / d. -/
def log2Ratio (n d : Nat) : Int :=
  let e : Int := (Nat.log2 n : Int) - (Nat.log2 d : Int)
  -- n / d lies in [2^(e-1), 2^(e+1))
  let ge : Bool := if 0 ≤ e then decide (d * 2 ^ e.toNat ≤ n) else decide (d ≤ n * 2 ^ (-e).toNat)
  if ge then e else e - 1

/-- Floor(Log2(|x|)) of a finite nonzero value (R55). -/
def floorLog2 : Num → Int
  | .fin _ n d => if n = 0 then 0 else log2Ratio n d
  | _ => 0

end Num

/-! ## Square roots -/

/-- One bit of the integer square root: from the bit `2^k` down. -/
def isqrtGo (n : Nat) : Nat → Nat → Nat
  | 0, r => r
  | k + 1, r =>
    let c := r + 2 ^ k
    isqrtGo n k (if c * c ≤ n then c else r)

/-- Floor of the square root. -/
def isqrt (n : Nat) : Nat := isqrtGo n (Nat.log2 n / 2 + 1) 0

/-- A value that rounds as the square root of a nonnegative ratio does at every precision below 200 bits: the floor of the
root at 2^-t, and half a unit more when the root is not exact. -/
def sqrtRatio (n d : Nat) : Num :=
  let t := 200 + Nat.log2 d + 1
  let m := n * d * 2 ^ (2 * t)
  let r := isqrt m
  if r * r = m then .fin false r (d * 2 ^ t) else .fin false (2 * r + 1) (d * 2 ^ (t + 1))

namespace Num

/-- The square root: NaN below zero, -0 of -0 (R46). -/
def sqrt : Num → Num
  | .nan _ => .nan false
  | .inf s => if s then .nan false else .inf false
  | .fin s n d => if n = 0 then .fin s 0 1 else if s then .nan false else sqrtRatio n d

end Num

end Sys2Proof.Machine
end

