-- ==== Sys2Proof/Machine/Flags.lean ====
section
/-! DEFINITION. The sticky flags (R50), rounding (R46, R48, R58), the float formats (R26), and the conversions of R52 and
R53. -/

namespace Sys2Proof.Machine

/-! ## Sticky flags (R50) -/

abbrev Flags := BitVec 8

def fINVALID : Flags := 0x01
def fDIVZERO : Flags := 0x02
def fOVERFLOW : Flags := 0x04
def fUNDERFLOW : Flags := 0x08
def fINEXACT : Flags := 0x10
def fSPOIL : Flags := 0x20
def fRANGE : Flags := 0x40
def fTKOVF : Flags := 0x80

/-- A flag that is set when `b` holds. -/
def flagIf (b : Bool) (f : Flags) : Flags := if b then f else 0

/-! ## Rounding modes (R48, R58) -/

/-- A rounding: to nearest even, toward zero, down, up, or stochastic with its 16-bit random value. -/
inductive RMode where
  | rne | rtz | rdn | rup
  | sr (w : BitVec 16)
  deriving DecidableEq, Repr

/-- The integer that n / d × 2^-q rounds to, and whether that changed the value. -/
def roundInt (mode : RMode) (neg : Bool) (n d : Nat) (q : Int) : Nat × Bool :=
  let (a, b) := if 0 ≤ q then (n, d * 2 ^ q.toNat) else (n * 2 ^ (-q).toNat, d)
  let k := a / b
  let r := a % b
  let up : Bool := match mode with
    | .rne => decide (b < 2 * r) || (decide (2 * r = b) && k % 2 == 1)
    | .rtz => false
    | .rdn => neg && r != 0
    | .rup => !neg && r != 0
    | .sr w => decide (2 ^ 16 ≤ (r * 2 ^ 16) / b + w.toNat)
  (if up then k + 1 else k, r != 0)

/-! ## Float formats (R26) -/

/-- How a format spends its top exponent code: infinities and NaNs, one NaN code (E4M3), or numbers only. -/
inductive TopCode where
  | ieee | oneNaN | numbers
  deriving DecidableEq, Repr

/-- The parameters of a float format: exponent bits, fraction bits m, bias, top code. -/
structure FloatFmt where
  e : Nat
  m : Nat
  bias : Nat
  top : TopCode
  deriving DecidableEq, Repr

def FloatFmt.fp64 : FloatFmt := ⟨11, 52, 1023, .ieee⟩
def FloatFmt.fp32 : FloatFmt := ⟨8, 23, 127, .ieee⟩
def FloatFmt.fp16 : FloatFmt := ⟨5, 10, 15, .ieee⟩
def FloatFmt.bf16 : FloatFmt := ⟨8, 7, 127, .ieee⟩
def FloatFmt.e4m3 : FloatFmt := ⟨4, 3, 7, .oneNaN⟩
def FloatFmt.e5m2 : FloatFmt := ⟨5, 2, 15, .ieee⟩
def FloatFmt.e3m2 : FloatFmt := ⟨3, 2, 3, .numbers⟩
def FloatFmt.e2m3 : FloatFmt := ⟨2, 3, 1, .numbers⟩
def FloatFmt.e2m1 : FloatFmt := ⟨2, 1, 1, .numbers⟩

namespace FloatFmt

def width (f : FloatFmt) : Nat := 1 + f.e + f.m

/-- The exponent of the smallest normal. -/
def emin (f : FloatFmt) : Int := 1 - (f.bias : Int)

/-- The largest finite value as its exponent and its significand scaled by 2^m. -/
def maxExp (f : FloatFmt) : Int :=
  match f.top with
  | .ieee => (2 ^ f.e : Int) - 2 - f.bias
  | _ => (2 ^ f.e : Int) - 1 - f.bias

def maxSig (f : FloatFmt) : Nat :=
  match f.top with
  | .oneNaN => 2 ^ (f.m + 1) - 2
  | _ => 2 ^ (f.m + 1) - 1

def signBit (f : FloatFmt) (neg : Bool) : Nat := if neg then 2 ^ (f.e + f.m) else 0

/-- The code of the largest finite value. -/
def maxCode (f : FloatFmt) (neg : Bool) : Nat :=
  f.signBit neg + (f.maxExp + f.bias).toNat * 2 ^ f.m + (f.maxSig - 2 ^ f.m)

def infCode (f : FloatFmt) (neg : Bool) : Nat := f.signBit neg + (2 ^ f.e - 1) * 2 ^ f.m

/-- The canonical NaN of R26. -/
def nanCode (f : FloatFmt) : Nat :=
  match f.top with
  | .oneNaN => 2 ^ (f.e + f.m) - 1
  | _ => (2 ^ f.e - 1) * 2 ^ f.m + 2 ^ (f.m - 1)

/-- The value of an element's bits (R26). -/
def decode (f : FloatFmt) (bits : Nat) : Num :=
  let s := bits / 2 ^ (f.e + f.m) % 2 == 1
  let e := bits / 2 ^ f.m % 2 ^ f.e
  let m := bits % 2 ^ f.m
  let fin : Num :=
    if e = 0 then (Num.fin s m 1).scale (1 - (f.bias : Int) - f.m)
    else (Num.fin s (2 ^ f.m + m) 1).scale ((e : Int) - f.bias - f.m)
  match f.top with
  | .ieee => if e = 2 ^ f.e - 1 then (if m = 0 then .inf s else .nan s) else fin
  | .oneNaN => if e = 2 ^ f.e - 1 ∧ m = 2 ^ f.m - 1 then .nan s else fin
  | .numbers => fin

/-- The code of k × 2^q, where k has at most m + 1 bits after a carry is undone and q is its quantum. -/
def pack (f : FloatFmt) (neg : Bool) (k : Nat) (q : Int) : Nat :=
  if k < 2 ^ f.m then f.signBit neg + k
  else
    let (k, q) := if k = 2 ^ (f.m + 1) then (2 ^ f.m, q + 1) else (k, q)
    f.signBit neg + (q + f.m + f.bias).toNat * 2 ^ f.m + (k - 2 ^ f.m)

/-- k × 2^q is above the largest finite value. -/
def beyond (f : FloatFmt) (k : Nat) (q : Int) : Bool :=
  -- compares k × 2^q with maxSig × 2^(maxExp - m)
  let e := q - (f.maxExp - f.m)
  if 0 ≤ e then decide (f.maxSig < k * 2 ^ e.toNat) else decide (f.maxSig * 2 ^ (-e).toNat < k)

end FloatFmt

/-- A converted element: its bits, its flags, and whether it spoils its line or register (R53). -/
structure Conv where
  bits : Nat
  flags : Flags
  spoiled : Bool
  deriving DecidableEq, Repr

/-- What R53 writes for a finite value that is too large. -/
def tooLarge (f : FloatFmt) (mode : RMode) (nonsat neg : Bool) : Conv :=
  let oi := fOVERFLOW ||| fINEXACT
  match f.top with
  | .numbers => ⟨f.maxCode neg, oi ||| flagIf nonsat fSPOIL, nonsat⟩
  | .oneNaN => if nonsat then ⟨f.nanCode, oi, false⟩ else ⟨f.maxCode neg, oi, false⟩
  | .ieee =>
    if f = FloatFmt.e5m2 then ⟨if nonsat then f.infCode neg else f.maxCode neg, oi, false⟩
    else
      let inf := match mode with
        | .rne => true
        | .rtz => false
        | .rdn => neg
        | .rup => !neg
        | .sr _ => true
      ⟨if inf then f.infCode neg else f.maxCode neg, oi, false⟩

/-- A nonzero finite ratio rounded to a float format (R46, R52, R53, R58). Tininess is detected after rounding. -/
def roundFloat (f : FloatFmt) (mode : RMode) (nonsat neg : Bool) (n d : Nat) : Conv :=
  let e := Num.log2Ratio n d
  -- under SR the unit beyond the largest binade of an IEEE format stays that binade's (R53)
  let wide := decide (f.top = .ieee) && decide (f ≠ FloatFmt.e5m2)
  let cap (e : Int) : Int := match mode with
    | .sr _ => if wide then min e f.maxExp else e
    | _ => e
  let q := cap (max e f.emin) - f.m
  let (k, inexact) := roundInt mode neg n d q
  let pre : Bool := match mode with
    | .sr _ => wide && (if 0 ≤ f.maxExp - f.m then decide (f.maxSig * 2 ^ (f.maxExp - f.m).toNat * d < n)
        else decide (f.maxSig * d < n * 2 ^ (f.m - f.maxExp).toNat))
    | _ => false
  if f.beyond k q then tooLarge f mode nonsat neg
  else if pre then ⟨f.pack neg k q, fOVERFLOW ||| fINEXACT, false⟩
  else
    let tiny : Bool :=
      if e < f.emin then
        let (k', _) := roundInt mode neg n d (e - f.m)
        -- k' × 2^(e-m) < 2^emin
        decide (k' < 2 ^ (f.emin - (e - f.m)).toNat)
      else false
    ⟨f.pack neg k q, flagIf inexact fINEXACT ||| flagIf (inexact && tiny) fUNDERFLOW, false⟩

/-- A value converted to a float format (R52 steps 3 and 4, R53). -/
def toFloat (f : FloatFmt) (mode : RMode) (nonsat : Bool) : Num → Conv
  | .nan s =>
    match f.top with
    | .numbers => ⟨f.maxCode s, fSPOIL ||| fINVALID, true⟩
    | _ => ⟨f.nanCode, 0, false⟩
  | .inf s =>
    match f.top with
    | .ieee => ⟨f.infCode s, 0, false⟩
    | _ => ⟨f.maxCode s, fSPOIL, true⟩
  | .fin s n d => if n = 0 then ⟨f.signBit s, 0, false⟩ else roundFloat f mode nonsat s n d

/-- A value converted to a scaled integer of `w` bits, GI4 or GI3 (R53). -/
def toGI (w : Nat) (mode : RMode) (nonsat : Bool) (x : Num) : Conv :=
  let top := 2 ^ (w - 1) - 1
  let bot := 2 ^ (w - 1)          -- the code of the most negative value
  let clamp (s : Bool) : Nat := if s then bot else top
  match x with
  | .nan s => ⟨clamp s, fSPOIL ||| fINVALID, true⟩
  | .inf s => ⟨clamp s, fSPOIL, true⟩
  | .fin s n d =>
    let (k, inexact) := roundInt mode s n d 0
    if (if s then decide (2 ^ (w - 1) < k) else decide (top < k)) then
      ⟨clamp s, fOVERFLOW ||| fINEXACT ||| flagIf nonsat fSPOIL, nonsat⟩
    else ⟨if s then (2 ^ w - k) % 2 ^ w else k, flagIf inexact fINEXACT, false⟩

/-- A value converted to an integer format of `w` bits (R53). `fromInt` says that the source is an integer format, for
which NONSAT keeps the low bits. -/
def toInteger (signed : Bool) (w : Nat) (mode : RMode) (nonsat fromInt : Bool) (x : Num) : Conv :=
  let hi := if signed then 2 ^ (w - 1) - 1 else 2 ^ w - 1
  let lo := if signed then 2 ^ (w - 1) else 0     -- magnitude of the least value
  let clamp (s : Bool) : Nat := if s then (2 ^ w - lo) % 2 ^ w else hi
  match x with
  | .nan _ => ⟨0, fINVALID, false⟩
  | .inf s => ⟨clamp s, fINVALID, false⟩
  | .fin s n d =>
    let (k, inexact) := roundInt mode s n d 0
    if (if s then decide (lo < k) else decide (hi < k)) then
      if fromInt && nonsat then ⟨if s then (2 ^ w - k % 2 ^ w) % 2 ^ w else k % 2 ^ w, 0, false⟩
      else ⟨clamp s, fINVALID, false⟩
    else ⟨if s then (2 ^ w - k) % 2 ^ w else k, flagIf inexact fINEXACT, false⟩

/-- FlushRound of R60: one RNE rounding to the accumulator's precision with the exponent unbounded below, then overflow to
Inf and flush of a result below the smallest normal to a zero of the exact sum's sign. -/
def flushRound (f : FloatFmt) : Num → Num × Flags
  | .nan _ => (.nan false, 0)
  | .inf s => (.inf s, 0)
  | .fin s n d =>
    if n = 0 then (.fin s 0 1, 0)
    else
      let q := Num.log2Ratio n d - f.m
      let (k, inexact) := roundInt .rne s n d q
      if f.beyond k q then (.inf s, fOVERFLOW ||| fINEXACT)
      else
        let y := (Num.fin s k 1).scale q
        if y.cmp (Num.pow2 f.emin) = -1 && !s || s && y.neg.cmp (Num.pow2 f.emin) = -1 then
          (.fin s 0 1, fUNDERFLOW ||| fINEXACT)
        else (y, flagIf inexact fINEXACT)

end Sys2Proof.Machine
end

