-- ==== Sys2Proof/Machine/State.lean ====
section
/-! DEFINITION. The state of the SZ-40 as plain data: the core that moves now, the other cores, memory with its tags,
the scheduling hardware, the headgate and the module. Every field that the spec does not name says that it is the
model's own. -/

namespace Sys2Proof.Machine

/-- Sparse data by key: strictly rising keys, and no entry equal to the value of an unlisted key. -/
abbrev Sparse (α : Type) := List (Nat × α)

/-! ## The parts of a core -/

/-- A vector register: 2,048 bits and a register tag (R37). -/
structure VReg where
  data : RegBits
  tag : Tag
  deriving DecidableEq, Repr

/-- A flume entry (R11): a register's bits, its tag, its poison, its tangents, and the count that VPART and VAPPEND
give it for WAPP (R142, R176); no count stands for the register's element count. -/
structure FlumeEntry where
  data : RegBits
  tag : Tag
  poison : Bool
  tangents : List RegBits
  count : Option Nat
  deriving DecidableEq, Repr

/-- The engines that have a ring (R7). -/
inductive Engine where
  | A | X | M | Y
  deriving DecidableEq, Repr

/-- The bindings of v56 to v63, by register, each to one flume (R12). -/
abbrev Bindings := List (Nat × BitVec 3)

/-- A word in a ring: its place in split order, its position in the ring, its prefix, the word as placed (R349), the
captured s registers (R6), the sequencer's offset for its stream (R102), the bindings in force at split (R134),
whether an s register that carries other bits in its slot had a nonzero reserved bit (R349, R183), and whether a command's
claims were set when it was split, which those of a word that FILL restored are not (R16, R312). -/
structure RingEntry where
  ord : Nat
  pos : BitVec 11
  pfx : Option IWord
  word : IWord
  caps : List Word
  so : Word
  bnd : Bindings
  badReserved : Bool
  claims : Bool
  deriving DecidableEq, Repr

/-- A ring with its pointers (R7, R8, R297). -/
structure Ring where
  wrp : BitVec 11
  rdp : BitVec 11
  entries : List RingEntry
  deriving DecidableEq, Repr

/-- The four rings of the user bank or of the trap bank. -/
structure Rings where
  a : Ring
  x : Ring
  m : Ring
  y : Ring
  deriving DecidableEq, Repr

/-- A fault as a check found it (R298, R299): cause code, TVAL, DEF and DETAIL. -/
structure Flt where
  code : BitVec 8
  tval : Word
  deferred : Bool
  detail : BitVec 16
  deriving DecidableEq, Repr

/-- A fault that waits until the rings settle (R300): the split order of its word, its RING field, the fault. -/
structure PendingFault where
  ord : Nat
  ring : BitVec 3
  flt : Flt
  deriving DecidableEq, Repr

/-- An accumulator tile (R184, R185): format, validity class, INVALID detail, and its positions by 64 i + j; an
unlisted position is +0. -/
structure Tile where
  af : BitVec 2
  vc : BitVec 2
  detail : BitVec 8
  data : Sparse (BitVec 32)
  deriving DecidableEq, Repr

/-- The matrix configuration of MCFG (R186). -/
structure MatrixConfig where
  mr : BitVec 8
  nc : BitVec 8
  k : BitVec 16
  apitch : BitVec 8
  bpitch : BitVec 8
  mtoff : BitVec 20
  deriving DecidableEq, Repr

/-- A leaf as a walk found it: the leaf's bits, the physical address of its entry, and the bytes it maps (R271, R272). -/
structure Page where
  leaf : Word
  entryAt : Nat
  size : Nat
  base : Word
  deriving DecidableEq, Repr

/-- A line as it is stored or read: tag and data (R22, R36). -/
structure Line where
  tag : Tag
  data : LineBits
  deriving DecidableEq, Repr

/-- A line that a drain has still to write (R193): its scratchpad offset, its format and tag, the positions written with
their bits, and the whole data of a line whose data is of no account. -/
structure MWrite where
  off : Nat
  fmt : Nat
  tag : Tag
  sets : List (Nat × Nat)
  whole : Option LineBits
  deriving DecidableEq, Repr

/-- A started M command (R180, R181): its word with its prefix's N and captured values, the element counts by which its operands
are placed (R187), the translations it holds by address with their job (R180, R277), the lines it has still to read, each by
its scratchpad offset or its address, those it has read, the lines it has still to write, its flags, token, claims and locks. -/
structure MCommand where
  ord : Nat
  trap : Bool
  word : IWord
  caps : List Word
  dual : Nat
  counts : List Nat
  pages : List (Nat × Page)
  job : Nat
  todo : List Nat
  got : List (Nat × Line)
  writes : List MWrite
  flags : BitVec 8
  raise : BitVec 4
  claims : List Nat
  locks : List Nat
  deriving DecidableEq, Repr

/-- The Y commands that write lines: CPY, CPYZ, and CPYQ with its report. -/
inductive CopyKind where
  | cpy | cpyz | report
  deriving DecidableEq, Repr

/-- An in-flight Y command (R181, R197, R200, R203): its captured operands, its record or the doublewords of its report, the tags
of its rows' first lines, whose counts place the elements (R195), the translations it holds by line with their job (R180, R277),
and those by which its record and its rows' tags were read, with the bytes read there; the bytes landed from byte 0 of the
layout and the lines landed above them, the bytes issued (R203), the lines read by layout line and address, and the memory lines
written, by tensor row and line (R207); its size, the copy generator as the command found it and the lines it has written under
SR (R56), the barrier it recorded (R201), its flags, token, claims, ring position, the network queue it uses and its place among
the commands that started on that queue (R335). -/
structure YCommand where
  kind : CopyKind
  ord : Nat
  trap : Bool
  se : Word
  sf : Word
  sg : Word
  shape : List Word
  rowTags : List Tag
  pages : List (Nat × Page)
  extra : List (Nat × Nat × Page)
  job : Nat
  landed : Nat
  above : List Nat
  issued : Nat
  got : List (Nat × Nat × Line)
  written : List (Nat × Nat)
  size : Nat
  gen : BitVec 32
  drawn : Nat
  barrier : Option Nat
  flags : BitVec 8
  raise : BitVec 4
  claims : List Nat
  pos : BitVec 11
  qp : Option Nat
  ticket : Nat
  deriving DecidableEq, Repr

/-- A captured word of the sequencer's block, with the s values recorded for it (R99). -/
structure SeqWord where
  word : IWord
  caps : List Word
  deriving DecidableEq, Repr

/-- A configuration set of the sequencer (R97): counts, ROT flags, strides by 16 l + st, and the block. -/
structure SeqSet where
  n : Vector (BitVec 32) 6
  rot : Vector Bool 6
  stride : Vector Word 96
  block : List SeqWord
  deriving DecidableEq, Repr

/-- The sequencer: both sets and the running state (R97), and the break that SEQBRK asked for (R104). -/
structure Sequencer where
  shadow : SeqSet
  active : SeqSet
  i : Vector (BitVec 32) 6
  so : Vector Word 16
  p : Nat
  running : Bool
  brk : Bool
  deriving DecidableEq, Repr

/-- What a stream's generator or sink is doing (R132, R133). -/
inductive RunKind where
  | none | generator | sink
  deriving DecidableEq, Repr

/-- The run of a stream: kind, base, next step, steps left, its place in split order, the fault of a step that was not
issued, and the steps issued by the latest run (R132, R133); `reached` the claims that were outstanding on the cluster's tiles
when its next step first met one (R16). -/
structure StreamRun where
  kind : RunKind
  base : Word
  next : Word
  left : Word
  ord : Nat
  flt : Option Flt
  issued : Word
  reached : Option (List (Nat × Nat))
  deriving DecidableEq, Repr

/-- What a queued store writes (R207): bytes under the line's standing tag, or a whole line with its tag, or one half of
an 8-bit line that the home merges (R40). -/
inductive QueuedWrite where
  /-- `len` bytes (R35, R120). -/
  | bytes (len : Nat) (v : Word)
  /-- A whole line with its tag (R36, R126). -/
  | line (v : LineBits) (tag : Tag)
  /-- Elements s to s + 63 of an 8-bit line (R40). -/
  | half (upper : Bool) (v : BitVec 512) (tag : Tag)
  /-- The elements that a scatter gives a line, by position, under the entry's tag (R129). -/
  | elems (entry : Tag) (es : List (Nat × Nat))
  /-- `n` bytes of a tangent line at offset `o`, for primal elements of a format (R130). -/
  | tangent (fmt o n v : Nat)
  /-- The elements that WAPP gives a payload line, by position, and the line's new tag (R142). -/
  | payload (tag : Tag) (es : List (Nat × Nat))
  deriving DecidableEq, Repr

/-- A store that waits in the core's store queue (R207): its place in split order, its stream, its address and page with
the job that the translation is tagged with (R277), and what it writes. -/
structure QueuedStore where
  ord : Nat
  st : BitVec 4
  ea : Word
  page : Page
  job : Nat
  write : QueuedWrite
  deriving DecidableEq, Repr

/-- What a load moves: registers from element group `eg` of its line, one or a pair (R123, R124), or the lanes of an index
entry, placed for a format of n native elements (R129). -/
inductive LoadKind where
  | reg (eg : Nat) (pair : Bool)
  | gather (index : FlumeEntry) (n lanes : Nat)
  deriving DecidableEq, Repr

/-- A load into a flume (R123 to R130, R132): its address, the tangents it moves and their TOFF (R130), the lines that it
has still to read with the pages its checks found, and those it has read; `ahead` marks a generator's step, whose entries may
have to wait for room (R132). -/
structure Reading where
  flume : Nat
  kind : LoadKind
  va : Word
  tangents : Nat
  toff : Word
  job : Nat
  ahead : Bool
  todo : List (Word × Page)
  got : List (Word × Line)
  deriving DecidableEq, Repr

/-- What SBAR or FENCE orders (R135, R143): the streams before it, and whether their loads alone count; the streams behind it,
and whether their loads are exempt. A store before it must be applied at its home to have been performed, whatever scope the word
names (R209, R210; log 38). -/
structure Barrier where
  before : BitVec 16
  loadsOnly : Bool
  behind : BitVec 16
  storesOnly : Bool
  deriving DecidableEq, Repr

/-- What an issued access has still to do. -/
inductive FlightWork where
  | load (r : Reading)
  | stores (l : List QueuedStore)
  | barrier (b : Barrier)
  deriving DecidableEq, Repr

/-- An access that has been issued and not yet performed (R117, R118): its place in split order, whether it is a handler's, its
stream, its raise token, and what is left of it. -/
structure Flight where
  ord : Nat
  trap : Bool
  st : Nat
  raise : BitVec 4
  work : FlightWork
  deriving DecidableEq, Repr

/-- A group of WAPP (R142): its header, the header's page, its entry, the entry's element count, and PTAG. -/
structure WappGroup where
  head : Word
  page : Page
  entry : FlumeEntry
  count : Nat
  ptag : Tag
  deriving DecidableEq, Repr

/-- How far a WAPP at the ring's head has come that has passed its checks (R142): the groups whose fetch-and-add is still to be
performed, the group whose OVF is still to be raised and by how much, and the elements dropped and written so far. -/
structure Append where
  groups : List WappGroup
  loss : Option (WappGroup × Nat)
  dropped : Nat
  written : Nat
  deriving DecidableEq, Repr

/-- A word's wait (R21): what it waits on, as DETAIL and TVAL would give it, and the ticks that it has waited so. -/
structure Waiting where
  detail : Nat
  tval : Word
  ticks : Nat
  deriving DecidableEq, Repr

/-- The run that occupies a core (R19, R264): job, slot, function-table index, D0, the join block of EXIT, the bound
function table (base and length), and the number of its gang when it has one. -/
structure RunInfo where
  job : Nat
  slot : BitVec 6
  d0 : Word
  d2 : Word
  tabBase : Word
  tabLen : Nat
  gang : Option Nat
  deriving DecidableEq, Repr

/-- An entry of a translation cache: the job it is tagged with, and the leaf as it was read (R276). -/
structure TlbEntry where
  job : Nat
  page : Page
  deriving DecidableEq, Repr

/-- A cached table pointer of level 1 or 2 (R276): the bytes it maps begin at `base`. -/
structure TlbPointer where
  job : Nat
  level : Nat
  base : Word
  table : Nat
  deriving DecidableEq, Repr

/-- The stochastic generators of a core (R56). -/
structure Generators where
  x0 : BitVec 32
  x1 : BitVec 32
  drain : BitVec 32
  copy : BitVec 32
  deriving DecidableEq, Repr

/-- The control and status registers that hold state of their own (R82). FLAGS, RMODE, TMODE, RRB, LATB, STATUS, GID,
GSIZE, SLAG, SLAST, FEATURES, CAUSE, EPC, TVAL, PTB, AGE and WAITLIM; SPEED is the class of the core's clock in this run. -/
structure Csrs where
  flags : BitVec 8
  rmode : BitVec 3
  tmode : BitVec 2
  rrb : BitVec 5
  latb : Word
  status : BitVec 5
  speed : BitVec 4
  gid : BitVec 8
  gsize : BitVec 9
  slag : BitVec 32
  slast : BitVec 8
  features : BitVec 5
  cause : BitVec 32
  epc : Word
  tval : Word
  ptb : Word
  age : BitVec 20
  waitlim : BitVec 32
  deriving DecidableEq, Repr

/-- One core (R5 to R21). `issued` holds the pages that the checks found of an A word which holds the ring's head after its
access was issued (R9, R117); `reached` the claims, by core and split order, that were outstanding on the cluster's tiles when
that word first met one (R16); `seen` the lines that it has read of those it reads before its verdict, and `append` how far a WAPP
has come that has passed its checks (R142, R207); `gathered` the weight lines that the MXV at the M ring's head has read (R191);
`yielded` says that the handler that runs was entered to pre-empt the run (R261, R314). The last six fields are the model's own:
the split-order counter stands for R5's order; the four lists are the schedule's choices, one for each word, access, store or
command, true where the part waits for a later move; `free` counts the free values that the module has used (of a core that is not
the current one it is not read). -/
structure Core where
  run : Option RunInfo
  pc : Word
  pfx : Option IWord
  s : Vector Word 32
  a : Vector Word 32
  trapS : Vector Word 8
  trapA : Vector Word 8
  v : Vector VReg 64
  t1 : Vector RegBits 64
  t2 : Vector RegBits 64
  t3 : Vector RegBits 64
  p : Vector (BitVec 64) 16
  ptag : Vector Tag 16
  tokens : Vector (BitVec 8) 16
  flumes : Vector (List FlumeEntry) 8
  bnd : Bindings
  bq : List Word
  tiles : Vector Tile 32
  mcfg : MatrixConfig
  user : Rings
  trap : Rings
  mcmd : Option MCommand
  ycmds : List YCommand
  barrier : Option Nat
  records : List (Nat × List Word)
  lattice : BitVec 8192
  gens : Generators
  seq : Sequencer
  desc : Vector (BitVec 256) 16
  runs : Vector StreamRun 16
  storeQ : List QueuedStore
  flight : List Flight
  issued : Option (List (Word × Page))
  reached : Option (List (Nat × Nat))
  seen : List (Word × Line)
  append : Option Append
  gathered : Option (List (Nat × Line))
  yielded : Bool
  csr : Csrs
  icache : List (Word × IWord)
  fcache : List (Nat × BitVec 128)
  tlb : List TlbEntry
  pending : Option PendingFault
  waits : Vector Waiting 5
  arrived : Option Nat
  filled : Bool
  ord : Nat
  holdWord : List Bool
  holdAccess : List Bool
  holdStore : List Bool
  holdCommand : List Bool
  free : Nat
  deriving DecidableEq, Repr

/-! ## Memory -/

/-- A declared range of T1 (R291). -/
inductive RangeKind where
  | tagged | shadow | untagged
  deriving DecidableEq, Repr

structure T1Range where
  link : Nat
  kind : RangeKind
  base : Nat
  size : Nat
  deriving DecidableEq, Repr

/-- The bytes, tags, full/empty bits and poison bits of every memory of the module, by place (see Places.lean for the
places). An unlisted byte reads 0, an unlisted line is tagged 0x0400_0000 (R22), an unlisted word is empty and clear of
poison (R15). `keyed` holds the keys under which a line is stored (R286, R287; the model's own form, see Cipher.lean); `held` the
lines of compressed pages that a home slice holds (R281, R283); `ranges` the declared ranges of T1 (R291). -/
structure Memory where
  bytes : List Host.Cell
  tags : Sparse Tag
  full : Sparse Bool
  poison : Sparse Bool
  keyed : Sparse Nat
  held : Sparse Bool
  ranges : List T1Range
  deriving DecidableEq, Repr

/-! ## The scheduling hardware -/

/-- A loaded code object in a slot of a job: its function table's address and length, its security version, whether it
was signed, and whether it has been revoked (R264, R320). -/
structure Slot where
  base : Word
  len : Nat
  svn : BitVec 32
  signed : Bool
  revoked : Bool
  deriving DecidableEq, Repr

/-- A job: the descriptor of JOBCREATE (R269), D of R261, the stop of JOBSTOP, its slots, the head of its free list of
spillway blocks, the first and last block of its chain (R259), its key slot (R275), the number of blocks that SPILLADD has
supplied, and the dies of its spilled records by their line addresses, die 0 where none is listed (R255). -/
structure Job where
  owner : Nat
  weight : BitVec 8
  deficit : Word
  ptb : Word
  latb : Word
  evbase : Word
  fqbase : Word
  age : BitVec 20
  q : Nat
  waitlim : BitVec 32
  stopped : Bool
  slots : Sparse Slot
  freeBlocks : Word
  chainHead : Word
  chainTail : Word
  kid : BitVec 6
  blocks : Nat
  spillDie : Sparse Nat
  deriving DecidableEq, Repr

/-- A work queue (R254, R262): its level and the microseconds since it was last served or filled. -/
structure Queue where
  job : Nat
  die : Nat
  prio : Nat
  k : Nat
  base : Word
  head : Nat
  tail : Nat
  level : Nat
  deriving DecidableEq, Repr

/-- An entry of a queue of records (R252, R253): D0 to D3, origin, slot and job. -/
structure Entry where
  d0 : Word
  d1 : Word
  d2 : Word
  d3 : Word
  origin : BitVec 3
  slot : BitVec 6
  job : Nat
  deriving DecidableEq, Repr

/-- A ready queue: a ring of 2^k entries in memory (R263). -/
structure ReadyQueue where
  k : Nat
  base : Nat
  head : Nat
  tail : Nat
  deriving DecidableEq, Repr

/-- What waits unperformed at its home for launch-queue room (R108, R109, R140). -/
inductive Deferred where
  | acont | join | exit
  deriving DecidableEq, Repr

/-- A core's word that waits so, the address it waits at with the page that translated it and its job (R277), and the launch
queue it waits for. -/
structure Stalled where
  core : Nat
  kind : Deferred
  va : Word
  page : Page
  job : Nat
  queue : Nat
  deriving DecidableEq, Repr

/-- A word that waits at its home for a full/empty bit (R121): its core, the word's place, and whether it waits for full. -/
structure FullWaiter where
  core : Nat
  place : Nat
  full : Bool
  deriving DecidableEq, Repr

/-- The distributor of one die (R252 to R268, R289): ready queue, reservation register, waiting records by arrival with
their events, the VF admitted last, the noria's ring with the count of entries appended, and in the entry it works on, the lines
applied: those below `noriaAt` and those listed. -/
structure Die where
  ready : Option ReadyQueue
  reservation : Option Entry
  reserveCluster : Option Nat
  reserved : List Nat
  waiting : List (Nat × BitVec 16 × Entry)
  lastVf : Nat
  lastQueue : Sparse Nat
  usage : Sparse Nat
  noria : Option (Nat × Nat)
  noriaQ : List (List Word)
  noriaTail : Nat
  noriaAt : Nat
  noriaDone : List Nat
  recoded : Nat
  skipped : Nat
  unmapped : Nat
  deriving DecidableEq, Repr

/-- A gang (R19, R111 to R113): its die, its members by index as core numbers, the classes recorded at placement, the
TILENEXT counter, the CHUNK of its record. -/
structure Gang where
  die : Nat
  members : List Nat
  classes : List Nat
  counter : BitVec 48
  chunk : Nat
  deriving DecidableEq, Repr

/-! ## Memory management, host and module -/

/-- The keys of a slot (R286, R330), and a data key that KEYSET has staged. -/
structure KeySlot where
  data : BitVec 256
  tweak : BitVec 256
  staged : Option (BitVec 256)
  deriving DecidableEq, Repr

/-- A page that the migration engine counts (R279): the physical address of its leaf, the page's virtual address and
job, and the count. -/
structure MigCount where
  entryAt : Nat
  job : Nat
  va : Word
  count : Nat
  deriving DecidableEq, Repr

/-- A move in progress (R280): the page, the leaf as the engine read it, and the destination frame. -/
structure PageMove where
  page : MigCount
  leaf : Word
  dest : Nat
  deriving DecidableEq, Repr

/-- The migration engine (R279, R280). -/
structure Migration where
  enabled : Bool
  hot : Nat
  cold : Nat
  epoch : Nat
  counts : List MigCount
  candidates : List MigCount
  freeT0 : List Nat
  freeT1 : List Nat
  moving : Option PageMove
  failed : Nat
  deriving DecidableEq, Repr

/-- The overflow pool of compressed pages (R285): POOLBASE, FLBASE, capacity, the entries on the stack, the blocks whose
writeback waits for an entry, whether OVFLOW has been raised in the period in which the stack is empty, and the entries that
the copy of a COMPSET holds while it waits for more (R288). -/
structure Pool where
  base : Nat
  stackAt : Nat
  capacity : Nat
  depth : Nat
  waiting : List Nat
  raised : Bool
  taken : List Nat
  deriving DecidableEq, Repr

/-- A network queue (R334 to R336): its port, job, status address, O3 to O6 of NETQP, local key, state, the lines dropped, and
how many commands have started on it. -/
structure NetQueue where
  port : Nat
  job : Nat
  statusVa : Word
  remote : List Word
  localKey : BitVec 32
  ready : Bool
  refused : Bool
  dropped : BitVec 32
  started : Nat
  deriving DecidableEq, Repr

/-- A line that a copy moved over a network queue (R334, R335): the queue, the remote address, whether it was written, its tag
and data. -/
structure NetLine where
  qp : Nat
  remote : Word
  write : Bool
  tag : Tag
  data : LineBits
  deriving DecidableEq, Repr

/-- What the module has answered to a peer (R333) or to a remote (R336; its queue is named): the address, the tag that travels
with a line, the bytes and how many they are. -/
structure PeerReply where
  qp : Option Nat
  addr : Nat
  tag : Option Tag
  bytes : Nat
  data : LineBits
  deriving DecidableEq, Repr

/-- One function's window (R325 to R329): WINCTL, WINERR, RESULT, a command that has been accepted and is still to be
applied, the MSI-X table and pending bits, and the reply a window read returned last. -/
structure HostFn where
  winctl : Word
  fail : BitVec 32
  busy : BitVec 32
  seq : BitVec 32
  done : Bool
  status : BitVec 8
  reply : List Word
  pending : Option (Nat × CmdOps)
  msix : Sparse Word
  msixPending : Word
  readback : List Byte
  deriving DecidableEq, Repr

/-- The counters of one core, and its spares (R340 to R343). -/
structure CoreTel where
  corrected : Nat
  uncorrected : Nat
  soft : Nat
  lasting : Nat
  spareRows : Nat
  spareLanes : Nat
  lastCnt : Nat
  selfFenced : Bool
  deriving DecidableEq, Repr

/-- A pending self-test (R340): its unit, the errors counted since it was scheduled, and whether the test has failed and
a culvert lane waits to be remapped (R342). -/
structure SelfTest where
  site : ErrorSite
  errors : Nat
  due : Bool
  deriving DecidableEq, Repr

/-- The counters of the slices, dies, clusters and the device (R343, R344), and the power budget (R339). -/
structure Fleet where
  cores : Sparse CoreTel
  slices : Sparse CoreTel
  throttled : Sparse Nat
  heat : Sparse Nat
  gbars : Sparse Nat
  lagSum : Sparse Nat
  lagMax : Sparse Nat
  doubleFaults : Sparse Nat
  recoded : Sparse Nat
  unrecoded : Sparse Nat
  hbmCorrected : Nat
  hbmUncorrected : Nat
  overflowWait : Nat
  resent : Nat
  replays : Sparse Nat
  budget : Nat
  nextBudget : Nat
  tests : List SelfTest
  deriving DecidableEq, Repr

/-- A message sent to the host (R331): function and vector. -/
structure Msi where
  fn : Nat
  vector : Nat
  deriving DecidableEq, Repr

/-- What an image that SPILL wrote has no place for (R309, R310; log 69; the model's own): the user rings with each word's bindings,
reserved bits and stream offset, and the sequencer with every recorded value. -/
structure SpillNote where
  rings : Rings
  seq : Sequencer
  deriving DecidableEq, Repr

/-- Which part of the machine moves next. The agenda is the model's own: it stands for the order in which the manual lets
the parts act. -/
inductive Move where
  /-- The event, host access or command happens. -/
  | event (i : Instr)
  /-- The event happens to the k-th of the things that it may happen to in any order. -/
  | chosen (k : Nat) (i : Instr)
  /-- Core n moves, and stays the core that moves. -/
  | core (n : Nat)
  /-- The splitter of the core handles its next word although an engine could move. -/
  | split
  deriving DecidableEq, Repr

/-- The module. The firmware images of the two flash banks are those that FWSTAGE has written, none where a bank still holds
its image from manufacture, and `fwFirst` is the bank that the ROM tries first at the next reset (R337). `walkWait` counts the
cycles that walks have waited, by die (R343); `pick` is the model's own: which of the things that an event may happen to in any
order it happens to; `compMapped` says that a compressed page has been mapped (R293). `notes` holds what the images of SPILL have
no place for, by number; `blocked`, the model's own and clear between moves, says that a move met a line of job memory at which
something waits (R140, R285). -/
structure State where
  cur : Nat
  core : Core
  parked : Sparse Core
  mem : Memory
  agenda : List Move
  pick : Nat
  hbt : Word
  l2 : Sparse (List TlbEntry)
  l2ptr : Sparse (List TlbPointer)
  classes : Sparse (BitVec 4)
  fenced : Sparse Bool
  jobs : Sparse Job
  queues : Sparse Queue
  dies : Vector Die 4
  launch : Sparse (List Entry)
  stalled : List Stalled
  fullWaiters : List FullWaiter
  gangs : Sparse Gang
  nextGang : Nat
  quotas : Sparse Nat
  nextQuotas : Sparse Nat
  sliceGen : Sparse (BitVec 32)
  keys : Sparse KeySlot
  mig : Migration
  pool : Option Pool
  compMapped : Bool
  walkWait : Sparse Nat
  hostFns : Vector HostFn 33
  intmap : Sparse Nat
  faultMap : Sparse Nat
  featMask : Sparse (BitVec 5)
  sigReq : Sparse Bool
  vkeyX : Sparse (BitVec 384)
  vkeys : Sparse (BitVec 768)
  svnCount : BitVec 32
  verified : List (Nat × BitVec 6)
  netqs : Sparse NetQueue
  sent : List NetLine
  replies : List PeerReply
  bootState : BitVec 8
  bootBank : Bool
  fwSvn : BitVec 32
  flash : Vector (Option (List Byte)) 2
  fwFirst : Bool
  msgs : List Msi
  fleet : Fleet
  dispatched : Sparse Bool
  notes : List SpillNote
  blocked : Bool
  deriving DecidableEq, Repr

/-! ## Stops -/

/-- Why the machine stops with a fault: nothing does. Every fault of the manual is a trap that is taken (R296), a status that a
command returns (R269) or an access that fails (R328). -/
inductive Fault where
  deriving DecidableEq, Repr

/-- Why the model gives no meaning. -/
inductive Refusal where
  /-- Raised by exec for an instruction not modelled yet. Safe: nothing is claimed of it. -/
  | notModelled (mnemonic : String)
  deriving DecidableEq, Repr

/-! ## Reset -/

def Ring.empty : Ring := ⟨0, 0, []⟩

def Rings.empty : Rings := ⟨Ring.empty, Ring.empty, Ring.empty, Ring.empty⟩

/-- FMT FP32, VC VALID, LSE 127, SUB 0: the tag of a zero register at run start (R19). -/
def VReg.zero : VReg := ⟨0, 0x507F0000#32⟩

/-- An FP32 tile of zeros, VALID (R184). -/
def Tile.zero : Tile := ⟨0, 0, 0, []⟩

/-- The Default column of R186. -/
def MatrixConfig.initial : MatrixConfig := ⟨48, 64, 64, 1, 1, 0⟩

def SeqSet.zero : SeqSet := ⟨Vector.replicate 6 0, Vector.replicate 6 false, Vector.replicate 96 0, []⟩

def Sequencer.zero : Sequencer :=
  ⟨SeqSet.zero, SeqSet.zero, Vector.replicate 6 0, Vector.replicate 16 0, 0, false, false⟩

def Waiting.none : Waiting := ⟨0, 0, 0⟩

def StreamRun.idle : StreamRun := ⟨.none, 0, 0, 0, 0, none, 0, none⟩

/-- The states after SRSEED has been written with 1 (R57): X0, X1, Drain, Copy. -/
def Generators.initial : Generators := ⟨1#32, 0x00010000#32, 0x00000100#32, 0x01000000#32⟩

/-- Every byte 0x40: an entry that traps (R42, R43). -/
def latticeTrap : BitVec 8192 := BitVec.ofNat 8192 (0x40 * ((2 ^ 8192 - 1) / 255))

/-- The control registers after reset; DESIGN CHOICE where the spec gives no value (log 1), class 5 (log 2). -/
def Csrs.initial : Csrs :=
  { flags := 0, rmode := 0, tmode := 0, rrb := 0, latb := 0, status := 0, speed := 5, gid := 0, gsize := 1, slag := 0,
    slast := 0, features := 0x1F, cause := 0, epc := 0, tval := 0, ptb := 0, age := 0, waitlim := 0 }

/-- An idle core after module reset (R19, R15; log 1 where the spec gives no value). -/
def Core.idle : Core :=
  { run := none, pc := 0, pfx := none,
    s := Vector.replicate 32 0, a := Vector.replicate 32 0,
    trapS := Vector.replicate 8 0, trapA := Vector.replicate 8 0,
    v := Vector.replicate 64 VReg.zero,
    t1 := Vector.replicate 64 0, t2 := Vector.replicate 64 0, t3 := Vector.replicate 64 0,
    p := Vector.replicate 16 (BitVec.allOnes 64), ptag := Vector.replicate 16 0x007F0000#32,
    tokens := Vector.replicate 16 0, flumes := Vector.replicate 8 [], bnd := [], bq := [],
    tiles := Vector.replicate 32 Tile.zero, mcfg := MatrixConfig.initial,
    user := Rings.empty, trap := Rings.empty, mcmd := none, ycmds := [], barrier := none, records := [],
    lattice := latticeTrap, gens := Generators.initial, seq := Sequencer.zero,
    desc := Vector.replicate 16 0, runs := Vector.replicate 16 StreamRun.idle, storeQ := [],
    flight := [], issued := none, reached := none, seen := [], append := none, gathered := none, yielded := false,
    csr := Csrs.initial, icache := [], fcache := [], tlb := [], pending := none,
    waits := Vector.replicate 5 Waiting.none, arrived := none, filled := false,
    ord := 0, holdWord := [], holdAccess := [], holdStore := [], holdCommand := [], free := 0 }

/-- Memory after module reset (R15, R22). -/
def Memory.reset : Memory := ⟨[], [], [], [], [], [], []⟩

def Die.reset : Die :=
  { ready := none, reservation := none, reserveCluster := none, reserved := [], waiting := [], lastVf := 32, lastQueue := [], usage := [],
    noria := none, noriaQ := [], noriaTail := 0, noriaAt := 0, noriaDone := [],
    recoded := 0, skipped := 0, unmapped := 0 }

/-- A function's window after reset (R327 to R329); RESULT holds DONE = 1. -/
def HostFn.reset : HostFn :=
  { winctl := 0, fail := 0, busy := 0, seq := 0, done := true, status := 0, reply := [0, 0, 0, 0, 0, 0, 0],
    pending := none,
    msix := [], msixPending := 0, readback := [] }

/-- The power budget is 2,400 W at reset (R339). -/
def Fleet.reset : Fleet :=
  { cores := [], slices := [], throttled := [], heat := [], gbars := [], lagSum := [], lagMax := [],
    doubleFaults := [], recoded := [], unrecoded := [], hbmCorrected := 0, hbmUncorrected := 0, overflowWait := 0,
    resent := 0, replays := [], budget := 2400, nextBudget := 2400, tests := [] }

def Migration.reset : Migration :=
  { enabled := false, hot := 0, cold := 0, epoch := 0, counts := [], candidates := [], freeT0 := [], freeT1 := [],
    moving := none, failed := 0 }

/-- The module right after reset: firmware has booted (R337, STATE 1), no job exists, every core is idle. -/
def State.reset : State :=
  { cur := 0, core := Core.idle, parked := [], mem := Memory.reset, agenda := [], pick := 0, hbt := 0, l2 := [], l2ptr := [],
    classes := [], fenced := [], jobs := [], queues := [], dies := Vector.replicate 4 Die.reset, launch := [],
    stalled := [], fullWaiters := [], gangs := [], nextGang := 0, quotas := [], nextQuotas := [], sliceGen := [], keys := [],
    mig := Migration.reset, pool := none, compMapped := false, walkWait := [], hostFns := Vector.replicate 33 HostFn.reset,
    intmap := [], faultMap := [], featMask := [], sigReq := [], vkeyX := [], vkeys := [], svnCount := 0, verified := [], netqs := [], sent := [], replies := [],
    bootState := 1, bootBank := false, fwSvn := 0, flash := Vector.replicate 2 none, fwFirst := false,
    msgs := [], fleet := Fleet.reset, dispatched := [], notes := [], blocked := false }

end Sys2Proof.Machine
end

