-- ==== Sys2Proof/Machine/Operands.lean ====
section
/-! DEFINITION. Operand forms: format tags (R22, R31 to R33), storage formats (R24 to R30), lines and registers as
elements (R23, R28, R29, R37), conversions between formats (R52 to R55, R58), tangent formats (R156), and the promotion
lattice (R41, R42). -/

namespace Sys2Proof.Machine

/-! ## Tags (R22) -/

def tagFmt (t : Tag) : Nat := bitsNat t 27 5
def tagVc (t : Tag) : Nat := bitsNat t 25 2
def tagFill (t : Tag) : Bool := t.getLsbD 24
def tagLse (t : Tag) : Nat := bitsNat t 16 8
def tagSub (t : Tag) : Nat := bitsNat t 0 16
def tagDetail (t : Tag) : Nat := bitsNat t 0 8

/-- Sub-block decrement d_k (R22). -/
def tagDec (t : Tag) (k : Nat) : Nat := bitsNat t (2 * k) 2

def vcValid : Nat := 0
def vcSpoiled : Nat := 1
def vcUninit : Nat := 2
def vcInvalid : Nat := 3

def dSET : Nat := 0
def dPOISON : Nat := 1
def dMALFORMED : Nat := 2
def dTAGSPLIT : Nat := 3
def dCODING : Nat := 4

/-- A tag of its fields. -/
def mkTag (fmt vc : Nat) (fill : Bool) (lse sub : Nat) : Tag :=
  BitVec.ofNat 32 (fmt * 2 ^ 27 + vc * 2 ^ 25 + (if fill then 2 ^ 24 else 0) + lse * 2 ^ 16 + sub)

/-- An INVALID tag (R33). -/
def mkInvalid (fmt detail : Nat) : Tag := mkTag fmt vcInvalid false 0 detail

/-- VALID, FILL 0, LSE 127, SUB 0. -/
def plainTag (fmt : Nat) : Tag := mkTag fmt vcValid false 127 0

/-- RAW and VALID (R35, R85). -/
def rawTag : Tag := 0x007F0000#32

/-- SUB of a list of eight decrements. -/
def mkSub : List Nat → Nat
  | [] => 0
  | d :: ds => d + 4 * mkSub ds

/-! ## Formats (R24) -/

def kRAW : Nat := 0x00
def kINT8 : Nat := 0x01
def kUINT8 : Nat := 0x02
def kINT16 : Nat := 0x03
def kUINT16 : Nat := 0x04
def kINT32 : Nat := 0x05
def kUINT32 : Nat := 0x06
def kINT64 : Nat := 0x07
def kUINT64 : Nat := 0x08
def kFP64 : Nat := 0x09
def kFP32 : Nat := 0x0A
def kFP16 : Nat := 0x0B
def kBF16 : Nat := 0x0C
def kE4M3 : Nat := 0x0D
def kE5M2 : Nat := 0x0E
def kE3M2 : Nat := 0x0F
def kE2M3 : Nat := 0x10
def kE2M1 : Nat := 0x11
def kGI4 : Nat := 0x12
def kGI3 : Nat := 0x13
def kCF64 : Nat := 0x14
def kCF32 : Nat := 0x15

/-- How a format's element is read (R25 to R27). -/
inductive Kind where
  | raw
  | int (signed : Bool) (w : Nat)
  | float (f : FloatFmt)
  | gi (w : Nat)
  | complex (f : FloatFmt)
  | reserved
  deriving DecidableEq, Repr

def kindOf (fmt : Nat) : Kind :=
  match fmt with
  | 0x00 => .raw
  | 0x01 => .int true 8
  | 0x02 => .int false 8
  | 0x03 => .int true 16
  | 0x04 => .int false 16
  | 0x05 => .int true 32
  | 0x06 => .int false 32
  | 0x07 => .int true 64
  | 0x08 => .int false 64
  | 0x09 => .float FloatFmt.fp64
  | 0x0A => .float FloatFmt.fp32
  | 0x0B => .float FloatFmt.fp16
  | 0x0C => .float FloatFmt.bf16
  | 0x0D => .float FloatFmt.e4m3
  | 0x0E => .float FloatFmt.e5m2
  | 0x0F => .float FloatFmt.e3m2
  | 0x10 => .float FloatFmt.e2m3
  | 0x11 => .float FloatFmt.e2m1
  | 0x12 => .gi 4
  | 0x13 => .gi 3
  | 0x14 => .complex FloatFmt.fp64
  | 0x15 => .complex FloatFmt.fp32
  | _ => .reserved

def isReserved (fmt : Nat) : Bool := decide (0x16 ≤ fmt)

/-- INT8 to UINT64 (R25). -/
def isInt (fmt : Nat) : Bool := match kindOf fmt with | .int _ _ => true | _ => false
def isComplex (fmt : Nat) : Bool := match kindOf fmt with | .complex _ => true | _ => false
def isSignedInt (fmt : Nat) : Bool := match kindOf fmt with | .int s _ => s | _ => false

/-- Element bits (R24). -/
def elemBits (fmt : Nat) : Nat :=
  match kindOf fmt with
  | .raw => 8
  | .int _ w => w
  | .float f => f.width
  | .gi w => w
  | .complex f => 2 * f.width
  | .reserved => 8

/-- Native elements of a line (R24). -/
def nativeCount (fmt : Nat) : Nat :=
  match elemBits fmt with
  | 8 => 128
  | 16 => 64
  | 32 => 32
  | 64 => 16
  | 6 => 128
  | 4 => 256
  | 3 => 320
  | 128 => 8
  | _ => 128

/-- Formats whose LSE and SUB may vary (R24). -/
def isScaled (fmt : Nat) : Bool := decide (0x0B ≤ fmt ∧ fmt ≤ 0x13)

/-- Formats that permit FILL = 1 (R24). -/
def isFillFmt (fmt : Nat) : Bool := decide (0x0D ≤ fmt ∧ fmt ≤ 0x13)

/-- Elements of a line: 64 in a fill line, native otherwise (R22, R29). -/
def lineCount (fmt : Nat) (fill : Bool) : Nat := if fill then 64 else nativeCount fmt

/-- Sub-block size S (R23, R24): an eighth of the line's elements. -/
def subSize (fmt : Nat) (fill : Bool) : Nat := lineCount fmt fill / 8

/-- Elements of a register (R37). -/
def regCount (fmt : Nat) : Nat :=
  match elemBits fmt with
  | 64 => 32
  | 128 => 16
  | _ => 64

/-- The bit of a line at which element e begins (R28, R29). -/
def elemPos (fmt e : Nat) : Nat :=
  if elemBits fmt = 3 then 32 * (e / 10) + 3 * (e % 10) else elemBits fmt * e

/-- emax of R26. -/
def emaxOf (fmt : Nat) : Int :=
  match kindOf fmt with
  | .float f => f.maxExp
  | .gi w => if w = 4 then 2 else 1
  | _ => 0

/-- VC of a result: SPOILED where an operand was or the word spoils (R154). An INVALID tag stays. -/
def spoilTag (t : Tag) (sp : Bool) : Tag :=
  if sp && decide (tagVc t = vcValid) then mkTag (tagFmt t) vcSpoiled (tagFill t) (tagLse t) (tagSub t) else t

/-! ## Malformed tags (R31, R32) -/

def tagMalformed (t : Tag) : Bool :=
  let vc := tagVc t
  let f := tagFmt t
  if vc = vcUninit then false
  else
    isReserved f ||
    (decide (vc = vcValid ∨ vc = vcSpoiled) &&
      ((tagFill t && !isFillFmt f) || decide (tagLse t = 0xFF) ||
        (!isScaled f && decide (tagLse t ≠ 127 ∨ tagSub t ≠ 0)))) ||
    (decide (vc = vcInvalid) && (decide (bitsNat t 8 17 ≠ 0) || decide (4 < tagDetail t)))

/-- What a malformed tag reads as (R32). -/
def malformedTag (t : Tag) : Tag := mkInvalid (if isReserved (tagFmt t) then kRAW else tagFmt t) dMALFORMED

/-- A tag an instruction forms: the INVALID tag of R32 in place of a malformed one, FILL cleared in a register. -/
def formRegTag (t : Tag) : Tag := if tagMalformed t then malformedTag t else t

/-! ## Elements -/

/-- An element's exact value; the imaginary part of a real element is +0 (R54). -/
structure Elt where
  re : Num
  im : Num
  deriving DecidableEq, Repr

def Elt.zero : Elt := ⟨Num.zero, Num.zero⟩
def Elt.real (x : Num) : Elt := ⟨x, Num.zero⟩

/-- A two's-complement reading of w bits. -/
def signedOf (w bits : Nat) : Int := if bits < 2 ^ (w - 1) then bits else (bits : Int) - 2 ^ w

/-- The value of an element's bits without its scale (R25 to R27). -/
def decodeElem (fmt bits : Nat) : Elt :=
  match kindOf fmt with
  | .raw => Elt.real (Num.ofNat bits)
  | .int s w => Elt.real (if s then Num.ofInt (signedOf w bits) else Num.ofNat bits)
  | .float f => Elt.real (f.decode bits)
  | .gi w => Elt.real (Num.ofInt (signedOf w bits))
  | .complex f => ⟨f.decode (bits % 2 ^ f.width), f.decode (bits / 2 ^ f.width)⟩
  | .reserved => Elt.zero

def Elt.scale (x : Elt) (e : Int) : Elt := ⟨x.re.scale e, x.im.scale e⟩

/-- The scale exponent of element e of a line with tag t (R23). -/
def lineScale (t : Tag) (e : Nat) : Int :=
  if isScaled (tagFmt t) then
    (tagLse t : Int) - 127 - tagDec t (e / subSize (tagFmt t) (tagFill t))
  else 0

/-- The bits of element e of a line. -/
def lineElemBits (fmt : Nat) (line : LineBits) (e : Nat) : Nat := bitsNat line (elemPos fmt e) (elemBits fmt)

/-- The value of element e of a line with tag t (R23). -/
def lineElem (t : Tag) (line : LineBits) (e : Nat) : Elt :=
  (decodeElem (tagFmt t) (lineElemBits (tagFmt t) line e)).scale (lineScale t e)

/-- A number with bits [pos+w-1:pos] replaced. -/
def putBits (n pos w v : Nat) : Nat :=
  n - (n / 2 ^ pos % 2 ^ w) * 2 ^ pos + (v % 2 ^ w) * 2 ^ pos

/-- A line with element e replaced. -/
def putLineElem (fmt : Nat) (line : LineBits) (e v : Nat) : LineBits :=
  BitVec.ofNat 1024 (putBits line.toNat (elemPos fmt e) (elemBits fmt) v)

/-- A line of elements from element `e` up, with zero padding (R30). -/
def packFrom (fmt : Nat) : Nat → List Nat → Nat
  | _, [] => 0
  | e, v :: vs => (v % 2 ^ elemBits fmt) * 2 ^ elemPos fmt e + packFrom fmt (e + 1) vs

def packLine (fmt : Nat) (vs : List Nat) : LineBits := BitVec.ofNat 1024 (packFrom fmt 0 vs)

/-- The bits of a line with its padding zero: what holds no element of its format and FILL (R30). -/
def padLine (t : Tag) (d : LineBits) : LineBits :=
  if tagMalformed t then d
  else packLine (tagFmt t) ((List.range (lineCount (tagFmt t) (tagFill t))).map (lineElemBits (tagFmt t) d))

/-! ## Registers (R37) -/

/-- Bits of a lane slot of a register with n elements. -/
def slotBits (n : Nat) : Nat := 2048 / n

/-- The bits of lane L of a register of format fmt. -/
def laneBits (fmt : Nat) (r : RegBits) (L : Nat) : Nat := bitsNat r (slotBits (regCount fmt) * L) (elemBits fmt)

/-- Register bits of lane values, slots of 2048 / n bits. -/
def packSlots (n : Nat) : List Nat → Nat
  | [] => 0
  | v :: vs => v % 2 ^ slotBits n + 2 ^ slotBits n * packSlots n vs

def packReg (fmt : Nat) (vs : List Nat) : RegBits :=
  BitVec.ofNat 2048 (packSlots (regCount fmt) (vs.map (· % 2 ^ elemBits fmt)))

/-- The lanes of a register as raw element bits. -/
def regLanes (r : VReg) : List Nat :=
  (List.range (regCount (tagFmt r.tag))).map (laneBits (tagFmt r.tag) r.data)

/-- The scale exponent of lane L of a register tag (R37). -/
def regScale (t : Tag) (L : Nat) : Int :=
  if isScaled (tagFmt t) then (tagLse t : Int) - 127 - tagDec t (L / 8) else 0

/-- The value of lane L (R45 step 1). -/
def regElem (r : VReg) (L : Nat) : Elt :=
  (decodeElem (tagFmt r.tag) (laneBits (tagFmt r.tag) r.data L)).scale (regScale r.tag L)

/-! ## Tangents (R156) -/

/-- The tangent format of a primal element format. -/
def tangentFmt (fmt : Nat) : Nat :=
  if fmt = kCF32 then kCF32
  else if fmt = kCF64 then kCF64
  else if fmt = kFP64 ∨ fmt = kINT64 ∨ fmt = kUINT64 then kFP64
  else kFP32

def tangentTag (fmt : Nat) : Tag := plainTag (tangentFmt fmt)

/-- The value of lane L of a shadow of a register of format fmt. -/
def tangentElem (fmt : Nat) (r : RegBits) (L : Nat) : Elt :=
  decodeElem (tangentFmt fmt) (laneBits (tangentFmt fmt) r L)

/-! ## Conversions -/

/-- The random value of a stochastic rounding: bits [15:0] of the generator rotated by 7 × e (R58). -/
def srBits (x : BitVec 32) (e : Nat) : BitVec 16 := (x.rotateLeft (7 * e % 32)).extractLsb' 0 16

/-- One advance of a generator (R56). -/
def advance (x : BitVec 32) : BitVec 32 :=
  let x := x ^^^ (x <<< 13)
  let x := x ^^^ (x >>> 17)
  x ^^^ (x <<< 5)

/-- The mode that a rounding field or RMODE.RM names: 0 to 3, SR, or RNE for the rest (R48). -/
inductive RoundSel where
  | rne | rtz | rdn | rup | sr
  deriving DecidableEq, Repr

def roundSel (rm : Nat) : RoundSel :=
  match rm with
  | 1 => .rtz
  | 2 => .rdn
  | 3 => .rup
  | 4 => .sr
  | _ => .rne

/-- The mode of an operation that does not convert: SR rounds as RNE (R49). -/
def RoundSel.plain : RoundSel → RMode
  | .rtz => .rtz
  | .rdn => .rdn
  | .rup => .rup
  | _ => .rne

/-- The mode of a converting operation, with the random value SR uses. -/
def RoundSel.withBits (r : RoundSel) (w : BitVec 16) : RMode :=
  match r with
  | .sr => .sr w
  | r => r.plain

/-- R54: conversions that fault TYPE. -/
def convForbidden (src dst : Nat) : Bool :=
  decide (src = kRAW) || decide (dst = kRAW) || (isComplex src && !isComplex dst) || isReserved dst

/-- A real component to a real format that is not complex (R52, R53). -/
def convReal (dst : Nat) (mode : RMode) (nonsat fromInt : Bool) (x : Num) : Conv :=
  match kindOf dst with
  | .int s w => toInteger s w mode nonsat fromInt x
  | .gi w => toGI w mode nonsat x
  | .float f => toFloat f mode nonsat x
  | .complex f => toFloat f mode nonsat x
  | _ => ⟨0, 0, false⟩

/-- The complex element of two converted components: where one is NaN, both are the canonical NaN (R46), and the flags of
the other component's rounding are not set (log 28). -/
def pairConv (f : FloatFmt) (a b : Conv) : Conv :=
  if (f.decode a.bits).isNaN || (f.decode b.bits).isNaN then ⟨f.nanCode + f.nanCode * 2 ^ f.width, 0, false⟩
  else ⟨a.bits + b.bits * 2 ^ f.width, a.flags ||| b.flags, a.spoiled || b.spoiled⟩

/-- An element converted to format dst (R52 to R54): the value is divided exactly by 2^scale first. `mode` gives the
rounding of the real part, `imMode` that of the imaginary part. -/
def convElem (dst : Nat) (mode imMode : RMode) (nonsat fromInt : Bool) (scale : Int) (x : Elt) : Conv :=
  let a := convReal dst mode nonsat fromInt (x.re.scale (-scale))
  match kindOf dst with
  | .complex f => pairConv f a (convReal dst imMode nonsat fromInt (x.im.scale (-scale)))
  | _ => a

/-- Flags of a list of conversions, with SPOIL where one spoils (R53). -/
def convFlags (cs : List Conv) : Flags := cs.foldl (fun a c => a ||| c.flags) 0
def convSpoils (cs : List Conv) : Bool := cs.any Conv.spoiled

/-- The greatest Floor(Log2) among finite nonzero values, or none. -/
def maxLog2 (xs : List Num) : Option Int :=
  xs.foldl (fun a x =>
    if x.isFin && !x.isZero then
      match a with
      | none => some x.floorLog2
      | some e => some (max e x.floorLog2)
    else a) none

/-- The scale that a converter chooses over a group of elements (R55): LSE and the eight decrements. Element i lies in
sub-block i / S. -/
def chooseScale (dst : Nat) (S : Nat) (xs : List Num) : Nat × List Nat :=
  match maxLog2 xs with
  | none => (127, [0, 0, 0, 0, 0, 0, 0, 0])
  | some m =>
    let lse : Int := max 0 (min 254 (m - emaxOf dst + 127))
    let d (k : Nat) : Nat :=
      match maxLog2 ((xs.drop (k * S)).take S) with
      | none => 3
      | some mk => (min 3 (max 0 (lse - 127 + emaxOf dst - mk))).toNat
    (lse.toNat, (List.range 8).map d)

/-! ## The promotion lattice (R41, R42) -/

/-- The entry for operand formats fa and fb in a cached lattice. -/
def latticeByte (lat : BitVec 8192) (fa fb : Nat) : Nat := bitsNat lat (8 * (32 * fa + fb)) 8

/-- Formats an entry may compute in. -/
def computeFmt (f : Nat) : Bool :=
  decide (f = kFP64 ∨ f = kFP32 ∨ f = kFP16 ∨ f = kBF16 ∨ f = kCF64 ∨ f = kCF32 ∨ f = kINT32 ∨ f = kINT64 ∨
    f = kUINT32 ∨ f = kUINT64)

/-- One step of the lattice: the compute format and whether the result is SPOILED; none is TRAP. -/
def latticeStep (lat : BitVec 8192) (fa fb : Nat) : Option (Nat × Bool) :=
  let b := latticeByte lat fa fb
  let act := b / 64
  let f := b % 32
  if act = 1 ∨ act = 3 ∨ b / 32 % 2 = 1 then none
  else if !computeFmt f then none
  else if f = kFP16 ∧ ¬(fa = kFP16 ∧ fb = kFP16) then none
  else if f = kBF16 ∧ ¬(fa = kBF16 ∧ fb = kBF16) then none
  else some (f, act == 2)

/-! ## Fields of a stream descriptor (R131, R132) -/

def descToff (d : BitVec 256) : Word := d.extractLsb' 192 64
def descStride1 (d : BitVec 256) : Word := d.extractLsb' 128 64
def descStride0 (d : BitVec 256) : Word := d.extractLsb' 64 64
def descInner (d : BitVec 256) : Nat := bitsNat d 32 32
def descDepth (d : BitVec 256) : Nat := bitsNat d 16 6
def descEg (d : BitVec 256) : Nat := bitsNat d 5 3
def descPair (d : BitVec 256) : Bool := d.getLsbD 4
def descFlume (d : BitVec 256) : Nat := bitsNat d 0 3

/-- A nonzero reserved field, a stride or TOFF that is not a multiple of 128, or DEPTH above 32 (R132). -/
def descRefused (d : BitVec 256) : Bool :=
  decide (bitsNat d 22 10 ≠ 0 ∨ bitsNat d 8 8 ≠ 0 ∨ bitsNat d 3 1 ≠ 0) ||
  decide ((descStride0 d).toNat % 128 ≠ 0 ∨ (descStride1 d).toNat % 128 ≠ 0 ∨ (descToff d).toNat % 128 ≠ 0) ||
  decide (32 < descDepth d)

end Sys2Proof.Machine
end

