-- ==== Sys2Proof/Machine/Recode.lean ====
section
/-! DEFINITION. Lines formed by a converter: scale, rounding, data and tag (R52 to R58), as drains, copies, VSTP, store
demotion and the noria form them. -/

namespace Sys2Proof.Machine

/-- A line that a converter formed: its data, scale and decrements, and the flags and spoiling of its elements. -/
structure Formed where
  data : LineBits
  lse : Nat
  decs : List Nat
  flags : Flags
  spoiled : Bool
  deriving DecidableEq, Repr

/-- The scale exponent of element e under a chosen scale. -/
def scaleAt (lse : Nat) (decs : List Nat) (S e : Nat) : Int := (lse : Int) - 127 - decs.getD (e / S) 0

/-- Elements converted one after the other from index e, each with whether it comes from an integer format; `n` is the
element count that R58 adds for imaginary parts. -/
def convFrom (dst : Nat) (sel : RoundSel) (rnd : BitVec 32) (n : Nat) (nonsat : Bool) (scale : Nat → Int) :
    Nat → List (Elt × Bool) → List Conv
  | _, [] => []
  | e, (x, fromInt) :: xs =>
    convElem dst (sel.withBits (srBits rnd e)) (sel.withBits (srBits rnd (e + n))) nonsat fromInt (scale e) x ::
      convFrom dst sel rnd n nonsat scale (e + 1) xs

/-- A line of format dst formed from its elements. `given` is the scale that the word supplies; without one the converter
chooses it over the elements (R55). Formats that are not scaled take LSE 127 and SUB 0. -/
def formMixed (dst : Nat) (fill : Bool) (sel : RoundSel) (rnd : BitVec 32) (nonsat : Bool)
    (given : Option (Nat × List Nat)) (xs : List (Elt × Bool)) : Formed :=
  let S := subSize dst fill
  let (lse, decs) : Nat × List Nat :=
    if !isScaled dst then (127, [0, 0, 0, 0, 0, 0, 0, 0])
    else match given with
      | some g => g
      | none => chooseScale dst S (xs.map (fun x => x.1.re))
  let cs := convFrom dst sel rnd (lineCount dst fill) nonsat
    (fun e => if isScaled dst then scaleAt lse decs S e else 0) 0 xs
  ⟨packLine dst (cs.map Conv.bits), lse, decs, convFlags cs, convSpoils cs⟩

/-- A line formed from elements of one kind. -/
def formLine (dst : Nat) (fill : Bool) (sel : RoundSel) (rnd : BitVec 32) (nonsat fromInt : Bool)
    (given : Option (Nat × List Nat)) (xs : List Elt) : Formed :=
  formMixed dst fill sel rnd nonsat given (xs.map (fun x => (x, fromInt)))

/-- The tag of a formed line. -/
def Formed.tag (f : Formed) (dst : Nat) (fill spoiledIn : Bool) : Tag :=
  mkTag dst (if spoiledIn || f.spoiled then vcSpoiled else vcValid) fill f.lse (mkSub f.decs)

/-- The 64 elements of a 16-bit or fill line recoded as a fill line of a narrow format (R126, R290). -/
def recodeLine (dst : Nat) (sel : RoundSel) (rnd : BitVec 32) (t : Tag) (d : LineBits) : Tag × LineBits :=
  let f := formLine dst true sel rnd false false none ((List.range 64).map (lineElem t d))
  (f.tag dst true (tagVc t == vcSpoiled), f.data)

/-- A written line that a page with DPFMT demotes (R126). -/
def demotes (dpfmt : Nat) (t : Tag) : Bool :=
  decide (dpfmt ≠ 0) && decide (tagFmt t = kFP16 ∨ tagFmt t = kBF16) &&
    decide (tagVc t = vcValid ∨ tagVc t = vcSpoiled)

end Sys2Proof.Machine
end

