-- ==== Sys2Proof/Config.lean ====
section
/-! DEFINITION. What the manual leaves open and what it names without giving: constants without a body, so that nothing
in Lean can evaluate them and a theorem holds whatever they are. Each is named in the assumption log. -/

namespace Sys2Proof.Config

/-- A value the manual leaves open, fresh for each count (logs 5, 6). -/
opaque freeNat : Nat → Nat

/-- Data that is "of no account" (R185, R193), fresh for each count (log 6). -/
opaque freeBits : Nat → BitVec 32

/-- What a vacant slot of a saved run's image holds, which no rule gives (R309; log 6). -/
opaque vacantBits : Nat → RegBits

/-- The interleave hash of R206: the L2 slice that homes a physical line address (log 7). -/
opaque sliceOf : Nat → Fin 512

/-- A line that a load turns out to need and that its checks did not foresee, because the tag from which they worked out
the lines had changed when the line was read (R116, R117; log 71). -/
opaque lateTag : Nat → Tag
opaque lateData : Nat → LineBits

/-- Which entry a full translation cache, instruction cache or record cache gives up (log 8). -/
opaque victim : Nat → Nat

/-- The nanoseconds within a heartbeat tick at which an arrival is stamped (R113, R230; log 9). -/
opaque stampNs : Nat → Nat

/-- The cycles and the microseconds that a run occupied its core (R260, R261; log 9). -/
opaque runCycles : Nat → Nat
opaque runMicros : Nat → Nat

/-- The fused digest of a verification key, and the fused firmware key (R330, R337; log 10). -/
opaque fusedDigest : Nat → BitVec 384
opaque firmwareKey : BitVec 768

/-- The image that a flash bank holds from manufacture (R337; log 10). -/
opaque flashImage : Nat → List Byte

/-- The signature and the security version that a firmware image carries; no rule gives the image's layout (R337;
log 10). -/
opaque firmwareSignature : List Byte → BitVec 384 × BitVec 384
opaque firmwareSvn : List Byte → BitVec 32

/-- Whether the fault that a self-test looks for is a lasting one (R340; log 11). -/
opaque lastingFault : Nat → Bool

/-- The cycles that a walk waits in the walker's queue (R343; log 11). -/
opaque walkCycles : Nat → Nat

/-- The spare SRAM rows of a core, or of a slice at 1,024 and above (R340; log 11). -/
opaque spareRows : Nat → Nat

/-- Grants of the weir in a microsecond, and mean module power (R339, R343; log 11). -/
opaque weirThrottles : Nat → Bool
opaque weirIdles : Nat → Nat
opaque meanPower : Nat → Nat

/-- The result that an FP64 transcendental word would have if the enclosure of its exact value never narrowed to one
number at the precisions the model tries (R62; log 12). -/
opaque fp64Fallback : Nat → BitVec 64 → BitVec 64

/-- VSIN (false) and VCOS (true) of a finite value whose product with 0.636619772 overflows FP32, for which the algorithm of
R64 gives no k: the FP32 result, by the value's sign and ratio (log 12). -/
opaque hugeAngle : Bool → Bool → Nat → Nat → BitVec 32

/-- What a third-party or peer target answers on a link (R333, R335; log 13). -/
opaque linkData : Nat → LineBits
opaque linkTag : Nat → Tag

/-- The remote of a network queue is a Scegizia device, so that tags travel with its lines (R335; log 13). -/
opaque tagsTravel : Nat → Bool

end Sys2Proof.Config
end

