-- ==== Sys2Proof/Machine/Cipher.lean ====
section
/-! DEFINITION. AES-256-XTS (R286), as FIPS 197 and IEEE 1619, which the rule names, define it: a block is 16 bytes, byte 0 in
the low bits; a key is 32 bytes, byte 0 in the low bits. -/

namespace Sys2Proof.Machine

/-! ## Bytes of GF(2^8) -/

/-- The byte at index `x` of a table of 16 rows of 16 bytes, the first in the low bits. -/
def tableByte (t : List Nat) (x : Nat) : Nat := t.getD (x / 16) 0 / 256 ^ (x % 16) % 256

/-- The S-box of FIPS 197, and its inverse. -/
def sboxTable : List Nat :=
  [0x76abd7fe2b670130c56f6bf27b777c63, 0xc072a49cafa2d4adf04759fa7dc982ca,
   0x1531d871f1e5a534ccf73f362693fdb7, 0x75b227ebe28012079a059618c323c704,
   0x842fe329b3d63b52a05a6e1b1a2c8309, 0xcf584c4a39becb6a5bb1fc20ed00d153,
   0xa89f3c507f02f94585334d43fbaaefd0, 0xd2f3ff1021dab6bcf5389d928f40a351,
   0x73195d643d7ea7c41744975fec130ccd, 0xdb0b5ede14b8ee4688902a22dc4f8160,
   0x79e4959162acd3c25c2406490a3a32e0, 0x08ae7a65eaf4566ca94ed58d6d37c8e7,
   0x8a8bbd4b1f74dde8c6b4a61c2e2578ba, 0x9e1dc186b95735610ef6034866b53e70,
   0xdf2855cee9871e9b948ed9691198f8e1, 0x16bb54b00f2d99416842e6bf0d89a18c]
def sboxInverse : List Nat :=
  [0xfbd7f3819ea340bf38a53630d56a0952, 0xcbe9dec444438e3487ff2f9b8239e37c,
   0x4ec3fa420b954cee3d23c2a632947b54, 0x25d18b6d49a25b76b224d92866a12e08,
   0x92b6655dcc5ca4d41698688664f6f872, 0x849d8da75746155edab9edfd5048706c,
   0x0645b3b80558e4f70ad3bc8c00abd890, 0x6b8a130103bdafc1020f3fca8f1e2cd0,
   0x73e6b4f0cecff297eadc674f4111913a, 0x6edf751ce837f9e28535ade72274ac96,
   0x1bbe18aa0e62b76f89c5291d711af147, 0xf45acd78fec0db9a2079d2c64b3e56fc,
   0x5fec8027591012b131c7078833a8dd1f, 0xef9cc9939f7ae52d0d4ab519a97f5160,
   0x619953833cbbebc8b0f52aae4d3be0a0, 0x7d0c2155631469e126d677ba7e042b17]

/-- A byte multiplied by x. -/
def xtimes (a : Nat) : Nat := if a < 128 then 2 * a else (2 * a) ^^^ 0x11B

/-- The product of two bytes; `n` bits of the second are left. -/
def byteProduct (a : Nat) : Nat → Nat → Nat
  | 0, _ => 0
  | n + 1, b => (if b % 2 = 1 then a else 0) ^^^ byteProduct (xtimes a) n (b / 2)

/-! ## AES-256 -/

/-- The bytes of a number, the lowest first. -/
def lowBytes (n v : Nat) : List Nat := (List.range n).map (fun i => v / 256 ^ i % 256)

def ofBytes : List Nat → Nat
  | [] => 0
  | b :: bs => b + 256 * ofBytes bs

def xorBytes (a b : List Nat) : List Nat := a.zipWith (· ^^^ ·) b

/-- The words of the expanded key from word `i` on, given the last eight words, the earliest first. -/
def expandFrom : Nat → Nat → List (List Nat) → List (List Nat)
  | 0, _, _ => []
  | n + 1, i, ws =>
    let last := ws.getD 7 []
    let t : List Nat :=
      if i % 8 = 0 then
        xorBytes ((last.drop 1 ++ last.take 1).map (tableByte sboxTable)) [2 ^ (i / 8 - 1), 0, 0, 0]
      else if i % 8 = 4 then last.map (tableByte sboxTable)
      else last
    let w := xorBytes (ws.headD []) t
    w :: expandFrom n (i + 1) (ws.drop 1 ++ [w])

/-- The 15 round keys of 16 bytes. -/
def roundKeys (key : Nat) : List (List Nat) :=
  let first := (List.range 8).map (fun i => lowBytes 4 (key / 2 ^ (32 * i)))
  let ws := first ++ expandFrom 52 8 first
  (List.range 15).map (fun r => ((ws.drop (4 * r)).take 4).flatten)

/-- Row r of the state moves r places, to the left or back. -/
def shiftRows (back : Bool) (b : List Nat) : List Nat :=
  (List.range 16).map (fun i => b.getD ((i + (if back then 12 else 4) * (i % 4)) % 16) 0)

/-- Each column of the state multiplied by the matrix whose first row is given. -/
def mixColumns (row : List Nat) (b : List Nat) : List Nat :=
  (List.range 16).map (fun i => ((List.range 4).map (fun j =>
    byteProduct (b.getD (i - i % 4 + j) 0) 8 (row.getD ((j + 4 - i % 4) % 4) 0))).foldl (· ^^^ ·) 0)

/-- The rounds of the cipher, each with its key; the last mixes no columns. -/
def encryptRounds : List (List Nat) → List Nat → List Nat
  | [], b => b
  | k :: ks, b =>
    let c := shiftRows false (b.map (tableByte sboxTable))
    encryptRounds ks (xorBytes (if ks.isEmpty then c else mixColumns [2, 3, 1, 1] c) k)

/-- The rounds of the inverse cipher, with the keys from the last. -/
def decryptRounds : List (List Nat) → List Nat → List Nat
  | [], b => b
  | k :: ks, b =>
    let c := xorBytes ((shiftRows true b).map (tableByte sboxInverse)) k
    decryptRounds ks (if ks.isEmpty then c else mixColumns [14, 11, 13, 9] c)

/-- A block enciphered under round keys. -/
def encryptBlock (keys : List (List Nat)) (v : Nat) : Nat :=
  ofBytes (encryptRounds (keys.drop 1) (xorBytes (lowBytes 16 v) (keys.headD [])))

def decryptBlock (keys : List (List Nat)) (v : Nat) : Nat :=
  match keys.reverse with
  | [] => v
  | k :: ks => ofBytes (decryptRounds ks (xorBytes (lowBytes 16 v) k))

/-! ## XTS -/

/-- The tweak of the next block: the product with x in GF(2^128). -/
def nextTweak (t : Nat) : Nat := if t < 2 ^ 127 then 2 * t else (2 * t - 2 ^ 128) ^^^ 0x87

/-- The blocks of a data unit from the first on, each under its tweak; the first `clear` are not touched. -/
def xtsBlocks (f : Nat → Nat) : Nat → Nat → Nat → Nat → Nat
  | 0, _, _, _ => 0
  | n + 1, clear, t, v =>
    let b := v % 2 ^ 128
    (if clear = 0 then f (b ^^^ t) ^^^ t else b) + 2 ^ 128 * xtsBlocks f n (clear - 1) (nextTweak t) (v / 2 ^ 128)

/-- A line of 128 bytes enciphered, or deciphered, as the data unit with a number; `clear` leading blocks stay as they are. -/
def xtsLine (decipher : Bool) (clear : Nat) (data tweak unit : Nat) (d : LineBits) : LineBits :=
  let keys := roundKeys data
  let f := if decipher then decryptBlock keys else encryptBlock keys
  BitVec.ofNat 1024 (xtsBlocks f 8 clear (encryptBlock (roundKeys tweak) unit) d.toNat)

/-! ## How a line is stored (R286, R287) -/

/-- What a line is stored under: 0 in the clear; else twice 1 + data key + 2^256 times the tweak key, and one more for the
line that holds the header sector of a compressed block, whose blocks 0 and 1 are never encrypted. -/
def cipherKey (data tweak : BitVec 256) : Nat := 2 * (1 + data.toNat + 2 ^ 256 * tweak.toNat)
def headerKey (v : Nat) : Nat := if v = 0 then 0 else v / 2 * 2 + 1

/-- The line at an address as stored under `v`, of its data in the clear; or back. -/
def storedForm (decipher : Bool) (v addr : Nat) (d : LineBits) : LineBits :=
  let k := v / 2 - 1
  if v < 2 then d
  else xtsLine decipher (if v % 2 = 0 then 0 else 2) (k % 2 ^ 256) (k / 2 ^ 256) addr d

/-- A line that was stored under `v`, as it reads under `w` (R287); `addr` is its physical address, which is the tweak. -/
def recrypt (v w addr : Nat) (d : LineBits) : LineBits :=
  if v = w then d else storedForm true w addr (storedForm false v addr d)

end Sys2Proof.Machine
end

