-- ==== Sys2Proof/Machine/Sparse.lean ====
section
/-! DEFINITION. Reading and writing sparse data: one canonical form, so that equal contents are equal lists. -/

namespace Sys2Proof.Machine

/-- The value at key `i`; `d` where the list names none. -/
def sget {α : Type} (d : α) : Sparse α → Nat → α
  | [], _ => d
  | (k, v) :: t, i => if i = k then v else if i < k then d else sget d t i

/-- The list with the value at key `i` replaced; writing `d` removes the entry. -/
def sset {α : Type} [DecidableEq α] (d : α) : Sparse α → Nat → α → Sparse α
  | [], i, v => if v = d then [] else [(i, v)]
  | (k, w) :: t, i, v =>
    if i < k then (if v = d then (k, w) :: t else (i, v) :: (k, w) :: t)
    else if i = k then (if v = d then t else (i, v) :: t)
    else (k, w) :: sset d t i v

/-- Keys strictly above `lo`, rising, and no entry equal to the default. -/
def swfFrom {α : Type} [DecidableEq α] (d : α) (lo : Nat) : Sparse α → Bool
  | [] => true
  | (k, v) :: t => decide (lo ≤ k) && decide (v ≠ d) && swfFrom d (k + 1) t

/-- The canonical form. -/
def swf {α : Type} [DecidableEq α] (d : α) (l : Sparse α) : Bool := swfFrom d 0 l

/-- The entry at key `i` of a list of optional records. -/
def sfind {α : Type} (l : Sparse α) (i : Nat) : Option α := (l.find? (fun e => e.1 == i)).map Prod.snd

/-- The record at key `i` written, in key order. -/
def sput {α : Type} : Sparse α → Nat → α → Sparse α
  | [], i, v => [(i, v)]
  | (k, w) :: t, i, v =>
    if i < k then (i, v) :: (k, w) :: t
    else if i = k then (i, v) :: t
    else (k, w) :: sput t i v

/-- The record at key `i` removed. -/
def sdel {α : Type} (l : Sparse α) (i : Nat) : Sparse α := l.filter (fun e => e.1 != i)

/-! ## Bytes -/

/-- The byte at a place of memory; a byte that nothing has written reads 0 (R15; log 3). -/
def byteAt (m : List Host.Cell) (a : Nat) : Byte := sget 0#8 m a

/-- `n` bytes from `a` as a little-endian number (R25). -/
def loadBytes (m : List Host.Cell) (a : Nat) : Nat → Nat
  | 0 => 0
  | n + 1 => (byteAt m a).toNat + 256 * loadBytes m (a + 1) n

/-- The low `n` bytes of `v` written little-endian from `a`. -/
def storeBytes (m : List Host.Cell) (a : Nat) : Nat → Nat → List Host.Cell
  | 0, _ => m
  | n + 1, v => storeBytes (sset 0#8 m a (BitVec.ofNat 8 v)) (a + 1) n (v / 256)

/-- The canonical form of every part of memory. -/
def Memory.wf (m : Memory) : Bool :=
  swf 0#8 m.bytes && swf 0x04000000#32 m.tags && swf false m.full && swf false m.poison && swf 0 m.keyed &&
    swf false m.held

end Sys2Proof.Machine
end

