-- ==== Sys2Proof/Machine/Codec.lean ====
section
/-! DEFINITION. The block coders of compressed pages (R281 to R284): four lines of 128 bytes as one block of 4,096 bits,
byte 0 in the low bits. -/

namespace Sys2Proof.Machine

/-- `n / 2^(w i)`, cut to `w` bits. -/
def fieldAt (w n i : Nat) : Nat := n / 2 ^ (w * i) % 2 ^ w

/-- Fields of `w` bits joined, the first in the low bits. -/
def joinFields (w : Nat) : List Nat → Nat
  | [] => 0
  | v :: vs => v % 2 ^ w + 2 ^ w * joinFields w vs

/-- Fields given as (width, value) joined, the first in the low bits. -/
def joinMixed : List (Nat × Nat) → Nat
  | [] => 0
  | (w, v) :: vs => v % 2 ^ w + 2 ^ w * joinMixed vs

def ceilDiv (a b : Nat) : Nat := (a + b - 1) / b

/-- The number of one bits among the low `n`. -/
def onesBelow (x : Nat) (n : Nat) : Nat := ((List.range n).filter (fun i => x.testBit i)).length

/-- SMASK of R282: the 32-byte sectors that hold a nonzero byte. -/
def sectorMask (B : Nat) : Nat :=
  joinFields 1 ((List.range 16).map (fun s => if fieldAt 256 B s = 0 then 0 else 1))

/-- A doubleword difference fits `w` signed bytes. -/
def fitsBytes (d w : Nat) : Bool := decide (d < 2 ^ (8 * w - 1)) || decide (2 ^ 64 - 2 ^ (8 * w - 1) ≤ d)

def blockDeltas (B : Nat) : List Nat :=
  (List.range 63).map (fun i => (fieldAt 64 B (i + 1) + 2 ^ 64 - fieldAt 64 B 0) % 2 ^ 64)

/-- K of the base-delta coder, when it applies. -/
def deltaK (B : Nat) : Option Nat := [0, 1, 2].find? (fun k => (blockDeltas B).all (fitsBytes · (2 ^ k)))

/-- The frequent-pattern prefix of a word. -/
def patternOf (w : Nat) : Nat :=
  if w = 0 then 0
  else if w < 2 ^ 7 ∨ 2 ^ 32 - 2 ^ 7 ≤ w then 1
  else if w < 2 ^ 15 ∨ 2 ^ 32 - 2 ^ 15 ≤ w then 2
  else 3

def patternBytes (p : Nat) : Nat := match p with | 0 => 0 | 1 => 1 | 2 => 2 | _ => 4

def blockWords (B : Nat) : List Nat := (List.range 128).map (fieldAt 32 B)

/-- The exponent-plane coder's format: the four tags share one FMT among four, and one FILL. -/
def planeFmt (tags : List Tag) : Option (FloatFmt × Nat × Bool) :=
  match tags with
  | [] => none
  | t :: ts =>
    if ts.all (fun u => tagFmt u == tagFmt t && tagFill u == tagFill t) then
      match kindOf (tagFmt t) with
      | .float f =>
        if f = FloatFmt.bf16 ∨ f = FloatFmt.fp16 ∨ f = FloatFmt.e4m3 ∨ f = FloatFmt.e5m2 then
          some (f, tagFmt t, tagFill t)
        else none
      | _ => none
    else none

/-- The elements of a block, in element order of each line. -/
def planeElems (fmt : Nat) (fill : Bool) (B : Nat) : List Nat :=
  (List.range 4).flatMap (fun l => (List.range (lineCount fmt fill)).map (fun e =>
    fieldAt 1024 B l / 2 ^ elemPos fmt e % 2 ^ elemBits fmt))

def expField (f : FloatFmt) (x : Nat) : Nat := x / 2 ^ f.m % 2 ^ f.e

def planeEmin (f : FloatFmt) (es : List Nat) : Nat :=
  es.foldl (fun a x => let e := expField f x; if e = 0 then a else if a = 0 then e else min a e) 0

def planeCode (f : FloatFmt) (emin x : Nat) : Nat := let e := expField f x; if e = 0 then 0 else e - emin + 1

/-- K of the exponent-plane coder, when it applies. -/
def planeK (f : FloatFmt) (es : List Nat) : Option Nat :=
  (List.range f.e).find? (fun k => es.all (fun x => decide (planeCode f (planeEmin f es) x < 2 ^ k)))

def planeSize (f : FloatFmt) (k count : Nat) : Nat := 1 + ceilDiv (count * (1 + k + f.m)) 256

/-- A coded block: selector, size in sectors, the header's SMASK, K and EMIN, and the coded data from sector 1 on. -/
structure Coded where
  sel : Nat
  size : Nat
  smask : Nat
  k : Nat
  emin : Nat
  data : Nat
  deriving DecidableEq, Repr

/-- Every coder that applies to a block, by selector (R283). -/
def codings (tags : List Tag) (B : Nat) : List Coded :=
  let raw : Coded := ⟨0, 17, 0, 0, 0, B⟩
  let zero : List Coded := if B = 0 then [⟨1, 1, 0, 0, 0, 0⟩] else []
  let m := sectorMask B
  let run : Coded := ⟨2, 1 + onesBelow m 16, m, 0, 0,
    joinFields 256 (((List.range 16).map (fieldAt 256 B)).filter (· ≠ 0))⟩
  let delta : List Coded := match deltaK B with
    | none => []
    | some k => [⟨3, 1 + ceilDiv (8 + 63 * 2 ^ k) 32, 0, k, 0,
        fieldAt 64 B 0 + 2 ^ 64 * joinFields (8 * 2 ^ k) (blockDeltas B)⟩]
  let ps := (blockWords B).map patternOf
  let freq : Coded := ⟨4, 1 + ceilDiv (32 + (ps.map patternBytes).sum) 32, 0, 0, 0,
    joinFields 2 ps + 2 ^ 256 * joinMixed ((blockWords B).map (fun w => (8 * patternBytes (patternOf w), w)))⟩
  let plane : List Coded := match planeFmt tags with
    | none => []
    | some (f, fmt, fill) =>
      let es := planeElems fmt fill B
      match planeK f es with
      | none => []
      | some k =>
        let em := planeEmin f es
        [⟨5, planeSize f k es.length, 0, k, em, joinMixed (es.flatMap (fun x =>
          [(1, x / 2 ^ (f.e + f.m)), (k, planeCode f em x), (f.m, x)]))⟩]
  [raw] ++ zero ++ [run] ++ delta ++ [freq] ++ plane

/-- The least size, ties to the lower selector (R283). -/
def bestCoding (tags : List Tag) (B : Nat) : Coded :=
  (codings tags B).foldl (fun a c => if c.size < a.size then c else a) ⟨0, 17, 0, 0, 0, B⟩

/-- The control doubleword of R282. -/
def headerOf (c : Coded) (ovf : Nat) : Nat :=
  joinMixed [(3, c.sel), (5, c.size), (24, ovf), (8, c.emin), (3, c.k), (5, 0), (16, c.smask)]

/-- The zero-run data spread over the sectors of SMASK. -/
def spreadSectors (smask data : Nat) : Nat → Nat → Nat
  | 0, _ => 0
  | n + 1, s =>
    if smask.testBit s then fieldAt 256 data 0 + 2 ^ 256 * spreadSectors smask (data / 2 ^ 256) n (s + 1)
    else 2 ^ 256 * spreadSectors smask data n (s + 1)

/-- The payload of the frequent-pattern coder, word by word. -/
def spreadWords (data : Nat) : List Nat → Nat
  | [] => 0
  | p :: ps =>
    let n := 8 * patternBytes p
    let v := data % 2 ^ n
    let w := if p = 1 ∨ p = 2 then (if v < 2 ^ (n - 1) then v else v + 2 ^ 32 - 2 ^ n) else v
    w + 2 ^ 32 * spreadWords (data / 2 ^ n) ps

/-- The elements of the exponent-plane coder. -/
def planeValues (f : FloatFmt) (k emin data : Nat) : Nat → List Nat
  | 0 => []
  | n + 1 =>
    let s := data % 2
    let c := data / 2 % 2 ^ k
    let m := data / 2 ^ (1 + k) % 2 ^ f.m
    let e := if c = 0 then 0 else c + emin - 1
    (s * 2 ^ (f.e + f.m) + e % 2 ^ f.e * 2 ^ f.m + m) :: planeValues f k emin (data / 2 ^ (1 + k + f.m)) n

/-- The block that a header and its coded data give; none is a coding error (R284). -/
def decodeCoded (ctl : Nat) (tags : List Tag) (reserved data : Nat) : Option Nat :=
  let sel := ctl % 8
  let size := ctl / 8 % 32
  let emin := ctl / 2 ^ 32 % 256
  let k := ctl / 2 ^ 40 % 8
  let smask := ctl / 2 ^ 48 % 2 ^ 16
  if reserved ≠ 0 ∨ ctl / 2 ^ 43 % 32 ≠ 0 then none
  else match sel with
    | 0 => if size = 17 then some (data % 2 ^ 4096) else none
    | 1 => if size = 1 then some 0 else none
    | 2 => if size = 1 + onesBelow smask 16 then some (spreadSectors smask data 16 0) else none
    | 3 =>
      if k ≤ 2 ∧ size = 1 + ceilDiv (8 + 63 * 2 ^ k) 32 then
        let w := 8 * 2 ^ k
        let d0 := data % 2 ^ 64
        some (d0 + 2 ^ 64 * joinFields 64 ((List.range 63).map (fun i =>
          let v := fieldAt w (data / 2 ^ 64) i
          d0 + (if v < 2 ^ (w - 1) then v else v + 2 ^ 64 - 2 ^ w))))
      else none
    | 4 =>
      let ps := (List.range 128).map (fieldAt 2 data)
      if size = 1 + ceilDiv (32 + (ps.map patternBytes).sum) 32 then some (spreadWords (data / 2 ^ 256) ps) else none
    | 5 =>
      match planeFmt tags with
      | none => none
      | some (f, fmt, fill) =>
        let n := lineCount fmt fill
        if k < f.e ∧ size = planeSize f k (4 * n) then
          let vs := planeValues f k emin data (4 * n)
          some (joinFields 1024 ((List.range 4).map (fun l => packFrom fmt 0 ((vs.drop (l * n)).take n))))
        else none
    | _ => none

end Sys2Proof.Machine
end

