-- ==== Sys2Proof/Machine/Places.lean ====
section
/-! DEFINITION. The memories of the module as one space of places: where each byte lies, a line with its tag, and reads
and writes of bytes and of lines under R15, R31 to R36. Nothing here knows of cores or of translation. -/

namespace Sys2Proof.Machine

/-! ## Places. T0 lies at 0, the compressed aperture of R281 at 2^44, T1 at 2^46, host memory at 2^47, the scratchpads at
2^48 and the save areas at 2^49. -/

def placeT1 (pa : Nat) : Nat := 2 ^ 46 + pa
def placeHost (pa : Nat) : Nat := 2 ^ 47 + pa
def placeScratch (core off : Nat) : Nat := 2 ^ 48 + core * 2 ^ 20 + off
def placeSave (core off : Nat) : Nat := 2 ^ 49 + core * 2 ^ 19 + off

/-- The compressed aperture address of byte `off` of the half frame at H (R281). -/
def placeAperture (h off : Nat) : Nat := 2 ^ 44 + 2 * h + off

def isAperture (p : Nat) : Bool := decide (2 ^ 44 ≤ p ∧ p < 2 ^ 46)
def isScratch (p : Nat) : Bool := decide (2 ^ 48 ≤ p ∧ p < 2 ^ 49)
def isSave (p : Nat) : Bool := decide (2 ^ 49 ≤ p)
def scratchCore (p : Nat) : Nat := (p - 2 ^ 48) / 2 ^ 20
def scratchOff (p : Nat) : Nat := (p - 2 ^ 48) % 2 ^ 20

/-- The first offset of the ring area (R7). -/
def ringArea : Nat := 0xBC000
/-- The bytes of a scratchpad (R14). -/
def scratchSize : Nat := 0xC0000

/-- The 24 KiB bank of a scratchpad offset (R14). -/
def scratchBank (off : Nat) : Nat := 8 * (off / 196608) + off / 128 % 8

/-- The line that holds a place. -/
def lineOf (p : Nat) : Nat := p / 128

/-- The physical address that a line of HBM or of T1 memory is stored at, in its own memory (R286). -/
def storedAddr (p : Nat) : Nat := (if 2 ^ 46 ≤ p ∧ p < 2 ^ 47 then p - 2 ^ 46 else p) / 128 * 128

/-! ## Lines as stored -/

/-- The stored tag of an unlisted line: UNINIT (R22). -/
def uninitTag : Tag := 0x04000000#32

def isUninit (t : Tag) : Bool := tagVc t == vcUninit

/-- A place in some core's ring area (R7). -/
def inRingArea (p : Nat) : Bool := isScratch p && decide (ringArea ≤ scratchOff p)

/-- The stored tag of a line. Every line of the ring area carries 0x007F_0000 unless a store has given it another
(R321). -/
def storedTag (m : Memory) (p : Nat) : Tag :=
  let t := sget uninitTag m.tags (lineOf p)
  if t = uninitTag && inRingArea p then rawTag else t

/-- The first of the 32 lines whose tags a line of a SHADOW range's top 1/32 holds (R291). -/
def tagsHeldAt (m : Memory) (p : Nat) : Option Nat :=
  if ¬(2 ^ 46 ≤ p ∧ p < 2 ^ 47) then none
  else
    let pa := p - 2 ^ 46
    match m.ranges.find? (fun r => decide (r.base ≤ pa ∧ pa < r.base + r.size)) with
    | none => none
    | some r =>
      let top := r.base + r.size / 32 * 31
      if r.kind = .shadow ∧ top ≤ pa then some (lineOf (placeT1 r.base) + (pa - top) / 128 * 32) else none

/-- The tags of 32 lines from line `b` on, as a line of data. -/
def tagsAsData (m : Memory) (b : Nat) : LineBits :=
  BitVec.ofNat 1024 (joinFields 32 ((List.range 32).map (fun i => (sget uninitTag m.tags (b + i)).toNat)))

/-- The data of a line as a party sees it that uses the keys `ver` (R286, R287, R291). -/
def lineData (m : Memory) (ver p : Nat) : LineBits :=
  match tagsHeldAt m p with
  | some b => recrypt 0 ver (storedAddr p) (tagsAsData m b)
  | none => recrypt (sget 0 m.keyed (lineOf p)) ver (storedAddr p) (BitVec.ofNat 1024 (loadBytes m.bytes (lineOf p * 128) 128))

/-- The slot of a block of a compressed page as it lies in T0, and the overflow sectors that its header names, read under
the keys `ver`; the header sector is in the clear (R281, R282, R286). -/
def blockData (m : Memory) (poolBase ver h b : Nat) : Option (List Line) :=
  let slot := h + 256 * b
  let v := (lineData m (headerKey ver) slot).toNat + 2 ^ 1024 * (lineData m ver (slot + 128)).toNat
  let ctl := v % 2 ^ 64
  let tags := (List.range 4).map (fun l => BitVec.ofNat 32 (fieldAt 32 v (2 + l)))
  let ovf := poolBase + 512 * (ctl / 2 ^ 8 % 2 ^ 24)
  let high := if ctl / 8 % 32 ≤ 8 then 0
    else joinFields 1024 ((List.range 3).map (fun i => (lineData m ver (ovf + 128 * i)).toNat)) % 2 ^ 2304
  match decodeCoded ctl tags (fieldAt 64 v 3) (v / 2 ^ 256 + 2 ^ 1792 * high) with
  | none => none
  | some B => some ((List.range 4).map (fun l => ⟨tags.getD l 0, BitVec.ofNat 1024 (fieldAt 1024 B l)⟩))

/-- A line of a compressed page that its home slice does not hold, decoded from its slot (R284). -/
def compressedLine (m : Memory) (poolBase ver p : Nat) : Line :=
  let off := (p - 2 ^ 44) % 2 ^ 16
  let h := (p - 2 ^ 44 - off) / 2
  match blockData m poolBase ver h (off / 512) with
  | none => ⟨mkInvalid kRAW dCODING, 0⟩
  | some ls => ls.getD (off / 128 % 4) ⟨mkInvalid kRAW dCODING, 0⟩

/-- The line at a place as a party sees it that uses the keys `ver`; `poolBase` is the overflow pool's. A line of a compressed
page that its home slice holds is in the clear there (R286). -/
def storedLine (m : Memory) (poolBase ver p : Nat) : Line :=
  if isAperture p then
    if sget false m.held (lineOf p) then ⟨storedTag m p, BitVec.ofNat 1024 (loadBytes m.bytes (lineOf p * 128) 128)⟩
    else compressedLine m poolBase ver p
  else ⟨storedTag m p, lineData m ver p⟩

/-- Some word of the line is poisoned (R15). -/
def linePoisoned (m : Memory) (p : Nat) : Bool :=
  (List.range 16).any (fun i => sget false m.poison (16 * lineOf p + i))

/-! ## Writing -/

/-- The tags of 32 lines from line `b` on, given by a line of data. -/
def setTags (t : Sparse Tag) (b : Nat) (d : LineBits) : Sparse Tag :=
  (List.range 32).foldl (fun t i => sset uninitTag t (b + i) (BitVec.ofNat 32 (fieldAt 32 d.toNat i))) t

/-- The tags of memory after a line has been written: what is written to the tags that a SHADOW range holds gives its lines those
tags (R291). -/
def tagsAfter (m : Memory) (p version : Nat) (l : Line) : Sparse Tag :=
  let ts := match tagsHeldAt m p with
    | some b => setTags m.tags b (storedForm false version (storedAddr p) l.data)
    | none => m.tags
  sset uninitTag ts (lineOf p) l.tag

/-- Tag, data and poison of a whole line written in one step (R36); poison clears with every word (R15). `version` names the
keys under which it is stored (R286). -/
def putLine (m : Memory) (p version : Nat) (l : Line) : Memory :=
  let b := lineOf p
  let plain := (tagsHeldAt m p).isNone
  { m with
    bytes := if plain then storeBytes m.bytes (128 * b) 128 l.data.toNat else m.bytes
    tags := tagsAfter m p version l
    poison := (List.range 16).foldl (fun q i => sset false q (16 * b + i) false) m.poison
    keyed := if plain then sset 0 m.keyed b version else m.keyed
    held := if isAperture p then sset false m.held b true else m.held }

/-- The line with `n` bytes from offset `o` replaced. -/
def patchLine (d : LineBits) (o n v : Nat) : LineBits := BitVec.ofNat 1024 (putBits d.toNat (8 * o) (8 * n) v)

/-- Poison of words `w` that a store of `n` bytes at `p` covers whole is cleared; narrower stores keep it (R15). -/
def clearCovered (q : Sparse Bool) (p n : Nat) : Sparse Bool :=
  if p % 8 = 0 then (List.range (n / 8)).foldl (fun q i => sset false q (p / 8 + i) false) q else q

/-! ## What a read of a line yields (R31 to R33, R35) -/

/-- DFMT zeros' tag; a reserved DFMT makes the read INVALID with detail MALFORMED (R33). -/
def dfmtTag (dfmt : Nat) : Tag := if isReserved dfmt then mkInvalid kRAW dMALFORMED else plainTag dfmt

/-- The tag and data that a read of a stored line yields. An untagged line reads with its page's DFMT (R291). -/
def yieldLine (poisoned untagged : Bool) (dfmt : Nat) (l : Line) : Line :=
  let r : Line :=
    if untagged then ⟨dfmtTag dfmt, l.data⟩
    else if isUninit l.tag then ⟨dfmtTag dfmt, 0⟩
    else ⟨formRegTag l.tag, l.data⟩
  if poisoned && tagVc r.tag != vcInvalid then ⟨mkInvalid (tagFmt r.tag) dPOISON, r.data⟩ else r

end Sys2Proof.Machine
end

