-- ==== Sys2Proof/Machine/Translate.lean ====
section
/-! DEFINITION. Page tables, leaves and their attributes, the translation caches (R270 to R277), the checks that a page
puts on an access (R274, R275), and reads and writes of memory through a translated access. -/

namespace Sys2Proof.Machine

/-! ## Leaves (R272) -/

def leafV (l : Word) : Bool := l.getLsbD 0
def leafW (l : Word) : Bool := l.getLsbD 1
def leafX (l : Word) : Bool := l.getLsbD 2
def leafDpsr (l : Word) : Bool := l.getLsbD 3
def leafHome (l : Word) : Nat := bitsNat l 4 2
def leafComp (l : Word) : Bool := l.getLsbD 6
def leafKid (l : Word) : Nat := bitsNat l 7 6
def leafTier (l : Word) : Nat := bitsNat l 13 2
def leafFrame (l : Word) : Nat := bitsNat l 15 29 * 2 ^ 15
def leafSlice (l : Word) : Nat := bitsNat l 44 9
def leafDpfmt (l : Word) : Nat := bitsNat l 53 5
def leafDfmt (l : Word) : Nat := bitsNat l 58 5
def leafMig (l : Word) : Bool := l.getLsbD 63

def homeCached : Nat := 0
def homeSlice : Nat := 1
def homeCore : Nat := 2
def homeUncached : Nat := 3

/-- The narrow formats that DPFMT and the noria name (R273, R289). -/
def narrowFmt (f : Nat) : Bool := decide (kE4M3 ≤ f ∧ f ≤ kGI3)

/-- Bytes mapped by a leaf of a level (R271). -/
def leafSize (level : Nat) : Nat := match level with | 0 => 2 ^ 16 | 1 => 2 ^ 21 | _ => 2 ^ 30

/-- The malformed leaves of R273, by the level at which the leaf stands. -/
def leafMalformed (level : Nat) (l : Word) : Bool :=
  let f := leafFrame l
  let big := decide (0 < level)
  let core := decide (leafHome l = homeCore)
  let unc := decide (leafHome l = homeUncached)
  let special := leafComp l || decide (leafKid l ≠ 0) || decide (leafDpfmt l ≠ 0) || leafMig l
  let dp := leafDpfmt l
  decide (level = 3) ||
  (decide (leafHome l ≠ homeSlice) && decide (leafSlice l ≠ 0)) ||
  (if level = 0 then !leafComp l && decide (f % 2 ^ 16 ≠ 0) else decide (f % leafSize level ≠ 0)) ||
  !(decide (dp = 0) || narrowFmt dp) ||
  (core && (decide (leafTier l ≠ 0) || decide (11 < f / 2 ^ 16 % 16) || decide (2 ^ 30 ≤ f) || big || special)) ||
  (leafComp l && (decide (leafHome l ≠ homeCached) || big || decide (leafTier l ≠ 0))) ||
  (decide (leafTier l = 2) && (!unc || special)) ||
  (unc && decide (dp ≠ 0)) ||
  (leafMig l && (decide (leafHome l ≠ homeCached) || decide (leafTier l = 2) || big))

/-! ## Pages -/

/-- The first byte that a leaf of `size` bytes maps, for a virtual address. -/
def pageBase (va : Word) (size : Nat) : Word := BitVec.ofNat 64 (va.toNat - va.toNat % size)

def Page.home (p : Page) : Nat := leafHome p.leaf
def Page.dfmt (p : Page) : Nat := leafDfmt p.leaf
def Page.kid (p : Page) : Nat := leafKid p.leaf

/-- The base and size of the save-area windows (R308). -/
def saveBase : Nat := 0xFFFFFF0000000000
def saveSize : Nat := 0x50000

/-- An address in some core's save-area window. -/
def inSaveWindow (va : Word) : Bool := decide (saveBase ≤ va.toNat ∧ va.toNat < saveBase + saveSize * 1024)

/-- The window of a save area that holds an address. -/
def saveWindow (va : Word) : Option Nat := if inSaveWindow va then some ((va.toNat - saveBase) / saveSize) else none

/-- A save-area window in the form of a page: writable, DFMT RAW, homed at the save area (R308). -/
def windowPage (va : Word) : Page :=
  ⟨3#64, 0, saveSize, BitVec.ofNat 64 (va.toNat - (va.toNat - saveBase) % saveSize)⟩

/-- The base of the network aperture, one gibibyte for each queue (R334). -/
def netBase : Nat := 0xFFFFFE0000000000
def inNetAperture (va : Word) : Bool := decide (netBase ≤ va.toNat ∧ va.toNat < netBase + 2 ^ 40)

/-- The place of a byte of a page (R272, R281, R308). -/
def Page.place (p : Page) (va : Word) : Nat :=
  if p.size = saveSize then
    placeSave ((va.toNat - saveBase) / saveSize) ((va.toNat - saveBase) % saveSize)
  else if leafComp p.leaf then placeAperture (leafFrame p.leaf) (va.toNat % 2 ^ 16)
  else
    let pa := leafFrame p.leaf + va.toNat % p.size
    if p.home = homeCore then placeScratch (pa / 2 ^ 20 % 1024) (pa % 2 ^ 20)
    else match leafTier p.leaf with
      | 1 => placeT1 pa
      | 2 => placeHost pa
      | _ => pa

/-- The T1 range that holds a physical address (R291). -/
def rangeAt (s : State) (pa : Nat) : Option T1Range := s.mem.ranges.find? (fun r => decide (r.base ≤ pa ∧ pa < r.base + r.size))

/-- A line whose tag is not stored: HOST pages and UNTAGGED ranges (R291). -/
def untaggedAt (s : State) (p : Nat) : Bool :=
  if 2 ^ 47 ≤ p ∧ p < 2 ^ 48 then true
  else if 2 ^ 46 ≤ p ∧ p < 2 ^ 47 then
    match rangeAt s (p - 2 ^ 46) with
    | some r => r.kind == .untagged
    | none => false
  else false

/-! ## Plain reads of memory -/

def poolBase (s : State) : Nat := match s.pool with | some p => p.base | none => 0

/-- The keys under which lines of a key slot are stored (R286); 0 is the clear. A slot that KEYSET has not filled holds zero
keys (log 10). -/
def keyVersion (s : State) (kid : Nat) : Nat :=
  if kid = 0 then 0 else match sfind s.keys kid with | some k => cipherKey k.data k.tweak | none => cipherKey 0 0

/-- The line at a place as a party that uses the keys `ver` sees it (R287). -/
def clearLine (s : State) (ver p : Nat) : Line := storedLine s.mem (poolBase s) ver p

/-- The line at a place is more than its stored bytes: of a compressed page, or the tags of a SHADOW range. -/
def derivedLine (s : State) (p : Nat) : Bool := isAperture p || (tagsHeldAt s.mem p).isSome

/-- `n` bytes within one line as stored, an UNINIT line as zeros (R35). -/
def bytesAt (s : State) (ver p n : Nat) : Nat :=
  if sget 0 s.mem.keyed (lineOf p) = ver && !derivedLine s p then
    (if isUninit (storedTag s.mem p) && !untaggedAt s p then 0 else loadBytes s.mem.bytes p n)
  else
    let l := clearLine s ver p
    if isUninit l.tag && !untaggedAt s p then 0 else bitsNat l.data (8 * (p % 128)) (8 * n)

/-- An 8-byte entry of a table in T0 (R271, R276). -/
def tableEntry (s : State) (pa : Nat) : Word := BitVec.ofNat 64 (bytesAt s 0 pa 8)

/-! ## Walks (R271, R273, R276) -/

/-- The physical address of the table that a pointer names. -/
def pointerTarget (e : Word) : Nat := bitsNat e 15 29 * 2 ^ 15 + bitsNat e 5 8 * 2 ^ 7

def pointerMalformed (level : Nat) (e : Word) : Bool :=
  decide (level = 0) || decide (bitsNat e 44 20 ≠ 0) || decide (bitsNat e 1 4 ≠ 0) ||
  decide (pointerTarget e % (if level = 1 then 256 else 4096) ≠ 0)

def tableIndex (level : Nat) (va : Word) : Nat :=
  match level with
  | 0 => bitsNat va 16 5
  | 1 => bitsNat va 21 9
  | 2 => bitsNat va 30 9
  | _ => bitsNat va 39 9

/-- The bytes that an entry of a level maps. -/
def levelSize (level : Nat) : Nat := match level with | 0 => 2 ^ 16 | 1 => 2 ^ 21 | 2 => 2 ^ 30 | _ => 2 ^ 39

/-- A walk from the table of `level`: the leaf, and the pointers of levels 1 and 2 that it passed. -/
def walkFrom (s : State) (job : Nat) (va : Word) : Nat → Nat → Option (Page × List TlbPointer)
  | level, table =>
    let at_ := table + 8 * tableIndex level va
    let e := tableEntry s at_
    if !leafV e then none
    else if leafTier e = 3 then
      if pointerMalformed level e then none
      else match level with
        | 0 => none
        | l + 1 =>
          match walkFrom s job va l (pointerTarget e) with
          | none => none
          | some (p, ps) =>
            some (p, if l + 1 = 3 then ps else ⟨job, l + 1, pageBase va (levelSize (l + 1)), pointerTarget e⟩ :: ps)
    else if leafMalformed level e then none
    else some (⟨e, at_, leafSize level, pageBase va (leafSize level)⟩, [])

/-- A page maps an address. -/
def Page.covers (p : Page) (va : Word) : Bool := pageBase va p.size == p.base

/-- The deepest cached pointer of the cluster for an address. -/
def cachedPointer (s : State) (cluster job : Nat) (va : Word) : Option TlbPointer :=
  let ps := (sget [] s.l2ptr cluster).filter (fun q => q.job == job && pageBase va (levelSize q.level) == q.base)
  match ps.find? (fun q => q.level == 1) with
  | some q => some q
  | none => ps.find? (fun q => q.level == 2)

/-! ## Translation -/

/-- The job and table base that CSR PTB holds (R270). -/
def ptbJob (w : Word) : Nat := bitsNat w 48 10
def ptbBase (w : Word) : Nat := bitsNat w 12 32 * 2 ^ 12

/-- What an access does with its page (R274). -/
inductive AccessKind where
  /-- A load, and a read of any engine. -/
  | load
  /-- A store, a copy or drain write, the EXIT decrement. -/
  | store
  /-- An atomic, ACONT, WAPP, JOIN. -/
  | atomic
  /-- An instruction fetch. -/
  | fetch
  /-- LDF, LDFT, VLDC, OWNWAIT: HOME CORE only. -/
  | core
  /-- STE and FESET: HOME CORE, and a store. -/
  | coreStore
  deriving DecidableEq, Repr

/-- Who accesses: core, job, privilege, FEATURES. -/
structure Accessor where
  core : Nat
  job : Nat
  ptb : Nat
  priv : Bool
  features : BitVec 5
  deriving DecidableEq, Repr

/-- The key slot assigned to a job (R275). -/
def jobKid (s : State) (job : Nat) : Nat := match sfind s.jobs job with | some j => j.kid.toNat | none => 0

/-- The limits of R273 to R275, R291 and R319 on the use of a leaf. -/
def pageAllows (s : State) (w : Accessor) (k : AccessKind) (p : Page) (va : Word) : Bool :=
  let l := p.leaf
  let store := decide (k = .store ∨ k = .atomic ∨ k = .coreStore)
  (!store || leafW l) &&
  (decide (k ≠ .fetch) || leafX l) &&
  (decide (k ≠ .atomic) || decide (p.home ≠ homeUncached) && decide (leafTier l ≠ 2)) &&
  (!(decide (k = .core) || decide (k = .coreStore)) || decide (p.home = homeCore)) &&
  (decide (p.home ≠ homeCore) || decide (scratchCore (p.place va) / 8 = w.core / 8)) &&
  (decide (leafKid l = 0) || decide (leafKid l = jobKid s w.job)) &&
  (decide (leafTier l ≠ 1) || w.features.getLsbD 4 && (rangeAt s (p.place va - 2 ^ 46)).isSome) &&
  (!leafComp l || w.features.getLsbD 3)

/-- The address is the sign extension of its low 48 bits (R116). -/
def canonical (va : Word) : Bool := decide (va.toNat < 2 ^ 47 ∨ 2 ^ 64 - 2 ^ 47 ≤ va.toNat)

/-- The caches after a translation (R276): a full cache gives up an entry of its own choice (log 8). -/
def cachePush {α : Type} (n : Nat) (pick : Nat) (l : List α) (x : α) : List α :=
  x :: (if l.length < n then l else l.eraseIdx (pick % l.length))

/-- The leaf that translates an address for an accessor: from the level-1 cache, from the level-2 cache, or by a walk;
none where no valid entry stands. -/
def findPage (s : State) (w : Accessor) (va : Word) : Option Page :=
  match (s.core.tlb.find? (fun t => t.job == w.job && t.page.covers va)) with
  | some t => some t.page
  | none =>
    match (sget [] s.l2 (w.core / 8)).find? (fun t => t.job == w.job && t.page.covers va) with
    | some t => some t.page
    | none =>
      match cachedPointer s (w.core / 8) w.job va with
      | some q => (walkFrom s w.job va (q.level - 1) q.table).map Prod.fst
      | none => (walkFrom s w.job va 3 w.ptb).map Prod.fst

/-- The pointers that a walk of this address passes. -/
def walkPointers (s : State) (w : Accessor) (va : Word) : List TlbPointer :=
  match cachedPointer s (w.core / 8) w.job va with
  | some q => match walkFrom s w.job va (q.level - 1) q.table with | some (_, ps) => ps | none => []
  | none => match walkFrom s w.job va 3 w.ptb with | some (_, ps) => ps | none => []

/-- The wait of a walk in its die's queue (R343; log 11). -/
def countWalk (w : Accessor) (s : State) : State :=
  let die := w.core / 256
  { s with
    core := { s.core with free := s.core.free + 1 }
    walkWait := sset 0 s.walkWait die (sget 0 s.walkWait die + Config.walkCycles s.core.free) }

/-- The translation caches filled with what `findPage` found (R276); a walk's wait in its die's queue is counted (R343). -/
def fillCaches (s : State) (w : Accessor) (va : Word) (p : Page) : State :=
  if s.core.tlb.any (fun t => t.job == w.job && t.page.covers va) then s
  else
    let c := w.core / 8
    let l2 := sget [] s.l2 c
    let k := s.core.free
    let pick := Config.victim k
    let push (free : Nat) (s : State) : State :=
      { s with core := { s.core with tlb := cachePush 128 pick s.core.tlb ⟨w.job, p⟩, free := free } }
    if l2.any (fun t => t.job == w.job && t.page.covers va) then push (if s.core.tlb.length < 128 then k else k + 1) s
    else
      let ps := walkPointers s w va
      push (k + 1) { countWalk w s with
        l2 := sset [] s.l2 c (cachePush 4096 pick l2 ⟨w.job, p⟩)
        l2ptr := sset [] s.l2ptr c (ps.foldl (fun l q => if l.contains q then l else cachePush 256 pick l q)
          (sget [] s.l2ptr c)) }

/-- An access to a page counted, when the migration engine may move it (R279). -/
def countAccess (job : Nat) (p : Page) (va : Word) (m : Migration) : Migration :=
  let mk (n : Nat) : MigCount := ⟨p.entryAt, job, pageBase va (2 ^ 16), min 65535 n⟩
  { m with counts := match m.counts.find? (fun c => c.entryAt == p.entryAt) with
    | some c => m.counts.map (fun d => if d.entryAt = p.entryAt then mk (c.count + 1) else d)
    | none => mk 1 :: m.counts }

/-- What the home slices note of an access: its count (R279), and that a compressed page is mapped (R293). -/
def noteAccess (job : Nat) (p : Page) (va : Word) (s : State) : State :=
  { s with mig := if leafMig p.leaf then countAccess job p va s.mig else s.mig
           compMapped := s.compMapped || leafComp p.leaf }

/-! ## The leaves of the jobs' tables -/

/-- A leaf as the tables hold it: its level, the address of its entry, its bits, and the address it maps. -/
structure LeafAt where
  level : Nat
  entryAt : Nat
  leaf : Word
  va : Word
  deriving DecidableEq, Repr

/-- The valid leaves that a table of a level reaches (R271); the table maps from `va` on. -/
def tableLeaves (s : State) : Nat → Nat → Nat → List LeafAt
  | level, table, va =>
    (List.range (if level = 0 then 32 else 512)).flatMap (fun i =>
      let at_ := table + 8 * i
      let e := tableEntry s at_
      let va := va + i * levelSize level
      if !leafV e then []
      else if leafTier e = 3 then
        if pointerMalformed level e then []
        else match level with
          | 0 => []
          | l + 1 => tableLeaves s l (pointerTarget e) va
      else if leafMalformed level e then [] else [⟨level, at_, e, ((BitVec.ofNat 48 va).signExtend 64)⟩])

/-- Every leaf of a job. -/
def jobLeaves (s : State) (j : Job) : List LeafAt := tableLeaves s 3 (ptbBase j.ptb) 0

/-- Some job maps a page whose leaf has a property. -/
def someLeaf (s : State) (f : LeafAt → Bool) : Bool := s.jobs.any (fun j => (jobLeaves s j.2).any f)

/-- R293: some job maps a compressed page now. -/
def noteTables (s : State) : State := { s with compMapped := s.compMapped || someLeaf s (fun e => leafComp e.leaf) }

/-- A table entry that may map a compressed page: a leaf with COMP, or a pointer. -/
def mayMapComp (e : Word) : Bool := leafV e && (decide (leafTier e = 3) || leafComp e)

/-- What a store of `n` bytes at a place leaves of the tables: it may have mapped a compressed page (R293). The tables are walked
only where the store wrote such an entry. -/
def noteStored (pl n : Nat) (s : State) : State :=
  { s with compMapped := s.compMapped ||
      (!s.jobs.isEmpty && decide (pl < 2 ^ 44) &&
        (List.range ((pl % 8 + n + 7) / 8)).any (fun i => mayMapComp (tableEntry s (pl / 8 * 8 + 8 * i))) &&
        someLeaf s (fun e => leafComp e.leaf)) }

/-! ## Reads and writes through a page -/

def pageVersion (s : State) (p : Page) : Nat := keyVersion s p.kid

/-- What a read of the line at `va` yields (R32, R33, R35, R291). -/
def readLine (s : State) (p : Page) (va : Word) : Line :=
  let pl := p.place va
  yieldLine (linePoisoned s.mem pl) (untaggedAt s pl) p.dfmt (clearLine s (pageVersion s p) pl)

/-- A whole-line write with its tag; an untagged line keeps only its data (R291). -/
def writeLine (s : State) (p : Page) (va : Word) (l : Line) : State :=
  let pl := p.place va
  let l := if untaggedAt s pl then ⟨uninitTag, l.data⟩ else l
  noteStored (lineOf pl * 128) 128 { s with mem := putLine s.mem pl (pageVersion s p) l }

/-- The line as a partial write finds it: its stored tag, an UNINIT line become DFMT zeros (R35). -/
def mergeLine (s : State) (p : Page) (va : Word) : Line :=
  let pl := p.place va
  let l := clearLine s (pageVersion s p) pl
  if untaggedAt s pl then l
  else if isUninit l.tag then ⟨plainTag p.dfmt, 0⟩ else l

/-- `n` bytes within one line written under the line's standing tag (R35, R120). -/
def writeBytes (s : State) (p : Page) (va : Word) (n v : Nat) : State :=
  let pl := p.place va
  let l := mergeLine s p va
  let q := s.mem.poison
  let s := writeLine s p va ⟨l.tag, patchLine l.data (pl % 128) n v⟩
  { s with mem := { s.mem with poison := clearCovered q pl n } }

/-- The line as a scalar access finds its tag: without the poison of words that it does not touch (R15). -/
def plainLine (s : State) (p : Page) (va : Word) : Line :=
  yieldLine false (untaggedAt s (p.place va)) p.dfmt (clearLine s (pageVersion s p) (p.place va))

/-! ## Merged writes (R15, R36) -/

/-- The 64-bit words of a line that the given element positions cover whole. -/
def coveredWords (f : Nat) (ps : List Nat) : List Nat :=
  let ps := ps.eraseDups
  (List.range 16).filter (fun w =>
    decide (64 ≤ ((ps.filter (fun e => decide (64 * w < elemPos f e + elemBits f ∧ elemPos f e < 64 * (w + 1)))).map
      (fun _ => min (elemBits f) 64)).sum))

/-- The words of a line whose every element is among the written positions; padding is always written (R30). -/
def writtenWords (f count : Nat) (ps : List Nat) : List Nat :=
  (List.range 16).filter (fun w => (List.range count).all (fun e =>
    !decide (64 * w < elemPos f e + elemBits f ∧ elemPos f e < 64 * (w + 1)) || ps.contains e))

/-- The words that elements put into a standing line write whole: a fill line's padding is written with them (R30). -/
def mergedWords (t : Tag) (f : Nat) (ps : List Nat) : List Nat :=
  if tagFill t then writtenWords (tagFmt t) 64 ps else coveredWords f ps

/-- The poison of a line after some of its words have been stored whole: theirs is cleared, that of the others stays. -/
def clearWords (q : Sparse Bool) (pl : Nat) (covered : List Nat) : Sparse Bool :=
  covered.foldl (fun q w => sset false q (16 * lineOf pl + w) false) q

/-- A line merged at its home in one step: whole line and tag; poison stays with the words not covered whole. -/
def mergeInto (p : Page) (va : Word) (l : Line) (covered : List Nat) (s : State) : State :=
  let q := s.mem.poison
  let s := writeLine s p va l
  { s with mem := { s.mem with poison := clearWords q (p.place va) covered } }

/-- Several elements put into a line. -/
def putElems (f : Nat) (d : LineBits) (es : List (Nat × Nat)) : LineBits :=
  es.foldl (fun d e => putLineElem f d e.1 e.2) d

/-- The tag of a line after a scatter into it (R35, R129). -/
def scatterTag (entry old : Tag) : Tag :=
  if tagVc entry = vcInvalid then entry
  else if tagVc entry = vcSpoiled ∧ tagMalformed old = false ∧ tagVc old = vcValid then
    mkTag (tagFmt old) vcSpoiled (tagFill old) (tagLse old) (tagSub old)
  else old

/-- The data of a standing line that takes elements; a fill line has none past element 63, and its padding becomes zero (R30). -/
def mergedData (t : Tag) (f : Nat) (d : LineBits) (es : List (Nat × Nat)) : LineBits :=
  if tagFill t then padLine t (putElems f d es) else putElems f d es

/-- The elements of a scatter merged into one line at its home; an UNINIT line first becomes zeros of the entry's format
(R129). The line is merged as it then stands, though another store may have retagged it since the word judged it (R216;
log 75). -/
def scatterInto (s : State) (p : Page) (va : Word) (entry : Tag) (es : List (Nat × Nat)) : State :=
  let f := tagFmt entry
  let l := clearLine s (pageVersion s p) (p.place va)
  let l : Line := if untaggedAt s (p.place va) then l
    else if isUninit l.tag then ⟨plainTag f, 0⟩ else l
  mergeInto p va ⟨scatterTag entry l.tag, mergedData l.tag f l.data es⟩
    (mergedWords l.tag f (es.map Prod.fst)) s

/-- `n` bytes at offset `o` of a tangent line, for primal elements of format f (R130). -/
def tangentInto (s : State) (p : Page) (va : Word) (f o n v : Nat) : State :=
  let l := clearLine s (pageVersion s p) (p.place va)
  let d := if isUninit l.tag && !untaggedAt s (p.place va) then 0 else l.data
  mergeInto p va ⟨tangentTag f, patchLine d o n v⟩
    ((List.range 16).filter (fun k => decide (o ≤ 8 * k ∧ 8 * (k + 1) ≤ o + n))) s

/-! ## Lines at which something waits -/

/-- A block of a compressed page whose writeback waits for an overflow block (R285). -/
def blockWaits (s : State) (pl : Nat) : Bool :=
  match s.pool with
  | none => false
  | some p => isAperture pl && decide (p.depth = 0) && p.waiting.contains (lineOf pl / 4)

/-- A word that waits unperformed at its home holds what lies behind it: its line at a slice, its word at a scratchpad, of 8
bytes (R140, R256). Whether an access of `n` bytes at a place is among it. -/
def Stalled.holds (e : Stalled) (pl n : Nat) : Bool :=
  let at_ := e.page.place e.va
  if isScratch at_ then decide (at_ / 8 * 8 < pl + n ∧ pl < at_ / 8 * 8 + 8) else decide (lineOf at_ = lineOf pl)

/-- Bytes at which a word waits unperformed, or whose block waits for an overflow block: later accesses of every party
wait behind (R108, R140, R256, R285). -/
def bytesHeld (s : State) (pl n : Nat) : Bool := s.stalled.any (fun e => e.holds pl n) || blockWaits s pl

/-- As `bytesHeld`, for the word that may itself be the one that waits there. -/
def bytesStalled (s : State) (pl n : Nat) : Bool :=
  s.stalled.any (fun e => decide (e.core ≠ s.cur) && e.holds pl n) || blockWaits s pl

/-- A whole line of which some byte is held. -/
def lineHeld (s : State) (pl : Nat) : Bool := bytesHeld s (lineOf pl * 128) 128

/-- A line whose home is a port: host memory, T1 memory of an UNCACHED page, and third-party CXL memory, which is the
untagged (R206, R219, R291). -/
def portHomed (s : State) (p : Page) (va : Word) : Bool :=
  decide (leafTier p.leaf = 2) ||
    (decide (leafTier p.leaf = 1) && (decide (p.home = homeUncached) || untaggedAt s (p.place va)))

/-- Some word that `n` bytes at a place touch is poisoned. -/
def bytesPoisoned (s : State) (pl n : Nat) : Bool :=
  (List.range ((pl % 8 + n + 7) / 8)).any (fun i => sget false s.mem.poison (pl / 8 + i))

end Sys2Proof.Machine
end

