-- ==== Sys2Proof/Machine/Ops.lean ====
section
/-! DEFINITION. The named operations: registers, banks, tokens, flags; rings and captures; pending marks; claims of the
splitter; taking a trap and returning from one (R296, R301, R303); and how a word of each engine is handled (R5 to R9,
R77 to R80, R349). -/

namespace Sys2Proof.Machine

abbrev Out := Host.Outcome State Fault Refusal

/-! ## Vectors -/

/-- The element at `i`, or `d` past the end. -/
def vat {α : Type} {n : Nat} (d : α) (v : Vector α n) (i : Nat) : α := v[i]?.getD d

/-- The vector with element `i` replaced; past the end nothing. -/
def vput {α : Type} {n : Nat} (v : Vector α n) (i : Nat) (x : α) : Vector α n := v.setIfInBounds i x

/-! ## Ascending order -/

/-- A number placed before the first that is not below it. -/
def insertAscending (x : Nat) : List Nat → List Nat
  | [] => [x]
  | y :: ys => if x ≤ y then x :: y :: ys else y :: insertAscending x ys

/-- The numbers in ascending order. -/
def ascending (l : List Nat) : List Nat := l.foldr insertAscending []

/-! ## Work done out of order -/

/-- The `k`-th item that has not been applied, where those below `from_` and those listed, in ascending order, have been. -/
def unappliedLine (from_ k : Nat) (done : List Nat) : Nat := done.foldl (fun i d => if d ≤ i then i + 1 else i) (from_ + k)

/-- The items applied with one more: those below the first number, and those listed. -/
def markApplied (i from_ : Nat) (done : List Nat) : Nat × List Nat :=
  (insertAscending i done).foldl (fun a d => if d = a.1 ∧ a.2.isEmpty then (d + 1, []) else (a.1, a.2 ++ [d])) (from_, [])

/-! ## Waits and faults -/

/-- What a word waits for: DETAIL of WAITTIMEOUT, 0 for a wait that is not timed, and its TVAL (R299). -/
structure WaitOn where
  detail : Nat
  tval : Word
  deriving DecidableEq, Repr

/-- Why a word does not complete now: it waits; it waits for a claim on a tile, of which it sees the given ones, by core and
place in split order, on its cluster (R16); it faults; its access has been issued and waits for its verdict (R117),
which for a full/empty word is the state of the bit at a place (R121), or it waits unperformed at its line's home for room
in a launch queue (R108, R140); or it has made some of its accesses, and makes the others later (R207). An issued access holds
the pages that its checks found. -/
inductive Stop where
  | wait (w : WaitOn)
  | sluice (w : WaitOn) (claims : List (Nat × Nat))
  | fault (f : Flt)
  | home (w : WaitOn) (pages : List (Word × Page)) (bit : Option (Nat × Bool))
  | launchFull (s : State) (queue : Nat) (va : Word) (page : Page)
  | paused (s : State) (pages : List (Word × Page))
  deriving DecidableEq, Repr

abbrev Chk (α : Type) := Except Stop α

/-- A wait that WAITLIM does not time (R21). -/
def untimed : WaitOn := ⟨0, 0⟩

/-- A timed wait of a word at the head of its ring to which R299 gives no DETAIL: both are free values then (log 66). -/
def headHeld : WaitOn := ⟨9, 0⟩

def waitNow {α : Type} (w : WaitOn) : Chk α := .error (.wait w)
def faultNow {α : Type} (f : Flt) : Chk α := .error (.fault f)

/-- Fault codes of R299. -/
def cILLEGAL : BitVec 8 := 1
def cPRIV : BitVec 8 := 2
def cALIGN : BitVec 8 := 3
def cPAGE : BitVec 8 := 4
def cTYPE : BitVec 8 := 5
def cVCLASS : BitVec 8 := 6
def cMBANK : BitVec 8 := 7
def cCFI : BitVec 8 := 8
def cLAUNCH : BitVec 8 := 9
def cPOISON : BitVec 8 := 10
def cWAITTIMEOUT : BitVec 8 := 11
def cPREEMPT : BitVec 8 := 12
def cTRAPI : BitVec 8 := 13
def cMALFORMED : BitVec 8 := 14

/-- A fault that is not deferred. -/
def flt (code : BitVec 8) (tval : Word) : Flt := ⟨code, tval, false, 0⟩

def illegalWordFault (w : IWord) : Flt := flt cILLEGAL (w.setWidth 64)
def tagFault (code : BitVec 8) (t : Tag) : Flt := flt code (t.setWidth 64)

/-- The fault of consuming an INVALID operand (R34); deferred, as VCLASS, POISON and MALFORMED are (R299). -/
def invalidFault (t : Tag) : Flt :=
  let c := if tagDetail t = dPOISON then cPOISON else if tagDetail t = dMALFORMED then cMALFORMED else cVCLASS
  ⟨c, t.setWidth 64, true, 0⟩

/-! ## The core -/

def State.onCore (s : State) (f : Core → Core) : State := { s with core := f s.core }

/-- The core numbered `n`. -/
def coreOf (s : State) (n : Nat) : Core := if n = s.cur then s.core else sget Core.idle s.parked n

/-- Core `n` replaced. -/
def setCore (s : State) (n : Nat) (c : Core) : State :=
  if n = s.cur then { s with core := c } else { s with parked := sset Core.idle s.parked n c }

/-- Core `n` becomes the core that moves. The count of free values used goes on with it: no two cores draw the same ones. -/
def switchTo (s : State) (n : Nat) : State :=
  if n = s.cur then s
  else { s with cur := n, core := { sget Core.idle s.parked n with free := s.core.free },
                parked := sset Core.idle (sset Core.idle s.parked s.cur s.core) n Core.idle }

/-- A change of core `n` by an operation on the core that moves. -/
def asCore (s : State) (n : Nat) (f : State → State) : State := switchTo (f (switchTo s n)) s.cur

/-- s[i]; s0 reads zero (R81). -/
def sreg (c : Core) (i : BitVec 5) : Word := if i = 0 then 0 else vat 0 c.s i.toNat
/-- s[i] written; a write to s0 is discarded (R81). -/
def setS (c : Core) (i : BitVec 5) (v : Word) : Core := if i = 0 then c else { c with s := vput c.s i.toNat v }
/-- a[i]; a0 reads zero (R81). -/
def areg (c : Core) (i : BitVec 5) : Word := if i = 0 then 0 else vat 0 c.a i.toNat
def setA (c : Core) (i : BitVec 5) (v : Word) : Core := if i = 0 then c else { c with a := vput c.a i.toNat v }

/-- Sticky flags set (R50). -/
def orFlags (f : Flags) (c : Core) : Core := { c with csr := { c.csr with flags := c.csr.flags ||| f } }

/-- A free value, and the count that makes the next one fresh (logs 5, 6). -/
def drawNat (s : State) : Nat × State := (Config.freeNat s.core.free, s.onCore (fun c => { c with free := c.free + 1 }))

/-! ## STATUS (R294) -/

def spoilTrap (c : Core) : Bool := c.csr.status.getLsbD 0
def privileged (c : Core) : Bool := c.csr.status.getLsbD 1
def inTrap (c : Core) : Bool := c.csr.status.getLsbD 3
def ppend (c : Core) : Bool := c.csr.status.getLsbD 4

/-- STATUS of its fields. -/
def mkStatus (spoil priv ppriv intrap ppend : Bool) : BitVec 5 :=
  BitVec.ofBool ppend ++ BitVec.ofBool intrap ++ BitVec.ofBool ppriv ++ BitVec.ofBool priv ++ BitVec.ofBool spoil

def setPpend (b : Bool) (c : Core) : Core :=
  let st := c.csr.status
  let st' := mkStatus (st.getLsbD 0) (st.getLsbD 1) (st.getLsbD 2) (st.getLsbD 3) b
  { c with csr := { c.csr with status := st' } }

/-- The accessor that the running code is. -/
def accessor (s : State) : Accessor :=
  ⟨s.cur, ptbJob s.core.csr.ptb, ptbBase s.core.csr.ptb, privileged s.core, s.core.csr.features⟩

/-! ## Checked accesses (R116) -/

/-- The page of an access of `n` bytes at `ea`, after the checks of R116 in the order of its table: PAGE, PRIV, ALIGN. -/
def checkedPage (s : State) (k : AccessKind) (ea : Word) (align : Nat) : Chk Page :=
  if !canonical ea then faultNow (flt cPAGE ea)
  else
    let w := accessor s
    let r : Chk Page :=
      if inSaveWindow ea then
        if !w.priv then faultNow (flt cPRIV ea)
        else if k = .fetch ∨ k = .core ∨ k = .coreStore then faultNow (flt cPAGE ea)
        else .ok (windowPage ea)
      else if inNetAperture ea then faultNow (flt cPAGE ea)
      else match findPage s w ea with
        | none => faultNow (flt cPAGE ea)
        | some p =>
          if !pageAllows s w k p ea then faultNow (flt cPAGE ea)
          else if inRingArea (p.place ea) && !w.priv then faultNow (flt cPRIV ea)
          else .ok p
    match r with
    | .error e => .error e
    | .ok p => if ea.toNat % align = 0 then .ok p else faultNow (flt cALIGN ea)

/-- The access recorded in the translation caches and the migration counts. -/
def touchPage (p : Page) (ea : Word) (s : State) : State :=
  let w := accessor s
  if p.size = saveSize then s else noteAccess w.job p ea (fillCaches s w ea p)

/-- What an access leaves in the translation caches whose translation faults: a walk that fails caches nothing, and its wait in
the die's queue is counted (R276, R343). -/
def walkFailed (ea : Word) (s : State) : State :=
  let w := accessor s
  if !canonical ea || inSaveWindow ea || inNetAperture ea then s
  else match findPage s w ea with
    | some p => fillCaches s w ea p
    | none => countWalk w s

/-! ## Stores of the A ring (R207, R209) -/

/-- The state of a slice's stochastic generator (R292): unlisted, its reset value. -/
def sliceState (s : State) (k : Nat) : BitVec 32 :=
  let v := sget 0 s.sliceGen k
  if v = 0 then (1#32).rotateLeft (k % 32) else v

/-- The home slice of a line (R206): the named slice, or the one the interleave hash gives (log 7). -/
def homeSliceOf (p : Page) (pl : Nat) : Nat :=
  if p.home = homeSlice then leafSlice p.leaf else (Config.sliceOf (lineOf pl)).val

/-- A whole-line write under the page's DPOL: a 16-bit line is demoted at its home in the same step (R126). -/
def writeDemoted (s : State) (p : Page) (va : Word) (l : Line) : State :=
  if !demotes (leafDpfmt p.leaf) l.tag then writeLine s p va l
  else if leafDpsr p.leaf then
    let k := homeSliceOf p (p.place va)
    let g := advance (sliceState s k)
    let (t, d) := recodeLine (leafDpfmt p.leaf) .sr g l.tag l.data
    writeLine { s with sliceGen := sset 0 s.sliceGen k g } p va ⟨t, d⟩
  else
    let (t, d) := recodeLine (leafDpfmt p.leaf) .rne 0 l.tag l.data
    writeLine s p va ⟨t, d⟩

/-- A store applied at its home. The merge of a half line leaves the poison of the other half (R15, R40). -/
def applyWrite (s : State) (q : QueuedStore) : State :=
  match q.write with
  | .bytes len v => writeBytes s q.page q.ea len v.toNat
  | .line v t => writeDemoted s q.page q.ea ⟨t, v⟩
  | .half upper v t =>
    let o := if upper then 64 else 0
    let l := mergeLine s q.page q.ea
    mergeInto q.page q.ea ⟨t, patchLine l.data o 64 v.toNat⟩ ((List.range 8).map (· + o / 8)) s
  | .elems t es => scatterInto s q.page q.ea t es
  | .tangent f o n v => tangentInto s q.page q.ea f o n v
  | .payload t es =>
    let l := clearLine s (pageVersion s q.page) (q.page.place q.ea)
    let d := if isUninit l.tag && !untaggedAt s (q.page.place q.ea) then 0 else l.data
    let new : Line := ⟨t, putElems (tagFmt t) d es⟩
    if demotes (leafDpfmt q.page.leaf) t then writeDemoted s q.page q.ea new
    else mergeInto q.page q.ea new (coveredWords (tagFmt t) (es.map Prod.fst)) s

/-- The place at which a queued store writes. -/
def QueuedStore.place (q : QueuedStore) : Nat := q.page.place q.ea

/-- Two stores that keep their order: those to one line, and those that one core sends to ports (R207, R219). -/
def storesOrdered (s : State) (q r : QueuedStore) : Bool :=
  decide (lineOf q.place = lineOf r.place) ||
    (decide (q.st = r.st) && portHomed s q.page q.ea && portHomed s r.page r.ea)

/-- Something waits where a store writes: at its bytes, or at some byte of its line. -/
def storeHeld (s : State) (q : QueuedStore) : Bool :=
  match q.write with
  | .bytes len _ => bytesHeld s q.place len
  | _ => lineHeld s q.place

/-- A queued store may be applied next: nothing waits where it writes, and no earlier entry of the queue keeps it behind. -/
def storeReady (s : State) (earlier : List QueuedStore) (q : QueuedStore) : Bool :=
  !storeHeld s q && !earlier.any (storesOrdered s q)

/-- The queued stores applied at their homes; those that cannot be stay in the queue. -/
def applyQueue : List QueuedStore → List QueuedStore → State → State
  | [], kept, s => s.onCore (fun c => { c with storeQ := kept })
  | q :: qs, kept, s =>
    if storeReady s kept q then applyQueue qs kept (applyWrite s q) else applyQueue qs (kept ++ [q]) s

/-- Every queued store of the core that can be applied at its home now is (R207). -/
def drainStores (s : State) : State := applyQueue s.core.storeQ [] s

/-- Every queued store of the core can be applied now: a word that needs them applied need not wait (R106, R140). -/
def drainable (s : State) : Bool := s.core.storeQ.all (fun q => !storeHeld s q)

/-- The memory as a read of a line by an engine of this core finds it: with the core's own queued stores to the line (R207). -/
def ownView (s : State) (pl : Nat) : State :=
  (s.core.storeQ.filter (fun q => decide (lineOf q.place = lineOf pl))).foldl applyWrite s

/-- The queued stores of the core to a line, with the earlier ones that keep their order with those (R207, R219). -/
def storesTo (pl : Nat) (s : State) : List QueuedStore :=
  s.core.storeQ.filter (fun q => s.core.storeQ.any (fun r => decide (lineOf r.place = lineOf pl) && storesOrdered s q r))

/-- They can all be applied now. -/
def lineDrains (pl : Nat) (s : State) : Bool := (storesTo pl s).all (fun q => !storeHeld s q)

/-- They are applied at their homes. -/
def drainLine (pl : Nat) (s : State) : State :=
  let now := storesTo pl s
  now.foldl applyWrite (s.onCore (fun c => { c with storeQ := c.storeQ.filter (fun q => !now.contains q) }))

/-! ## What is in flight (R117, R118, R207) -/

/-- A run that a user barrier of place `ord` waits for has steps left (R132, R135, R143). -/
def barrierRuns (c : Core) (ord : Nat) (b : Barrier) : Bool :=
  (List.range 16).any (fun st =>
    let r := vat StreamRun.idle c.runs st
    b.before.getLsbD st && decide (r.kind ≠ .none ∧ r.ord ≤ ord) && (!b.loadsOnly || decide (r.kind = .generator)))

def Flight.isLoad (f : Flight) : Bool := match f.work with | .load _ => true | _ => false

/-- Every issued access has been performed at core scope: the loads have read, the stores have entered the store queue or
been applied (R209), no barrier waits but for the steps of runs, which a trap stops (R296), and no WAPP that has passed its checks
has a fetch-and-add left (R142). -/
def accessesDone (c : Core) : Bool :=
  c.append.isNone && c.flight.all (fun f => match f.work with
    | .load r => r.todo.isEmpty
    | .stores _ => false
    | .barrier b => !f.trap && barrierRuns c f.ord b)

/-- Some part of the word at `ord` is still in flight. -/
def inFlight (c : Core) (ord : Nat) : Bool := c.flight.any (fun f => f.ord == ord)

/-! ## Rings (R7, R8, R297) -/

def Rings.get (r : Rings) : Engine → Ring
  | .A => r.a
  | .X => r.x
  | .M => r.m
  | .Y => r.y

def Rings.put (r : Rings) (e : Engine) (q : Ring) : Rings :=
  match e with
  | .A => { r with a := q }
  | .X => { r with x := q }
  | .M => { r with m := q }
  | .Y => { r with y := q }

/-- The rings that the engines take words from (R296, R297). -/
def activeRings (c : Core) : Rings := if inTrap c then c.trap else c.user

def setActiveRings (c : Core) (r : Rings) : Core := if inTrap c then { c with trap := r } else { c with user := r }

def engineIndex : Engine → Nat
  | .A => 0
  | .X => 1
  | .M => 2
  | .Y => 3

def engines : List Engine := [.A, .X, .M, .Y]

/-- RING of CAUSE (R298). -/
def ringField (e : Engine) : BitVec 3 := BitVec.ofNat 3 (engineIndex e + 1)

/-- Ring slots and capture slots of the active rings (R7, R6, R297). -/
def ringSlots (c : Core) : Nat := if inTrap c then 64 else 1024
def captureSlots (c : Core) : Nat := if inTrap c then 64 else 256

/-- Ring slots that a word takes: one more with its prefix (R77). -/
def entrySlots (e : RingEntry) : Nat := if e.pfx.isSome then 2 else 1

def ringUsed (r : Ring) : Nat := (r.wrp - r.rdp).toNat
def capturesUsed (r : Ring) : Nat := (r.entries.map (fun e => e.caps.length)).sum

/-- The ring word at a position of a user ring lies in the ring area (R7). -/
def ringPlace (core : Nat) (e : Engine) (pos : Nat) : Nat :=
  placeScratch core (ringArea + 4096 * engineIndex e + 4 * (pos % 1024))

/-- A word written into the ring area (R7, R321). -/
def writeRingWord (s : State) (e : Engine) (pos : BitVec 11) (w : IWord) : State :=
  { s with mem := { s.mem with bytes := storeBytes s.mem.bytes (ringPlace s.cur e pos.toNat) 4 w.toNat } }

/-! ## The s registers that a word names -/

/-- The s registers that an engine word captures, one slot for each (R6). A B128 operand is a pair (R136). -/
def capturesOf : Instr → List (BitVec 5)
  | .sts d _ _ _ => [d]
  | .ste d _ _ => [d]
  | .feset _ b _ => [b]
  | .movsa _ a => [a]
  | .strgo _ _ n => [n]
  | .strsink _ _ n => [n]
  | .sbar _ a b => [a, b]
  | .aadd _ _ c _ => [c]
  | .amin _ _ c _ => [c]
  | .amax _ _ c _ => [c]
  | .aand _ _ c _ => [c]
  | .aor _ _ c _ => [c]
  | .axor _ _ c _ => [c]
  | .aswap _ _ c ty => if ty = 6 then [c, c + 1] else [c]
  | .acas _ _ c e ty => if ty = 6 then [c, c + 1, e, e + 1] else [c, e]
  | .acont _ _ c e _ => [c, e, e + 1]
  | .ownwait _ b => [b]
  | .vscale _ _ x _ => [x]
  | .vtag _ _ x => [x]
  | .vbcast _ _ x _ => [x]
  | .ptail _ x => [x]
  | .mcfg f g => [f, g]
  | .mma _ _ _ f g => [f, g]
  | .mxv _ _ _ f g => [f, g]
  | .mldc _ _ _ f g => [f, g]
  | .mzero _ _ _ f => [f]
  | .mdrain _ _ _ f g => [f, g]
  | .cpy _ _ e f g => [e, f, g]
  | .cpyz _ _ e f g => [e, f, g]
  | .cpyb _ _ e f => [e, f]
  | .cpyq _ _ e => [e]
  | .cpycan _ _ e => [e]
  | _ => []

/-- The s registers that an A word writes; each is pending until then (R6). -/
def destinationsOf : Instr → List (BitVec 5)
  | .lds d _ _ _ _ => [d]
  | .ldf d _ _ => [d]
  | .ldft d _ _ => [d]
  | .movas d _ => [d]
  | .strstop _ n => [n]
  | .qstat d _ => [d]
  | .aadd d _ _ _ => [d]
  | .amin d _ _ _ => [d]
  | .amax d _ _ _ => [d]
  | .aand d _ _ _ => [d]
  | .aor d _ _ _ => [d]
  | .axor d _ _ _ => [d]
  | .aswap d _ _ ty => if ty = 6 then [d, d + 1] else [d]
  | .acas d _ _ _ ty => if ty = 6 then [d, d + 1] else [d]
  | .acont d _ _ _ _ => [d]
  | _ => []

/-- The instruction of a ring word; a ring holds words as placed, whose register numbers are physical (R349). -/
def placedInstr (w : IWord) : Option Instr :=
  match decodeFields w with
  | .ok i => some i
  | .error _ => none

/-- s[r] is the destination of a word that stands in an A ring. -/
def ringWrites (r : Ring) (i : BitVec 5) : Bool :=
  r.entries.any (fun e => match placedInstr e.word with | some j => (destinationsOf j).contains i | none => false)

/-- s[i] is pending (R6, R322). The trap bank's registers have marks of their own. -/
def pendingS (c : Core) (i : BitVec 5) : Bool :=
  decide (i ≠ 0) &&
  (if inTrap c then ringWrites c.trap.a i || (decide (i.toNat < 24) && ringWrites c.user.a i)
   else ringWrites c.user.a i)

/-! ## Rotating registers (R13, R349) -/

/-- The physical register that a name stands for. -/
def physReg (rrb : BitVec 5) (n : BitVec 6) : BitVec 6 :=
  if 32 ≤ n.toNat ∧ n.toNat ≤ 55 then BitVec.ofNat 6 (32 + (n.toNat - 32 + rrb.toNat) % 24) else n

/-! ## Tokens (R9, R10) -/

/-- One unit added to token k, saturating at 255 with TKOVF (R10). -/
def addToken (k : BitVec 4) (c : Core) : Core :=
  if k = 0 then c
  else
    let v := vat 0 c.tokens k.toNat
    if v = 255 then orFlags fTKOVF c else { c with tokens := vput c.tokens k.toNat (v + 1) }

/-- The tokens of a word: the fields of an M or Y word, the TKN prefix of an A or X word (R9). -/
def tokensOf (e : Engine) (pfx : Option IWord) (w : IWord) : BitVec 4 × BitVec 4 :=
  match e with
  | .M => (fld w 19 4, fld w 15 4)
  | .Y => (fld w 19 4, fld w 15 4)
  | _ =>
    match pfx with
    | some p => if fld p 23 6 = 2 then (fld p 19 4, fld p 15 4) else (0, 0)
    | none => (0, 0)

/-- The counter on which the head of ring e waits; 0 for none. The A head of an issued access has its unit (R9). -/
def awaits (c : Core) (e : Engine) : BitVec 4 :=
  if e = .A ∧ c.issued.isSome then 0
  else match ((activeRings c).get e).entries.head? with
    | some r => (tokensOf e r.pfx r.word).1
    | none => 0

/-- The heads that are granted a unit of counter k before ring e's: those of the rings before it in the order A, X, M, Y
(R10). -/
def grantedBefore (c : Core) (e : Engine) (k : BitVec 4) : Nat :=
  (engines.filter (fun e' => decide (engineIndex e' < engineIndex e) && decide (awaits c e' = k))).length

/-- One unit taken from counter k for the head of ring e (R9, R10); none is named by 0. -/
def takeToken (e : Engine) (k : BitVec 4) (s : State) : Chk State :=
  if k = 0 then .ok s
  else
    let v := vat 0 s.core.tokens k.toNat
    if v.toNat ≤ grantedBefore s.core e k then waitNow ⟨1, k.setWidth 64⟩
    else .ok (s.onCore (fun c => { c with tokens := vput c.tokens k.toNat (v - 1) }))

/-- The raise of the word at `ord`: now, or by the part of it that is in flight (R9). -/
def raiseAt (ord : Nat) (k : BitVec 4) (c : Core) : Core :=
  if inFlight c ord then { c with flight := c.flight.map (fun f => if f.ord = ord then { f with raise := k } else f) }
  else addToken k c

/-! ## What a word carries to its engine -/

structure Ctx where
  ord : Nat
  trap : Bool
  word : IWord
  caps : List Word
  so : Word
  ext : Option (BitVec 23)
  dual : Nat
  bnd : Bindings
  badReserved : Bool
  raise : BitVec 4
  pos : BitVec 11
  /-- Of an A word whose access was issued before and waits for its verdict: the pages that its checks found. -/
  issued : Option (List (Word × Page))
  /-- The claims outstanding when an A word first met a tile that one holds (R16). -/
  reached : Option (List (Nat × Nat))
  deriving DecidableEq, Repr

/-- The payload of an EXT prefix (R75). -/
def extOf (pfx : Option IWord) : Option (BitVec 23) :=
  match pfx with
  | some p => if fld p 23 6 = 3 then some (fld p 0 23) else none
  | none => none

/-- N of a DUAL prefix, 0 without one. -/
def dualOf (pfx : Option IWord) : Nat :=
  match pfx with
  | some p => if fld p 23 6 = 1 then (fld p 21 2).toNat else 0
  | none => 0

def ctxOf (c : Core) (e : Engine) (r : RingEntry) : Ctx :=
  { ord := r.ord, trap := inTrap c, word := r.word, caps := r.caps, so := r.so, ext := extOf r.pfx,
    dual := dualOf r.pfx, bnd := r.bnd, badReserved := r.badReserved, raise := (tokensOf e r.pfx r.word).2,
    pos := r.pos, issued := if e = .A then c.issued else none, reached := if e = .A then c.reached else none }

def cap (x : Ctx) (i : Nat) : Word := x.caps.getD i 0

/-- An extendable field of n bits as a 64-bit signed value (R75). -/
def extSigned {n : Nat} (ext : Option (BitVec 23)) (f : BitVec n) : Word :=
  match ext with
  | none => f.signExtend 64
  | some e => (e ++ f).signExtend 64

/-- An extendable field read unsigned (R75). -/
def extUnsigned {n : Nat} (ext : Option (BitVec 23)) (f : BitVec n) : Word :=
  match ext with
  | none => f.setWidth 64
  | some e => (e ++ f).setWidth 64

/-! ## The function table (R96) -/

/-- A 16-byte entry: reserved bits, TANG, GANG, CONT, SIG, ADDR. -/
structure FuncEntry where
  reserved : Bool
  tang : Bool
  gang : Bool
  cont : Bool
  sig : BitVec 32
  addr : BitVec 48
  deriving DecidableEq, Repr

def funcEntry (v : BitVec 128) : FuncEntry :=
  { reserved := v.extractLsb' 83 45 ≠ 0, tang := v.getLsbD 82, gang := v.getLsbD 81, cont := v.getLsbD 80,
    sig := v.extractLsb' 48 32, addr := v.extractLsb' 0 48 }

/-- Bytes of job memory that the hardware reads for itself: as stored, an UNINIT line as zeros; none where no page allows
the read. -/
def jobBytes (s : State) (w : Accessor) (va : Word) (n : Nat) : Option Nat :=
  if !canonical va then none
  else match findPage s w va with
    | none => none
    | some p => if pageAllows s w .load p va then some (bytesAt s (pageVersion s p) (p.place va) n) else none

/-- Entry `i` of a function table in the memory of a job. -/
def tableFunc (s : State) (w : Accessor) (base : Word) (i : Nat) : Option (BitVec 128) :=
  (jobBytes s w (base + BitVec.ofNat 64 (16 * i)) 16).map (BitVec.ofNat 128)

/-- The handler entry of the run's job (R295): entry 0 of the object of slot 63. -/
def handlerEntry (s : State) : Option Word :=
  match s.core.run with
  | none => none
  | some r =>
    match sfind s.jobs r.job with
    | none => none
    | some j =>
      match sfind j.slots 63 with
      | none => none
      | some sl =>
        if sl.len = 0 then none
        else match tableFunc s { accessor s with priv := true } sl.base 0 with
          | none => none
          | some v =>
            let e := funcEntry v
            if e.reserved || decide (e.addr.toNat % 4 ≠ 0) then none else some (e.addr.setWidth 64)

/-! ## The end of a run -/

/-- The function mask of a function's jobs (R319): all ones unless FEATSET has changed it. -/
def featuresOf (s : State) (fn : Nat) : BitVec 5 := sget 0x1F s.featMask fn

/-- The end of a run is charged to its function's usage on the die (R260), and where it ends by EXIT or by an abandoning
fault, `lowers`, to D of its job (R261; log 9). -/
def chargeRun (lowers : Bool) (s : State) : State :=
  match s.core.run with
  | none => s
  | some r =>
    let k := s.core.free
    let s := s.onCore (fun c => { c with free := k + 1 })
    match sfind s.jobs r.job with
    | none => s
    | some j =>
      let die := s.cur / 256
      let d := vat Die.reset s.dies die
      { s with
        jobs := sput s.jobs r.job { j with deficit := if lowers then j.deficit - BitVec.ofNat 64 (Config.runCycles k) else j.deficit }
        dies := vput s.dies die { d with usage := sset 0 d.usage j.owner (sget 0 d.usage j.owner + Config.runMicros k) } }

/-- No word of the core waits at its home any longer. -/
def unstall (s : State) : State :=
  { s with stalled := s.stalled.filter (fun e => e.core ≠ s.cur),
           fullWaiters := s.fullWaiters.filter (fun e => e.core ≠ s.cur) }

/-- The A head whose access was issued and has had no effect: its unit goes back to the counter, and it waits nowhere (R9,
R80). -/
def unissue (s : State) : State :=
  let c := s.core
  let k := match c.issued, ((activeRings c).get .A).entries.head? with
    | some _, some r => (tokensOf .A r.pfx r.word).1
    | _, _ => 0
  (unstall s).onCore (fun c => { addToken k c with issued := none, reached := none, seen := [], append := none })

/-- The stores in flight, in the order of their words. -/
def flyingStores (c : Core) : List QueuedStore :=
  c.flight.flatMap (fun f => match f.work with | .stores l => l | _ => [])

/-- The memory as it will stand at a line once the core's queued stores and its stores in flight are applied to it. -/
def settledView (s : State) (pl : Nat) : State :=
  ((s.core.storeQ ++ flyingStores s.core).filter (fun q => decide (lineOf q.place = lineOf pl))).foldl applyWrite s

/-- Every store in flight enters the store queue; the loads and barriers in flight are dropped. -/
def landFlight (s : State) : State :=
  s.onCore (fun c => { c with flight := [], storeQ := c.storeQ ++ flyingStores c })

/-- The core freed: its rings, capture files, flumes, BQ and shape-record cache are empty, no nest runs, no command is in
progress (R20, R221, R313). -/
def freeCore (s : State) : State :=
  (unstall (drainStores (landFlight s))).onCore (fun c => { c with
    run := none, pfx := none, issued := none, reached := none, seen := [], append := none, gathered := none, yielded := false,
    records := [], user := Rings.empty, trap := Rings.empty, flumes := Vector.replicate 8 [], bq := [],
    mcmd := none, ycmds := [], barrier := none, seq := { c.seq with running := false, brk := false },
    runs := Vector.replicate 16 StreamRun.idle, pending := none, arrived := none, filled := false,
    waits := Vector.replicate 5 Waiting.none, csr := { c.csr with status := 0 } })

/-- No line of the command that has been issued has still to land: it can be settled (R203). -/
def YCommand.settled (y : YCommand) : Bool := decide (y.issued ≤ y.landed) && y.above.isEmpty

/-- HALT need not wait: no M command is in progress, no WAPP has a fetch-and-add left, and every Y command in flight can be settled
(R142, R203, R313). -/
def haltReady (c : Core) : Bool := c.mcmd.isNone && c.append.isNone && c.ycmds.all YCommand.settled

/-- HALT: the run ends without release and without a join-block decrement (R313). It abandons the run, and lowers D, unless its
handler was entered to pre-empt it (R261, R314; log 67). -/
def haltRun (s : State) : State := freeCore (chargeRun (!s.core.yielded) s)

/-- A double fault ends the run as HALT does, abandons it, and is counted in its die's telemetry (R261, R301). It waits as HALT
does, and the fault stands meanwhile before every word (R313). -/
def doubleFault (f : Flt) (ring : BitVec 3) (s : State) : State :=
  if !haltReady s.core then s.onCore (fun c => { c with pending := some ⟨0, ring, f⟩ })
  else
    let die := s.cur / 256
    freeCore (chargeRun true { s with
      fleet := { s.fleet with doubleFaults := sset 0 s.fleet.doubleFaults die (sget 0 s.fleet.doubleFaults die + 1) } })

/-! ## Taking a trap and returning from one -/

/-- s24 to s31 and a24 to a31 exchanged with the trap bank (R296, R303). -/
def exchangeBanks (c : Core) : Core :=
  { c with
    s := (List.range 8).foldl (fun v i => vput v (24 + i) (vat 0 c.trapS i)) c.s
    a := (List.range 8).foldl (fun v i => vput v (24 + i) (vat 0 c.trapA i)) c.a
    trapS := (List.range 8).foldl (fun v i => vput v i (vat 0 c.s (24 + i))) c.trapS
    trapA := (List.range 8).foldl (fun v i => vput v i (vat 0 c.a (24 + i))) c.trapA }

/-- CAUSE of its fields (R298). -/
def mkCause (f : Flt) (ring : BitVec 3) : BitVec 32 :=
  f.detail ++ BitVec.ofBool f.deferred ++ 0#4 ++ ring ++ f.code

/-- The address at which the splitter resumes: of the prefix, where a prefix waits for its word (R77, R78). -/
def resumePc (c : Core) : Word := if c.pfx.isSome then c.pc - 4 else c.pc

/-- EPC of an address: bits [47:2] (R298). -/
def mkEpc (pc : Word) : Word := (pc.extractLsb' 2 46).setWidth 64 <<< 2

/-- Taking a trap (R296): a double fault in handler mode or without a handler entry (R301, R295). TRAP counts as handled:
EPC is its address plus 4 (R302). -/
def takeTrap (f : Flt) (ring : BitVec 3) (s : State) : State :=
  if inTrap s.core then doubleFault f ring s
  else match handlerEntry s with
    | none => doubleFault f ring s
    | some entry =>
      (unissue s).onCore (fun c =>
        let st := c.csr.status
        let c' := exchangeBanks c
        { c' with
          pc := entry, pfx := none, pending := none, arrived := none, gathered := none
          yielded := decide (f.code = cPREEMPT), waits := Vector.replicate 5 Waiting.none, trap := Rings.empty
          csr := { c.csr with
            cause := mkCause f ring
            epc := mkEpc (if f.code = cTRAPI then c.pc + 4 else resumePc c)
            tval := f.tval
            status := mkStatus (st.getLsbD 0) true (st.getLsbD 1) true
              (if f.code = cPREEMPT then false else st.getLsbD 4) } })

/-- Steps 2 to 4 of ERET: banks, PRIV and INTRAP, the splitter to EPC; stopped generators and sinks try their step again
(R303, R133). -/
def trapReturn (s : State) : State :=
  s.onCore (fun c =>
    let st := c.csr.status
    let c' := exchangeBanks c
    { c' with pc := c.csr.epc, pfx := none, trap := Rings.empty, yielded := false,
              runs := c.runs.map (fun r => { r with flt := none }),
              csr := { c.csr with status := mkStatus (st.getLsbD 0) (st.getLsbD 2) (st.getLsbD 2) false (st.getLsbD 4) } })

/-! ## Choosing the fault (R300) -/

/-- No word earlier than `ord` stands unstarted in a ring. -/
def settledBefore (c : Core) (ord : Nat) : Bool :=
  engines.all (fun e => ((activeRings c).get e).entries.all (fun r => decide (ord ≤ r.ord)))

/-- A fault found at the word of place `ord`: the earliest word's fault stands (R300), and the trap is taken at once where
no earlier word is unstarted and every started one has completed (R80). The walk of a PAGE fault's address has been made. -/
def raiseFault (ord : Nat) (ring : BitVec 3) (f : Flt) (s : State) : State :=
  let s := if f.code = cPAGE then walkFailed f.tval s else s
  let p : PendingFault := match s.core.pending with
    | some q => if q.ord ≤ ord then q else ⟨ord, ring, f⟩
    | none => ⟨ord, ring, f⟩
  if settledBefore s.core p.ord && accessesDone s.core then takeTrap p.flt p.ring s
  else s.onCore (fun c => { c with pending := some p })

/-! ## Starting a ring's head -/

/-- The head's word has left the ring (R7, R8). -/
def popHead (e : Engine) (r : RingEntry) (c : Core) : Core :=
  let rs := activeRings c
  let q := rs.get e
  let c := setActiveRings c (rs.put e
    { q with rdp := q.rdp + BitVec.ofNat 11 (entrySlots r), entries := q.entries.drop 1 })
  { c with
    waits := vput c.waits (engineIndex e) Waiting.none
    issued := if e = .A then none else c.issued
    reached := if e = .A then none else c.reached }

/-- A and X words raise their token when they are done; M and Y words when they complete (R9). -/
def raisesAtStart : Engine → Bool
  | .A => true
  | .X => true
  | _ => false

/-- The head is started: it takes its token unless it took it when its access was issued (R9), acts, leaves the ring, and
raises its token. -/
def startWord (e : Engine) (r : RingEntry) (run : Ctx → State → Chk State) (s : State) : Chk State := do
  let (w, k) := tokensOf e r.pfx r.word
  let x := ctxOf s.core e r
  let s1 ← if x.issued.isSome then .ok s else takeToken e w s
  let s2 ← run x (s1.onCore (popHead e r))
  return if raisesAtStart e then s2.onCore (raiseAt r.ord k) else s2

/-- The pages that an issued word holds, with those that its checks have found since. -/
def addPages (old : Option (List (Word × Page))) (pages : List (Word × Page)) : List (Word × Page) :=
  let l := old.getD []
  l ++ pages.filter (fun p => !l.any (fun q => q.1 == p.1))

/-- The A head's access has been issued: its token is taken, and the pages of its checks are held (R9, R117). -/
def issueHead (e : Engine) (r : RingEntry) (pages : List (Word × Page)) (s : State) : State :=
  let k := (tokensOf e r.pfx r.word).1
  s.onCore (fun c => { c with
    issued := some (addPages c.issued pages)
    tokens := if c.issued.isSome ∨ k = 0 then c.tokens
      else vput c.tokens k.toNat (vat 0 c.tokens k.toNat - 1) })

/-- The head stays at its ring's head in state `t`, in which its word has made some of its accesses: an A word has been issued, and
another's unit is still in its counter (R9, R207). -/
def keepHead (e : Engine) (pages : List (Word × Page)) (s t : State) : State :=
  t.onCore (fun c => { c with
    user := s.core.user, trap := s.core.trap, waits := s.core.waits, reached := s.core.reached
    issued := if e = .A then some (addPages s.core.issued pages) else s.core.issued
    tokens := if e = .A then c.tokens else s.core.tokens })

/-- The current core's word waits at its home for room in a launch queue (R108, R109, R140). -/
def stall (s : State) (k : Deferred) (va : Word) (p : Page) (q : Nat) : State :=
  if s.stalled.any (fun e => e.core = s.cur) then s
  else { s with stalled := s.stalled ++ [⟨s.cur, k, va, p, ptbJob s.core.csr.ptb, q⟩] }

/-- The current core's word waits at its home for a full/empty bit, behind those that came before it (R121). -/
def queueAtHome (bit : Option (Nat × Bool)) (s : State) : State :=
  match bit with
  | none => s
  | some (pl, full) =>
    if s.fullWaiters.any (fun e => e.core = s.cur) then s
    else { s with fullWaiters := s.fullWaiters ++ [⟨s.cur, pl, full⟩] }

/-- The pre-emption of a run whose WAPP has still a fetch-and-add to perform comes after it (R80, R306; log 35). -/
def yields (c : Core) : Bool := c.append.isSome && ppend c && !inTrap c

/-- The head tried: it starts, it waits, or its fault is found. -/
def tryHead (e : Engine) (r : RingEntry) (run : Ctx → State → Chk State) (s : State) : State :=
  match startWord e r run s with
  | .ok t => if yields s.core && t.core.append.isNone then takeTrap (flt cPREEMPT 0) 5 t else t
  | .error (.wait _) => s
  | .error (.sluice _ cs) => s.onCore (fun c => { c with reached := some (c.reached.getD cs) })
  | .error (.home _ ps bit) => queueAtHome bit (issueHead e r ps s)
  | .error (.fault f) => raiseFault r.ord (ringField e) f (if s.core.issued.isSome && decide (e = .A) then unissue s else s)
  | .error (.launchFull t q va p) => stall (keepHead e [(va, p)] s t) .acont va p q
  | .error (.paused t ps) => keepHead e ps s t

/-! ## The splitter and engine words (R5, R6, R78, R79) -/

/-- A word that the splitter rejects stands in the control core: RING 0 (R78). -/
def rejectWord (f : Flt) (s : State) : Out := .next (raiseFault s.core.ord 0 f s)

/-- The splitter's stand still: a fault or a pre-emption waits to be taken, or the sequencer feeds the rings (R80, R102, R306). -/
def splitterStops (c : Core) (engineWord : Bool) : Bool :=
  c.pending.isSome || yields c || (engineWord && c.seq.running && !inTrap c)

/-- The captured values of a word, with MXV's batch register carrying RRB in [63:59] (R6, R349). -/
def captureValues (c : Core) (i : Instr) : List Word :=
  match i with
  | .mxv _ _ _ f g => [sreg c f, (c.csr.rrb ++ (sreg c g).extractLsb' 0 59 : BitVec 64)]
  | _ => (capturesOf i).map (sreg c)

/-- A reserved bit of MXV's s[g] as the program supplied it (R183, R349). -/
def reservedSet (c : Core) (i : Instr) : Bool :=
  match i with
  | .mxv _ _ _ _ g => (sreg c g).extractLsb' 59 5 ≠ 0
  | _ => false

/-- The ring has no room for the word, or its capture file for the values (R5). -/
def ringFull (c : Core) (e : Engine) (slots caps : Nat) : Bool :=
  let q := (activeRings c).get e
  decide (ringSlots c < ringUsed q + slots) || decide (captureSlots c < capturesUsed q + caps)

/-- A word placed in its ring at the end of split order. User ring words also lie in the ring area (R7). -/
def placeWord (e : Engine) (pfx : Option IWord) (word : IWord) (caps : List Word) (so : Word) (bad : Bool)
    (s : State) : State × RingEntry :=
  let q := (activeRings s.core).get e
  let r : RingEntry := ⟨s.core.ord, q.wrp, pfx, word, caps, so, s.core.bnd, bad, true⟩
  let s1 := if inTrap s.core then s else
    match pfx with
    | some p => writeRingWord (writeRingWord s e q.wrp p) e (q.wrp + 1) word
    | none => writeRingWord s e q.wrp word
  let s2 := s1.onCore (fun c =>
    let rs := activeRings c
    let c := setActiveRings c (rs.put e
      { q with wrp := q.wrp + BitVec.ofNat 11 (entrySlots r), entries := q.entries ++ [r] })
    { c with ord := c.ord + 1 })
  (s2, r)

/-- The schedule's choice for the next engine word: false starts it at once where its ring was empty. -/
def takeHold (s : State) : Bool × State :=
  match s.core.holdWord with
  | [] => (false, s)
  | b :: bs => (b, s.onCore (fun c => { c with holdWord := bs }))

/-- The last slot of a placed word: started at once when it stands at the head and the schedule lets it. -/
def settlePlaced (e : Engine) (r : RingEntry) (wasEmpty : Bool) (run : Ctx → State → Chk State) (s : State) : State :=
  let (hold, s) := takeHold s
  if wasEmpty && !hold then tryHead e r run s else s

/-- An A, X, M or Y word at the splitter. `i` is the word as written, `placed` the word as its ring holds it, `reject` the
checks of the splitter that depend on state. -/
def issue (e : Engine) (i placed : Instr) (reject : Core → IWord → Option Flt) (run : Ctx → State → Chk State)
    (s : State) : Out :=
  if splitterStops s.core true then .next s
  else
    let word := (encode i).getD 0
    match reject s.core word with
    | some f => rejectWord f s
    | none =>
      let pfx := s.core.pfx
      let caps := captureValues s.core i
      if (capturesOf i).any (pendingS s.core) then .next s
      else if ringFull s.core e (if pfx.isSome then 2 else 1) caps.length then .next s
      else
        let empty := ((activeRings s.core).get e).entries.isEmpty
        let s1 := s.onCore (fun c => { c with pc := c.pc + 4, pfx := none })
        let (s2, r) := placeWord e pfx ((encode placed).getD 0) caps 0 (reservedSet s.core i) s1
        .next (settlePlaced e r empty run s2)

/-! ## C and Z words (R86) -/

/-- What a control word knows of itself: its address, its bits, its place in split order, its EXT payload. -/
structure CCtx where
  pc : Word
  word : IWord
  ord : Nat
  ext : Option (BitVec 23)
  deriving DecidableEq, Repr

/-- A C or Z word: it waits while a register it reads or writes is pending, and then acts. The state its body receives
stands after the word. -/
def control (i : Instr) (regs : List (BitVec 5)) (body : CCtx → State → Chk State) (s : State) : Out :=
  if splitterStops s.core false then .next s
  else if regs.any (pendingS s.core) then .next s
  else
    let x : CCtx := ⟨s.core.pc, (encode i).getD 0, s.core.ord, extOf s.core.pfx⟩
    let s1 := s.onCore (fun c =>
      { c with pc := c.pc + 4, pfx := none, ord := c.ord + 1, waits := vput c.waits 4 Waiting.none })
    match body x s1 with
    | .ok s' => .next s'
    | .error (.fault f) => .next (raiseFault s.core.ord 0 f s)
    | .error _ => .next s

end Sys2Proof.Machine
end

