-- ==== Sys2Proof/Machine/Integer.lean ====
section
/-! DEFINITION. C integer words (R87 to R91). Each is one operation on s registers, done when the control core executes
it. -/

namespace Sys2Proof.Machine

/-- s[a] of the core that moves. -/
def rs (s : State) (a : BitVec 5) : Word := sreg s.core a

/-- s[d] written. -/
def ws (d : BitVec 5) (v : Word) (s : State) : State := s.onCore (fun c => setS c d v)

/-- A word that writes one register from two (R87). -/
def alu2 (i : Instr) (d a b : BitVec 5) (f : Word → Word → Word) (s : State) : Out :=
  control i [d, a, b] (fun _ s => .ok (ws d (f (rs s a) (rs s b)) s)) s

/-- A word that writes one register from one (R87, R90). -/
def alu1 (i : Instr) (d a : BitVec 5) (f : Word → Word) (s : State) : Out :=
  control i [d, a] (fun _ s => .ok (ws d (f (rs s a)) s)) s

/-- A word with a signed, extendable immediate (R90). -/
def aluImm (i : Instr) (d a : BitVec 5) (imm : BitVec 13) (f : Word → Word → Word) (s : State) : Out :=
  control i [d, a] (fun x s => .ok (ws d (f (rs s a) (extSigned x.ext imm)) s)) s

def boolWord (b : Bool) : Word := if b then 1 else 0

/-- The high 64 bits of the signed product (R87). -/
def mulHigh (a b : Word) : Word := ((a.signExtend 128 * b.signExtend 128 : BitVec 128)).extractLsb' 64 64
/-- The high 64 bits of the unsigned product (R87). -/
def mulHighU (a b : Word) : Word := ((a.setWidth 128 * b.setWidth 128 : BitVec 128)).extractLsb' 64 64

/-- Leading zeros of the low `n` bits. -/
def leadingZeros (a : Word) : Nat → Nat
  | 0 => 0
  | n + 1 => if a.getLsbD n then 0 else 1 + leadingZeros a n

/-- Trailing zeros among bits 64 - n and above. -/
def trailingZeros (a : Word) : Nat → Nat
  | 0 => 0
  | n + 1 => if a.getLsbD (63 - n) then 0 else 1 + trailingZeros a n

def onesCount (a : Word) : Nat → Nat
  | 0 => 0
  | n + 1 => (if a.getLsbD n then 1 else 0) + onesCount a n

/-- Quotient and remainder of R88. -/
def divS (a b : Word) : Word := if b = 0 then BitVec.allOnes 64 else BitVec.ofInt 64 (a.toInt.tdiv b.toInt)
def divU (a b : Word) : Word := if b = 0 then BitVec.allOnes 64 else BitVec.ofNat 64 (a.toNat / b.toNat)
def remS (a b : Word) : Word := if b = 0 then a else BitVec.ofInt 64 (a.toInt.tmod b.toInt)
def remU (a b : Word) : Word := if b = 0 then a else BitVec.ofNat 64 (a.toNat % b.toNat)

/-- A division word: division by zero sets DIVZERO (R88). -/
def divide (i : Instr) (d a b : BitVec 5) (f : Word → Word → Word) (s : State) : Out :=
  control i [d, a, b] (fun _ s =>
    let r := f (rs s a) (rs s b)
    let s' := if rs s b = 0 then s.onCore (orFlags fDIVZERO) else s
    .ok (ws d r s')) s

/-- A mask of the low `w` bits. -/
def lowMask (w : Nat) : Word := BitVec.ofNat 64 (2 ^ w - 1)

/-- The field of `l` + 1 bits from `p` up (R89). -/
def bfxVal (a : Word) (p l : BitVec 6) : Word := (a >>> p.toNat) &&& lowMask (l.toNat + 1)
def bfxsVal (a : Word) (p l : BitVec 6) : Word :=
  BitVec.sshiftRight (a <<< (63 - l.toNat - p.toNat)) (63 - l.toNat)
def bfiVal (d a : Word) (p l : BitVec 6) : Word :=
  (d &&& ~~~(lowMask (l.toNat + 1) <<< p.toNat)) ||| ((a &&& lowMask (l.toNat + 1)) <<< p.toNat)

/-- The low 6 bits of a shift amount. -/
def shamt (b : Word) : Nat := (b.extractLsb' 0 6).toNat

/-- R87: s[d] := s[a] + s[b]. -/
def execAdd (d a b : BitVec 5) (s : State) : Out := alu2 (.add d a b) d a b (fun x y => x + y) s

/-- R87: s[d] := s[a] - s[b]. -/
def execSub (d a b : BitVec 5) (s : State) : Out := alu2 (.sub d a b) d a b (fun x y => x - y) s

/-- R87: the low 64 bits of the product. -/
def execMul (d a b : BitVec 5) (s : State) : Out := alu2 (.mul d a b) d a b (fun x y => x * y) s

/-- R87: the high 64 bits of the signed product. -/
def execMulh (d a b : BitVec 5) (s : State) : Out := alu2 (.mulh d a b) d a b (fun x y => mulHigh x y) s

/-- R87: the high 64 bits of the unsigned product. -/
def execMulhu (d a b : BitVec 5) (s : State) : Out := alu2 (.mulhu d a b) d a b (fun x y => mulHighU x y) s

/-- R88. -/
def execDiv (d a b : BitVec 5) (s : State) : Out := divide (.div d a b) d a b divS s

/-- R88. -/
def execDivu (d a b : BitVec 5) (s : State) : Out := divide (.divu d a b) d a b divU s

/-- R88. -/
def execRem (d a b : BitVec 5) (s : State) : Out := divide (.rem d a b) d a b remS s

/-- R88. -/
def execRemu (d a b : BitVec 5) (s : State) : Out := divide (.remu d a b) d a b remU s

/-- R87: bitwise AND. -/
def execAnd (d a b : BitVec 5) (s : State) : Out := alu2 (.and d a b) d a b (fun x y => x &&& y) s

/-- R87: bitwise OR. -/
def execOr (d a b : BitVec 5) (s : State) : Out := alu2 (.or d a b) d a b (fun x y => x ||| y) s

/-- R87: bitwise XOR. -/
def execXor (d a b : BitVec 5) (s : State) : Out := alu2 (.xor d a b) d a b (fun x y => x ^^^ y) s

/-- R87: left shift by s[b][5:0]. -/
def execShl (d a b : BitVec 5) (s : State) : Out := alu2 (.shl d a b) d a b (fun x y => x <<< shamt y) s

/-- R87: logical right shift by s[b][5:0]. -/
def execShrl (d a b : BitVec 5) (s : State) : Out := alu2 (.shrl d a b) d a b (fun x y => x >>> shamt y) s

/-- R87: arithmetic right shift by s[b][5:0]. -/
def execShra (d a b : BitVec 5) (s : State) : Out := alu2 (.shra d a b) d a b (fun x y => x.sshiftRight (shamt y)) s

/-- R87: 1 if s[a] < s[b], signed. -/
def execSlt (d a b : BitVec 5) (s : State) : Out := alu2 (.slt d a b) d a b (fun x y => boolWord (x.slt y)) s

/-- R87: 1 if s[a] < s[b], unsigned. -/
def execSltu (d a b : BitVec 5) (s : State) : Out := alu2 (.sltu d a b) d a b (fun x y => boolWord (x.ult y)) s

/-- R87: signed minimum. -/
def execMin (d a b : BitVec 5) (s : State) : Out := alu2 (.min d a b) d a b (fun x y => if x.slt y then x else y) s

/-- R87: signed maximum. -/
def execMax (d a b : BitVec 5) (s : State) : Out := alu2 (.max d a b) d a b (fun x y => if x.slt y then y else x) s

/-- R87: unsigned minimum. -/
def execMinu (d a b : BitVec 5) (s : State) : Out := alu2 (.minu d a b) d a b (fun x y => if x.ult y then x else y) s

/-- R87: unsigned maximum. -/
def execMaxu (d a b : BitVec 5) (s : State) : Out := alu2 (.maxu d a b) d a b (fun x y => if x.ult y then y else x) s

/-- R87: leading zeros; 64 when s[a] is 0. -/
def execClz (d a : BitVec 5) (s : State) : Out := alu1 (.clz d a) d a (fun x => BitVec.ofNat 64 (leadingZeros x 64)) s

/-- R87: trailing zeros; 64 when s[a] is 0. -/
def execCtz (d a : BitVec 5) (s : State) : Out := alu1 (.ctz d a) d a (fun x => BitVec.ofNat 64 (trailingZeros x 64)) s

/-- R87: one bits of s[a]. -/
def execPopc (d a : BitVec 5) (s : State) : Out := alu1 (.popc d a) d a (fun x => BitVec.ofNat 64 (onesCount x 64)) s

/-- R89: zero-extended field. -/
def execBfx (d a : BitVec 5) (p l : BitVec 6) (s : State) : Out :=
  alu1 (.bfx d a p l) d a (fun x => bfxVal x p l) s

/-- R89: sign-extended field. -/
def execBfxs (d a : BitVec 5) (p l : BitVec 6) (s : State) : Out :=
  alu1 (.bfxs d a p l) d a (fun x => bfxsVal x p l) s

/-- R89: the low bits of s[a] inserted into s[d]. -/
def execBfi (d a : BitVec 5) (p l : BitVec 6) (s : State) : Out :=
  control (.bfi d a p l) [d, a] (fun _ s => .ok (ws d (bfiVal (rs s d) (rs s a) p l) s)) s

/-- A word that writes one register from three (R87). -/
def alu3 (i : Instr) (d a b c : BitVec 5) (f : Word → Word → Word → Word) (s : State) : Out :=
  control i [d, a, b, c] (fun _ s => .ok (ws d (f (rs s a) (rs s b) (rs s c)) s)) s

/-- R87: the high half of a:b shifted left. -/
def execFshl (d a b c : BitVec 5) (s : State) : Out :=
  alu3 (.fshl d a b c) d a b c (fun x y z => ((x ++ y : BitVec 128) <<< shamt z).extractLsb' 64 64) s

/-- R87: the low half of a:b shifted right. -/
def execFshr (d a b c : BitVec 5) (s : State) : Out :=
  alu3 (.fshr d a b c) d a b c (fun x y z => ((x ++ y : BitVec 128) >>> shamt z).extractLsb' 0 64) s

/-- R87: s[a] if s[c] is not 0, else s[b]. -/
def execSel (d a b c : BitVec 5) (s : State) : Out :=
  alu3 (.sel d a b c) d a b c (fun x y z => if z ≠ 0 then x else y) s

/-- R90. -/
def execAddi (d a : BitVec 5) (i : BitVec 13) (s : State) : Out :=
  aluImm (.addi d a i) d a i (fun x y => x + y) s

/-- R90. -/
def execAndi (d a : BitVec 5) (i : BitVec 13) (s : State) : Out :=
  aluImm (.andi d a i) d a i (fun x y => x &&& y) s

/-- R90. -/
def execOri (d a : BitVec 5) (i : BitVec 13) (s : State) : Out :=
  aluImm (.ori d a i) d a i (fun x y => x ||| y) s

/-- R90. -/
def execXori (d a : BitVec 5) (i : BitVec 13) (s : State) : Out :=
  aluImm (.xori d a i) d a i (fun x y => x ^^^ y) s

/-- R90. -/
def execSlti (d a : BitVec 5) (i : BitVec 13) (s : State) : Out :=
  aluImm (.slti d a i) d a i (fun x y => boolWord (x.slt y)) s

/-- R90. -/
def execShli (d a : BitVec 5) (k : BitVec 6) (s : State) : Out :=
  alu1 (.shli d a k) d a (fun x => x <<< k.toNat) s

/-- R90. -/
def execShrli (d a : BitVec 5) (k : BitVec 6) (s : State) : Out :=
  alu1 (.shrli d a k) d a (fun x => x >>> k.toNat) s

/-- R90. -/
def execShrai (d a : BitVec 5) (k : BitVec 6) (s : State) : Out :=
  alu1 (.shrai d a k) d a (fun x => x.sshiftRight k.toNat) s

/-- R91: s[d] := SignExtend(v) << 13. -/
def execLui (d : BitVec 5) (i : BitVec 18) (s : State) : Out :=
  control (.lui d i) [d] (fun x s => .ok (ws d (extSigned x.ext i <<< 13) s)) s

/-- R91: s[d] := PC + (SignExtend(v) << 13). -/
def execAuipc (d : BitVec 5) (i : BitVec 18) (s : State) : Out :=
  control (.auipc d i) [d] (fun x s => .ok (ws d (x.pc + (extSigned x.ext i <<< 13)) s)) s

end Sys2Proof.Machine
end

