-- ==== Sys2Proof/Machine/Flow.lean ====
section
/-! DEFINITION. C flow words (R92 to R96). -/

namespace Sys2Proof.Machine

/-- The control program counter set to a target. -/
def jumpTo (pc : Word) (s : State) : State := s.onCore (fun c => { c with pc := pc })

/-- A transfer to an address: a target that is not a multiple of 4 faults ALIGN (R68). -/
def jumpChecked (pc : Word) (s : State) : Chk State :=
  if pc.toNat % 4 = 0 then .ok (jumpTo pc s) else faultNow (flt cALIGN pc)

/-- A word offset from the word that holds it (R69). -/
def wordTarget (pc off : Word) : Word := pc + (off <<< 2)

/-- A conditional branch (R92). -/
def branch (i : Instr) (a b : BitVec 5) (o : BitVec 13) (f : Word → Word → Bool) (s : State) : Out :=
  control i [a, b] (fun x s =>
    .ok (if f (rs s a) (rs s b) then jumpTo (wordTarget x.pc (extSigned x.ext o)) s else s)) s

/-- R92. -/
def execBeq (a b : BitVec 5) (o : BitVec 13) (s : State) : Out := branch (.beq a b o) a b o (fun x y => x == y) s

/-- R92. -/
def execBne (a b : BitVec 5) (o : BitVec 13) (s : State) : Out := branch (.bne a b o) a b o (fun x y => x != y) s

/-- R92. -/
def execBlt (a b : BitVec 5) (o : BitVec 13) (s : State) : Out := branch (.blt a b o) a b o (fun x y => x.slt y) s

/-- R92. -/
def execBge (a b : BitVec 5) (o : BitVec 13) (s : State) : Out := branch (.bge a b o) a b o (fun x y => !x.slt y) s

/-- R92. -/
def execBltu (a b : BitVec 5) (o : BitVec 13) (s : State) : Out := branch (.bltu a b o) a b o (fun x y => x.ult y) s

/-- R92. -/
def execBgeu (a b : BitVec 5) (o : BitVec 13) (s : State) : Out := branch (.bgeu a b o) a b o (fun x y => !x.ult y) s

/-- R93: PC + 4 × SignExtend(OFF23). -/
def execJmp (o : BitVec 23) (s : State) : Out :=
  control (.jmp o) [] (fun x s => .ok (jumpTo (wordTarget x.pc (extSigned x.ext o)) s)) s

/-- R93: as JMP, with the link in s[d]. -/
def execJal (d : BitVec 5) (i : BitVec 18) (s : State) : Out :=
  control (.jal d i) [d] (fun x s => .ok (ws d (x.pc + 4) (jumpTo (wordTarget x.pc (extSigned x.ext i)) s))) s

/-- R93, R68: to s[a]. -/
def execJr (a : BitVec 5) (s : State) : Out := control (.jr a) [a] (fun _ s => jumpChecked (rs s a) s) s

/-- R93, R68: to s[a] + SignExtend(IMM13), read before the link is written. -/
def execJalr (d a : BitVec 5) (i : BitVec 13) (s : State) : Out :=
  control (.jalr d a i) [d, a] (fun x s => do
    let s' ← jumpChecked (rs s a + extSigned x.ext i) s
    return ws d (x.pc + 4) s') s

/-- R93, R68: to s1. -/
def execRet (s : State) : Out := control .ret [1] (fun _ s => jumpChecked (rs s 1) s) s

/-- An entry of the run's function table: the cached copy, or read from memory and cached (R96), behind what waits there (R140). -/
def readFunc (i : Nat) (s : State) : Chk (FuncEntry × State) :=
  match s.core.fcache.find? (fun e => e.1 == i) with
  | some e => .ok (funcEntry e.2, s)
  | none =>
    match s.core.run with
    | none => faultNow (flt cCFI (BitVec.ofNat 64 i))
    | some r =>
      let va := r.tabBase + BitVec.ofNat 64 (16 * i)
      match jobBytes s (accessor s) va 16, findPage s (accessor s) va with
      | some v, some p =>
        if bytesStalled s (p.place va) 16 then waitNow untimed
        else
          let e := BitVec.ofNat 128 v
          .ok (funcEntry e, (touchPage p va s).onCore (fun c => { c with fcache := (i, e) :: c.fcache }))
      | _, _ => faultNow (flt cPAGE va)

def tableLength (s : State) : Nat := match s.core.run with | some r => r.tabLen | none => 0

/-- R96: index, reserved bits and signature (CFI), alignment, then the call through s1. -/
def execCallt (a : BitVec 5) (g : BitVec 9) (s : State) : Out :=
  control (.callt a g) [a, 1] (fun x s => do
    let i := rs s a
    if tableLength s ≤ i.toNat then faultNow (flt cCFI i)
    else
      let (e, s) ← readFunc i.toNat s
      let target : Word := e.addr.setWidth 64
      if e.reserved || decide (e.sig.setWidth 64 ≠ extUnsigned x.ext g) then faultNow (flt cCFI i)
      else if target.toNat % 4 ≠ 0 then faultNow (flt cALIGN target)
      else return ws 1 (x.pc + 4) (jumpTo target s)) s

/-- The head of BQ popped; the word waits while BQ is empty (R95, R115). -/
def popBq (s : State) : Chk (Word × State) :=
  match s.core.bq with
  | [] => waitNow ⟨6, 0⟩
  | e :: es => .ok (e, s.onCore (fun c => { c with bq := es }))

/-- R95: branches if B is 1. -/
def execBqt (o : BitVec 23) (s : State) : Out :=
  control (.bqt o) [] (fun x s => do
    let (e, s) ← popBq s
    return if e.getLsbD 31 then jumpTo (wordTarget x.pc (extSigned x.ext o)) s else s) s

/-- R95: branches if B is 0. -/
def execBqf (o : BitVec 23) (s : State) : Out :=
  control (.bqf o) [] (fun x s => do
    let (e, s) ← popBq s
    return if e.getLsbD 31 then s else jumpTo (wordTarget x.pc (extSigned x.ext o)) s) s

/-- R95: s[d] := the entry. -/
def execBqpop (d : BitVec 5) (s : State) : Out :=
  control (.bqpop d) [d] (fun _ s => do
    let (e, s) ← popBq s
    return ws d e s) s

/-- R96: no effect. -/
def execNop (s : State) : Out := control .nop [] (fun _ s => .ok s) s

end Sys2Proof.Machine
end

