-- ==== Sys2Proof/Machine/Fetch.lean ====
section
/-! DEFINITION. Instruction fetch (R68, R215, R274, R318) and the sequencer's words (R97 to R105). -/

namespace Sys2Proof.Machine

/-- The word at an address: the instruction cache's copy, or the bytes as stored, which enter the cache (R215). -/
def fetchWord (pc : Word) (s : State) : Chk (IWord × State) :=
  match s.core.icache.find? (fun e => e.1 == pc) with
  | some e => .ok (e.2, s)
  | none =>
    match checkedPage s .fetch pc 4 with
    | .error e => .error e
    | .ok p =>
      let w := BitVec.ofNat 32 (bytesAt s (pageVersion s p) (p.place pc) 4)
      let s := touchPage p pc s
      .ok (w, s.onCore (fun c => { c with icache := cachePush 16384 (Config.victim c.free) c.icache (pc, w) }))

/-! ## Sequencer sets (R97, R98) -/

def seqCount (q : SeqSet) (l : Nat) : BitVec 32 := vat 0 q.n l
def seqRot (q : SeqSet) (l : Nat) : Bool := vat false q.rot l
def seqStride (q : SeqSet) (l st : Nat) : Word := vat 0 q.stride (16 * l + st)

/-- N_l + (ROT_l << 32), as a read of SEQLVL gives it. -/
def seqLevelWord (q : SeqSet) (l : Nat) : Word := boolWord (seqRot q l) <<< 32 ||| (seqCount q l).setWidth 64

def onSeq (f : Sequencer → Sequencer) (s : State) : State := s.onCore (fun c => { c with seq := f c.seq })

def onShadow (f : SeqSet → SeqSet) (s : State) : State := onSeq (fun q => { q with shadow := f q.shadow }) s

/-- R98: shadow N_l and ROT_l. -/
def execSeqlvl (l : BitVec 3) (a : BitVec 5) (r : BitVec 1) (s : State) : Out :=
  control (.seqlvl l a r) [a] (fun _ s =>
    .ok (onShadow (fun q => { q with n := vput q.n l.toNat ((rs s a).setWidth 32),
                                     rot := vput q.rot l.toNat (r == 1) }) s)) s

/-- R98: the shadow level. -/
def execSeqlvlGetShadow (l : BitVec 3) (a : BitVec 5) (s : State) : Out :=
  control (.seqlvlGetShadow l a) [a] (fun _ s => .ok (ws a (seqLevelWord s.core.seq.shadow l.toNat) s)) s

/-- R98: the active level. -/
def execSeqlvlGetActive (l : BitVec 3) (a : BitVec 5) (s : State) : Out :=
  control (.seqlvlGetActive l a) [a] (fun _ s => .ok (ws a (seqLevelWord s.core.seq.active l.toNat) s)) s

/-- R98: i_l. -/
def execSeqlvlGetCounter (l : BitVec 3) (a : BitVec 5) (s : State) : Out :=
  control (.seqlvlGetCounter l a) [a] (fun _ s => .ok (ws a ((vat 0 s.core.seq.i l.toNat).setWidth 64) s)) s

/-- R98: shadow S[st][l]. -/
def execSeqstr (l : BitVec 3) (a n : BitVec 5) (s : State) : Out :=
  control (.seqstr l a n) [a] (fun _ s =>
    .ok (onShadow (fun q => { q with stride := vput q.stride (16 * l.toNat + n.toNat) (rs s a) }) s)) s

/-- R98: the shadow stride. -/
def execSeqstrGetShadow (l : BitVec 3) (a n : BitVec 5) (s : State) : Out :=
  control (.seqstrGetShadow l a n) [a] (fun _ s => .ok (ws a (seqStride s.core.seq.shadow l.toNat n.toNat) s)) s

/-- R98: the active stride. -/
def execSeqstrGetActive (l : BitVec 3) (a n : BitVec 5) (s : State) : Out :=
  control (.seqstrGetActive l a n) [a] (fun _ s => .ok (ws a (seqStride s.core.seq.active l.toNat n.toNat) s)) s

/-! ## Prefix rules (R74, R76) -/

/-- The engines of R68, prefixes among them. -/
inductive EngineCode where
  | C | A | X | M | Y | Z | P
  deriving DecidableEq, Repr

def engineCode (w : IWord) : Option EngineCode :=
  match (fld w 29 3).toNat with
  | 0 => some .C
  | 1 => some .A
  | 2 => some .X
  | 3 => some .M
  | 4 => some .Y
  | 5 => some .Z
  | 6 => some .P
  | _ => none

/-- R74, R69, R70, R90, R119: the words whose format has an extendable field, by engine and opcode alone (bits 31 to 23),
whatever their other bits hold; the shifts by an immediate are not among them. -/
def extendableCode (w : IWord) : Bool :=
  let op := fld w 23 6
  match engineCode w with
  | some .C =>
    op ∈ [0x20, 0x21, 0x22, 0x23, 0x27, 0x28, 0x29, 0x30, 0x31, 0x32, 0x33, 0x34, 0x35, 0x36, 0x37, 0x39, 0x3A, 0x3C, 0x3D]
  | some .Z => op ∈ [0x0B, 0x0C, 0x0D, 0x20]
  | some .A => op ∈ [0x01, 0x02, 0x03, 0x04, 0x05, 0x06, 0x07, 0x0B, 0x0D, 0x0E, 0x11, 0x12, 0x13, 0x14, 0x17, 0x18]
  | _ => false

/-- The word may stand after the prefix (the table of R74). `tmode` is TMODE, `capture` says that SEQCAP captures the
prefix. A next word that is no instruction is judged as itself, not at the prefix. -/
def prefixAccepts (tmode : Nat) (capture : Bool) (p : Instr) (next : IWord) : Bool :=
  let e := engineCode next
  match p with
  | .dual n =>
    decide (n ≠ 0) && ((e == some .X && decide (n.toNat ≤ tmode)) ||
      (e == some .M && fld next 23 6 == 2 && decide (n.toNat ≤ 1)))
  | .tkn _ _ => e == some .A || e == some .X
  | .ext _ => extendableCode next
  | .seqf l => capture && decide (l.toNat ≤ 5) && (e == some .A || e == some .X || e == some .M || e == some .Y)
  | .seql l => capture && decide (l.toNat ≤ 5) && (e == some .A || e == some .X || e == some .M || e == some .Y)
  | _ => false

/-! ## The words of an iteration (R97, R100, R102) -/

/-- The stream to which a word's accesses belong: its ST field, else st0. -/
def streamOf : Instr → Nat
  | .vld _ _ s _ _ => s.toNat
  | .vldp _ _ s _ _ => s.toNat
  | .vst _ _ s _ _ => s.toNat
  | .vstp _ _ s _ => s.toNat
  | .vldx _ _ s _ => s.toNat
  | .vstx _ _ s _ => s.toNat
  | .vldc _ _ s _ _ => s.toNat
  | .pref _ _ s _ => s.toNat
  | .strgo s _ _ => s.toNat
  | .strstop s _ => s.toNat
  | .strsink s _ _ => s.toNat
  | _ => 0

/-- A level takes part as a count of at least 1 (R97). -/
def levelCount (q : Sequencer) (l : Nat) : Nat := max 1 (seqCount q.active l).toNat
def levelIndex (q : Sequencer) (l : Nat) : Nat := (vat 0 q.i l).toNat

/-- i_m = 0, or i_m = N_m - 1, for every m up to l (R100). -/
def firstTime (q : Sequencer) (l : Nat) : Bool := (List.range (l + 1)).all (fun m => decide (levelIndex q m = 0))
def lastTime (q : Sequencer) (l : Nat) : Bool :=
  (List.range (l + 1)).all (fun m => decide (levelIndex q m = levelCount q m - 1))

/-- The stream offset of an iteration's counters (R103). -/
def offsetOf (q : SeqSet) (i : Vector (BitVec 32) 6) (st : Nat) : Word :=
  (List.range 6).foldl (fun acc m => acc + (vat 0 i m).setWidth 64 * seqStride q m st) 0

/-- The words of the block, from position `pos` to below `lim`, that the iteration of q's counters forwards, each without its
prefix; `skip` says that a SEQF or SEQL before the first of them holds it back. -/
def iterationWords (q : Sequencer) (lim : Nat) : Nat → Bool → List IWord → List IWord
  | _, _, [] => []
  | pos, skip, w :: rest =>
    if lim ≤ pos then []
    else match decode w with
      | .ok (.seqf l) => iterationWords q lim (pos + 1) (!firstTime q l.toNat) rest
      | .ok (.seql l) => iterationWords q lim (pos + 1) (!lastTime q l.toNat) rest
      | _ =>
        if engineCode w = some .P then iterationWords q lim (pos + 1) skip rest
        else if skip then iterationWords q lim (pos + 1) false rest
        else w :: iterationWords q lim (pos + 1) false rest

/-- The counters before the last advance; none before the first iteration's. -/
def countersBefore (q : Sequencer) : Option (Vector (BitVec 32) 6) :=
  match (List.range 6).find? (fun l => decide (levelIndex q l ≠ 0)) with
  | none => none
  | some j =>
    let i := (List.range 6).foldl (fun v m => if m < j then vput v m (BitVec.ofNat 32 (levelCount q m - 1)) else v) q.i
    some (vput i j (vat 0 q.i j - 1))

/-! ## SEQCAP (R99) -/

/-- The captured words are checked as R76, R78 and R99 give; the fault of the first that fails. A C or Z word faults the
SEQCAP itself; another rejected word or prefix gives its own bits in TVAL. -/
def captureFault (self : IWord) : List IWord → Option IWord
  | [] => none
  | w :: rest =>
    match engineCode w with
    | some .C => some self
    | some .Z => some self
    | some .P =>
      match decode w, rest with
      | .ok p, n :: _ => if prefixAccepts 3 true p n then captureFault self rest else some w
      | _, _ => some w
    | _ =>
      match decode w with
      | .ok _ => captureFault self rest
      | .error _ => some w

/-- The next n words from an address. -/
def fetchWords : Nat → Word → State → Chk (List IWord × State)
  | 0, _, s => .ok ([], s)
  | n + 1, pc, s =>
    match fetchWord pc s with
    | .error e => .error e
    | .ok (w, s) =>
      match fetchWords n (pc + 4) s with
      | .error e => .error e
      | .ok (ws, s) => .ok (w :: ws, s)

/-- The s registers that a captured word names. -/
def wordCaptures (w : IWord) : List (BitVec 5) := match decode w with | .ok i => capturesOf i | .error _ => []

/-- R99: the next n words enter the shadow block with the s values they name; the counter moves past them. -/
def execSeqcap (n : BitVec 10) (s : State) : Out :=
  control (.seqcap n) [] (fun x s => do
    let (ws, s) ← fetchWords n.toNat (x.pc + 4) s
    match captureFault x.word ws with
    | some w => faultNow (illegalWordFault w)
    | none =>
      if ws.any (fun w => (wordCaptures w).any (pendingS s.core)) then waitNow untimed
      else
        let block := ws.map (fun w => (⟨w, (wordCaptures w).map (sreg s.core)⟩ : SeqWord))
        return jumpTo (x.pc + 4 + BitVec.ofNat 64 (4 * n.toNat)) (onShadow (fun q => { q with block := block }) s)) s

/-- R101: the nest starts once no nest runs. -/
def execSeqgo (s : State) : Out :=
  control .seqgo [] (fun x s =>
    let q := s.core.seq
    if q.running then waitNow untimed
    else if q.shadow.block.isEmpty then faultNow (illegalWordFault x.word)
    else .ok (onSeq (fun q => { q with
      active := q.shadow, i := Vector.replicate 6 0, so := Vector.replicate 16 0, p := 0, running := true,
      brk := false }) s)) s

/-- R104: the current iteration is the last; without a nest, no effect. -/
def execSeqbrk (s : State) : Out :=
  control .seqbrk [] (fun _ s => .ok (onSeq (fun q => { q with brk := q.running }) s)) s

/-- R104: waits until no nest is active. -/
def execSeqwait (s : State) : Out :=
  control .seqwait [] (fun _ s => if s.core.seq.running then waitNow untimed else .ok s) s

/-- R105: RRB := the immediate, once no nest is active. -/
def execRrbset (i : BitVec 10) (s : State) : Out :=
  control (.rrbset i) [] (fun _ s =>
    if s.core.seq.running then waitNow untimed
    else .ok (s.onCore (fun c => { c with csr := { c.csr with rrb := i.setWidth 5 } }))) s

/-! ## The advance (R103) -/

/-- The lowest level that can advance. -/
def advancing (q : Sequencer) : Option Nat := (List.range 6).find? (fun l => decide (levelIndex q l + 1 < levelCount q l))

/-- One advance: counters, stream offsets, RRB, position (R103). -/
def seqStep (j : Nat) (c : Core) : Core :=
  let q := c.seq
  let i := (List.range 6).foldl (fun v m => if m < j then vput v m 0 else v) q.i
  let i := vput i j (vat 0 i j + 1)
  let so := (List.range 16).foldl (fun v st =>
    vput v st (offsetOf q.active i st)) q.so
  let rot := (List.range 6).any (fun m => decide (m ≤ j) && seqRot q.active m)
  { c with
    seq := { q with i := i, so := so, p := 0 }
    csr := if rot then { c.csr with rrb := BitVec.ofNat 5 ((c.csr.rrb.toNat + 23) % 24) } else c.csr }

/-- R103, R104: after an iteration's last word the nest ends or advances. The event finds nothing to do otherwise. -/
def execSeqAdvance (s : State) : Out :=
  let q := s.core.seq
  if !q.running || decide (q.p < q.active.block.length) || inTrap s.core then .next s
  else if q.brk then .next (onSeq (fun q => { q with running := false, brk := false }) s)
  else match advancing q with
    | none => .next (onSeq (fun q => { q with running := false }) s)
    | some j => .next (s.onCore (seqStep j))

end Sys2Proof.Machine
end

