-- ==== Sys2Proof/Machine/Jobs.lean ====
section
/-! DEFINITION. Interrupts (R331), job memory as the distributor reaches it (R351), the fault queue (R267, R268), events
(R257), the ready queues and the spillway (R256, R258, R259, R263), and launches from the slices (R256). -/

namespace Sys2Proof.Machine

/-! ## Interrupts -/

inductive IrqSource where
  | cmddone | faultq | ovflow | deverr | netq
  deriving DecidableEq, Repr

def irqNumber : IrqSource → Nat
  | .cmddone => 0
  | .faultq => 1
  | .ovflow => 2
  | .deverr => 3
  | .netq => 4

def hostFn (s : State) (fn : Nat) : HostFn := vat HostFn.reset s.hostFns fn
def setHostFn (s : State) (fn : Nat) (h : HostFn) : State := { s with hostFns := vput s.hostFns fn h }

/-- The second doubleword of a vector's MSI-X entry: data and vector control; its mask bit is set until the host clears it
(log 14). -/
def msixControl (h : HostFn) (v : Nat) : Word := sget 0x0000000100000000#64 h.msix (2 * v + 1)
def msixMasked (h : HostFn) (v : Nat) : Bool := (msixControl h v).getLsbD 32

/-- A message sent on a vector of a function, or its pending bit set while the vector is masked (R325, R331). -/
def sendMsi (s : State) (fn v : Nat) : State :=
  let h := hostFn s fn
  if msixMasked h v then setHostFn s fn { h with msixPending := h.msixPending ||| (1#64 <<< v) }
  else { s with msgs := s.msgs ++ [⟨fn, v⟩] }

/-- The vector of a source of a function (R331): the source's number until INTMAP changes it. -/
def vectorOf (s : State) (fn : Nat) (src : IrqSource) : Nat :=
  match sfind s.intmap (8 * fn + irqNumber src) with | some v => v | none => irqNumber src

def raiseIrq (s : State) (fn : Nat) (src : IrqSource) : State := sendMsi s fn (vectorOf s fn src)

/-- The fault interrupt of a job: its own vector, 1 until INTMAP names the job (R330). -/
def raiseFaultIrq (s : State) (job owner : Nat) : State :=
  sendMsi s owner (match sfind s.faultMap job with | some v => v | none => 1)

/-! ## Job memory -/

/-- A party that is no core: it lies in no cluster. -/
def noCore : Nat := 1024

/-- The accessor that the distributor, the headgate or a slice is for a job (R351). -/
def jobAccessor (s : State) (job : Nat) : Option Accessor :=
  (sfind s.jobs job).map (fun j => ⟨noCore, job, ptbBase j.ptb, true, featuresOf s j.owner⟩)

/-- The page of an access in job memory, translated by a walk (R276, R351). -/
def jobPage (s : State) (job : Nat) (k : AccessKind) (va : Word) : Option Page :=
  match jobAccessor s job with
  | none => none
  | some w =>
    if !canonical va || inSaveWindow va || inNetAperture va then none
    else match walkFrom s job va 3 w.ptb with
      | none => none
      | some (p, _) => if pageAllows s w k p va then some p else none

def jobRead (s : State) (job : Nat) (va : Word) (n : Nat) : Option Nat :=
  (jobPage s job .load va).map (fun p => bytesAt s (pageVersion s p) (p.place va) n)

/-- An access of `n` bytes comes to bytes at which something waits: it waits behind, and so does the move that makes it (R140,
R285; Run.lean). -/
def meetHeld (pl n : Nat) (s : State) : State := { s with blocked := s.blocked || bytesHeld s pl n }

/-- A read of `n` bytes that the hardware makes of job memory, noted at the line's home (R207, R279). -/
def noteRead (job : Nat) (va : Word) (n : Nat) (s : State) : State :=
  match jobPage s job .load va with
  | none => s
  | some p => noteAccess job p va (meetHeld (p.place va) n s)

/-- Several such reads. -/
def noteReads (job n : Nat) (vas : List Word) (s : State) : State := vas.foldl (fun s va => noteRead job va n s) s

/-- `n` bytes within a line written; `retag` gives the line tag 0x007F_0000 (R253). -/
def jobWrite (s : State) (job : Nat) (va : Word) (n v : Nat) (retag : Bool) : Option State :=
  (jobPage s job .store va).map (fun p => noteAccess job p va (
    let s := meetHeld (p.place va) n s
    if retag then
      let l := mergeLine s p va
      writeLine s p va ⟨rawTag, patchLine l.data (p.place va % 128) n v⟩
    else writeBytes s p va n v))

/-! ## Entries (R252, R253) -/

def entryFti (e : Entry) : Nat := bitsNat e.d0 0 20
def entryGsz (e : Entry) : Nat := bitsNat e.d0 20 8
def entryTmode (e : Entry) : BitVec 2 := e.d0.extractLsb' 28 2
def entryEvw (e : Entry) : BitVec 16 := e.d0.extractLsb' 32 16
def entryChunk (e : Entry) : Nat := bitsNat e.d0 56 8

/-- The 64 bytes of an entry. -/
def entryBits (e : Entry) (fcode : Nat) (finfo : Word) (ready : Bool) : Nat :=
  joinFields 64 [e.d0.toNat, e.d1.toNat, e.d2.toNat, e.d3.toNat,
    e.job % 1024 + e.slot.toNat * 2 ^ 10 + e.origin.toNat * 2 ^ 16 + fcode * 2 ^ 24,
    finfo.toNat, (if ready then 1 else 0), 0]

def entryOf (v : Nat) : Entry :=
  let w (i : Nat) : Word := BitVec.ofNat 64 (fieldAt 64 v i)
  { d0 := w 0, d1 := w 1, d2 := w 2, d3 := w 3, origin := (w 4).extractLsb' 16 3, slot := (w 4).extractLsb' 10 6,
    job := bitsNat (w 4) 0 10 }

def addVa (va : Word) (n : Nat) : Word := va + BitVec.ofNat 64 n

/-! ## The fault queue -/

def fTABLE : Nat := 1
def fGANG : Nat := 2
def fFEATURE : Nat := 3
def fGANGSIZE : Nat := 4
def fSPILLWAY : Nat := 5
def fTEARDOWN : Nat := 6
def fJOINZERO : Nat := 7
def fREVOKED : Nat := 8
def fSLOT : Nat := 9
def fMEMORY : Nat := 10

/-- One entry written to the job's fault queue, then TAIL, then the interrupt; an entry that finds the queue full is counted in
DROPPED and raises none (R267). The first address that cannot be written instead. -/
def putFault (s : State) (job : Nat) (j : Job) (e : Entry) (fcode : Nat) (finfo : Word) : Except Word State :=
  match jobRead s job j.fqbase 8, jobRead s job (addVa j.fqbase 8) 8 with
  | some tail, some head =>
    let s := noteReads job 8 [j.fqbase, addVa j.fqbase 8] s
    if (tail + 2 ^ 64 - head) % 2 ^ 64 = 2 ^ j.q then
      match jobRead s job (addVa j.fqbase 16) 8 with
      | none => .error (addVa j.fqbase 16)
      | some d =>
        match jobWrite (noteRead job (addVa j.fqbase 16) 8 s) job (addVa j.fqbase 16) 8 (d + 1) false with
        | none => .error (addVa j.fqbase 16)
        | some s' => .ok s'
    else
      let va := addVa j.fqbase (128 + 64 * (tail % 2 ^ j.q))
      match jobWrite s job va 64 (entryBits e fcode finfo false) true with
      | none => .error va
      | some s' =>
        match jobWrite s' job j.fqbase 8 (tail + 1) false with
        | none => .error j.fqbase
        | some s'' => .ok (raiseFaultIrq s'' job j.owner)
  | _, _ => .error j.fqbase

/-- The addresses of a work queue's entries, from head to tail (R254). -/
def queueVas (q : Queue) : List Word :=
  (List.range (q.tail - q.head)).map (fun i => addVa q.base (64 * ((q.head + i) % 2 ^ q.k)))

/-- The entries of a work queue, and the addresses that could not be read. -/
def queueEntries (s : State) (q : Queue) : List Entry × List Word :=
  let read := (queueVas q).map (fun va => (va, jobRead s q.job va 64))
  (read.filterMap (fun r => r.2.map entryOf), (read.filter (fun r => r.2.isNone)).map Prod.fst)

/-! ## The spillway (R259) -/

/-- A live entry of a chain: its block, its slot there, the record, READY, and the die on which it became ready or waits. -/
structure Spilled where
  block : Word
  slot : Nat
  entry : Entry
  ready : Bool
  die : Nat
  deriving DecidableEq, Repr

/-- The address of a slot of a block. -/
def slotVa (b : Word) (slot : Nat) : Word := addVa b (64 * slot)

/-- The live entries of a block that holds `n`, and the first address that could not be read. -/
def blockEntries (s : State) (job : Nat) (j : Job) (b : Word) (n : Nat) : List Spilled × Option Word :=
  let read := (List.range (min 63 n)).map (fun i => (i + 1, jobRead s job (slotVa b (i + 1)) 64))
  (read.filterMap (fun r => match r.2 with
    | none => none
    | some v =>
      if (entryOf v).origin = 7 then none
      else some ⟨b, r.1, entryOf v, decide (fieldAt 64 v 6 % 2 = 1), sget 0 j.spillDie ((slotVa b r.1).toNat / 64)⟩),
    (read.find? (fun r => r.2.isNone)).map (fun r => slotVa b r.1))

/-- The live entries of a chain of at most `fuel` blocks, up to the first address that could not be read, and that address. -/
def chainFrom (s : State) (job : Nat) (j : Job) : Nat → Word → List Spilled × Option Word
  | 0, _ => ([], none)
  | fuel + 1, b =>
    if b = 0 then ([], none)
    else match jobRead s job b 64 with
      | none => ([], some b)
      | some h =>
        let (es, bad) := blockEntries s job j b (fieldAt 64 h 1)
        match bad with
        | some va => (es, some va)
        | none =>
          let (rest, bad) := chainFrom s job j fuel (BitVec.ofNat 64 (fieldAt 64 h 0))
          (es ++ rest, bad)

/-- The addresses that a walk of a chain reads: each block's header, then its slots. -/
def chainVas (s : State) (job : Nat) : Nat → Word → List Word
  | 0, _ => []
  | fuel + 1, b =>
    if b = 0 then []
    else match jobRead s job b 64 with
      | none => []
      | some h => b :: (List.range (min 63 (fieldAt 64 h 1))).map (fun i => slotVa b (i + 1)) ++
          chainVas s job fuel (BitVec.ofNat 64 (fieldAt 64 h 0))

/-- The reads of a walk of a job's chain noted. -/
def noteChain (job : Nat) (s : State) : State :=
  match sfind s.jobs job with
  | none => s
  | some j => noteReads job 64 (chainVas s job j.blocks j.chainHead) s

/-- The whole chain of a job (R259): it has no more blocks than SPILLADD has supplied. -/
def spillWalk (s : State) (job : Nat) : List Spilled × Option Word :=
  match sfind s.jobs job with
  | none => ([], none)
  | some j => chainFrom s job j j.blocks j.chainHead

def spillEntries (s : State) (job : Nat) : List Spilled := (spillWalk s job).1

/-- Block header: NEXT, FILLED, LIVE (R259). -/
def headerBits (next : Word) (filled live : Nat) : Nat := joinFields 64 [next.toNat, filled, live]

/-- A line of job memory written with tag 0x007F_0000; the address where it cannot be. -/
def writeOr (s : State) (job : Nat) (va : Word) (n v : Nat) (retag : Bool) : Except Word State :=
  match jobWrite s job va n v retag with
  | some s => .ok s
  | none => .error va

/-- Bytes of job memory read, and the read noted; the address where they cannot be. -/
def readOr (s : State) (job : Nat) (va : Word) (n : Nat) : Except Word (Nat × State) :=
  match jobRead s job va n with
  | some v => .ok (v, noteRead job va n s)
  | none => .error va

/-- The die of the record in a slot noted; 0 when the slot is released. -/
def noteDie (job : Nat) (va : Word) (die : Nat) (s : State) : State :=
  match sfind s.jobs job with
  | none => s
  | some j => { s with jobs := sput s.jobs job { j with spillDie := sset 0 j.spillDie (va.toNat / 64) die } }

/-- An entry of a die written in a slot of a block, whose header follows. -/
def writeSlot (s : State) (job die : Nat) (e : Entry) (ready : Bool) (b : Word) (slot : Nat) (next : Word) (filled live : Nat) :
    Except Word State := do
  let s ← writeOr s job (slotVa b slot) 64 (entryBits e 0 0 ready) true
  let s ← writeOr s job b 24 (headerBits next filled live) true
  return noteDie job (slotVa b slot) die s

/-- An entry appended to the job's chain: none when no slot is free; the failing address when job memory fails. -/
def spillAppend (s : State) (job : Nat) (j : Job) (die : Nat) (e : Entry) (ready : Bool) : Except Word (Option State) :=
  let fresh : Except Word (Option State) :=
    if j.freeBlocks = 0 then .ok none
    else do
      let b := j.freeBlocks
      let (h, s) ← readOr s job b 64
      let j' := { j with freeBlocks := BitVec.ofNat 64 (fieldAt 64 h 0), chainTail := b,
                         chainHead := if j.chainHead = 0 then b else j.chainHead }
      let s ← writeSlot { s with jobs := sput s.jobs job j' } job die e ready b 1 0 1 1
      if j.chainHead = 0 then return some s
      else return some (← writeOr s job j.chainTail 8 b.toNat false)
  if j.chainHead = 0 then fresh
  else do
    let (h, s) ← readOr s job j.chainTail 64
    let filled := fieldAt 64 h 1
    if 63 ≤ filled then fresh
    else return some (← writeSlot s job die e ready j.chainTail (filled + 1) (BitVec.ofNat 64 (fieldAt 64 h 0)) (filled + 1)
      (fieldAt 64 h 2 + 1))

/-- The block before `b` in a chain of at most `fuel` blocks. -/
def blockBefore (job : Nat) (b : Word) : Nat → Word → State → Except Word (Option Word × State)
  | 0, _, s => .ok (none, s)
  | fuel + 1, p, s =>
    if p = 0 then .ok (none, s)
    else do
      let (h, s) ← readOr s job p 64
      let next : Word := BitVec.ofNat 64 (fieldAt 64 h 0)
      if next = b then return (some p, s) else blockBefore job b fuel next s

/-- A block unlinked from the chain and returned to the free list (R259). -/
def unlinkBlock (s : State) (job : Nat) (j : Job) (b next : Word) : Except Word State :=
  let back (s : State) (j : Job) : Except Word State := do
    let s ← writeOr s job b 8 j.freeBlocks.toNat false
    return { s with jobs := sput s.jobs job { j with freeBlocks := b } }
  if j.chainHead = b then
    back s { j with chainHead := next, chainTail := if j.chainTail = b then 0 else j.chainTail }
  else do
    match ← blockBefore job b j.blocks j.chainHead s with
    | (none, s) => return s
    | (some p, s) =>
      let s ← writeOr s job p 8 next.toNat false
      back s { j with chainTail := if j.chainTail = b then p else j.chainTail }

/-- A spilled entry released: ORIGIN 7, LIVE lowered, an emptied full block unlinked (R259). The address where job memory
fails instead. -/
def spillRelease (s : State) (job : Nat) (x : Spilled) : Except Word State := do
  let b := x.block
  let s ← writeOr s job (slotVa b x.slot) 64 (entryBits { x.entry with origin := 7 } 0 0 false) true
  let (h, s) ← readOr s job b 64
  let live := fieldAt 64 h 2 - 1
  let filled := fieldAt 64 h 1
  let next : Word := BitVec.ofNat 64 (fieldAt 64 h 0)
  let s ← writeOr s job b 24 (headerBits next filled live) true
  let s := noteDie job (slotVa b x.slot) 0 s
  match sfind s.jobs job with
  | none => return s
  | some j => if live = 0 ∧ filled = 63 then unlinkBlock s job j b next else return s

/-! ## Stopping a job (R269, R258) -/

def dieOf (s : State) (die : Nat) : Die := vat Die.reset s.dies die
def setDie (s : State) (die : Nat) (d : Die) : State := { s with dies := vput s.dies die d }

/-- Every queued, waiting and spilled record of a job taken away, and the job marked stopped (R269); the addresses of job memory
that could not be read or written (R351). Where a spilled record's slot cannot be written, the job's chain is given up with it. -/
def dropRecords (s : State) (job : Nat) : List Entry × List Word × State :=
  match sfind s.jobs job with
  | none => ([], [], s)
  | some j =>
    let queued := ((s.queues.map Prod.snd).filter (fun q => q.job = job)).map (queueEntries s)
    let waiting := (List.range 4).flatMap (fun d =>
      ((dieOf s d).waiting.filter (fun w => w.2.2.job = job)).map (fun w => w.2.2))
    let (spilled, bad) := spillWalk s job
    let s := noteChain job (noteReads job 64 (((s.queues.map Prod.snd).filter (fun q => q.job = job)).flatMap queueVas) s)
    let s := { s with
      jobs := sput s.jobs job { j with stopped := true }
      queues := s.queues.map (fun q => if q.2.job = job then (q.1, { q.2 with head := q.2.tail }) else q)
      dies := s.dies.map (fun d => { d with waiting := d.waiting.filter (fun w => w.2.2.job ≠ job) }) }
    let (failed, s) := spilled.foldl (fun a x => match spillRelease a.2 job x with
      | .ok s => (a.1, s)
      | .error va => (a.1 ++ [va], a.2)) (([] : List Word), s)
    let s := match sfind s.jobs job with
      | none => s
      | some j => if failed.isEmpty && bad.isNone then s
        else { s with jobs := sput s.jobs job { j with chainHead := 0, chainTail := 0, spillDie := [] } }
    (queued.flatMap Prod.fst ++ waiting ++ spilled.map Spilled.entry,
      (queued.flatMap Prod.snd ++ bad.toList ++ failed).eraseDups, s)

/-- An entry of the fault queue. When it cannot be written, the job is stopped, its records are lost with the entry, and
the interrupt is raised all the same (R351). -/
def faultEntry (s : State) (job : Nat) (e : Entry) (fcode : Nat) (finfo : Word) : State :=
  match sfind s.jobs job with
  | none => s
  | some j =>
    match putFault s job j e fcode finfo with
    | .ok s' => s'
    | .error _ => raiseFaultIrq (dropRecords s job).2.2 job j.owner

/-- The report of job memory that the hardware needed for itself and that failed, where it concerns no record. -/
def reportMemory (job : Nat) (s : State) (va : Word) : State := faultEntry s job ⟨0, 0, 0, 0, 0, 0, job⟩ fMEMORY va

/-- The records of a stopped job reported with FCODE TEARDOWN (R258, R269). -/
def reportTeardown (job : Nat) (es : List Entry) (s : State) : State :=
  es.foldl (fun s e => faultEntry s job e fTEARDOWN e.d0) s

/-- JOBSTOP: admission stops, and the records go to the fault queue with FCODE TEARDOWN (R258, R269); an address at which
records could not be reached is reported too (R351). -/
def stopJob (s : State) (job : Nat) : State :=
  let (es, bad, s) := dropRecords s job
  bad.foldl (reportMemory job) (reportTeardown job es s)

/-- Job memory that the hardware needed for itself has failed: the job is stopped and FCODE MEMORY reported (R351). -/
def memoryFailed (s : State) (job : Nat) (va : Word) (e : Entry) : State :=
  let (es, bad, s) := dropRecords s job
  (bad.filter (· ≠ va)).foldl (reportMemory job) (faultEntry (reportTeardown job es s) job e fMEMORY va)

/-- A record with no content, for reports that concern none. -/
def Entry.none (job : Nat) : Entry := ⟨0, 0, 0, 0, 0, 0, job⟩

/-! ## Events (R110, R257) -/

def eventVa (j : Job) (e : BitVec 16) : Word := addVa j.evbase (e.toNat / 8)

/-- The bit of an event; event 0 reads as set. -/
def eventBit (s : State) (job : Nat) (j : Job) (e : BitVec 16) : Option Bool :=
  if e = 0 then some true else (jobRead s job (eventVa j e) 1).map (fun b => b.testBit (e.toNat % 8))

/-- The read of an event's bit, noted at its home (R257, R279). -/
def noteEvent (job : Nat) (j : Job) (e : BitVec 16) (s : State) : State := if e = 0 then s else noteRead job (eventVa j e) 1 s

def putEventBit (s : State) (job : Nat) (j : Job) (e : BitVec 16) (v : Bool) : Option State :=
  match jobRead s job (eventVa j e) 1 with
  | none => none
  | some b =>
    let m := 2 ^ (e.toNat % 8)
    jobWrite s job (eventVa j e) 1 (b - (if b.testBit (e.toNat % 8) then m else 0) + (if v then m else 0)) false

/-! ## The ready queue (R263) -/

def readyCount (d : Die) : Nat := match d.ready with | some r => r.tail - r.head | none => 0

/-- Room in the die's ready queue. -/
def readyRoom (d : Die) : Bool := match d.ready with | some r => decide (r.tail - r.head < 2 ^ r.k) | none => false

/-- 64 bytes of T0 memory written with tag 0x007F_0000. -/
def physWrite (s : State) (pa n v : Nat) : State :=
  let l := clearLine s 0 pa
  let d := if isUninit l.tag then 0 else l.data
  noteStored pa n { s with mem := putLine s.mem pa 0 ⟨rawTag, patchLine d (pa % 128) n v⟩ }

/-- An entry written at the tail of the die's ready queue, which has room. -/
def readyPush (s : State) (die : Nat) (e : Entry) : State :=
  let d := dieOf s die
  match d.ready with
  | none => s
  | some r =>
    let s := physWrite s (r.base + 64 * (r.tail % 2 ^ r.k)) 64 (entryBits e 0 0 false)
    setDie s die { d with ready := some { r with tail := r.tail + 1 } }

/-- The entry at the head of the die's ready queue. -/
def readyHead (s : State) (die : Nat) : Option Entry :=
  match (dieOf s die).ready with
  | none => none
  | some r => if r.head < r.tail then some (entryOf (bytesAt s 0 (r.base + 64 * (r.head % 2 ^ r.k)) 64)) else none

def readyPop (s : State) (die : Nat) : State :=
  let d := dieOf s die
  match d.ready with
  | none => s
  | some r => setDie s die { d with ready := some { r with head := r.head + 1 } }

/-- A record of a die written to its job's spillway, or to the fault queue when no slot is free (R256, R258). -/
def spill (s : State) (die : Nat) (e : Entry) (ready : Bool) : State :=
  match sfind s.jobs e.job with
  | none => s
  | some j =>
    match spillAppend s e.job j die e ready with
    | .error va => memoryFailed s e.job va e
    | .ok none => faultEntry s e.job e fSPILLWAY e.d0
    | .ok (some s) => s

/-- The job has been stopped or removed. -/
def jobStopped (s : State) (job : Nat) : Bool := match sfind s.jobs job with | some j => j.stopped | none => true

/-- Wait-list slots of a die (R258). -/
def waitSlots : Nat := 8192

/-- A record joins the wait list of its event on a die, or is spilled where no slot is free (R258). -/
def waitRecord (s : State) (die : Nat) (e : Entry) : State :=
  let d := dieOf s die
  if d.waiting.length < waitSlots then setDie s die { d with waiting := d.waiting ++ [(e.job, entryEvw e, e)] }
  else spill s die e false

/-- The spilled records of a job that wait for room in a die's ready queue. -/
def spilledReady (s : State) (die job : Nat) : List Spilled :=
  (spillEntries s job).filter (fun x => x.ready && decide (x.die = die))

/-- The jobs that are not stopped with spilled records that wait for room in a die's ready queue. -/
def spillingJob (s : State) (die : Nat) : Option Nat :=
  (s.jobs.map Prod.fst).find? (fun j => !jobStopped s j && !(spilledReady s die j).isEmpty)

/-- A spilled READY record leaves the spillway and is readied on its die (R255, R256): it enters the ready queue, which has
room, or joins the wait list of its event where that has been cleared. -/
def reenterRecord (s : State) (die job : Nat) (x : Spilled) : State :=
  match spillRelease s job x with
  | .error va => memoryFailed s job va x.entry
  | .ok s =>
    match sfind s.jobs job with
    | none => s
    | some j => match eventBit s job j (entryEvw x.entry) with
      | none => memoryFailed s job (eventVa j (entryEvw x.entry)) x.entry
      | some true => readyPush (noteEvent job j (entryEvw x.entry) s) die x.entry
      | some false => waitRecord (noteEvent job j (entryEvw x.entry) s) die x.entry

/-- The next spilled READY record of a job enters the die's ready queue, when there is one and room for it; a chain that cannot
be read stops the job (R256, R351). -/
def reenter (s : State) (die job : Nat) : State :=
  if !readyRoom (dieOf s die) || jobStopped s job then s
  else match (spillWalk s job).2, spilledReady s die job with
    | some va, _ => memoryFailed (noteChain job s) job va (Entry.none job)
    | none, x :: _ => reenterRecord (noteChain job s) die job x
    | none, [] => s

/-- `n` spilled READY records of a job re-enter as long as there is room. -/
def reenterTimes (die job : Nat) : Nat → State → State
  | 0, s => s
  | n + 1, s => reenterTimes die job n (reenter s die job)

/-- Every spilled READY record of a die re-enters its ready queue as long as there is room, by job and in chain order (R256;
log 45). -/
def reenterAll (s : State) (die : Nat) : State :=
  (s.jobs.map Prod.fst).foldl (fun s job => reenterTimes die job (spilledReady s die job).length s) s

/-- A ready record enters the die's ready queue behind the spilled ones; it is spilled with READY = 1 when the queue is full, or
the die has none (R256, R263). -/
def enterReady (s : State) (die : Nat) (e : Entry) : State :=
  let s := reenterAll s die
  if jobStopped s e.job then faultEntry s e.job e fTEARDOWN e.d0
  else if readyRoom (dieOf s die) then readyPush s die e else spill s die e true

/-- Readying a record (R255): its event decides between the ready queue and the wait list. -/
def readyRecord (s : State) (die : Nat) (e : Entry) : State :=
  match sfind s.jobs e.job with
  | none => s
  | some j =>
    if j.stopped then faultEntry s e.job e fTEARDOWN e.d0
    else match eventBit s e.job j (entryEvw e) with
      | none => memoryFailed s e.job (eventVa j (entryEvw e)) e
      | some true => enterReady (noteEvent e.job j (entryEvw e) s) die e
      | some false => waitRecord (noteEvent e.job j (entryEvw e) s) die e

/-- The die's READY records that stand behind a place of a job's chain. -/
def readyBehind (s : State) (die job : Nat) (x : Spilled) : List Spilled :=
  (((spillEntries s job).dropWhile (fun y => !(y.block == x.block && y.slot == x.slot))).drop 1).filter
    (fun y => y.ready && decide (y.die = die))

/-- Records written READY in slots of a job's chain. -/
def writeReady (s : State) (job : Nat) (e : Entry) (qs : List (Spilled × Entry)) : State :=
  match qs.foldlM (fun s q => writeOr s job (slotVa q.1.block q.1.slot) 64 (entryBits q.2 0 0 true) true) s with
  | .ok s => s
  | .error va => memoryFailed s job va e

/-- A spilled record that an event releases while the ready queue is full: marked READY where it stands; or, where records of the
die's slots were spilled just now, behind them: in a free slot, or else in the last of their places, each of the die's READY
records behind its own place moving one place up (R258). -/
def releaseSpilled (s : State) (die job : Nat) (behind : Bool) (x : Spilled) : State :=
  let e : Entry := { x.entry with origin := 3 }
  match behind, sfind s.jobs job with
  | true, some j => match spillAppend s job j die e true with
    | .error va => memoryFailed s job va e
    | .ok none =>
      let later := readyBehind s die job x
      writeReady s job e ((x :: later).zip (later.map Spilled.entry ++ [e]))
    | .ok (some s) => match spillRelease s job x with
      | .error va => memoryFailed s job va e
      | .ok s => s
  | _, _ => writeReady s job e [(x, e)]

/-- A die releases the records that wait there on an event: those in its slots in FIFO order, then those in the spillway in
chain order (R258). -/
def releaseWaiting (s : State) (die job : Nat) (ev : BitVec 16) : State :=
  let d := dieOf s die
  let (out, keep) := d.waiting.partition (fun w => w.1 == job && w.2.1 == ev)
  let s := setDie s die { d with waiting := keep }
  let s := out.foldl (fun s w => enterReady s die { w.2.2 with origin := 3 }) s
  let behind := !out.isEmpty && !readyRoom (dieOf s die)
  let (chain, bad) := spillWalk s job
  let s := noteChain job s
  let spilled := chain.filter (fun x => entryEvw x.entry == ev && !x.ready && decide (x.die = die))
  let s := spilled.foldl (fun s x =>
    if jobStopped s job then s
    else if readyRoom (dieOf s die) then
      match spillRelease s job x with
      | .error va => memoryFailed s job va x.entry
      | .ok s => readyPush s die { x.entry with origin := 3 }
    else releaseSpilled s die job behind x) s
  match bad with
  | some va => if jobStopped s job then s else memoryFailed s job va (Entry.none job)
  | none => s

/-- An event set, and its waiting records released on every die (R110, R258). -/
def setEvent (s : State) (job : Nat) (j : Job) (ev : BitVec 16) : Option State :=
  if ev = 0 then some s
  else (putEventBit s job j ev true).map (fun s =>
    (List.range 4).foldl (fun s die => releaseWaiting s die job ev) s)

/-- The completion event of a command or of the noria (R216, R288, R293): set for the hardware itself. -/
def completeEvent (s : State) (job : Nat) (ev : BitVec 16) : State :=
  match sfind s.jobs job with
  | none => s
  | some j => match setEvent s job j ev with
    | some s => s
    | none => memoryFailed s job (eventVa j ev) (Entry.none job)

/-! ## Slice launch queues (R256) -/

def launchQueue (s : State) (q : Nat) : List Entry := sget [] s.launch q
def launchRoom (s : State) (q : Nat) : Bool := decide ((launchQueue s q).length < 16)
def launchPush (s : State) (q : Nat) (e : Entry) : State := { s with launch := sset [] s.launch q (launchQueue s q ++ [e]) }

/-- The launch queue for a line: its home slice's, or for a scratchpad line the one R256 names. -/
def launchQueueOf (p : Page) (pl : Nat) : Nat :=
  if isScratch pl then 128 * (scratchCore pl / 256) + scratchCore pl % 256 % 128 else homeSliceOf p pl

end Sys2Proof.Machine
end

