-- ==== Sys2Proof/Machine/Scheduling.lean ====
section
/-! DEFINITION. Scheduling words (R106 to R115): SPAWN, JOIN, EXIT, the event words, TILE, TILENEXT and GBAR. -/

namespace Sys2Proof.Machine

/-! ## Release (R106) -/

/-- Streams with steps still to issue. -/
def streamsBusy (c : Core) : Bool := c.runs.toList.any (fun r => decide (r.kind ≠ .none))

/-- Every earlier word has completed: the rings that the engines take words from are empty, no command is outstanding, no nest
runs, no generator or sink has steps to issue, every access in flight has been performed. In handler mode the user's rings, nest
and streams stand still and are not waited for (R297, R305; log 22). -/
def earlierDone (c : Core) : Bool :=
  engines.all (fun e => ((activeRings c).get e).entries.isEmpty) && c.mcmd.isNone && c.ycmds.isEmpty &&
    accessesDone c && (inTrap c || (!c.seq.running && !streamsBusy c))

/-- The deferred fault of a sink in one of the streams of a mask (R133). -/
def sinkFault (c : Core) (mask : Nat) : Option Flt :=
  if inTrap c then none
  else (List.range 16).findSome? (fun i =>
    let r := vat StreamRun.idle c.runs i
    if mask.testBit i && decide (r.kind = .sink) then r.flt else none)

/-- The wait of a releasing word; queued stores are applied, so that every access is performed at any scope of the
device (R106, R209). -/
def release (s : State) : Chk State :=
  match sinkFault s.core 0xFFFF with
  | some f => faultNow f
  | none => if earlierDone s.core && drainable s then .ok (drainStores s) else waitNow untimed

/-! ## SPAWN (R107) -/

def launchFault (detail : Nat) (d0 : Word) : Flt := ⟨cLAUNCH, d0, false, BitVec.ofNat 16 detail⟩

/-- The slot of a run has been revoked (R320). -/
def slotRevoked (s : State) (r : RunInfo) : Bool :=
  match sfind s.jobs r.job with
  | none => false
  | some j => match sfind j.slots r.slot.toNat with | some sl => sl.revoked | none => false

/-- A record pushed at the tail of a work queue by a party that `write`s its entry (R254). -/
def queuePush (s : State) (n : Nat) (q : Queue) : State :=
  { s with queues := sput s.queues n { q with tail := q.tail + 1 } }

/-- R107: releases, checks the record in s[a] to s[a+3], and pushes it onto work queue s[b]. -/
def execSpawn (d a b : BitVec 5) (s : State) : Out :=
  control (.spawn d a b) [d, a, a + 1, a + 2, a + 3, b] (fun _ s => do
    let s ← release s
    match s.core.run with
    | none => faultNow (launchFault 5 (rs s a))
    | some r =>
      let e : Entry := ⟨rs s a, rs s (a + 1), rs s (a + 2), rs s (a + 3), 1, r.slot, r.job⟩
      let n := (rs s b).toNat
      if slotRevoked s r then faultNow (launchFault 6 e.d0)
      else match sfind s.queues n with
        | none => faultNow (launchFault 5 e.d0)
        | some q =>
          if q.job ≠ r.job ∨ 4095 < n then faultNow (launchFault 5 e.d0)
          else if r.tabLen ≤ entryFti e then faultNow (launchFault 1 e.d0)
          else
            let (f, s) ← readFunc (entryFti e) s
            if f.reserved then faultNow (flt cCFI (BitVec.ofNat 64 (entryFti e)))
            else if 0 < entryGsz e ∧ f.gang = false then faultNow (launchFault 3 e.d0)
            else if bitsNat e.d0 30 2 ≠ 0 then faultNow (launchFault 4 e.d0)
            else if 2 ^ q.k ≤ q.tail - q.head then return ws d 1 s
            else
              let va := addVa q.base (64 * (q.tail % 2 ^ q.k))
              let p ← checkedPage s .store va 1
              if bytesStalled s (p.place va) 64 then waitNow untimed
              let l := mergeLine s p va
              let s := writeLine (touchPage p va s) p va
                ⟨rawTag, patchLine l.data (p.place va % 128) 64 (entryBits e 0 0 false)⟩
              return ws d 0 (queuePush s n q)) s

/-! ## JOIN and EXIT (R108, R109) -/

/-- What the atomic of a join block found: the old counter and the state after it, or that the launch queue is full. -/
inductive JoinResult where
  | done (old : Word) (zero : Bool) (s : State)
  | full (va : Word) (page : Page) (queue : Nat)

/-- The atomic of JOIN at its home (R108): the counter lowered, RANGE where it would go below 0, the record launched at the
update to zero. The poison of the line's other words is no concern of it (R15). -/
def joinAt (va amount : Word) (s : State) : Chk JoinResult := do
  if va.toNat % 64 ≠ 0 then faultNow (flt cALIGN va)
  else
    let p ← checkedPage s .atomic va 1
    let pl := p.place va
    if bytesStalled s pl 8 then waitNow untimed
    else
      let l := plainLine s p va
      if bytesPoisoned s pl 8 then faultNow (invalidFault (mkInvalid (tagFmt l.tag) dPOISON))
      else if tagVc l.tag = vcInvalid then faultNow (invalidFault l.tag)
      else if tagVc l.tag = vcSpoiled && spoilTrap s.core then
        faultNow ⟨cVCLASS, l.tag.setWidth 64, true, 0⟩
      else
        let off := pl % 128
        let old : Word := BitVec.ofNat 64 (bitsNat l.data (8 * off) 64)
        let s := touchPage p va s
        if old.toNat < amount.toNat then
          -- the line of an UNINIT counter is materialised as for every atomic (R35)
          return .done old true (writeBytes s p va 8 old.toNat)
        else
          let new := old - amount
          if old ≠ 0 ∧ new = 0 then
            let q := launchQueueOf p pl
            if !launchRoom s q then return .full va p q
            else match s.core.run with
              | none => return .done old false (writeBytes s p va 8 0)
              | some r =>
                let w (i : Nat) : Word := BitVec.ofNat 64 (bitsNat l.data (8 * (off + 32 + 8 * i)) 64)
                return .done old false
                  (launchPush (writeBytes s p va 8 0) q ⟨w 0, w 1, w 2, w 3, 2, r.slot, r.job⟩)
          else return .done old false (writeBytes s p va 8 new.toNat)

/-- R108: releases, then the atomic on the join block at s[a]. -/
def execJoin (d a b : BitVec 5) (s : State) : Out :=
  let body : CCtx → State → Chk State := fun _ s => do
    let s ← release s
    match ← joinAt (rs s a) (rs s b) s with
    | .full _ _ _ => waitNow untimed
    | .done old range s =>
      let s := if range then s.onCore (orFlags fRANGE) else s
      return ws d old (unstall s)
  -- a JOIN that finds its launch queue full waits unperformed at its home
  let waits : Option State :=
    if splitterStops s.core false || [d, a, b].any (pendingS s.core) then none
    else match (do let s ← release s; joinAt (rs s a) (rs s b) s) with
      | .ok (.full va p q) => some (stall s .join va p q)
      | _ => none
  match waits with
  | some s' => .next s'
  | none => control (.join d a b) [d, a, b] body s

/-- The run's end: its member has exited and its core is free (R20, R313). -/
def endRun (s : State) : State := freeCore (chargeRun true s)

/-- R20, R109: once every earlier word has completed, the join block is lowered by 1 and the core freed. -/
def execExit (s : State) : Out :=
  let d2 : Word := match s.core.run with | some r => r.d2 | none => 0
  let body : CCtx → State → Chk State := fun _ s => do
    let s ← release s
    if d2 = 0 then return endRun s
    else match ← joinAt d2 1 s with
      | .full _ _ _ => waitNow untimed
      | .done old _ s =>
        if old ≠ 0 then return endRun s
        else match s.core.run with
          | none => return endRun s
          | some r =>
            let p ← checkedPage s .load d2 1
            let l := plainLine s p d2
            let w (i : Nat) : Word := BitVec.ofNat 64 (bitsNat l.data (8 * (p.place d2 % 128 + 32 + 8 * i)) 64)
            return endRun (faultEntry s r.job ⟨w 0, w 1, w 2, w 3, 2, r.slot, r.job⟩ fJOINZERO d2)
  let waits : Option State :=
    if splitterStops s.core false || d2 = 0 then none
    else match (do let s ← release s; joinAt d2 1 s) with
      | .ok (.full va p q) => some (stall s .exit va p q)
      | _ => none
  match waits with
  | some s' => .next s'
  | none => control .exit [] body s

/-! ## Event words (R110) -/

/-- E of R110. -/
def eventName (s : State) (a : BitVec 5) (ext : Option (BitVec 23)) (i : BitVec 13) : BitVec 16 :=
  (rs s a + extSigned ext i).setWidth 16

/-- The bit of an event as a word of the run reads it: PAGE where the access fails (R351). -/
def wordEvent (s : State) (k : AccessKind) (e : BitVec 16) : Chk (Option (Nat × Job × Bool)) :=
  match s.core.run with
  | none => .ok none
  | some r =>
    match sfind s.jobs r.job with
    | none => .ok none
    | some j =>
      if e = 0 then .ok (some (r.job, j, true))
      else
        let va := eventVa j e
        match checkedPage s k va 1 with
        | .error x => .error x
        | .ok p =>
          if bytesStalled s (p.place va) 1 || (k = .store && !lineDrains (p.place va) s) then waitNow untimed
          else
            let v := bytesAt (ownView s (p.place va)) (pageVersion s p) (p.place va) 1
            .ok (some (r.job, j, v.testBit (e.toNat % 8)))

/-- The read of an event's bit by a word, as its home and the translation caches note it (R276, R279). -/
def noteWordEvent (j : Job) (e : BitVec 16) (s : State) : State :=
  if e = 0 then s
  else match checkedPage s .load (eventVa j e) 1 with
    | .ok p => touchPage p (eventVa j e) s
    | .error _ => s

/-- The bit of an event written by a word, whose access has been checked. -/
def wordEventPut (s : State) (j : Job) (e : BitVec 16) (v : Bool) : Chk State := do
  let va := eventVa j e
  let p ← checkedPage s .store va 1
  let s := drainLine (p.place va) s
  let b := bytesAt s (pageVersion s p) (p.place va) 1
  let m := 2 ^ (e.toNat % 8)
  return writeBytes (touchPage p va s) p va 1 (b - (if b.testBit (e.toNat % 8) then m else 0) + (if v then m else 0))

/-- R110: releases, sets E, and releases the records that wait on it. -/
def execEvset (d a : BitVec 5) (i : BitVec 13) (s : State) : Out :=
  control (.evset d a i) [d, a] (fun x s => do
    let s ← release s
    let e := eventName s a x.ext i
    match ← wordEvent s .store e with
    | none => return ws d 0 s
    | some (job, j, old) =>
      if e = 0 then return ws d 1 s
      else
        let s ← wordEventPut s j e true
        let s := (List.range 4).foldl (fun s die => releaseWaiting s die job e) s
        return ws d (boolWord old) s) s

/-- R110: clears E. -/
def execEvclr (d a : BitVec 5) (i : BitVec 13) (s : State) : Out :=
  control (.evclr d a i) [d, a] (fun x s => do
    let e := eventName s a x.ext i
    match ← wordEvent s .store e with
    | none => return ws d 0 s
    | some (_, j, old) =>
      if e = 0 then return ws d 1 s
      else
        let s ← wordEventPut s j e false
        return ws d (boolWord old) s) s

/-- R110: reads E. -/
def execEvtest (d a : BitVec 5) (i : BitVec 13) (s : State) : Out :=
  control (.evtest d a i) [d, a] (fun x s => do
    match ← wordEvent s .load (eventName s a x.ext i) with
    | none => return ws d 0 s
    | some (_, j, old) => return ws d (boolWord old) (noteWordEvent j (eventName s a x.ext i) s)) s

/-! ## Gangs (R111 to R114) -/

/-- The gang of the run; every run has one, of one member when its record is no gang's. -/
def gangOf (s : State) : Option (Nat × Gang) :=
  match s.core.run with
  | none => none
  | some r => match r.gang with
    | none => none
    | some g => (sfind s.gangs g).map (fun x => (g, x))

/-- The frequency in MHz of a class (R111). -/
def classMhz (k : Nat) : Nat := 1850 + 50 * k

def gangFreqs (g : Gang) : List Nat := g.classes.map classMhz

/-- The shares of T tiles in proportion to the frequencies (R111). -/
def tileShares (T : Nat) (fs : List Nat) : List Nat :=
  let F := fs.sum
  let base := fs.map (fun f => T * f / F)
  let rems := fs.map (fun f => T * f % F)
  let X := T - base.sum
  -- member j is among the X largest remainders, ties to the lower index
  let better (j : Nat) : Nat := ((List.range rems.length).filter (fun m =>
    decide (rems.getD j 0 < rems.getD m 0) || (decide (rems.getD m 0 = rems.getD j 0) && decide (m < j)))).length
  (List.range base.length).map (fun j => base.getD j 0 + (if better j < X then 1 else 0))

/-- R111: start and count of this member's share. Where d and c name one register, the count stands (log 75). -/
def execTile (d a c : BitVec 5) (s : State) : Out :=
  control (.tile d a c) [d, a, c] (fun _ s =>
    let T := bitsNat (rs s a) 0 48
    let fs := match gangOf s with | some (_, g) => gangFreqs g | none => [classMhz s.core.csr.speed.toNat]
    let sh := tileShares T fs
    let gid := s.core.csr.gid.toNat
    .ok (ws c (BitVec.ofNat 64 (sh.getD gid 0)) (ws d (BitVec.ofNat 64 (sh.take gid).sum) s))) s

/-- R112: the next chunk of the gang's counter. -/
def execTilenext (d a c : BitVec 5) (s : State) : Out :=
  control (.tilenext d a c) [d, a, c] (fun _ s =>
    let T := bitsNat (rs s a) 0 48
    match gangOf s with
    | none => .ok (ws c 0 (ws d (BitVec.ofNat 64 T) s))
    | some (n, g) =>
      let fs := gangFreqs g
      let f := fs.getD s.core.csr.gid.toNat 0
      let fmin := fs.foldl min (fs.headD 1)
      let C := if g.chunk = 0 then 1 else g.chunk
      let k := max 1 (C * f / fmin)
      let old := g.counter.toNat
      if T ≤ old then .ok (ws c 0 (ws d (BitVec.ofNat 64 T) s))
      else
        let m := min k (T - old)
        let s := { s with gangs := sput s.gangs n { g with counter := BitVec.ofNat 48 (old + m) } }
        .ok (ws c (BitVec.ofNat 64 m) (ws d (BitVec.ofNat 64 old) s))) s

/-- The members of a gang that still run, as (index, core). -/
def liveMembers (s : State) (n : Nat) (g : Gang) : List (Nat × Nat) :=
  ((List.range g.members.length).zip g.members).filter (fun m =>
    match (coreOf s m.2).run with | some r => r.gang == some n | none => false)

/-- Every live member has arrived. -/
def barrierFull (s : State) (n : Nat) (g : Gang) : Bool :=
  let ms := liveMembers s n g
  !ms.isEmpty && ms.all (fun m => (coreOf s m.2).arrived.isSome)

/-- The completion of a barrier (R113, R344): SLAST, SLAG, the TILENEXT counter, the die's counters; each member goes on. -/
def completeBarrier (s : State) (n : Nat) (g : Gang) : State :=
  let ms := liveMembers s n g
  let stamp (m : Nat × Nat) : Nat := ((coreOf s m.2).arrived).getD 0
  let hi := ms.foldl (fun a m => max a (stamp m)) 0
  let lo := ms.foldl (fun a m => min a (stamp m)) hi
  let last := (ms.filter (fun m => stamp m = hi)).foldl (fun a m => min a m.1) 256
  let lag := min (hi - lo) 0xFFFFFFFF
  let s := ms.foldl (fun s m =>
    let c := coreOf s m.2
    setCore s m.2 { c with
      pc := c.pc + 4, pfx := none, arrived := none, ord := c.ord + 1, waits := vput c.waits 4 Waiting.none
      csr := { c.csr with slast := BitVec.ofNat 8 last, slag := BitVec.ofNat 32 lag } }) s
  let s := { s with gangs := sput s.gangs n { g with counter := 0 } }
  if ms.length < 2 then s
  else
    let core := g.members.getD last 0
    let t := sget (CoreTel.mk 0 0 0 0 0 0 0 false) s.fleet.cores core
    { s with fleet := { s.fleet with
      gbars := sset 0 s.fleet.gbars g.die (sget 0 s.fleet.gbars g.die + 1)
      lagSum := sset 0 s.fleet.lagSum g.die (sget 0 s.fleet.lagSum g.die + lag)
      lagMax := sset 0 s.fleet.lagMax g.die (max (sget 0 s.fleet.lagMax g.die) lag)
      cores := sset (CoreTel.mk 0 0 0 0 0 0 0 false) s.fleet.cores core { t with lastCnt := t.lastCnt + 1 } } }

/-- The stamp of an arrival: the reference nanosecond within the present heartbeat tick, not before an earlier arrival of
the gang (R113; log 9). -/
def arrivalStamp (s : State) (n : Nat) (g : Gang) : Nat :=
  let now := 128 * s.hbt.toNat + Config.stampNs s.core.free % 128
  (liveMembers s n g).foldl (fun a m => max a (((coreOf s m.2).arrived).getD 0)) now

/-- R113: releases at die scope and arrives; the barrier completes when every live member has arrived. -/
def execGbar (s : State) : Out :=
  if splitterStops s.core false then .next s
  else match (if s.core.arrived.isSome then .ok s else release s) with
    | .error (.fault f) => .next (raiseFault s.core.ord 0 f s)
    | .error _ => .next s
    | .ok s1 =>
      match gangOf s1 with
      | none => control .gbar [] (fun _ s => .ok s) s1
      | some (n, g) =>
        let s2 := if s1.core.arrived.isSome then s1
          else s1.onCore (fun c => { c with arrived := some (arrivalStamp s1 n g), free := c.free + 1 })
        if barrierFull s2 n g then .next (completeBarrier s2 n g) else .next s2

/-- The barriers whose live members have all arrived. -/
def fullBarrier (s : State) : Option (Nat × Gang) := s.gangs.find? (fun g => barrierFull s g.1 g.2)

/-- R113: the completion of a barrier, at which every live member goes on; there is none while some member has still to
arrive. -/
def execGbarComplete (s : State) : Out :=
  match fullBarrier s with
  | some (n, g) => .next (completeBarrier s n g)
  | none => .next s

end Sys2Proof.Machine
end

