-- ==== Sys2Proof/Machine/Image.lean ====
section
/-! DEFINITION. The image of a run that SPILL writes and FILL reads (R309, R310, R322), and the load of the lattice cache
(R43). -/

namespace Sys2Proof.Machine

/-! ## The lattice cache -/

/-- The 1,024 bits that a line of the lattice loads (R43): 0x40 in every byte where the line cannot be read. -/
def latticeLine (s : State) (va : Word) : LineBits :=
  match checkedPage s .load va 1 with
  | .error _ => latticeTrap.setWidth 1024
  | .ok p =>
    let l := readLine s p va
    if tagVc l.tag = vcInvalid then latticeTrap.setWidth 1024 else l.data

/-- The lattice cache loaded from LATB (R43). -/
def loadLattice (s : State) : State :=
  let v := joinFields 1024 ((List.range 8).map (fun i => (latticeLine s (addVa s.core.csr.latb (128 * i))).toNat))
  s.onCore (fun c => { c with lattice := BitVec.ofNat 8192 v })

/-! ## The image as chunks: offset, bytes, value -/

abbrev Chunk := Nat × Nat × Nat

/-- The value of vacant slot `k` of an image that is being written. -/
def vacant (c : Core) (k : Nat) : Nat := (Config.vacantBits (c.free + k)).toNat

def wordsAt (off : Nat) (ws : List Word) : List Chunk :=
  (List.range ws.length).zip ws |>.map (fun x => (off + 8 * x.1, 8, x.2.toNat))

def vectorChunks (c : Core) : List Chunk :=
  (List.range 64).flatMap (fun n =>
    [(256 * n, 256, (vat VReg.zero c.v n).data.toNat), (256 * (64 + n), 256, (vat 0 c.t1 n).toNat),
     (256 * (128 + n), 256, (vat 0 c.t2 n).toNat), (256 * (192 + n), 256, (vat 0 c.t3 n).toNat)])

/-- The positions of a tile, 64 i + j. -/
def tileCells : List Nat := List.range 3072

def accumulatorChunks (c : Core) : List Chunk :=
  (List.range 16).flatMap (fun m =>
    let t0 := vat Tile.zero c.tiles (2 * m)
    let t1 := vat Tile.zero c.tiles (2 * m + 1)
    let base := 0x10000 + 0x3000 * m
    if t0.af = 0 then tileCells.map (fun k => (base + 4 * k, 4, (sget 0 t0.data k).toNat))
    else tileCells.map (fun k => (base + 2 * k, 2, (sget 0 t0.data k).toNat)) ++
      tileCells.map (fun k => (base + 0x1800 + 2 * k, 2, (sget 0 t1.data k).toNat)))

/-- The slots of a flume entry: its register, then its tangents (R11). -/
def entryRegs (e : FlumeEntry) : List RegBits := e.data :: e.tangents

def flumeChunks (c : Core) : List Chunk :=
  (List.range 8).flatMap (fun q =>
    let rs := (vat [] c.flumes q).flatMap entryRegs
    (List.range 16).map (fun j =>
      (0x40000 + 0x1000 * q + 0x100 * j, 256, match rs[j]? with | some r => r.toNat | none => vacant c (16 * q + j))))

def captureChunks (c : Core) : List Chunk :=
  engines.flatMap (fun e =>
    let vs := (c.user.get e).entries.flatMap (fun r => r.caps)
    (List.range 256).map (fun n =>
      (0x48000 + 0x800 * engineIndex e + 8 * n, 8,
        match vs[n]? with | some v => v.toNat | none => vacant c (128 + 256 * engineIndex e + n) % 2 ^ 64)))

/-- The recorded values for which a saved set has room: its area ends at + 0xC00 (R309); the note of the image keeps the rest
(log 69). -/
def setValues : Nat := 246

def setChunks (c : Core) (k : Nat) (base : Nat) (q : SeqSet) : List Chunk :=
  let caps := q.block.flatMap (fun w => w.caps)
  (List.range 6).map (fun l => (base + 8 * l, 8, (seqLevelWord q l).toNat)) ++
  (List.range 16).flatMap (fun st => (List.range 6).map (fun l =>
    (base + 0x40 + 8 * (6 * st + l), 8, (seqStride q l st).toNat))) ++
  [(base + 0x340, 8, q.block.length)] ++
  (List.range 64).map (fun i => (base + 0x348 + 4 * i, 4,
    match q.block[i]? with | some w => w.word.toNat | none => vacant c (k + i) % 2 ^ 32)) ++
  (List.range setValues).map (fun i => (base + 0x450 + 8 * i, 8,
    match caps[i]? with | some v => v.toNat | none => vacant c (k + 64 + i) % 2 ^ 64))

/-- The sequencer's area. R309 gives a break that SEQBRK asked for no place: it is kept in the byte after ACTIVE (log 69). -/
def sequencerChunks (c : Core) : List Chunk :=
  let q := c.seq
  setChunks c 2000 0x4A000 q.shadow ++ setChunks c 3000 0x4AC00 q.active ++
  (List.range 6).map (fun l => (0x4B800 + 4 * l, 4, (vat 0 q.i l).toNat)) ++
  (List.range 16).map (fun st => (0x4B820 + 8 * st, 8, (vat 0 q.so st).toNat)) ++
  [(0x4B8A0, 1, q.p), (0x4B8A1, 1, if q.running then 1 else 0), (0x4B8A2, 1, if q.brk then 1 else 0)]

/-- Where an image names its note (log 69). -/
def noteOffset : Nat := 0x4B8A8

/-- The number of the note that the next image gets. -/
def noteChunk (s : State) : Chunk := (noteOffset, 8, s.notes.length + 1)

/-- The note of an image. -/
def spillNote (c : Core) : SpillNote := ⟨c.user, c.seq⟩

/-- The note that an image names. -/
def noteOf (s : State) (rd : Nat → Nat → Nat) : Option SpillNote :=
  match rd noteOffset 8 with
  | 0 => none
  | n + 1 => s.notes[n]?

/-- WRP and RDP as the ring CSRs show them (R8). -/
def ringCsr (r : Ring) : Word := (r.wrp.setWidth 64 <<< 11) ||| r.rdp.setWidth 64

/-- A bank as the run's own code sees it, and the other bank (R310). -/
def userS (c : Core) (i : Nat) : Word := if inTrap c ∧ 24 ≤ i then vat 0 c.trapS (i - 24) else vat 0 c.s i
def userA (c : Core) (i : Nat) : Word := if inTrap c ∧ 24 ≤ i then vat 0 c.trapA (i - 24) else vat 0 c.a i
def handlerS (c : Core) (i : Nat) : Word := if inTrap c then vat 0 c.s (24 + i) else vat 0 c.trapS i
def handlerA (c : Core) (i : Nat) : Word := if inTrap c then vat 0 c.a (24 + i) else vat 0 c.trapA i

/-- The configuration that MCFG gives, and whether it is one that R186 refuses. -/
def mcfgOf (f g : Word) : MatrixConfig :=
  { mr := f.extractLsb' 0 8, nc := f.extractLsb' 8 8, k := f.extractLsb' 24 16, apitch := f.extractLsb' 40 8,
    bpitch := f.extractLsb' 48 8, mtoff := g.extractLsb' 0 20 }

def mcfgRefused (f g : Word) : Bool :=
  let m := mcfgOf f g
  decide (m.mr = 0 ∨ 48 < m.mr.toNat) || decide (m.nc = 0 ∨ 64 < m.nc.toNat) || decide (m.k = 0) ||
    decide (m.apitch = 0 ∨ m.bpitch = 0) || decide (m.mtoff.toNat % 128 ≠ 0) ||
    decide (bitsNat f 16 8 ≠ 0 ∨ bitsNat f 56 8 ≠ 0 ∨ bitsNat g 20 44 ≠ 0)

/-- The values of s[f] and s[g] that give a configuration. -/
def mcfgF (m : MatrixConfig) : Word :=
  m.mr.setWidth 64 ||| (m.nc.setWidth 64 <<< 8) ||| (m.k.setWidth 64 <<< 24) ||| (m.apitch.setWidth 64 <<< 40) |||
    (m.bpitch.setWidth 64 <<< 48)
def mcfgG (m : MatrixConfig) : Word := m.mtoff.setWidth 64

def runKindCode : RunKind → Nat
  | .none => 0
  | .generator => 1
  | .sink => 2

/-- The steps of a stream's generator that have been issued and whose entries have not entered the flume (R132). -/
def stepsAhead (c : Core) (st : Nat) : Nat :=
  (c.flight.filter (fun f => decide (f.st = st) && (match f.work with | .load r => r.ahead | _ => false))).length

/-- A stream's run as it is saved: steps whose entries have no room yet are still to issue (log 69). -/
def savedRun (c : Core) (st : Nat) : StreamRun :=
  let r := vat StreamRun.idle c.runs st
  let n := stepsAhead c st
  if n = 0 then r
  else { r with kind := .generator, next := r.next - BitVec.ofNat 64 n, left := r.left + BitVec.ofNat 64 n }

/-- The streams that barriers in flight hold back, or hold their stores back, until stream st's run has ended. -/
def heldBehind (c : Core) (st : Nat) (storesOnly : Bool) : BitVec 16 :=
  c.flight.foldl (fun a f => match f.work with
    | .barrier b =>
      if !f.trap && (b.storesOnly == storesOnly) && barrierRuns c f.ord { b with before := b.before &&& BitVec.ofNat 16 (2 ^ st) }
      then a ||| b.behind else a
    | _ => a) 0

/-- The kind of a saved run. R310 gives the barriers that wait for the run no place: what they hold back is kept above it
(log 69). -/
def runWord (c : Core) (st : Nat) : Nat :=
  runKindCode (savedRun c st).kind + 2 ^ 16 * (heldBehind c st false).toNat + 2 ^ 32 * (heldBehind c st true).toNat

/-- The barriers in flight that a saved run's doubleword stands for. -/
def runBarriers (ord st v : Nat) : List Flight :=
  let one (storesOnly : Bool) (behind : Nat) : List Flight :=
    if behind % 2 ^ 16 = 0 then []
    else [⟨ord, false, 0, 0, .barrier ⟨BitVec.ofNat 16 (2 ^ st), false, BitVec.ofNat 16 behind, storesOnly⟩⟩]
  one false (v / 2 ^ 16) ++ one true (v / 2 ^ 32)

def runChunks (c : Core) : List Chunk :=
  (List.range 16).flatMap (fun st =>
    let r := savedRun c st
    [(0x4C800 + 32 * st, 8, runWord c st), (0x4C808 + 32 * st, 8, r.base.toNat),
     (0x4C810 + 32 * st, 8, r.next.toNat), (0x4C818 + 32 * st, 8, r.left.toNat)])

/-- The binding of a flume: its register's number above 56. -/
def boundTo (b : Bindings) (q : Nat) : Option Nat := (b.find? (fun e => e.2.toNat == q)).map (fun e => e.1 - 56)

/-- The flume counts and the entries' tags. R310 gives the count of VPART and VAPPEND no place: it is kept above an entry's
poison bit, plus one (log 69). -/
def flumeTable (c : Core) : List Chunk :=
  (List.range 8).flatMap (fun q =>
    let es := vat [] c.flumes q
    let bound := match boundTo c.bnd q with | some v => v * 2 ^ 8 + 2 ^ 11 | none => 0
    (0x4CA00 + 8 * q, 8, es.length + bound) ::
    (List.range 16).map (fun i => (0x4CC00 + 128 * q + 8 * i, 8,
      match es[i]? with
      | some e => e.tag.toNat + (if e.poison then 2 ^ 32 else 0) + (match e.count with | some n => (n + 1) * 2 ^ 33 | none => 0)
      | none => vacant c (4000 + 16 * q + i) % 2 ^ 64)))

def controlChunks (s : State) : List Chunk :=
  let c := s.core
  let k := c.csr
  let r : RunInfo := c.run.getD ⟨0, 0, 0, 0, 0, 0, none⟩
  let counter : Nat := match gangOf s with | some (_, g) => g.counter.toNat | none => 0
  wordsAt 0x4C000 ((List.range 32).map (userS c)) ++ wordsAt 0x4C100 ((List.range 32).map (userA c)) ++
  wordsAt 0x4C200 ((List.range 8).map (handlerS c) ++ (List.range 8).map (handlerA c)) ++
  wordsAt 0x4C280 c.p.toList ++
  (List.range 16).map (fun i => (0x4C300 + 4 * i, 4, (vat 0 c.ptag i).toNat)) ++
  (List.range 16).map (fun i => (0x4C340 + i, 1, if i = 0 then 0 else (vat 0 c.tokens i).toNat)) ++
  [(0x4C350, 4, c.gens.x0.toNat), (0x4C354, 4, c.gens.x1.toNat), (0x4C358, 4, c.gens.drain.toNat),
   (0x4C35C, 4, c.gens.copy.toNat), (0x4C360, 8, (mcfgF c.mcfg).toNat), (0x4C368, 8, (mcfgG c.mcfg).toNat),
   (0x4C370, 16, c.bq.length)] ++
  (List.range 16).map (fun i => (0x4C380 + 8 * i, 8,
    match c.bq[i]? with | some v => v.toNat | none => vacant c (4200 + i) % 2 ^ 64)) ++
  (List.range 64).map (fun n => (0x4C400 + 4 * n, 4, (vat VReg.zero c.v n).tag.toNat)) ++
  (List.range 32).map (fun n => let t := vat Tile.zero c.tiles n
    (0x4C500 + 4 * n, 4, t.af.toNat + t.vc.toNat * 2 ^ 8 + t.detail.toNat * 2 ^ 16)) ++
  wordsAt 0x4C580 [k.flags.setWidth 64, k.rmode.setWidth 64, k.tmode.setWidth 64, k.rrb.setWidth 64, k.latb,
    k.status.setWidth 64, k.epc, k.cause.setWidth 64, k.tval, k.slag.setWidth 64, k.slast.setWidth 64,
    ringCsr c.user.a, ringCsr c.user.x, ringCsr c.user.m, ringCsr c.user.y] ++
  (List.range 16).map (fun st => (0x4C600 + 32 * st, 32, (vat 0 c.desc st).toNat)) ++
  runChunks c ++ flumeTable c ++
  [(0x4CA40, 8, r.job % 1024 + r.slot.toNat * 2 ^ 16), (0x4CA48, 8, r.d2.toNat), (0x4CA50, 8, counter),
   (0x4CA58, 8, k.gid.toNat + k.gsize.toNat * 2 ^ 8)]

def imageChunks (s : State) : List Chunk :=
  vectorChunks s.core ++ accumulatorChunks s.core ++ flumeChunks s.core ++ captureChunks s.core ++
    sequencerChunks s.core ++ [noteChunk s] ++ controlChunks s

/-- The lines of an image (R309). -/
def imageLines : Nat := 0x4E000 / 128

/-- The image written over the save area at a place: every line tagged 0x007F_0000, what no chunk names as zero. -/
def writeImage (m : Memory) (base : Nat) (cs : List Chunk) : Memory :=
  let m := (List.range imageLines).foldl (fun m i => putLine m (base + 128 * i) 0 ⟨rawTag, 0⟩) m
  { m with bytes := cs.foldl (fun b x => storeBytes b (base + x.1) x.2.1 x.2.2) m.bytes }

/-! ## Reading an image -/

/-- Bytes of one line of an image. -/
def imageLineBytes (s : State) (va : Word) (off n : Nat) : Nat :=
  match checkedPage s .load (addVa va off) 1 with
  | .error _ => 0
  | .ok p => bytesAt s (pageVersion s p) (p.place (addVa va off)) n

/-- Bytes of an image: of one line, or of the two lines of a register. -/
def imageBytes (s : State) (va : Word) (off n : Nat) : Nat :=
  if n ≤ 128 then imageLineBytes s va off n
  else imageLineBytes s va off 128 + 2 ^ 1024 * imageLineBytes s va (off + 128) (n - 128)

/-- The lines of an image can all be read, and lie in one window where the first does (R308). -/
def imageReadable (s : State) (va : Word) : Chk Unit :=
  (List.range imageLines).foldl (fun r i =>
    let at_ := addVa va (128 * i)
    match r with
    | .error e => .error e
    | .ok () => match checkedPage s .load at_ 1 with
      | .error e => .error e
      | .ok _ => if saveWindow va = saveWindow at_ then .ok () else faultNow (flt cPAGE at_)) (.ok ())

/-- The words of a ring between its pointers, as the ring area holds them: each with its prefix. -/
def ringWordsFrom (s : State) (e : Engine) : Nat → BitVec 11 → List (BitVec 11 × Option IWord × IWord)
  | 0, _ => []
  | n + 1, pos =>
    let w := BitVec.ofNat 32 (loadBytes s.mem.bytes (ringPlace s.cur e pos.toNat) 4)
    match n with
    | 0 => [(pos, none, w)]
    | m + 1 =>
      if fld w 29 3 = 6 then
        (pos, some w, BitVec.ofNat 32 (loadBytes s.mem.bytes (ringPlace s.cur e (pos + 1).toNat) 4)) ::
          ringWordsFrom s e m (pos + 2)
      else (pos, none, w) :: ringWordsFrom s e (m + 1) (pos + 1)

/-- Captured values dealt to the words of a ring in order (R309); the words claim no tile (R312). -/
def dealCaptures (ord : Nat) (bnd : Bindings) : List (BitVec 11 × Option IWord × IWord) → List Word → List RingEntry
  | [], _ => []
  | (pos, p, w) :: rest, vs =>
    let n := match placedInstr w with | some i => (capturesOf i).length | none => 0
    ⟨ord, pos, p, w, vs.take n, 0, bnd, false, false⟩ :: dealCaptures ord bnd rest (vs.drop n)

/-- At most this many iterations of a nest are followed back. -/
def iterationsBack : Nat := 4096

/-- The A words that a nest has forwarded up to position `lim` of the iteration of q's counters, latest first, each with its
stream's offset; enough of them for `want` words, over at most `fuel` iterations. -/
def forwardedBefore (q : Sequencer) (lim : Nat) : Nat → Nat → List (IWord × Word)
  | 0, _ => []
  | fuel + 1, want =>
    let here := ((iterationWords q lim 0 false (q.active.block.map SeqWord.word)).filterMap (fun w =>
      match decode w with
      | .ok i => if engineCode w = some .A then some (w, offsetOf q.active q.i (streamOf i)) else none
      | .error _ => none)).reverse
    if want ≤ here.length then here
    else match countersBefore q with
      | none => here
      | some i => here ++ forwardedBefore { q with i := i } 64 fuel (want - here.length)

/-- The A words at the tail of a ring are the latest that the nest forwarded, as far as either list goes. -/
def tailMatches (ws : List IWord) (fs : List (IWord × Word)) : Bool :=
  !fs.isEmpty && (ws.zip fs).all (fun x => x.1 == x.2.1)

/-- The offsets of a rebuilt A ring's words (R102, R103): those that the saved nest forwarded keep the offset of their
iteration, in an image without its note. They end the ring while the nest is active; else they stand where they are found latest
(log 69). -/
def restoreOffsets (q : Sequencer) (es : List RingEntry) : List RingEntry :=
  let back := es.reverse
  let fs := forwardedBefore q q.p iterationsBack es.length
  match (List.range (if q.running then 1 else back.length)).find? (fun d => tailMatches ((back.drop d).map RingEntry.word) fs) with
  | none => es
  | some d => ((back.zipIdx).map (fun x =>
      if d ≤ x.2 then (match fs[x.2 - d]? with | some f => { x.1 with so := f.2 } | none => x.1) else x.1)).reverse

/-- A rebuilt word with what its split gave it (R102, R134, R349), where the image's note has the same word at its position. -/
def recallEntry (r : Ring) (x : RingEntry) : RingEntry :=
  match r.entries.find? (fun y => y.pos == x.pos && y.pfx == x.pfx && y.word == x.word) with
  | none => x
  | some y => { x with so := y.so, bnd := y.bnd, badReserved := y.badReserved }

/-- A user ring rebuilt from the ring area, a capture file and the image's note. -/
def rebuildRing (s : State) (e : Engine) (wrp rdp : BitVec 11) (vs : List Word) (note : Option SpillNote) : Ring :=
  let es := dealCaptures s.core.ord s.core.bnd (ringWordsFrom s e (wrp - rdp).toNat rdp) vs
  ⟨wrp, rdp, match note with
    | some n => es.map (recallEntry (n.rings.get e))
    | none => if e = .A then restoreOffsets s.core.seq es else es⟩

/-- The words of a user ring read again from the ring area, which a handler may have written (R7, R303). -/
def refreshRing (s : State) (e : Engine) (r : Ring) : Ring :=
  { r with entries := r.entries.map (fun x =>
      let at_ (p : BitVec 11) : IWord := BitVec.ofNat 32 (loadBytes s.mem.bytes (ringPlace s.cur e p.toNat) 4)
      match x.pfx with
      | some _ => { x with pfx := some (at_ x.pos), word := at_ (x.pos + 1) }
      | none => { x with word := at_ x.pos }) }

def refreshRings (s : State) : State :=
  s.onCore (fun c => { c with user := engines.foldl (fun r e => r.put e (refreshRing s e (r.get e))) c.user })

/-- A saved set; `beyond` holds the recorded values for which its area has no room. -/
def readSet (rd : Nat → Nat → Nat) (base : Nat) (beyond : List Word) : SeqSet :=
  let n := rd (base + 0x340) 8
  let words := (List.range n).map (fun i => BitVec.ofNat 32 (rd (base + 0x348 + 4 * i) 4))
  let total := (words.map (fun w => (wordCaptures w).length)).sum
  let caps : List Word := (List.range (min total setValues)).map (fun i => BitVec.ofNat 64 (rd (base + 0x450 + 8 * i) 8)) ++ beyond
  let deal := words.foldl (fun (acc : List SeqWord × List Word) w =>
    let k := (wordCaptures w).length
    (acc.1 ++ [⟨w, acc.2.take k⟩], acc.2.drop k)) ([], caps)
  { n := Vector.ofFn (fun (l : Fin 6) => BitVec.ofNat 32 (rd (base + 8 * l.val) 4))
    rot := Vector.ofFn (fun (l : Fin 6) => rd (base + 8 * l.val + 4) 1 % 2 == 1)
    stride := Vector.ofFn (fun (k : Fin 96) => BitVec.ofNat 64 (rd (base + 0x40 + 8 * (6 * (k.val % 16) + k.val / 16)) 8))
    block := deal.1 }

/-- The recorded values of a noted set for which an image has no room. -/
def valuesBeyond (note : Option SpillNote) (set : Sequencer → SeqSet) : List Word :=
  match note with
  | none => []
  | some n => ((set n.seq).block.flatMap SeqWord.caps).drop setValues

/-- A saved tile: AF, validity class and detail, then its positions (R184, R309). -/
def readTile (rd : Nat → Nat → Nat) (n : Nat) : Tile :=
  let t := rd (0x4C500 + 4 * n) 4
  let pair := rd (0x4C500 + 4 * (n / 2 * 2)) 4
  let base := 0x10000 + 0x3000 * (n / 2)
  let cells : Sparse (BitVec 32) :=
    if pair % 4 = 0 then
      (if n % 2 = 0 then tileCells.filterMap (fun k => let v := rd (base + 4 * k) 4
        if v = 0 then none else some (k, BitVec.ofNat 32 v)) else [])
    else tileCells.filterMap (fun k => let v := rd (base + 0x1800 * (n % 2) + 2 * k) 2
      if v = 0 then none else some (k, BitVec.ofNat 32 v))
  ⟨BitVec.ofNat 2 t, BitVec.ofNat 2 (t / 2 ^ 8), BitVec.ofNat 8 (t / 2 ^ 16), cells⟩

/-- A tag that a register or a flume entry may hold: well formed, FILL zero, never UNINIT (R32, R35, R37). -/
def heldTag (t : Tag) : Bool := !tagMalformed t && !tagFill t && !isUninit t

/-- A BQ entry has nothing in its reserved field, and counts at most 64 lanes (R95). -/
def bqEntryOk (v : Nat) : Bool := decide (v / 2 ^ 7 % 2 ^ 24 = 0 ∧ v % 2 ^ 7 ≤ 64)

/-- The saved sequencer stands at a position of its block, in an iteration of its counts (R97, R103). -/
def nestInRange (rd : Nat → Nat → Nat) : Bool :=
  decide (rd 0x4B8A0 1 ≤ rd 0x4AF40 8) && decide (rd 0x4B8A1 1 ≤ 1) &&
  (List.range 6).all (fun l => decide (rd (0x4B800 + 4 * l) 4 < max 1 (rd (0x4AC00 + 8 * l) 4)))

/-- Every field of an image lies in range (R312). -/
def imageInRange (rd : Nat → Nat → Nat) : Bool :=
  let tm := rd 0x4C590 8
  let counts := (List.range 8).map (fun q => rd (0x4CA00 + 8 * q) 8)
  let rings := (List.range 4).map (fun i => rd (0x4C5D8 + 8 * i) 8)
  decide (rd 0x4C580 8 < 2 ^ 8) && decide (rd 0x4C588 8 < 2 ^ 3) && decide (tm < 4) && decide (rd 0x4C598 8 ≤ 23) &&
  decide (rd 0x4C5A0 8 % 1024 = 0) && decide (rd 0x4C5A8 8 < 2 ^ 5) &&
  decide (rd 0x4C5B0 8 < 2 ^ 48 ∧ rd 0x4C5B0 8 % 4 = 0) && decide (rd 0x4C5B8 8 < 2 ^ 32 ∧ rd 0x4C5B8 8 / 2 ^ 11 % 2 ^ 4 = 0) &&
  decide (rd 0x4C5C8 8 < 2 ^ 32) && decide (rd 0x4C5D0 8 < 2 ^ 8) &&
  rings.all (fun v => decide (v < 2 ^ 22) && decide ((v / 2 ^ 11 + 2 ^ 11 - v % 2 ^ 11) % 2 ^ 11 ≤ 1024)) &&
  decide (rd 0x4C370 16 ≤ 16) && (List.range (min 16 (rd 0x4C370 16))).all (fun i => bqEntryOk (rd (0x4C380 + 8 * i) 8)) &&
  (List.range 4).all (fun i => decide (rd (0x4C350 + 4 * i) 4 ≠ 0)) &&
  (List.range 16).all (fun i => heldTag (BitVec.ofNat 32 (rd (0x4C300 + 4 * i) 4))) && decide (rd 0x4C340 1 = 0) &&
  decide (rd 0x4CA40 8 < 2 ^ 22) && decide (rd 0x4CA50 8 < 2 ^ 48) &&
  decide (1 ≤ rd 0x4CA58 8 / 2 ^ 8 ∧ rd 0x4CA58 8 / 2 ^ 8 ≤ 256) &&
  counts.all (fun v => decide (v % 2 ^ 5 * (1 + tm) ≤ 16) && decide (v / 2 ^ 5 % 2 ^ 3 = 0 ∧ v < 2 ^ 12)) &&
  decide (((counts.filter (fun v => decide (v / 2 ^ 11 % 2 = 1))).map (fun v => v / 2 ^ 8 % 2 ^ 3)).Nodup) &&
  (List.range 64).all (fun n => heldTag (BitVec.ofNat 32 (rd (0x4C400 + 4 * n) 4))) &&
  (List.range 8).all (fun q => (List.range (counts.getD q 0 % 2 ^ 5)).all (fun i =>
    heldTag (BitVec.ofNat 32 (rd (0x4CC00 + 128 * q + 8 * i) 4)))) &&
  (List.range 16).all (fun st => !descRefused (BitVec.ofNat 256 (rd (0x4C600 + 32 * st) 32))) &&
  (List.range 16).all (fun st => decide (rd (0x4C800 + 32 * st) 2 ≤ 2 ∧ rd (0x4C800 + 32 * st) 8 < 2 ^ 50)) &&
  (List.range 32).all (fun n => decide (rd (0x4C500 + 4 * n) 1 ≤ 2) && decide (rd (0x4C501 + 4 * n) 1 ≤ 3) &&
    decide (rd (0x4C501 + 4 * n) 1 ≠ 2 ∧ rd (0x4C502 + 4 * n) 1 ≤ 4) &&
    decide ((rd (0x4C500 + 4 * n) 1 = 0) ↔ (rd (0x4C500 + 4 * (n / 2 * 2)) 1 = 0))) &&
  (List.range 2).all (fun k => decide (rd (0x4A340 + 0xC00 * k) 8 ≤ 64)) &&
  nestInRange rd && !mcfgRefused (BitVec.ofNat 64 (rd 0x4C360 8)) (BitVec.ofNat 64 (rd 0x4C368 8))

/-- The core after the state of an image has replaced its own (R310, R312). -/
def restoreCore (s : State) (rd : Nat → Nat → Nat) : Core :=
  let c := s.core
  let w (off : Nat) : Word := BitVec.ofNat 64 (rd off 8)
  let st : BitVec 5 := BitVec.ofNat 5 (rd 0x4C5A8 8)
  let handler := st.getLsbD 3
  let us (i : Nat) : Word := w (0x4C000 + 8 * i)
  let ua (i : Nat) : Word := w (0x4C100 + 8 * i)
  let hs (i : Nat) : Word := w (0x4C200 + 8 * i)
  let ha (i : Nat) : Word := w (0x4C240 + 8 * i)
  let T := rd 0x4C590 8
  let flume (q : Nat) : List FlumeEntry := (List.range (rd (0x4CA00 + 8 * q) 8 % 2 ^ 5)).map (fun i =>
    let slot (j : Nat) : RegBits := BitVec.ofNat 2048 (rd (0x40000 + 0x1000 * q + 0x100 * ((1 + T) * i + j)) 256)
    let t := rd (0x4CC00 + 128 * q + 8 * i) 8
    let n := t / 2 ^ 33 % 2 ^ 7
    ⟨slot 0, BitVec.ofNat 32 t, t / 2 ^ 32 % 2 == 1, (List.range T).map (fun j => slot (j + 1)),
      if n = 0 then none else some (n - 1)⟩)
  let bnd : Bindings := (List.range 8).filterMap (fun q =>
    let v := rd (0x4CA00 + 8 * q) 8
    if v / 2 ^ 11 % 2 = 1 then some (56 + v / 2 ^ 8 % 8, BitVec.ofNat 3 q) else none)
  let note := noteOf s rd
  let seq : Sequencer :=
    { shadow := readSet rd 0x4A000 (valuesBeyond note Sequencer.shadow),
      active := readSet rd 0x4AC00 (valuesBeyond note Sequencer.active),
      i := Vector.ofFn (fun (l : Fin 6) => BitVec.ofNat 32 (rd (0x4B800 + 4 * l.val) 4)),
      so := Vector.ofFn (fun (i : Fin 16) => w (0x4B820 + 8 * i.val)),
      p := rd 0x4B8A0 1, running := rd 0x4B8A1 1 == 1, brk := rd 0x4B8A2 1 == 1 }
  let ring (i : Nat) (e : Engine) : Ring :=
    let v := rd (0x4C5D8 + 8 * i) 8
    rebuildRing { s with core := { s.core with bnd := bnd, seq := seq, ord := s.core.ord + 1 } } e (BitVec.ofNat 11 (v / 2 ^ 11)) (BitVec.ofNat 11 v)
      ((List.range 256).map (fun n => w (0x48000 + 0x800 * i + 8 * n))) note
  { c with
    s := Vector.ofFn (fun (i : Fin 32) => if handler && decide (24 ≤ i.val) then hs (i.val - 24) else us i.val)
    a := Vector.ofFn (fun (i : Fin 32) => if handler && decide (24 ≤ i.val) then ha (i.val - 24) else ua i.val)
    trapS := Vector.ofFn (fun (i : Fin 8) => if handler then us (24 + i.val) else hs i.val)
    trapA := Vector.ofFn (fun (i : Fin 8) => if handler then ua (24 + i.val) else ha i.val)
    v := Vector.ofFn (fun (n : Fin 64) =>
      ⟨BitVec.ofNat 2048 (rd (256 * n.val) 256), BitVec.ofNat 32 (rd (0x4C400 + 4 * n.val) 4)⟩)
    t1 := Vector.ofFn (fun (n : Fin 64) => BitVec.ofNat 2048 (rd (256 * (64 + n.val)) 256))
    t2 := Vector.ofFn (fun (n : Fin 64) => BitVec.ofNat 2048 (rd (256 * (128 + n.val)) 256))
    t3 := Vector.ofFn (fun (n : Fin 64) => BitVec.ofNat 2048 (rd (256 * (192 + n.val)) 256))
    tiles := Vector.ofFn (fun (n : Fin 32) => readTile rd n.val)
    flumes := Vector.ofFn (fun (q : Fin 8) => flume q.val)
    bnd := bnd
    p := Vector.ofFn (fun (i : Fin 16) => w (0x4C280 + 8 * i.val))
    ptag := Vector.ofFn (fun (i : Fin 16) => BitVec.ofNat 32 (rd (0x4C300 + 4 * i.val) 4))
    tokens := Vector.ofFn (fun (i : Fin 16) => BitVec.ofNat 8 (rd (0x4C340 + i.val) 1))
    gens := ⟨BitVec.ofNat 32 (rd 0x4C350 4), BitVec.ofNat 32 (rd 0x4C354 4), BitVec.ofNat 32 (rd 0x4C358 4),
      BitVec.ofNat 32 (rd 0x4C35C 4)⟩
    mcfg := mcfgOf (w 0x4C360) (w 0x4C368)
    bq := (List.range (rd 0x4C370 16)).map (fun i => w (0x4C380 + 8 * i))
    desc := Vector.ofFn (fun (i : Fin 16) => BitVec.ofNat 256 (rd (0x4C600 + 32 * i.val) 32))
    runs := Vector.ofFn (fun (i : Fin 16) =>
      let b := 0x4C800 + 32 * i.val
      let k := match rd b 2 with | 1 => RunKind.generator | 2 => RunKind.sink | _ => RunKind.none
      ⟨k, w (b + 8), w (b + 16), w (b + 24), s.core.ord, none, w (b + 16), none⟩)
    user := ⟨ring 0 .A, ring 1 .X, ring 2 .M, ring 3 .Y⟩
    seq := seq
    csr := { c.csr with
      flags := BitVec.ofNat 8 (rd 0x4C580 8), rmode := BitVec.ofNat 3 (rd 0x4C588 8), tmode := BitVec.ofNat 2 T,
      rrb := BitVec.ofNat 5 (rd 0x4C598 8), latb := w 0x4C5A0, status := st, epc := w 0x4C5B0,
      cause := BitVec.ofNat 32 (rd 0x4C5B8 8), tval := w 0x4C5C0, slag := BitVec.ofNat 32 (rd 0x4C5C8 8),
      slast := BitVec.ofNat 8 (rd 0x4C5D0 8) }
    records := [], barrier := none, ord := c.ord + 2,
    flight := (List.range 16).flatMap (fun st => runBarriers c.ord st (rd (0x4C800 + 32 * st) 8)), filled := true, pending := none,
    yielded := handler && decide (rd 0x4C5B8 8 % 2 ^ 8 = cPREEMPT.toNat) }

end Sys2Proof.Machine
end

