-- ==== Sys2Proof/Machine/System.lean ====
section
/-! DEFINITION. CSR words (R82, R304, R305), TRAP and ERET (R302, R303), SPILL, FILL and HALT (R311 to R313), TLBI, LATINV
and ISYNC (R316 to R318). -/

namespace Sys2Proof.Machine

/-! ## Waits -/

/-- Every word of every trap ring has completed, and every command that they issued (R303, R305). -/
def trapQuiet (c : Core) : Bool :=
  engines.all (fun e => (c.trap.get e).entries.isEmpty) && accessesDone c &&
    (match c.mcmd with | some m => !m.trap | none => true) && c.ycmds.all (fun y => !y.trap)

/-- The wait of a CSR word (R305): in handler mode the trap rings only, with the commands that trap-ring words issued. -/
def csrDrained (c : Core) : Bool := if inTrap c then trapQuiet c else earlierDone c

/-- An A word that writes memory. -/
def storesMemory : Instr → Bool
  | .sts .. | .sta .. | .ste .. | .vst .. | .vstp .. | .vstx .. | .strsink .. | .wapp .. => true
  | .aadd .. | .amin .. | .amax .. | .aand .. | .aor .. | .axor .. | .aswap .. | .acas .. | .acont .. => true
  | _ => false

/-- An A word of the given kind stands in the ring that the A engine takes words from. -/
def ringHas (c : Core) (f : Instr → Bool) : Bool :=
  ((activeRings c).get .A).entries.any (fun e => match placedInstr e.word with | some i => f i | none => false)

/-- No earlier A-word store, nor a step of a sink, has still to be made (R316 to R318), be it to enter the store queue. -/
def storesMade (c : Core) : Bool :=
  !ringHas c storesMemory && (flyingStores c).isEmpty && (inTrap c || c.runs.toList.all (fun r => decide (r.kind ≠ .sink)))

/-! ## Words of the SYS format -/

/-- A Z word that R79 checks for privilege at the splitter. -/
def sysWord (i : Instr) (regs : List (BitVec 5)) (needs : Bool) (body : CCtx → State → Chk State) (s : State) : Out :=
  if needs && !privileged s.core && !splitterStops s.core false then
    rejectWord (flt cPRIV (((encode i).getD 0).setWidth 64)) s
  else control i regs body s

/-! ## CSRs (R82) -/

def csrClass (n : BitVec 12) : BitVec 2 := n.extractLsb' 10 2

/-- The value of a CSR as a read gives it. -/
def csrRead (s : State) (n : BitVec 12) : Word :=
  let c := s.core
  let k := c.csr
  match n.toNat with
  | 0x000 => k.flags.setWidth 64
  | 0x001 => k.rmode.setWidth 64
  | 0x002 => c.gens.x0.setWidth 64
  | 0x003 => k.tmode.setWidth 64
  | 0x004 => k.rrb.setWidth 64
  | 0x005 => k.latb
  | 0x006 => k.status.setWidth 64
  | 0x400 => 64
  | 0x401 => 48
  | 0x402 => 64
  | 0x403 => s.hbt
  | 0x404 => k.speed.setWidth 64
  | 0x405 => k.gid.setWidth 64
  | 0x406 => k.gsize.setWidth 64
  | 0x407 => k.slag.setWidth 64
  | 0x408 => k.slast.setWidth 64
  | 0x409 => k.features.setWidth 64
  | 0x40A => ringCsr c.user.a
  | 0x40B => ringCsr c.user.x
  | 0x40C => ringCsr c.user.m
  | 0x40D => ringCsr c.user.y
  | 0x800 => k.cause.setWidth 64
  | 0x801 => k.epc
  | 0x802 => k.tval
  | 0x803 => k.ptb
  | 0x804 => k.age.setWidth 64
  | 0x805 => k.waitlim.setWidth 64
  | 0xC00 => BitVec.ofNat 64 ringArea
  | _ => 0

/-- Bits that a CSR reserves (R50, R48, R57, R350, R294, R298, R270, R8). -/
def csrReserved (n : BitVec 12) : Word :=
  match n.toNat with
  | 0x000 => ~~~0xFF#64
  | 0x001 => ~~~0x7#64
  | 0x002 => ~~~0xFFFFFFFF#64
  | 0x003 => ~~~0x3#64
  | 0x004 => ~~~0x1F#64
  | 0x006 => ~~~0x1F#64
  | 0x40A => ~~~0x3FFFFF#64
  | 0x40B => ~~~0x3FFFFF#64
  | 0x40C => ~~~0x3FFFFF#64
  | 0x40D => ~~~0x3FFFFF#64
  | 0x800 => ~~~0xFFFF87FF#64
  | 0x801 => ~~~0x0000FFFFFFFFFFFC#64
  | 0x803 => ~~~0x03FF0FFFFFFFF000#64
  | 0x804 => ~~~0xFFFFF#64
  | 0x805 => ~~~0xFFFFFFFF#64
  | _ => 0

/-- A value that leaves a field out of range (R304). -/
def csrOutOfRange (n : BitVec 12) (v : Word) : Bool :=
  decide (v &&& csrReserved n ≠ 0) || (decide (n = 0x004) && decide (23 < v.toNat)) ||
    (decide (n = 0x005) && decide (v.toNat % 1024 ≠ 0))

/-- The generators after SRSEED has been written (R57). -/
def seedGens (v : BitVec 32) : Generators :=
  let v := if v = 0 then 1 else v
  ⟨v, v.rotateLeft 16, v.rotateLeft 8, v.rotateLeft 24⟩

/-- A user ring moved on to a read pointer (R305): the words before it are skipped. -/
def ringSkip (r : Ring) (rdp : BitVec 11) : Option Ring :=
  if rdp = r.wrp then some { r with rdp := rdp, entries := [] }
  else if r.entries.any (fun e => e.pos == rdp) then
    some { r with rdp := rdp, entries := r.entries.dropWhile (fun e => e.pos != rdp) }
  else none

def ringOfCsr (n : BitVec 12) : Engine :=
  match n.toNat with
  | 0x40A => .A
  | 0x40B => .X
  | 0x40C => .M
  | _ => .Y

/-- CSR n written by a word whose bits are `word`, after the waits (R304, R305). The range of a value is judged first: a TMODE
out of range gives the value in TVAL whatever else would refuse the write (R304, R350; log 70). A write of TMODE waits for a
load that has read and has still to deliver (R156). -/
def csrWrite (word : IWord) (n : BitVec 12) (v : Word) (s : State) : Chk State :=
  let put (f : Csrs → Csrs) : Chk State := .ok (s.onCore (fun c => { c with csr := f c.csr }))
  if csrClass n = 1 ∧ ¬(0x40A ≤ n.toNat ∧ n.toNat ≤ 0x40D) then .ok s
  else if csrOutOfRange n v then faultNow (flt cILLEGAL v)
  else match n.toNat with
    | 0x000 => put (fun k => { k with flags := v.setWidth 8 })
    | 0x001 => put (fun k => { k with rmode := v.setWidth 3 })
    | 0x002 => .ok (s.onCore (fun c => { c with gens := seedGens (v.setWidth 32) }))
    | 0x003 =>
      if (decide (v ≠ 0) && !s.core.csr.features.getLsbD 0) || s.core.flumes.toList.any (fun q => !q.isEmpty) then
        faultNow (illegalWordFault word)
      else if s.core.flight.any (fun f => f.isLoad) then waitNow untimed
      else .ok (s.onCore (fun c => { c with
        t1 := Vector.replicate 64 0, t2 := Vector.replicate 64 0, t3 := Vector.replicate 64 0,
        csr := { c.csr with tmode := v.setWidth 2 } }))
    | 0x004 => put (fun k => { k with rrb := v.setWidth 5 })
    | 0x005 => .ok (loadLattice (s.onCore (fun c => { c with csr := { c.csr with latb := v } })))
    | 0x006 =>
      if privileged s.core then put (fun k => { k with status := v.setWidth 5 })
      else put (fun k => { k with status := k.status.extractLsb' 1 4 ++ v.setWidth 1 })
    | 0x800 => put (fun k => { k with cause := v.setWidth 32 })
    | 0x801 => put (fun k => { k with epc := v })
    | 0x802 => put (fun k => { k with tval := v })
    | 0x803 => put (fun k => { k with ptb := v })
    | 0x804 => put (fun k => { k with age := v.setWidth 20 })
    | 0x805 => put (fun k => { k with waitlim := v.setWidth 32 })
    | _ =>
      let e := ringOfCsr n
      match ringSkip (s.core.user.get e) (v.setWidth 11) with
      | none => faultNow (flt cILLEGAL v)
      | some r => .ok (s.onCore (fun c => { c with user := c.user.put e r }))

/-- CSRs whose words drain when they read (R305). -/
def csrDrains (n : BitVec 12) : Bool := decide (n.toNat ≤ 0x006)

/-- APC to YPC, whose writes drain too. -/
def csrRing (n : BitVec 12) : Bool := decide (0x40A ≤ n.toNat ∧ n.toNat ≤ 0x40D)

/-- R144, R145: a read of HBT after a FENCESC in split order. -/
def isFencesc : Instr → Bool
  | .fencesc => true
  | _ => false

/-- The privilege of an access to CSR n (R82, R79). -/
def csrNeeds (n : BitVec 12) (write : Bool) : Bool := csrClass n == 2 || (write && csrClass n == 1)

/-- The wait of a CSR word, with the stores before it applied. -/
def csrWait (n : BitVec 12) (write : Bool) (s : State) : Chk State :=
  if csrDrains n || (write && csrRing n) then
    if csrDrained s.core && drainable s then .ok (drainStores s) else waitNow untimed
  else if n = 0x403 ∧ ringHas s.core isFencesc then waitNow untimed
  else .ok s

/-- R304: s[d] := CSR. -/
def execCsrr (d : BitVec 5) (n : BitVec 12) (s : State) : Out :=
  sysWord (.csrr d n) [d] (csrNeeds n false) (fun _ s => do
    let s ← csrWait n false s
    return ws d (csrRead s n) s) s

/-- CSRW, CSRS and CSRC: the new value is a function of the old and of s[a] (R304). -/
def csrUpdate (i : Instr) (d a : BitVec 5) (n : BitVec 12) (f : Word → Word → Word) (s : State) : Out :=
  sysWord i [d, a] (csrNeeds n true) (fun x s => do
    let s ← csrWait n true s
    let old := csrRead s n
    let s ← csrWrite x.word n (f old (rs s a)) s
    return ws d old s) s

/-- R304: CSR := s[a]. -/
def execCsrw (d a : BitVec 5) (n : BitVec 12) (s : State) : Out := csrUpdate (.csrw d a n) d a n (fun _ v => v) s

/-- R304: CSR := CSR OR s[a]. -/
def execCsrs (d a : BitVec 5) (n : BitVec 12) (s : State) : Out := csrUpdate (.csrs d a n) d a n (fun t v => t ||| v) s

/-- R304: CSR := CSR AND NOT s[a]. -/
def execCsrc (d a : BitVec 5) (n : BitVec 12) (s : State) : Out := csrUpdate (.csrc d a n) d a n (fun t v => t &&& ~~~v) s

/-! ## TRAP and ERET -/

/-- The immediate of TRAP: IMM18 unsigned, or the 41-bit value with EXT (R302, R75). -/
def trapValue (i : BitVec 18) (ext : Option (BitVec 23)) : Word := extUnsigned ext i

/-- R302: takes a trap with CODE 13 and RING 0; EPC is the address of the next word. -/
def execTrap (i : BitVec 18) (s : State) : Out :=
  control (.trap i) [] (fun x _ => faultNow (flt cTRAPI (trapValue i x.ext))) s

/-- Every member of the run's gang has executed FILL (R315). -/
def gangFilled (s : State) : Bool :=
  match gangOf s with
  | none => true
  | some (n, g) => decide (g.members.length ≤ 1) || (liveMembers s n g).all (fun m => (coreOf s m.2).filled)

def preemptFault : Flt := flt cPREEMPT 0

/-- R303: waits for the trap rings, exchanges the banks, leaves handler mode, and goes to EPC; a pending pre-emption is
taken before any user word starts. -/
def execEret (s : State) : Out :=
  sysWord .eret [] true (fun _ s =>
    if !trapQuiet s.core then waitNow untimed
    else if s.core.filled && !gangFilled s then waitNow untimed
    else
      let t := trapReturn (refreshRings s)
      .ok (if ppend t.core then takeTrap preemptFault 5 t else t)) s

/-! ## SPILL, FILL and HALT -/

/-- The wait of SPILL and FILL (R311). -/
def spillReady (c : Core) : Bool :=
  engines.all (fun e => (c.trap.get e).entries.isEmpty) && accessesDone c && c.mcmd.isNone && c.ycmds.isEmpty

/-- R311: the state of the run written to the core's own save area. -/
def execSpill (s : State) : Out :=
  sysWord .spill [] true (fun _ s =>
    if !spillReady s.core then waitNow untimed
    else
      let s := drainStores s
      let m := writeImage s.mem (placeSave s.cur 0) (imageChunks s)
      .ok { s with mem := m, notes := s.notes ++ [spillNote s.core], core := { s.core with free := s.core.free + 5000 } }) s

/-- The slot of a saved image, when the job has it (R312). -/
def imageSlot (s : State) (job k : Nat) : Option Slot :=
  match sfind s.jobs job with
  | none => none
  | some j => sfind j.slots k

/-- R312: the state of an image replaces the run's. -/
def execFill (a : BitVec 5) (s : State) : Out :=
  sysWord (.fill a) [a] true (fun _ s => do
    let va := rs s a
    if !spillReady s.core then waitNow untimed
    else if va.toNat % 128 ≠ 0 then faultNow (flt cALIGN va)
    else
      let s := drainStores s
      let _ ← imageReadable s va
      let rd (off n : Nat) : Nat := imageBytes s va off n
      let head := rd 0x4CA40 8
      let slot := head / 2 ^ 16 % 2 ^ 6
      match s.core.run with
      | none => faultNow (flt cILLEGAL va)
      | some r =>
        match imageSlot s r.job slot with
        | none => faultNow (flt cILLEGAL va)
        | some sl =>
          if head % 2 ^ 10 ≠ r.job || !imageInRange rd then faultNow (flt cILLEGAL va)
          else
            let r' : RunInfo := { r with
              slot := BitVec.ofNat 6 slot, d2 := BitVec.ofNat 64 (rd 0x4CA48 8), tabBase := sl.base, tabLen := sl.len }
            let c := restoreCore s rd
            let s := { s with core := { c with run := some r', fcache := [] } }
            let s := match r.gang with
              | none => s
              | some n =>
                match sfind s.gangs n with
                | none => s
                | some g =>
                  if s.core.csr.gid = 0 then
                    { s with gangs := sput s.gangs n { g with counter := BitVec.ofNat 48 (rd 0x4CA50 8) } }
                  else s
            return loadLattice s) s

/-- R313: the run ends without release and without a join-block decrement, once no M command is in progress and the Y commands in
flight can be settled. -/
def execHalt (s : State) : Out :=
  sysWord .halt [] true (fun _ s => if haltReady s.core then .ok (haltRun s) else waitNow untimed) s

/-! ## Maintenance words -/

/-- Every core of the module, with its number. -/
def allCores (s : State) : List (Nat × Core) := (s.cur, s.core) :: s.parked

/-- A change of every core. -/
def mapCores (f : Core → Core) (s : State) : State :=
  { s with core := f s.core, parked := s.parked.foldl (fun l e => sset Core.idle l e.1 (f e.2)) s.parked }

/-- A range of virtual addresses meets [base, base + size); `n` = 0 pages is everything (R277, R316). -/
def rangeMeets (va : Word) (n : Nat) (base : Word) (size : Nat) : Bool :=
  let lo := va.toNat - va.toNat % 2 ^ 16
  decide (n = 0) || (decide (lo < base.toNat + size) && decide (base.toNat < lo + n * 2 ^ 16))

/-- The pages of a core's accesses that were translated for a job and can still be applied: of its queued stores, of what it
has in flight, of an A head that waits for its verdict, and of its started commands (R277, R180). -/
def pagesHeld (c : Core) (job : Nat) : List Page :=
  let stores (l : List QueuedStore) : List Page := (l.filter (fun q => decide (q.job = job))).map QueuedStore.page
  stores (c.storeQ ++ flyingStores c) ++
  c.flight.flatMap (fun f => match f.work with
    | .load r => if r.job = job then r.todo.map Prod.snd else []
    | _ => []) ++
  (match c.issued with | some ps => if ptbJob c.csr.ptb = job then ps.map Prod.snd else [] | none => []) ++
  (match c.mcmd with | some m => if m.job = job then m.pages.map Prod.snd else [] | none => []) ++
  (c.ycmds.filter (fun y => decide (y.job = job))).flatMap (fun y => y.pages.map Prod.snd ++ y.extra.map (fun e => e.2.2))

/-- Some access translated through an entry of the range can still be applied: of a core's words and commands, or of an ended
word that waits at its home (R277, R139). -/
def accessesHeld (s : State) (job : Nat) (va : Word) (n : Nat) : Bool :=
  (allCores s).any (fun e => (pagesHeld e.2 job).any (fun p => rangeMeets va n p.base p.size)) ||
    s.stalled.any (fun e => decide (e.job = job) && rangeMeets va n e.page.base e.page.size)

/-- The engine copies a page of the range (R277, R280). -/
def pageMoving (s : State) (job : Nat) (va : Word) (n : Nat) : Bool :=
  match s.mig.moving with
  | some m => decide (m.page.job = job) && rangeMeets va n m.page.va (2 ^ 16)
  | none => false

/-- Some access translated through an entry of the range can still be applied, or the engine still copies a page of it (R277). -/
def rangeBusy (s : State) (job : Nat) (va : Word) (n : Nat) : Bool := accessesHeld s job va n || pageMoving s job va n

/-- The cached translations of a job for a range removed from every core and cluster (R277). -/
def invalidate (s : State) (job : Nat) (va : Word) (n : Nat) : State :=
  let drop (t : TlbEntry) : Bool := decide (t.job = job) && rangeMeets va n t.page.base t.page.size
  let dropPtr (t : TlbPointer) : Bool := decide (t.job = job) && rangeMeets va n t.base (levelSize t.level)
  let s := mapCores (fun c => { c with tlb := c.tlb.filter (fun t => !drop t) }) s
  { s with
    l2 := s.l2.foldl (fun l e => sset [] l e.1 (e.2.filter (fun t => !drop t))) s.l2
    l2ptr := s.l2ptr.foldl (fun l e => sset [] l e.1 (e.2.filter (fun t => !dropPtr t))) s.l2ptr }

/-- R316: the job's translations of s[b] pages from s[a] invalidated. -/
def execTlbi (a b : BitVec 5) (s : State) : Out :=
  sysWord (.tlbi a b) [a, b] true (fun x s =>
    let n := (rs s b).toNat
    if 2 ^ 20 < n then faultNow (illegalWordFault x.word)
    else if !storesMade s.core || !drainable s then waitNow untimed
    else
      let s := drainStores s
      let job := match s.core.run with | some r => r.job | none => 0
      if rangeBusy s job (rs s a) n then waitNow untimed
      else .ok (invalidate s job (rs s a) n)) s

/-- R317: the lattice cache reloaded. -/
def execLatinv (s : State) : Out :=
  control .latinv [] (fun _ s =>
    if !((activeRings s.core).get .X).entries.isEmpty || !storesMade s.core || !drainable s then waitNow untimed
    else .ok (loadLattice (drainStores s))) s

/-- R318: the instruction cache and the cached function-table entries discarded. -/
def execIsync (s : State) : Out :=
  control .isync [] (fun _ s =>
    if !storesMade s.core || !drainable s then waitNow untimed
    else .ok ((drainStores s).onCore (fun c => { c with icache := [], fcache := [] }))) s

end Sys2Proof.Machine
end

