-- ==== Sys2Proof/Machine/Prefix.lean ====
section
/-! DEFINITION. The prefixes at the splitter (R74 to R77, R205, R100, R319), and a word that is no instruction (R78). -/

namespace Sys2Proof.Machine

/-- A prefix at the splitter: the control core stops at one of its own stream while a nest runs (R102); the next word must be
one that it may precede, and is fetched before it is judged (log 68); `masked` says that a cleared feature covers the prefix
(R76, R79, R319). -/
def prefixWord (p : Instr) (masked : Core → Bool) (s : State) : Out :=
  if splitterStops s.core true then .next s
  else
    let w := (encode p).getD 0
    match fetchWord (s.core.pc + 4) s with
    | .error (.fault f) => rejectWord f s
    | .error _ => .next s
    | .ok (next, s) =>
      if !prefixAccepts s.core.csr.tmode.toNat false p next || masked s.core then rejectWord (illegalWordFault w) s
      else .next (s.onCore (fun c => { c with pc := c.pc + 4, pfx := some w }))

/-- R205: the next X word or MMA is dual. -/
def execDual (n : BitVec 2) (s : State) : Out := prefixWord (.dual n) (fun c => !c.csr.features.getLsbD 0) s

/-- R205: the tokens of the next A or X word. -/
def execTkn (w r : BitVec 4) (s : State) : Out := prefixWord (.tkn w r) (fun _ => false) s

/-- R75: the high bits of the next word's extendable field. -/
def execExt (i : BitVec 23) (s : State) : Out := prefixWord (.ext i) (fun _ => false) s

/-- R100, R74: ILLEGAL where the splitter executes it, outside a capture. -/
def execSeqf (l : BitVec 3) (s : State) : Out := prefixWord (.seqf l) (fun _ => false) s

/-- R100, R74: as SEQF. -/
def execSeql (l : BitVec 3) (s : State) : Out := prefixWord (.seql l) (fun _ => false) s

/-- A word of the engines A, X, M, Y or a prefix, by its ENG field (R68). -/
def feedsRings (w : IWord) : Bool :=
  match engineCode w with
  | some .C => false
  | some .Z => false
  | some _ => true
  | none => false

/-- R78: ILLEGAL with the word in TVAL; the control core stops at an A, X, M, Y or P word while a nest runs (R102). -/
def execIllegalWord (w : IWord) (s : State) : Out :=
  if splitterStops s.core (feedsRings w) then .next s else rejectWord (illegalWordFault w) s

end Sys2Proof.Machine
end

