-- ==== Sys2Proof/Machine/Shape.lean ====
section
/-! DEFINITION. Shape records and the layouts of a copy (R194, R195), the operands of M words as runs of lines (R186,
R187, R192, R193), and lines of the core's own scratchpad named by offset (R183). -/

namespace Sys2Proof.Machine

/-! ## Scratchpad lines by offset (R183) -/

/-- What a command reads at a scratchpad offset: reached without a page, so DFMT is RAW (R35, R183). -/
def scratchLine (s : State) (off : Nat) : Line :=
  let pl := placeScratch s.cur off
  yieldLine (linePoisoned s.mem pl) false kRAW (clearLine s 0 pl)

/-- The line as a merge finds it. -/
def scratchStored (s : State) (off : Nat) : Line :=
  let l := clearLine s 0 (placeScratch s.cur off)
  if isUninit l.tag then ⟨rawTag, 0⟩ else l

def putScratch (s : State) (off : Nat) (l : Line) : State :=
  { s with mem := putLine s.mem (placeScratch s.cur off) 0 l }

/-- The first offset that a command may not use (R183). -/
def scratchEnd : Nat := ringArea

/-- The first of the given line offsets, in ascending order, that lies outside the span of R183 decides the fault. -/
def linesFault (ls : List Nat) : Option Flt :=
  match (ls.filter (fun o => decide (scratchEnd ≤ o))).min? with
  | none => none
  | some o => some (flt (if o < scratchSize then cPRIV else cPAGE) (BitVec.ofNat 64 o))

/-- A scratchpad offset that is not a multiple of 128 (R183). -/
def offsetFault (w : Word) : Option Flt := if w.toNat % 128 = 0 then none else some (flt cALIGN w)

/-- The first fault of a list of checks. -/
def firstFault (l : List (Option Flt)) : Chk Unit :=
  match l.findSome? id with
  | some f => faultNow f
  | none => .ok ()

/-! ## Runs of lines -/

/-- Element e of a run of lines that hold n elements each lies in line e / n (R187). -/
def runLines (base pitch rows depth n : Nat) : List Nat :=
  (List.range rows).flatMap (fun i => (List.range (ceilDiv depth n)).map (fun c => base + 128 * (pitch * i + c)))

/-- The formats of A and B (R187). -/
def aFormat (f : Nat) : Bool := decide (f = kBF16 ∨ f = kE4M3 ∨ f = kE5M2)
def bFormat (f : Nat) : Bool := aFormat f || decide (f = kE3M2 ∨ f = kE2M3 ∨ f = kE2M1 ∨ f = kGI4 ∨ f = kGI3)

/-- The element count of a line's tag. -/
def tagCount (t : Tag) : Nat := lineCount (tagFmt t) (tagFill t)

/-- Offset modulo 2^20 of a dual operand (R190). -/
def dualOff (c : MatrixConfig) (off : Word) : Nat := (off.toNat + c.mtoff.toNat) % 2 ^ 20

/-- The output formats of MDRAIN (R193) and the row formats of MLDC (R192). -/
def rowFormat (f : Nat) : Bool := decide (f = kFP32 ∨ f = kFP16 ∨ f = kBF16) || isFillFmt f

/-- Bytes from one row that MLDC reads to the next: two lines of a 32-bit format, one of the others (R192). -/
def rowPitch (f : Nat) : Nat := if elemBits f = 32 then 256 else 128

/-- Bytes from one row that MDRAIN writes to the next: two lines of FP32, one of every other format (R193). -/
def drainPitch (f : Nat) : Nat := if f = kFP32 then 256 else 128

/-- The lines of `rows` rows of a pitch from an offset. -/
def pitchLines (base pitch rows : Nat) : List Nat :=
  (List.range rows).flatMap (fun i => (List.range (pitch / 128)).map (fun c => base + pitch * i + 128 * c))

/-- The lines of `rows` rows of format f from an offset, as MLDC reads them and as MDRAIN writes them. -/
def rowLines (base f rows : Nat) : List Nat := pitchLines base (rowPitch f) rows
def drainLines (base f rows : Nat) : List Nat := pitchLines base (drainPitch f) rows

/-! ## Shape records (R194) -/

structure Shape where
  reserved : Bool
  d0 : Word
  rm : Nat
  ns : Bool
  conj : Bool
  trans : Bool
  smode : Nat
  cvt : Bool
  ofmt : Nat
  base : Word
  flse : Nat
  ext : List Nat
  sd : List Int
  box : List Nat
  org : List Int
  deriving DecidableEq, Repr

def sint (w : Word) (lo len : Nat) : Int := signedOf len (bitsNat w lo len)

/-- The fields of a record's eight doublewords. SD stands from dimension 1 up. -/
def shapeOf (ds : List Word) : Shape :=
  let d (i : Nat) : Word := ds.getD i 0
  { reserved := decide (bitsNat (d 0) 62 2 ≠ 0 ∨ bitsNat (d 7) 52 12 ≠ 0)
    d0 := d 0
    rm := bitsNat (d 0) 59 3
    ns := (d 0).getLsbD 58
    conj := (d 0).getLsbD 57
    trans := (d 0).getLsbD 56
    smode := bitsNat (d 0) 54 2
    cvt := (d 0).getLsbD 53
    ofmt := bitsNat (d 0) 48 5
    base := ((d 0).extractLsb' 0 48).signExtend 64
    flse := bitsNat (d 5) 32 8
    ext := [bitsNat (d 1) 0 32, bitsNat (d 1) 32 32, bitsNat (d 2) 0 32, bitsNat (d 2) 32 32, bitsNat (d 3) 0 32]
    sd := [sint (d 3) 32 32, sint (d 4) 0 32, sint (d 4) 32 32, sint (d 5) 0 32]
    box := [bitsNat (d 5) 40 12 + 1, bitsNat (d 5) 52 12 + 1, bitsNat (d 7) 16 12 + 1, bitsNat (d 7) 28 12 + 1,
      bitsNat (d 7) 40 12 + 1]
    org := [sint (d 6) 0 16, sint (d 6) 16 16, sint (d 6) 32 16, sint (d 6) 48 16, sint (d 7) 0 16] }

/-- The checks that R194 makes on a record at `va`, in its order. -/
def shapeFault (va : Word) (h : Shape) : Option Flt :=
  if h.reserved || decide (2 ≤ h.smode) || decide (h.rm = 5 ∨ h.rm = 6) || decide (h.base.toNat % 128 ≠ 0) ||
      (!h.cvt && (h.trans || h.conj)) then some (flt cILLEGAL va)
  else if h.cvt && (decide (h.ofmt = kRAW) || isReserved h.ofmt) then some (flt cTYPE h.d0)
  else none

/-! ## The box and its dense layout (R195) -/

def Shape.boxN (h : Shape) (d : Nat) : Nat := h.box.getD d 1
def Shape.extN (h : Shape) (d : Nat) : Nat := h.ext.getD d 0
def Shape.orgN (h : Shape) (d : Nat) : Int := h.org.getD d 0

/-- L, the number of rows, and P. -/
def Shape.len (h : Shape) : Nat := if h.trans then h.boxN 1 else h.boxN 0
def Shape.rows (h : Shape) : Nat := (if h.trans then h.boxN 0 else h.boxN 1) * h.boxN 2 * h.boxN 3 * h.boxN 4
def Shape.perRow (h : Shape) : Nat := if h.cvt then ceilDiv h.len (nativeCount h.ofmt) else h.len

/-- The bytes of the layout. -/
def Shape.size (h : Shape) : Nat := h.rows * h.perRow * 128

/-- The box's tensor rows: those of dimensions 1 to 4, dimension 1 varying fastest. -/
def Shape.tensorRows (h : Shape) : Nat := h.boxN 1 * h.boxN 2 * h.boxN 3 * h.boxN 4

/-- The index along dimension 0 and the tensor row of position l of scratchpad row r. -/
def Shape.locate (h : Shape) (r l : Nat) : Nat × Nat :=
  if h.trans then (r % h.boxN 0, l + h.boxN 1 * (r / h.boxN 0)) else (l, r)

/-- The tensor coordinates x1 to x4 of a tensor row. -/
def Shape.coords (h : Shape) (R : Nat) : List Int :=
  let i1 := R % h.boxN 1
  let q := R / h.boxN 1
  let i2 := q % h.boxN 2
  let q := q / h.boxN 2
  [h.orgN 1 + i1, h.orgN 2 + i2, h.orgN 3 + (q % h.boxN 3 : Nat), h.orgN 4 + (q / h.boxN 3 : Nat)]

/-- The tensor row lies inside the extents of dimensions 1 to 4. -/
def Shape.rowInside (h : Shape) (R : Nat) : Bool :=
  (List.range 4).all (fun k =>
    let x := (h.coords R).getD k 0
    decide (0 ≤ x) && decide (x < h.extN (k + 1)))

/-- Where the tensor row begins. -/
def Shape.rowBase (h : Shape) (R : Nat) : Word :=
  h.base + BitVec.ofInt 64 (128 * ((List.range 4).map (fun k => (h.coords R).getD k 0 * h.sd.getD k 0)).sum)

/-- x0 of an index, when it lies inside the extent. -/
def Shape.inside0 (h : Shape) (i0 : Nat) : Option Nat :=
  let x := h.orgN 0 + i0
  if 0 ≤ x ∧ x < h.extN 0 then some x.toNat else none

/-- The memory line that holds position x0 of a tensor row, n positions to a line. -/
def Shape.lineVa (h : Shape) (n R x0 : Nat) : Word := h.rowBase R + BitVec.ofNat 64 (128 * (x0 / n))

/-- The byte of the layout and the element at which index i0 of a tensor row stands. -/
def Shape.layoutAt (h : Shape) (i0 R : Nat) : Nat × Nat :=
  let (r, l) := if h.trans then (i0 + h.boxN 0 * (R / h.boxN 1), R % h.boxN 1) else (R, i0)
  if h.cvt then (128 * (h.perRow * r + l / nativeCount h.ofmt), l % nativeCount h.ofmt) else (128 * (h.perRow * r + l), 0)

/-- The tensor row and x0 of position l of scratchpad row r; none outside the tensor or past the row. -/
def Shape.source (h : Shape) (r l : Nat) : Option (Nat × Nat) :=
  if h.len ≤ l then none
  else
    let (i0, R) := h.locate r l
    if h.rowInside R then (h.inside0 i0).map (fun x0 => (R, x0)) else none

/-- The sources of the layout line at byte b, by element; one in line mode. -/
def Shape.sources (h : Shape) (b : Nat) : List (Option (Nat × Nat)) :=
  let r := b / 128 / h.perRow
  let c := b / 128 % h.perRow
  if h.cvt then (List.range (nativeCount h.ofmt)).map (fun e => h.source r (c * nativeCount h.ofmt + e))
  else [h.source r c]

/-- The positions x0 of a tensor row that the layout from byte `start` on takes in, in ascending order. -/
def Shape.rowXs (h : Shape) (start R : Nat) : List Nat :=
  if h.rowInside R then
    (List.range (h.boxN 0)).filterMap (fun i0 => if start ≤ (h.layoutAt i0 R).1 then h.inside0 i0 else none)
  else []

/-- Equal neighbours of a sorted list joined. -/
def joinEqual : List Nat → List Nat
  | a :: b :: l => if a = b then joinEqual (b :: l) else a :: joinEqual (b :: l)
  | l => l

/-- The memory side (R180): the lines that the rows' counts place, as ascending addresses. -/
def Shape.lines (h : Shape) (start : Nat) (count : Nat → Nat) : List Nat :=
  joinEqual (ascending ((List.range h.tensorRows).flatMap (fun R =>
    (joinEqual ((h.rowXs start R).map (· / count R))).map (fun m =>
      (h.rowBase R + BitVec.ofNat 64 (128 * m)).toNat))))

/-! ## Record reads (R146, R197) -/

/-- The eight doublewords of a record. -/
def recordOf (v : Nat) : List Word := (List.range 8).map (fun i => BitVec.ofNat 64 (fieldAt 64 v i))

/-- The record at an address as the copy engine will read it: from its cache, or from memory with the core's own stores
made. -/
def peekRecord (s : State) (va : Word) : Option (List Word) :=
  match sfind s.core.records va.toNat with
  | some r => some r
  | none => match checkedPage s .load va 64 with
    | .ok p => some (recordOf (bytesAt (settledView s (p.place va)) (pageVersion s p) (p.place va) 64))
    | .error _ => none

/-- The record read before start (R197): a record that is not cached is read at its home, with the core's own queued stores to
it (R207), and enters the cache. -/
def readRecord (va : Word) (s : State) : Chk (List Word × State) :=
  if va.toNat % 64 ≠ 0 then faultNow (flt cALIGN va)
  else match sfind s.core.records va.toNat with
    | some r => .ok (r, s)
    | none =>
      match checkedPage s .load va 64 with
      | .error e => .error e
      | .ok p =>
        if bytesStalled s (p.place va) 64 then waitNow untimed
        else
        let r := recordOf (bytesAt (ownView s (p.place va)) (pageVersion s p) (p.place va) 64)
        let s := touchPage p va s
        let c := s.core
        let full := decide (64 ≤ c.records.length)
        let kept := if full then c.records.eraseIdx (Config.victim c.free % 64) else c.records
        .ok (r, s.onCore (fun c => { c with
          records := sput kept va.toNat r, free := if full then c.free + 1 else c.free }))

end Sys2Proof.Machine
end

