-- ==== Sys2Proof/Machine/Locate.lean ====
section
/-! DEFINITION. Where the lines of streams, pairs, tangents, gathers and work vectors lie (R124, R129 to R132, R141, R142). -/

namespace Sys2Proof.Machine

/-! ## Streams (R131, R132) -/

def descOf (c : Core) (st : Nat) : BitVec 256 := vat 0 c.desc st

/-- The address of step j of a run (R132). -/
def stepVa (d : BitVec 256) (base : Word) (j : Nat) : Word :=
  if descInner d = 0 then base + BitVec.ofNat 64 j * descStride0 d
  else base + BitVec.ofNat 64 (j / descInner d) * descStride1 d + BitVec.ofNat 64 (j % descInner d) * descStride0 d

/-! ## Pairs and tangents (R124, R130) -/

/-- 2 × G of R124 for a line's tag. -/
def gather2 (t : Tag) : Nat :=
  match tagCount t with
  | 128 => 4
  | 256 => 8
  | 320 => 10
  | 64 => 2
  | _ => 1

/-- The tangents that a stream's words move: none under T = 0 or TOFF = 0. -/
def tangentCount (c : Core) (st : Nat) : Nat := if descToff (descOf c st) = 0 then 0 else c.csr.tmode.toNat

/-- W of R130: the bytes of an element's tangent. -/
def tangentBytes (fmt : Nat) : Nat := 256 / regCount fmt

/-- TA of R130 for tangent t (from 1). -/
def tangentVa (toff : Word) (t g2 : Nat) (la : Word) (w e : Nat) : Word :=
  BitVec.ofNat 64 t * toff + BitVec.ofNat 64 g2 * la + BitVec.ofNat 64 (w * e)

/-- The line and element group of a pair's second entry (R124). -/
def pairSecond (g2 : Nat) (va : Word) (eg : Nat) : Word × Nat :=
  if 4 ≤ g2 then (va, eg + 1) else if g2 = 2 then (va + 128, eg) else (va + 256, eg)

/-! ## Gathers (R129) -/

/-- An active lane: its number, its line, its position. -/
structure Target where
  lane : Nat
  va : Word
  pos : Nat
  deriving DecidableEq, Repr

/-- The element that an index lane names; none for an inactive lane. -/
def indexOf (ix : FlumeEntry) (L : Nat) : Option Int :=
  let v := laneBits kUINT32 ix.data L
  if v = 2 ^ 32 - 1 then none
  else some (if tagFmt ix.tag = kINT32 then signedOf 32 v else (v : Int))

/-- The line of element i of a tensor of n native elements. -/
def elementLine (e : Word) (n : Nat) (i : Int) : Word := e + BitVec.ofInt 64 (128 * (i / n))

/-- The active lanes of an index entry, for a format of n native elements and m lanes. -/
def targets (ix : FlumeEntry) (e : Word) (n m : Nat) : List Target :=
  (List.range m).filterMap (fun L => (indexOf ix L).map (fun i => ⟨L, elementLine e n i, (i % n).toNat⟩))

/-- The native counts of R24, descending. -/
def nativeCounts : List Nat := [320, 256, 128, 64, 32, 16, 8]

/-- The format of a line as a read of it now would find it; none where no load may read it. -/
def lineFmt (s : State) (va : Word) : Option Nat :=
  match checkedPage s .load va 128 with
  | .error _ => none
  | .ok p => some (tagFmt (readLine (settledView s (p.place va)) p va).tag)

/-- n and the lanes of a gather (R129): the native count of the format of the line that holds the lowest active lane's
element, which is the greatest count whose own placing finds a line of it; RAW's where none does (log 33). -/
def gatherCount (s : State) (ix : FlumeEntry) (e : Word) : Nat × Nat :=
  let raw := (nativeCount kRAW, regCount kRAW)
  match (List.range 64).findSome? (indexOf ix) with
  | none => raw
  | some i => (nativeCounts.findSome? (fun n => match lineFmt s (elementLine e n i) with
      | some f => if nativeCount f = n then some (n, regCount f) else none
      | none => none)).getD raw

/-! ## Work vectors (R141, R142) -/

def entryCount (e : FlumeEntry) : Nat := e.count.getD (regCount (tagFmt e.tag))

/-- A field of a header, from its line. -/
def headerField (d : LineBits) (o n : Nat) : Nat := bitsNat d (8 * o) (8 * n)

/-- Elements of a line for a payload format. -/
def payloadPer (f : Nat) : Nat := 1024 / elemBits f

/-- The payload lines that `fit` elements from element `old` on touch, by number. -/
def payloadTouched (f old fit : Nat) : List Nat :=
  let n := payloadPer f
  if fit = 0 then [] else (List.range ((old + fit - 1) / n + 1 - old / n)).map (· + old / n)

def payloadVa (head : Word) (i : Nat) : Word := addVa head (128 + 128 * i)

/-- How many of a group's elements the capacity has room for (R142). -/
def wappFit (count capn old : Nat) : Nat := min count (capn - old)

/-! ## Lines that an A word will reach, as far as they can be told before it starts (R16) -/

/-- `n` lines from an address. -/
def lineRun (n : Nat) (va : Word) : List Word := (List.range n).map (fun k => va + BitVec.ofNat 64 (128 * k))

/-- The values of 2 × G (R124). -/
def gatherFactors : List Nat := [1, 2, 4, 8, 10]

/-- The tangent lines of registers that lie at some of the given lines and element groups, whatever the formats of the lines. -/
def tangentRuns (c : Core) (st : Nat) (las : List Word) (egs : List Nat) : List Word :=
  (List.range (tangentCount c st)).flatMap (fun t => las.flatMap (fun la => gatherFactors.flatMap (fun g => egs.flatMap (fun k =>
    lineRun 2 (tangentVa (descToff (descOf c st)) (t + 1) g la 256 k)))))

/-- The lines of one register, or of a pair, at an address, with their tangents. -/
def registerVas (c : Core) (st : Nat) (va : Word) (eg : Nat) (pair : Bool) : List Word :=
  if pair then lineRun 4 va ++ tangentRuns c st (lineRun 3 va) [eg, eg + 1] else lineRun 2 va ++ tangentRuns c st [va] [eg]

/-- The lines of step j of a run. -/
def stepVas (c : Core) (st : Nat) (base : Word) (j : Nat) : List Word :=
  let d := descOf c st
  registerVas c st (stepVa d base j) (descEg d) (descPair d)

/-- The lines of a gather or scatter whose format has n native elements and m lanes, with their tangents. -/
def targetVas (c : Core) (st : Nat) (ix : FlumeEntry) (e : Word) (n m : Nat) : List Word :=
  let ts := targets ix e n m
  ts.map Target.va ++ (List.range (tangentCount c st)).flatMap (fun t => gatherFactors.flatMap (fun g => ts.map (fun q =>
    pageBase (tangentVa (descToff (descOf c st)) (t + 1) g q.va (256 / m) q.pos) 128)))

/-- `n` bytes at an address, as a read of them now would find them; none where no load may read them. -/
def peekBytes (s : State) (va : Word) (n : Nat) : Option Nat :=
  match checkedPage s .load va 1 with
  | .error _ => none
  | .ok p => some (bytesAt (settledView s (p.place va)) (pageVersion s p) (p.place va) n)

/-- The lines of a group of WAPP: of its table entry, its header, and the payload from the TAIL that stands there now. -/
def groupVas (s : State) (at_ : Word) (en : FlumeEntry) : List Word :=
  match peekBytes s at_ 8 with
  | none => [at_]
  | some 0 => [at_]
  | some h =>
    let head : Word := BitVec.ofNat 64 h
    match peekBytes s head 128 with
    | none => [at_, head]
    | some v =>
      let d : LineBits := BitVec.ofNat 1024 v
      let old := headerField d 0 8
      [at_, head] ++ (payloadTouched (tagFmt (BitVec.ofNat 32 (headerField d 24 4))) old
        (wappFit (entryCount en) (headerField d 8 8) old)).map (payloadVa head)

/-- The words of the largest range that a FESET can set: those of a scratchpad (R122). -/
def fesetMost : Nat := scratchSize / 8

/-- An address in each tile that n words from an address touch; none where the word faults (R122). -/
def fesetVas (e : Word) (n : Nat) : List Word :=
  if n = 0 ∨ fesetMost < n then []
  else e :: (List.range ((e.toNat % 4096 + 8 * n - 1) / 4096)).map (fun k => pageBase e 4096 + BitVec.ofNat 64 (4096 * (k + 1)))

end Sys2Proof.Machine
end

