-- ==== Sys2Proof/Machine/Claims.lean ====
section
/-! DEFINITION. Stream descriptors and steps (R131, R132), the addresses of A words (R116), the tiles that M and Y words
claim and what waits on a claim (R16), and the registers that an MXV locks (R151). -/

namespace Sys2Proof.Machine

/-! ## Streams (R131, R132) -/

def runOf (c : Core) (st : Nat) : StreamRun := vat StreamRun.idle c.runs st

/-! ## Addresses of A words (R116) -/

/-- EA of a word: base, offset and SO (R116). -/
def eaOf (c : Core) (x : Ctx) : Instr → Option Word
  | .lds _ b _ _ o => some (areg c b + extSigned x.ext o + x.so)
  | .sts _ b _ o => some (areg c b + extSigned x.ext o + x.so)
  | .lda _ b o => some (areg c b + extSigned x.ext o + x.so)
  | .sta _ b o => some (areg c b + extSigned x.ext o + x.so)
  | .ldf _ b o => some (areg c b + extSigned x.ext o + x.so)
  | .ste _ b o => some (areg c b + extSigned x.ext o + x.so)
  | .ldft _ b o => some (areg c b + extSigned x.ext o + x.so)
  | .vld _ b _ _ o => some (areg c b + 128 * extSigned x.ext o + x.so)
  | .vldp _ b _ _ o => some (areg c b + 128 * extSigned x.ext o + x.so)
  | .vst _ b _ _ o => some (areg c b + 128 * extSigned x.ext o + x.so)
  | .vstp _ b _ o => some (areg c b + 128 * extSigned x.ext o + x.so)
  | .vldc _ b _ _ o => some (areg c b + 128 * extSigned x.ext o + x.so)
  | .pref _ b _ o => some (areg c b + 128 * extSigned x.ext o + x.so)
  | .vldx _ b _ _ => some (areg c b + x.so)
  | .vstx _ b _ _ => some (areg c b + x.so)
  | .feset a _ _ => some (areg c a + x.so)
  | .strdef _ b => some (areg c b + x.so)
  | .strgo _ b _ => some (areg c b + x.so)
  | .strsink _ b _ => some (areg c b + x.so)
  | .aadd _ b _ _ => some (areg c b + x.so)
  | .amin _ b _ _ => some (areg c b + x.so)
  | .amax _ b _ _ => some (areg c b + x.so)
  | .aand _ b _ _ => some (areg c b + x.so)
  | .aor _ b _ _ => some (areg c b + x.so)
  | .axor _ b _ _ => some (areg c b + x.so)
  | .aswap _ b _ _ => some (areg c b + x.so)
  | .acas _ b _ _ _ => some (areg c b + x.so)
  | .acont _ b _ _ _ => some (areg c b + x.so)
  | .wapp _ b _ _ => some (areg c b + x.so)
  | .ownwait a _ => some (areg c a + x.so)
  | _ => none

/-- EA, 0 for a word without one. -/
def ea (c : Core) (x : Ctx) (i : Instr) : Word := (eaOf c x i).getD 0

/-- The address arithmetic of R119: the a register written and its value. -/
def addressResult (c : Core) (x : Ctx) : Instr → Option (BitVec 5 × Word)
  | .adda d a b => some (d, areg c a + areg c b)
  | .suba d a b => some (d, areg c a - areg c b)
  | .addai d a i => some (d, areg c a + extSigned x.ext i)
  | .shlai d a n => some (d, areg c a <<< n.toNat)
  | .mulai d a i => some (d, areg c a * extSigned x.ext i)
  | .andai d a i => some (d, areg c a &&& extSigned x.ext i)
  | .movsa d _ => some (d, cap x 0)
  | _ => none

/-- The a registers that the address arithmetic reads. -/
def addressSources : Instr → List (BitVec 5)
  | .adda _ a b => [a, b]
  | .suba _ a b => [a, b]
  | .addai _ a _ => [a]
  | .shlai _ a _ => [a]
  | .mulai _ a _ => [a]
  | .andai _ a _ => [a]
  | _ => []

/-- The a register that a word writes with data of memory. -/
def loadedAddress : Instr → Option (BitVec 5)
  | .lda d _ _ => some d
  | .wapp d _ _ _ => some d
  | _ => none

/-- The a register from which an A word forms its address. -/
def addressBase : Instr → Option (BitVec 5)
  | .lds _ b _ _ _ => some b
  | .sts _ b _ _ => some b
  | .lda _ b _ => some b
  | .sta _ b _ => some b
  | .ldf _ b _ => some b
  | .ste _ b _ => some b
  | .ldft _ b _ => some b
  | .vld _ b _ _ _ => some b
  | .vldp _ b _ _ _ => some b
  | .vst _ b _ _ _ => some b
  | .vstp _ b _ _ => some b
  | .vldc _ b _ _ _ => some b
  | .vldx _ b _ _ => some b
  | .vstx _ b _ _ => some b
  | .feset a _ _ => some a
  | .strdef _ b => some b
  | .strgo _ b _ => some b
  | .strsink _ b _ => some b
  | .aadd _ b _ _ => some b
  | .amin _ b _ _ => some b
  | .amax _ b _ _ => some b
  | .aand _ b _ _ => some b
  | .aor _ b _ _ => some b
  | .axor _ b _ _ => some b
  | .aswap _ b _ _ => some b
  | .acas _ b _ _ _ => some b
  | .acont _ b _ _ _ => some b
  | .wapp _ b _ _ => some b
  | _ => none

/-! ## What a command waits for -/

/-- At most this many steps of a run are looked at one by one; more are taken to meet the tiles. -/
def stepsLooked : Nat := 4096

/-- The addresses of lines that an A word may access, as far as they are known before it starts; none where they are not. `defs` are
the streams whose descriptor an earlier word may still change; `head` says that the word stands at the ring's head, so that the
entries it pops are the first of its flumes. -/
def wordVas (s : State) (c : Core) (defs : List Nat) (head : Bool) (x : Ctx) (i : Instr) : Option (List Word) :=
  let e := ea c x i
  let entry (q : BitVec 3) : Option FlumeEntry := if head then (vat [] c.flumes q.toNat).head? else none
  let inStream (st : BitVec 4) (vas : List Word) : Option (List Word) :=
    if c.csr.tmode ≠ 0 ∧ defs.contains st.toNat then none else some vas
  let steps (st : BitVec 4) : Option (List Word) :=
    if defs.contains st.toNat ∨ stepsLooked < (cap x 0).toNat then none
    else some ((List.range (cap x 0).toNat).flatMap (stepVas c st.toNat e))
  match i with
  | .lds .. | .sts .. | .lda .. | .sta .. | .ldf .. | .ste .. | .ldft .. => some [e]
  | .aadd .. | .amin .. | .amax .. | .aand .. | .aor .. | .axor .. | .aswap .. | .acas .. | .strdef .. => some [e]
  | .acont .. => some [e, cap x 2]
  | .vld _ _ st eg _ => inStream st (registerVas c st.toNat e eg.toNat false)
  | .vldc _ _ st eg _ => inStream st (registerVas c st.toNat e eg.toNat false)
  | .vldp _ _ st eg _ => inStream st (registerVas c st.toNat e eg.toNat true)
  | .vst _ _ st eg _ => inStream st (registerVas c st.toNat e eg.toNat false)
  | .vstp _ _ st _ => inStream st (e :: tangentRuns c st.toNat [e] [0, 1])
  | .vldx _ _ st ix => match entry ix with
    | none => none
    | some ie => let (n, m) := gatherCount s ie e; inStream st (targetVas c st.toNat ie e n m)
  | .vstx q _ st ix => match entry q, entry ix with
    | some en, some ie => inStream st (targetVas c st.toNat ie e (nativeCount (tagFmt en.tag)) (regCount (tagFmt en.tag)))
    | _, _ => none
  | .wapp _ _ q v =>
    let n := if v = 0 then 4 else 1
    let es := if head then (vat [] c.flumes q.toNat).take n else []
    if es.length < n then none else some (es.zipIdx.flatMap (fun t => groupVas s (addVa e (8 * t.2)) t.1))
  | .feset .. => some (fesetVas e (cap x 0).toNat)
  | .strgo st _ _ => steps st
  | .strsink st _ _ => steps st
  | _ => some []

/-- An address lies in one of the given tiles of the core's own scratchpad. -/
def meetsTiles (s : State) (tiles : List Nat) (va : Word) : Bool :=
  canonical va && !inSaveWindow va &&
    (match findPage s (accessor s) va with
     | none => false
     | some p =>
       let pl := p.place va
       isScratch pl && decide (scratchCore pl = s.cur) && tiles.contains (scratchOff pl / 4096))

/-- What is known of the a registers after a word of the A ring that has not started: the core with the values that can
be worked out, and the registers that cannot be known. -/
def afterWord (i : Instr) (x : Ctx) (c : Core) (unknown : List (BitVec 5)) : Core × List (BitVec 5) :=
  match addressResult c x i with
  | some (d, v) =>
    if (addressSources i).any unknown.contains then (c, d :: unknown)
    else (setA c d v, unknown.filter (· ≠ d))
  | none => match loadedAddress i with
    | some d => (c, d :: unknown)
    | none => (c, unknown)

/-- The stream whose descriptor a word changes. -/
def definesStream : Instr → List Nat
  | .strdef st _ => [st.toNat]
  | _ => []

/-- Some A word of the ring, earlier than `ord`, may still access one of the tiles. -/
def wordsMeet (s : State) (ord : Nat) (tiles : List Nat) : Core → List (BitVec 5) → List Nat → Bool → List RingEntry → Bool
  | _, _, _, _, [] => false
  | c, unknown, defs, head, r :: rs =>
    if ord ≤ r.ord then false
    else match placedInstr r.word with
      | none => wordsMeet s ord tiles c unknown defs false rs
      | some i =>
        let x := ctxOf s.core .A r
        let known := match addressBase i with | some b => !unknown.contains b | none => true
        let here := match wordVas s c defs head x i with
          | none => true
          | some vas => decide (vas ≠ []) && (!known || vas.any (meetsTiles s tiles))
        here || (let (c', u) := afterWord i x c unknown
                 wordsMeet s ord tiles c' u (definesStream i ++ defs) false rs)

/-- Some step of a generator or sink, earlier than `ord`, may still access one of the tiles. -/
def stepsMeet (s : State) (ord : Nat) (tiles : List Nat) : Bool :=
  !inTrap s.core && (List.range 16).any (fun st =>
    let r := runOf s.core st
    decide (r.kind ≠ .none) && decide (r.ord < ord) &&
      (decide (stepsLooked < r.left.toNat) || (List.range r.left.toNat).any (fun k =>
        (stepVas s.core st r.base (r.next.toNat + k)).any (meetsTiles s tiles))))

/-- Some issued access, earlier than `ord`, has still to be performed at one of the tiles. -/
def flightsMeet (s : State) (ord : Nat) (tiles : List Nat) : Bool :=
  let meets (pl : Nat) : Bool := isScratch pl && decide (scratchCore pl = s.cur) && tiles.contains (scratchOff pl / 4096)
  s.core.flight.any (fun f => decide (f.ord < ord) && (match f.work with
    | .load r => r.todo.any (fun q => meets (q.2.place q.1))
    | .stores l => l.any (fun q => meets q.place)
    | .barrier _ => false))

/-- R16: a command does not start until every thread access earlier in split order to its tiles has been performed at core
scope. -/
def threadHolds (s : State) (ord : Nat) (tiles : List Nat) : Bool :=
  !tiles.isEmpty && (flightsMeet s ord tiles || wordsMeet s ord tiles s.core [] [] true (activeRings s.core).a.entries ||
    stepsMeet s ord tiles)

/-! ## Tiles that commands use (R16) -/

def tilesBetween (lo hi : Nat) : List Nat :=
  if lo < hi then (List.range ((hi - 1) / 4096 + 1 - lo / 4096)).map (· + lo / 4096) else []

/-- The tiles of line offsets that lie within the scratchpad. -/
def tilesOf (ls : List Nat) : List Nat := ((ls.filter (fun o => decide (o < scratchSize))).map (· / 4096)).eraseDups

/-- The element count by which an unstarted command's operand is placed: its first line's; or 64, which claims the most
lines, where that line is no operand yet or an earlier command or access may still write it: `early` of its offset. -/
def claimCount (s : State) (early : Nat → Bool) (ok : Nat → Bool) (off : Nat) : Nat :=
  let t := (scratchLine s off).tag
  if !early off && ok (tagFmt t) then tagCount t else 64

/-- The scratchpad lines that an M word reads or writes under a configuration; `early` says that the line at an offset may still
change before the word starts. -/
def matrixLines (s : State) (early : Nat → Bool) (m : MatrixConfig) (dual : Nat) (caps : List Word) (i : Instr) : List Nat :=
  let f := caps.getD 0 0
  let g := caps.getD 1 0
  match i with
  | .mma _ _ _ _ _ =>
    let a (off : Nat) := runLines off m.apitch.toNat m.mr.toNat m.k.toNat (claimCount s early aFormat off)
    let b (off : Nat) := runLines off m.bpitch.toNat m.nc.toNat m.k.toNat (claimCount s early bFormat off)
    a f.toNat ++ b g.toNat ++ (if dual = 0 then [] else a (dualOff m f) ++ b (dualOff m g))
  | .mldc _ _ _ _ _ => rowLines f.toNat (if early f.toNat then kFP32 else tagFmt (scratchLine s f.toNat).tag) m.mr.toNat
  | .mdrain _ _ _ _ _ =>
    let o := bitsNat g 0 5
    drainLines f.toNat o m.mr.toNat ++ (if g.getLsbD 9 then drainLines (bitsNat g 44 20) o m.nc.toNat else [])
  | _ => []

/-- For a word that starts: nothing earlier changes its lines any more. -/
def settledLines : Nat → Bool := fun _ => false

/-- The tiles that a Y word claims. -/
def copyTiles (s : State) (caps : List Word) (i : Instr) : List Nat :=
  let e := caps.getD 0 0
  let f := caps.getD 1 0
  let g := caps.getD 2 0
  match i with
  | .cpy _ _ _ _ _ =>
    match peekRecord s e with
    | none => []
    | some r =>
      let off := bitsNat f 0 20
      tilesBetween (off + bitsNat g 0 48) (min (off + (shapeOf r).size) scratchSize)
  | .cpyz _ _ _ _ _ => tilesBetween e.toNat (min (e.toNat + f.toNat) scratchSize)
  | .cpyq _ _ _ => tilesBetween e.toNat (min (e.toNat + 32 + 32 * s.core.ycmds.length) scratchSize)
  | _ => []

/-- A command earlier than the word at `ord` is outstanding. -/
def commandsBefore (c : Core) (ord : Nat) : Bool :=
  c.mcmd.isSome || !c.ycmds.isEmpty || ((activeRings c).m.entries ++ (activeRings c).y.entries).any (fun r => decide (r.ord < ord))

/-- A line of the scratchpad may still be written by a command or a thread access earlier than the word at `ord`. -/
def mayChange (s : State) (ord off : Nat) : Bool := commandsBefore s.core ord || threadHolds s ord [off / 4096]

/-- The claims of an M ring's words: place in split order, tiles; each word under the configuration that the MCFG words
before it leave (R186). A word that FILL restored has none (R312). -/
def matrixClaims (s : State) : MatrixConfig → List RingEntry → List (Nat × List Nat)
  | _, [] => []
  | m, r :: rs =>
    match placedInstr r.word with
    | none => matrixClaims s m rs
    | some (.mcfg _ _) =>
      let f := r.caps.getD 0 0
      let g := r.caps.getD 1 0
      matrixClaims s (if mcfgRefused f g then m else mcfgOf f g) rs
    | some i =>
      if r.claims then
        (r.ord, tilesOf (matrixLines s (mayChange s r.ord) m (dualOf r.pfx) r.caps i)) :: matrixClaims s m rs
      else matrixClaims s m rs

def copyClaims (s : State) (rs : List RingEntry) : List (Nat × List Nat) :=
  (rs.filter RingEntry.claims).filterMap (fun r => (placedInstr r.word).map (fun i => (r.ord, copyTiles s r.caps i)))

/-- Every outstanding claim of the current core (R16). -/
def claimsOf (s : State) : List (Nat × List Nat) :=
  let c := s.core
  (match c.mcmd with | some m => [(m.ord, m.claims)] | none => []) ++
  c.ycmds.map (fun y => (y.ord, y.claims)) ++
  [c.user, c.trap].flatMap (fun q => matrixClaims s c.mcfg q.m.entries ++ copyClaims s q.y.entries)

/-- A claim holds an access of a word to a scratchpad place (R16): of the word's own core, those earlier in split order; of a
cluster neighbour, those that were outstanding when the word's access reached the cluster's tiles. -/
def sluiceHolds (s : State) (x : Ctx) (pl : Nat) : Bool :=
  if !isScratch pl then false
  else
    let t := scratchOff pl / 4096
    let h := scratchCore pl
    if h = s.cur then (claimsOf s).any (fun c => decide (c.1 < x.ord) && c.2.contains t)
    else (claimsOf (switchTo s h)).any (fun c => c.2.contains t &&
      (match x.reached with | some r => r.contains (h, c.1) | none => true))

/-- The claims outstanding on the other cores of the cluster, by core and place in split order. -/
def clusterClaims (s : State) : List (Nat × Nat) :=
  (((List.range 8).map (· + s.cur / 8 * 8)).filter (· ≠ s.cur)).flatMap (fun n =>
    (claimsOf (switchTo s n)).map (fun c => (n, c.1)))

/-- The wait for the sluice: DETAIL 3 with the EA of the access (R299). -/
def sluiceWait {α : Type} (s : State) (e : Word) : Chk α := .error (.sluice ⟨3, e⟩ (clusterClaims s))

/-! ## Locked registers (R151, R191) -/

/-- The physical batch registers of an MXV, by its captured s[g] with RRB in [63:59] (R349). -/
def batchRegs (g : Word) : List Nat :=
  (List.range (bitsNat g 6 3 + 1)).map (fun k =>
    (physReg (g.extractLsb' 59 5) (BitVec.ofNat 6 (bitsNat g 0 6 + k))).toNat)

/-- The registers locked for a word of place `ord`. -/
def lockedFor (c : Core) (ord : Nat) : List Nat :=
  (match c.mcmd with | some m => if m.ord < ord then m.locks else [] | none => []) ++
  (activeRings c).m.entries.flatMap (fun r =>
    if ord ≤ r.ord then []
    else match placedInstr r.word with
      | some (.mxv _ _ _ _ _) => batchRegs (r.caps.getD 1 0)
      | _ => [])

end Sys2Proof.Machine
end

