-- ==== Sys2Proof/Machine/Flight.lean ====
section
/-! DEFINITION. Loads of registers and gathers as readers of lines (R38, R123, R124, R129, R130), and the accesses in flight:
what holds them, their parts, and how they are performed (R117, R118, R135, R143, R207 to R212). -/

namespace Sys2Proof.Machine

/-! ## Registers from lines (R38) -/

/-- A register load from this line needs the next line too. -/
def twoLines (t : Tag) : Bool := decide (tagCount t < 64)

/-- The decrement of a line's sub-block; a sub-block that the line does not have has none. -/
def decAt (t : Tag) (k : Nat) : Nat := if k < 8 then tagDec t k else 0

/-- The register tag and bits from one line, from element s0 (R38); true where s0 lies past the line. -/
def oneLineReg (l : Line) (s0 : Nat) : VReg × Bool :=
  let f := tagFmt l.tag
  let S := subSize f (tagFill l.tag)
  let past := decide (tagCount l.tag ≤ s0)
  let tag := if tagVc l.tag = vcInvalid then l.tag
    else formRegTag (mkTag f (tagVc l.tag) false (tagLse l.tag)
      (mkSub ((List.range 8).map (fun g => decAt l.tag ((s0 + 8 * g) / S)))))
  let lanes := if past then [] else (List.range 64).map (fun L => lineElemBits f l.data (s0 + L))
  (⟨packReg f lanes, tag⟩, past)

/-- The register tag and bits from two lines (R38). -/
def twoLineReg (l m : Line) (s0 : Nat) : VReg × Bool :=
  let f := tagFmt l.tag
  let tag : Tag :=
    if tagVc l.tag = vcInvalid then l.tag
    else if tagVc m.tag = vcInvalid then mkInvalid f (tagDetail m.tag)
    else if f ≠ tagFmt m.tag ∨ tagVc l.tag ≠ tagVc m.tag then mkInvalid f dTAGSPLIT
    else l.tag
  let past := decide (s0 ≠ 0)
  (⟨if past then 0 else m.data ++ l.data, tag⟩, past)

/-! ## Loads over a reader of lines. The same code collects the lines of a load for the checks of R116 and forms its entries. -/

/-- A reader of the line at an address of a range that begins at another (R308). -/
abbrev LineReader (σ : Type) := Word → Word → σ → Chk (Line × σ)

/-- A loaded register with what its tangents need: 2 × G, the line, the element; `past` where the element lies past the line. -/
structure Loaded where
  reg : VReg
  g2 : Nat
  la : Word
  e : Nat
  past : Bool
  deriving DecidableEq, Repr

/-- One register load (R38), of a range that begins at `base`. -/
def loadReg {σ : Type} (rd : LineReader σ) (base va : Word) (eg : Nat) (a : σ) : Chk (Loaded × σ) := do
  let (l, a) ← rd base va a
  if twoLines l.tag then
    let (m, a) ← rd base (va + 128) a
    let (r, past) := twoLineReg l m (64 * eg)
    return (⟨r, gather2 l.tag, va, 64 * eg, past⟩, a)
  else
    let (r, past) := oneLineReg l (64 * eg)
    return (⟨r, gather2 l.tag, va, 64 * eg, past⟩, a)

/-! ## Tangents (R130) -/

/-- The canonical NaN of a tangent format's slot. -/
def tangentNaN (fmt : Nat) : Nat :=
  match kindOf (tangentFmt fmt) with
  | .float f => f.nanCode
  | .complex f => f.nanCode + f.nanCode * 2 ^ f.width
  | _ => 0

/-- A run of n slots of w bytes that all hold v. -/
def fillSlots (w v : Nat) : Nat → Nat
  | 0 => 0
  | n + 1 => v + 2 ^ (8 * w) * fillSlots w v n

/-- The tangent bits that a tangent line gives: NaN for an INVALID line (R130). -/
def tangentLine (fmt : Nat) (l : Line) : LineBits :=
  if tagVc l.tag = vcInvalid then BitVec.ofNat 1024 (fillSlots (tangentBytes fmt) (tangentNaN fmt) (128 / tangentBytes fmt))
  else l.data

/-- A tangent block of two lines. -/
def tangentBlock {σ : Type} (rd : LineReader σ) (fmt : Nat) (ta : Word) (a : σ) : Chk (RegBits × σ) := do
  let (l, a) ← rd ta ta a
  let (m, a) ← rd ta (ta + 128) a
  return (tangentLine fmt m ++ tangentLine fmt l, a)

/-- Tangent t of each loaded register. -/
def tangentsOf {σ : Type} (rd : LineReader σ) (toff : Word) (t : Nat) : List Loaded → σ → Chk (List RegBits × σ)
  | [], a => .ok ([], a)
  | l :: ls, a => do
    let f := tagFmt l.reg.tag
    let (b, a) ← tangentBlock rd f (tangentVa toff t l.g2 l.la (tangentBytes f) l.e) a
    let (bs, a) ← tangentsOf rd toff t ls a
    return (b :: bs, a)

/-- Tangents 1 to n of each loaded register, by t and then by register. -/
def allTangents {σ : Type} (rd : LineReader σ) (toff : Word) (ls : List Loaded) : Nat → σ → Chk (List (List RegBits) × σ)
  | 0, a => .ok (ls.map (fun _ => []), a)
  | n + 1, a => do
    let (before, a) ← allTangents rd toff ls n a
    let (here, a) ← tangentsOf rd toff (n + 1) ls a
    return (List.zipWith (fun b h => b ++ [h]) before here, a)

/-- The flume entry of a register and its tangents, zero where none are moved (R11, R130). -/
def entryFor (T : Nat) (r : VReg) (ts : List RegBits) : FlumeEntry :=
  { data := r.data, tag := r.tag, poison := decide (tagVc r.tag = vcInvalid ∧ tagDetail r.tag = dPOISON),
    tangents := (List.range T).map (fun t => ts.getD t 0), count := none }

/-- The entries of a register load, one or a pair (R123, R124), and whether an element lay past its line. -/
def loadEntries {σ : Type} (rd : LineReader σ) (T : Nat) (va : Word) (eg : Nat) (pair : Bool) (tangents : Nat) (toff : Word)
    (a : σ) : Chk (List FlumeEntry × Bool × σ) := do
  let (l, a) ← loadReg rd va va eg a
  let (ls, a) ← (if !pair then .ok ([l], a)
    else do
      let q := pairSecond l.g2 va eg
      let (m, a) ← loadReg rd va q.1 q.2 a
      return ([l, m], a) : Chk (List Loaded × σ))
  let (ts, a) ← allTangents rd toff ls tangents a
  return (List.zipWith (fun l t => entryFor T l.reg t) ls ts, ls.any Loaded.past, a)

/-! ## Gathers (R129) -/

/-- Distinct lines in ascending address. -/
def distinctLines (vas : List Word) : List Word := ((ascending (vas.map BitVec.toNat)).eraseDups).map (BitVec.ofNat 64)

/-- The address from which a line of a gather or scatter is judged to run on (R308): the word's EA for the lines next behind it,
else the line's own. -/
def rangeStart (e va : Word) : Word := if (va - e).toNat < 512 then e else va

/-- Lines of a gather at `e` read in the order given. -/
def readLines {σ : Type} (rd : LineReader σ) (e : Word) : List Word → σ → Chk (List (Word × Line) × σ)
  | [], a => .ok ([], a)
  | va :: vas, a => do
    let (l, a) ← rd (rangeStart e va) va a
    let (ls, a) ← readLines rd e vas a
    return ((va, l) :: ls, a)

def lineFor (ls : List (Word × Line)) (va : Word) : Line :=
  match ls.find? (fun q => q.1 == va) with | some q => q.2 | none => ⟨rawTag, 0⟩

/-- The register of a gather whose lanes were placed for n native elements (R129); without an active lane no line gives a
format, and the tag is a free value (log 33). Where an active lane's line is INVALID, its detail stands before TAGSPLIT
(log 75). -/
def gatherReg (t0 : Tag) (n : Nat) (ls : List (Word × Line)) (ts : List Target) : VReg :=
  match ts with
  | [] => ⟨0, t0⟩
  | lowest :: _ =>
    let low := (lineFor ls lowest.va).tag
    let f := tagFmt low
    let tagOf (t : Target) : Tag := (lineFor ls t.va).tag
    let decOf (t : Target) : Nat := decAt (tagOf t) (t.pos / subSize f (tagFill (tagOf t)))
    let bad := ts.find? (fun t => tagVc (tagOf t) == vcInvalid)
    let differs := ts.any (fun t => decide (tagFmt (tagOf t) ≠ f ∨ tagVc (tagOf t) ≠ tagVc low ∨
      tagLse (tagOf t) ≠ tagLse low))
    let group (g : Nat) : List Target := ts.filter (fun t => decide (t.lane / 8 = g))
    let decs := (List.range 8).map (fun g => match group g with | [] => 0 | t :: _ => decOf t)
    let mixed := (List.range 8).any (fun g => (group g).any (fun t => decide (decOf t ≠ decs.getD g 0)))
    let tag : Tag := match bad with
      | some t => mkInvalid f (tagDetail (tagOf t))
      | none =>
        if differs || (decide (regCount f = 64) && mixed) || decide (nativeCount f ≠ n) then
          mkInvalid f dTAGSPLIT
        else formRegTag (mkTag f (tagVc low) false (tagLse low) (if regCount f = 64 then mkSub decs else 0))
    let lane (L : Nat) : Nat := match ts.find? (fun t => t.lane == L) with
      | some t => lineElemBits f (lineFor ls t.va).data t.pos
      | none => 0
    ⟨packReg f ((List.range (regCount f)).map lane), tag⟩

/-- The address of a lane's tangent t, by its own line's G (R124, R130). -/
def laneTangent (toff : Word) (fmt t : Nat) (tag : Tag) (q : Target) : Word :=
  tangentVa toff t (gather2 tag) q.va (tangentBytes fmt) q.pos

/-- Tangents 1 to n of a gathered register, the lines of each t in ascending address (R116, R130). -/
def gatherShadows {σ : Type} (rd : LineReader σ) (e toff : Word) (fmt : Nat) (ls : List (Word × Line)) (ts : List Target) :
    Nat → σ → Chk (List RegBits × σ)
  | 0, a => .ok ([], a)
  | n + 1, a => do
    let (before, a) ← gatherShadows rd e toff fmt ls ts n a
    let at_ (q : Target) : Word := laneTangent toff fmt (n + 1) (lineFor ls q.va).tag q
    let (tl, a) ← readLines rd e (distinctLines (ts.map (fun q => pageBase (at_ q) 128))) a
    let w := tangentBytes fmt
    let lane (L : Nat) : Nat := match ts.find? (fun t => t.lane == L) with
      | some q => bitsNat (tangentLine fmt (lineFor tl (pageBase (at_ q) 128))) (8 * ((at_ q).toNat % 128)) (8 * w)
      | none => 0
    return (before ++ [BitVec.ofNat 2048 (packSlots (regCount fmt) ((List.range (regCount fmt)).map lane))], a)

/-- The entry of a gather (R129). -/
def gatherEntry {σ : Type} (rd : LineReader σ) (fresh : σ → Tag × σ) (T : Nat) (ix : FlumeEntry) (va : Word) (n m tangents : Nat) (toff : Word)
    (a : σ) : Chk (FlumeEntry × σ) := do
  let ts := targets ix va n m
  let (ls, a) ← readLines rd va (distinctLines (ts.map Target.va)) a
  let (t0, a) := if ts.isEmpty then fresh a else (rawTag, a)
  let r := gatherReg t0 n ls ts
  let (sh, a) ← gatherShadows rd va toff (tagFmt r.tag) ls ts tangents a
  return (entryFor T r sh, a)

/-- What a load yields over a reader: its entries, and RANGE. -/
def loadOver {σ : Type} (rd : LineReader σ) (fresh : σ → Tag × σ) (T : Nat) (r : Reading) (a : σ) : Chk (List FlumeEntry × Bool × σ) :=
  match r.kind with
  | .reg eg pair => loadEntries rd T r.va eg pair r.tangents r.toff a
  | .gather ix n m => do
    let (e, a) ← gatherEntry rd fresh T ix r.va n m r.tangents r.toff a
    return ([e], false, a)

/-! ## Flumes (R11) -/

/-- Entries that a flume holds under TMODE (R11). -/
def flumeCap (c : Core) : Nat := 16 / (1 + c.csr.tmode.toNat)

def flumeOf (c : Core) (q : Nat) : List FlumeEntry := vat [] c.flumes q
def setFlume (q : Nat) (es : List FlumeEntry) (c : Core) : Core := { c with flumes := vput c.flumes q es }

def flumeWait (q : Nat) : WaitOn := ⟨2, BitVec.ofNat 64 q⟩

/-- The entries of a load. -/
def Reading.entries (r : Reading) : Nat := match r.kind with | .reg _ pair => if pair then 2 else 1 | .gather _ _ _ => 1

/-- The load in flight, where the access is one. -/
def Flight.reading (f : Flight) : Option Reading := match f.work with | .load r => some r | _ => none

/-- The entries of the loads in flight into flume q. -/
def comingTo (c : Core) (q : Nat) : Nat :=
  ((c.flight.filterMap Flight.reading).map (fun r => if r.flume = q then r.entries else 0)).sum

/-- Flume q has room for n entries more, after those of the loads in flight and with `beyond` entries over what it holds. -/
def flumeRoom (c : Core) (q n beyond : Nat) : Bool :=
  decide ((flumeOf c q).length + comingTo c q + n ≤ flumeCap c + beyond)

def pushFlume (q : Nat) (es : List FlumeEntry) (s : State) : State :=
  s.onCore (fun c => setFlume q (flumeOf c q ++ es) c)

/-! ## What holds an access (R118, R132, R135, R143) -/

/-- The run of a stream holds back a word of place `ord` (R132). User runs stand still in handler mode and hold no handler
word back. -/
def runHolds (c : Core) (ord st : Nat) : Bool :=
  !inTrap c && decide ((runOf c st).kind ≠ .none) && decide ((runOf c st).ord ≤ ord)

/-- Steps of earlier generators and sinks still to be performed. -/
def earlierRuns (c : Core) (ord : Nat) : Bool := (List.range 16).any (runHolds c ord)

/-- Earlier sinks alone. -/
def earlierSinks (c : Core) (ord : Nat) : Bool :=
  (List.range 16).any (fun st => runHolds c ord st && decide ((runOf c st).kind = .sink))

/-- An access in flight has still to read or to store. -/
def Flight.busy (f : Flight) : Bool :=
  match f.work with
  | .load r => !r.todo.isEmpty
  | .stores l => !l.isEmpty
  | .barrier _ => false

/-- What holds an access of place `ord` in stream st, a handler's or not: an access of its stream issued before it (R118), or a
barrier that it stands behind. -/
def accessHeld (before : List Flight) (ord : Nat) (trap : Bool) (st : Nat) (load : Bool) : Bool :=
  before.any (fun g => match g.work with
    | .barrier b => decide (g.ord < ord) && (g.trap == trap) && b.behind.getLsbD st && !(b.storesOnly && load)
    | _ => g.busy && decide (g.st = st))

/-- What a barrier of place `ord` waits for (R135, R143): accesses in flight and, where it is no handler's, runs, before it, of
its streams. -/
def barrierWaits (flights : List Flight) (ord : Nat) (trap : Bool) (b : Barrier) (c : Core) : Bool :=
  flights.any (fun g => decide (g.ord < ord) && b.before.getLsbD g.st && g.busy && (!b.loadsOnly || g.isLoad)) ||
    (!trap && barrierRuns c ord b)

/-- A store that a barrier waits for stands in the store queue (R209, R210). -/
def storesWait (ord : Nat) (b : Barrier) (c : Core) : Bool :=
  !b.loadsOnly && c.storeQ.any (fun q => decide (q.ord < ord) && b.before.getLsbD q.st.toNat)

/-- The queued stores that a barrier waits for applied, as far as they can be. -/
def drainFor (b : Barrier) (s : State) : State := if b.loadsOnly then s else drainStores s

/-! ## Reads and stores at their homes (R207) -/

/-- The queue holds a store to the line whose home will demote it under stochastic rounding (R126): it is applied before
the line is read. -/
def demotionQueued (s : State) (pl : Nat) : Bool :=
  s.core.storeQ.any (fun q => decide (lineOf q.place = lineOf pl) && leafDpsr q.page.leaf &&
    (match q.write with | .line _ t => demotes (leafDpfmt q.page.leaf) t | _ => false))

/-- The state in which a read of the line at a place by an engine of this core finds it, with its own queued stores. -/
def settleOwn (pl : Nat) (s : State) : State := if demotionQueued s pl then drainStores s else s

/-- The line at an address as an engine of this core reads it now. -/
def readNow (p : Page) (va : Word) (s : State) : Line × State :=
  let s := settleOwn (p.place va) s
  (readLine (ownView s (p.place va)) p va, s)

/-- A store performed at core scope: applied at its home at once in a scratchpad or save area, and elsewhere when the
schedule does not hold it in the store queue (R207, R209). -/
def performStore (q : QueuedStore) (s : State) : State :=
  if isScratch q.place || isSave q.place then applyWrite s q
  else
    let queue (s : State) : State := s.onCore (fun c => { c with storeQ := c.storeQ ++ [q] })
    match s.core.holdStore with
    | true :: hs => queue (s.onCore (fun c => { c with holdStore := hs }))
    | l =>
      let s := s.onCore (fun c => { c with holdStore := l.drop 1 })
      if storeReady s s.core.storeQ q then applyWrite s q else drainStores (queue s)

/-- A store that cannot be performed: its line is in a scratchpad, and a word waits there. -/
def storeBlocked (s : State) (q : QueuedStore) : Bool := (isScratch q.place || isSave q.place) && storeHeld s q

/-! ## The parts of an access in flight -/

/-- Lines read: those at which no word waits; the others remain. -/
def readTodo : List (Word × Page) → State → List (Word × Page) × List (Word × Line) × State
  | [], s => ([], [], s)
  | (va, p) :: l, s =>
    if lineHeld s (p.place va) then
      let (todo, got, s) := readTodo l s
      ((va, p) :: todo, got, s)
    else
      let (line, s) := readNow p va s
      let (todo, got, s) := readTodo l s
      (todo, (va, line) :: got, s)

/-- The lines that a load has read; a line that its checks did not foresee is a free value (log 71). -/
def gotReader (got : List (Word × Line)) : LineReader Nat := fun _ va k =>
  match got.find? (fun g => g.1 == va) with
  | some g => .ok (g.2, k)
  | none => .ok (⟨Config.lateTag k, Config.lateData k⟩, k + 1)

/-- The entries of a load whose lines have been read enter its flume (R11, R38). -/
def deliver (r : Reading) (s : State) : State :=
  match loadOver (gotReader r.got) (fun k => (Config.lateTag k, k + 1)) s.core.csr.tmode.toNat r s.core.free with
  | .error _ => s
  | .ok (es, past, k) => pushFlume r.flume es (s.onCore (fun c => { orFlags (flagIf past fRANGE) c with free := k }))

/-- The entries of a load may enter its flume: every line has been read, no earlier load's entries are still to come, and
there is room. -/
def deliverable (before : List Flight) (r : Reading) (c : Core) : Bool :=
  r.todo.isEmpty && !(before.filterMap Flight.reading).any (fun q => decide (q.flume = r.flume)) &&
    decide ((flumeOf c r.flume).length + r.entries ≤ flumeCap c)

/-- Stores performed in order; those that cannot be, and those behind them at one line, remain. -/
def storeTodo : List QueuedStore → List QueuedStore → State → List QueuedStore × State
  | [], kept, s => (kept, s)
  | q :: l, kept, s =>
    if storeBlocked s q || kept.any (fun r => decide (lineOf r.place = lineOf q.place)) then storeTodo l (kept ++ [q]) s
    else storeTodo l kept (performStore q s)

/-- A part of a load or of a store that may be performed, or an end of an access, or a store that may leave the queue. -/
inductive Part where
  | read (i j : Nat)
  | store (i j : Nat)
  | finish (i : Nat)
  | queue (j : Nat)
  deriving DecidableEq, Repr

/-- The parts of one access that may be performed now. -/
def flightParts (s : State) (i : Nat) (f : Flight) : List Part :=
  let before := s.core.flight.take i
  match f.work with
  | .load r =>
    if r.todo.isEmpty then (if deliverable before r s.core then [.finish i] else [])
    else if accessHeld before f.ord f.trap f.st true then []
    else (r.todo.zipIdx.filter (fun t => !lineHeld s (t.1.2.place t.1.1))).map (fun t => .read i t.2)
  | .stores l =>
    if l.isEmpty then [.finish i]
    else if accessHeld before f.ord f.trap f.st false then []
    else (l.zipIdx.filter (fun t => !storeBlocked s t.1 &&
      !(l.take t.2).any (fun r => decide (lineOf r.place = lineOf t.1.place)))).map (fun t => .store i t.2)
  | .barrier b =>
    if barrierWaits s.core.flight f.ord f.trap b s.core || storesWait f.ord b (drainFor b s).core then []
    else [.finish i]

/-- The parts of the accesses in flight that may be performed now. -/
def flyingParts (s : State) : List Part := s.core.flight.zipIdx.flatMap (fun t => flightParts s t.2 t.1)

/-- The queued stores that may be applied now (R207). -/
def queueParts (s : State) : List Part :=
  (s.core.storeQ.zipIdx.filter (fun t => storeReady s (s.core.storeQ.take t.2) t.1)).map (fun t => .queue t.2)

/-- What a part does with the access it belongs to; none where the access is over. -/
def partOf (p : Part) (f : Flight) (s : State) : Option FlightWork × State :=
  match p, f.work with
  | .read _ j, .load r =>
    match r.todo[j]? with
    | none => (some f.work, s)
    | some (va, pg) =>
      let (l, s) := readNow pg va s
      (some (.load { r with todo := r.todo.eraseIdx j, got := r.got ++ [(va, l)] }), s)
  | .store _ j, .stores l =>
    match l[j]? with
    | none => (some f.work, s)
    | some q =>
      let s := performStore q s
      (if l.length ≤ 1 then none else some (.stores (l.eraseIdx j)), s)
  | .finish _, .load r => (none, deliver r s)
  | .finish _, .barrier b => (none, drainFor b s)
  | .finish _, .stores _ => (none, s)
  | _, w => (some w, s)

/-- The access at place i of those in flight after one of its parts: over, with its raise (R9), or with what is left. -/
def putFlight (i : Nat) (w : Option FlightWork) (s : State) : State :=
  match s.core.flight[i]? with
  | none => s
  | some f => match w with
    | none => s.onCore (fun c => addToken f.raise { c with flight := c.flight.eraseIdx i })
    | some w => s.onCore (fun c => { c with flight := c.flight.set i { f with work := w } })

/-- One part performed. -/
def performPart (p : Part) (s : State) : State :=
  let onFlight (i : Nat) : State := match s.core.flight[i]? with
    | none => s
    | some f => let (w, s') := partOf p f s; putFlight i w s'
  match p with
  | .read i _ => onFlight i
  | .store i _ => onFlight i
  | .finish i => onFlight i
  | .queue j => match s.core.storeQ[j]? with
    | none => s
    | some q => applyWrite (s.onCore (fun c => { c with storeQ := c.storeQ.eraseIdx j })) q

/-! ## Issue (R117) -/

/-- An access that has just been issued, performed as far as it can be now; what is left of it. -/
def performNew (f : Flight) (s : State) : Option FlightWork × State :=
  let before := s.core.flight
  match f.work with
  | .load r =>
    if accessHeld before f.ord f.trap f.st true then (some f.work, s)
    else
      let (todo, got, s) := readTodo r.todo s
      let r := { r with todo := todo, got := r.got ++ got }
      if deliverable before r s.core then (none, deliver r s) else (some (.load r), s)
  | .stores l =>
    if accessHeld before f.ord f.trap f.st false then (some f.work, s)
    else
      let (kept, s) := storeTodo l [] s
      (if kept.isEmpty then none else some (.stores kept), s)
  | .barrier b =>
    if barrierWaits before f.ord f.trap b s.core then (some f.work, s)
    else
      let s := drainFor b s
      (if storesWait f.ord b s.core then some f.work else none, s)

/-- An access issued (R117): performed at once as far as it can be, or held in flight where the schedule says so. -/
def issueFlight (f : Flight) (s : State) : State :=
  match s.core.holdAccess with
  | true :: hs => s.onCore (fun c => { c with holdAccess := hs, flight := c.flight ++ [f] })
  | l =>
    let (w, s) := performNew f (s.onCore (fun c => { c with holdAccess := l.drop 1 }))
    match w with
    | none => s
    | some w => s.onCore (fun c => { c with flight := c.flight ++ [{ f with work := w }] })

/-! ## Checks at the ring's head (R116, R16) -/

/-- The page that the checks of an issued word found for an address. -/
def heldPage (x : Ctx) (va : Word) : Option Page :=
  match x.issued with
  | none => none
  | some ps => (ps.find? (fun p => p.1 == va)).map Prod.snd

/-- A line of a range passes the end of the save-area window in which the range begins (R308). -/
def leavesWindow (base va : Word) : Bool := decide (saveWindow va ≠ saveWindow base)

/-- A line of an access that its checks have passed (R116), that lies in the window in which its range begins, and that no claim
holds (R16; DETAIL 3). The pages of an issued word's checks stand, and its access has reached its tile. -/
def checkFrom (x : Ctx) (e base : Word) (k : AccessKind) (va : Word) (align : Nat) (s : State) : Chk Page :=
  match heldPage x va with
  | some p => .ok p
  | none => do
    let p ← checkedPage s k va align
    if leavesWindow base va then faultNow (flt cPAGE va)
    else if sluiceHolds s x (p.place va) then sluiceWait s e
    else return p

/-- A line of a range that begins at the word's EA. -/
def checkLine (x : Ctx) (e : Word) (k : AccessKind) (va : Word) (align : Nat) (s : State) : Chk Page :=
  checkFrom x e (rangeStart e va) k va align s

/-- The sink fault of a word naming stream st (R133), and its wait for the steps of the stream's run, after which it is
performed (R132). -/
def streamReady (x : Ctx) (st : Nat) (s : State) : Chk Unit :=
  match sinkFault s.core (2 ^ st) with
  | some f => faultNow f
  | none => if runHolds s.core x.ord st then waitNow headHeld else .ok ()

/-- A line that a word reads or writes at the head of its ring, in stream st, of a range that begins at `base`: the access is issued
once its checks have passed, and waits at the head for the accesses that it follows and for bytes at which another word waits
unperformed (R118, R140). -/
def reachFrom (x : Ctx) (st : Nat) (e base : Word) (k : AccessKind) (va : Word) (align : Nat) (s : State) : Chk (Page × State) := do
  let p ← checkFrom x e base k va align s
  if accessHeld (s.core.flight.filter (fun f => f.ord ≠ x.ord)) x.ord x.trap st (k == .load || k == .core) ||
      bytesStalled s (p.place va) align then .error (.home untimed [(va, p)] none)
  else return (p, touchPage p va s)

/-- A line of a range that begins at the word's EA, reached so. -/
def reach (x : Ctx) (st : Nat) (e : Word) (k : AccessKind) (va : Word) (align : Nat) (s : State) : Chk (Page × State) :=
  reachFrom x st e (rangeStart e va) k va align s

/-- The line of an atomic or of another write at its home, after the core's own queued stores to it (R207). -/
def reachHome (x : Ctx) (st : Nat) (e : Word) (k : AccessKind) (va : Word) (align : Nat) (s : State) : Chk (Page × State) := do
  let (p, t) ← reach x st e k va align s
  if !lineDrains (p.place va) t then .error (.home untimed [(va, p)] none)
  else return (p, drainLine (p.place va) t)

/-! ## Loads issued -/

/-- The checks of a load's lines in order (R116): each page is kept, and the line looked at as its read will find it. -/
def checkReader (check : State → Word → Word → Chk Page) : LineReader (State × List (Word × Page)) :=
  fun base va a =>
    let (s, ps) := a
    match ps.find? (fun p => p.1 == va) with
    | some p => .ok (readLine (settledView s (p.2.place va)) p.2 va, (s, ps))
    | none => do
      let p ← check s base va
      return (readLine (settledView s (p.place va)) p va, (touchPage p va s, ps ++ [(va, p)]))

/-- A load issued once its checks have passed: it reads its lines, and its entries enter the flume (R117, R123). -/
def issueReading (x : Ctx) (st : Nat) (check : State → Word → Word → Chk Page) (r : Reading) (s : State) : Chk State := do
  let (_, _, (s, ps)) ← loadOver (checkReader check) (fun a => (rawTag, a)) s.core.csr.tmode.toNat r (s, [])
  return issueFlight ⟨x.ord, x.trap, st, 0, .load { r with todo := ps, job := ptbJob s.core.csr.ptb }⟩ s

/-- The reading of a word or a step of stream st into flume q. -/
def readingOf (c : Core) (st q : Nat) (kind : LoadKind) (va : Word) (ahead : Bool) : Reading :=
  ⟨q, kind, va, tangentCount c st, descToff (descOf c st), 0, ahead, [], []⟩

/-- Stores issued once their checks have passed. -/
def issueStores (x : Ctx) (st : Nat) (qs : List QueuedStore) (s : State) : State :=
  issueFlight ⟨x.ord, x.trap, st, 0, .stores qs⟩ s

/-- The checks of a vector store's lines, in order (R116), before any is written: each line with the address at which its range
begins. -/
def checkStores (x : Ctx) (st : Nat) (e : Word) : List (Word × Word × QueuedWrite) → State → Chk (List QueuedStore × State)
  | [], s => .ok ([], s)
  | (base, va, w) :: rest, s => do
    let p ← checkFrom x e base .store va 128 s
    let (qs, s) ← checkStores x st e rest (touchPage p va s)
    return (⟨x.ord, BitVec.ofNat 4 st, va, p, ptbJob s.core.csr.ptb, w⟩ :: qs, s)

/-- A store of a word in stream st. -/
def storeOf (x : Ctx) (st : Nat) (va : Word) (p : Page) (w : QueuedWrite) (s : State) : QueuedStore :=
  ⟨x.ord, BitVec.ofNat 4 st, va, p, ptbJob s.core.csr.ptb, w⟩

end Sys2Proof.Machine
end

