-- ==== Sys2Proof/Machine/Access.lean ====
section
/-! DEFINITION. A words: scalar and full/empty accesses (R120 to R122), address arithmetic (R119), fences (R135, R143 to
R147), bindings and flume status (R134), and the operations that every A word shares (R116 to R118). -/

namespace Sys2Proof.Machine

/-! ## Operations of A words -/

/-- The checks of the splitter on a word that has none that depends on state. -/
def noReject : Core → IWord → Option Flt := fun _ _ => none

def issueA (i : Instr) (run : Ctx → State → Chk State) (s : State) : Out := issue .A i i noReject run s

/-- The fault of a scalar or full/empty load (R34, R120): TVAL of POISON is EA (R299). -/
def loadFault (s : State) (p : Page) (va : Word) (n : Nat) : Option Flt :=
  let t := (plainLine s p va).tag
  if bytesPoisoned s (p.place va) n then some ⟨cPOISON, va, true, 0⟩
  else if tagVc t = vcInvalid then
    some (if tagDetail t = dPOISON then ⟨cPOISON, va, true, 0⟩ else invalidFault t)
  else none

/-- `n` bytes at EA, consumed (R117, R120), with the core's own queued stores (R207). -/
def consumeBytes (x : Ctx) (e : Word) (n : Nat) (s : State) : Chk (Nat × State) := do
  let (p, s) ← reach x 0 e .load e n s
  let s := settleOwn (p.place e) s
  let seen := ownView s (p.place e)
  match loadFault seen p e n with
  | some f => faultNow f
  | none => return (bytesAt seen (pageVersion s p) (p.place e) n, s)

/-! ## Scalar loads and stores (R120) -/

/-- The loaded bytes extended to a register. -/
def extendLoad (z : BitVec 2) (zx : BitVec 1) (v : Nat) : Word :=
  if zx = 1 then BitVec.ofNat 64 v else BitVec.ofInt 64 (signedOf (8 * 2 ^ z.toNat) v)

def runLds (d b : BitVec 5) (z : BitVec 2) (zx : BitVec 1) (o : BitVec 10) (x : Ctx) (s : State) : Chk State := do
  streamReady x 0 s
  let (v, s) ← consumeBytes x (ea s.core x (.lds d b z zx o)) (2 ^ z.toNat) s
  return s.onCore (fun c => setS c d (extendLoad z zx v))

/-- R120. -/
def execLds (d b : BitVec 5) (z : BitVec 2) (x : BitVec 1) (o : BitVec 10) (s : State) : Out :=
  issueA (.lds d b z x o) (runLds d b z x o) s

def runLda (d b : BitVec 5) (o : BitVec 10) (x : Ctx) (s : State) : Chk State := do
  streamReady x 0 s
  let (v, s) ← consumeBytes x (ea s.core x (.lda d b o)) 8 s
  return s.onCore (fun c => setA c d (BitVec.ofNat 64 v))

/-- R120. -/
def execLda (d b : BitVec 5) (o : BitVec 10) (s : State) : Out := issueA (.lda d b o) (runLda d b o) s

/-- The low n bytes of a value stored at EA in st0 (R120). -/
def storeScalar (x : Ctx) (e : Word) (n : Nat) (v : Word) (s : State) : Chk State := do
  streamReady x 0 s
  let p ← checkLine x e .store e n s
  return issueStores x 0 [storeOf x 0 e p (.bytes n v) s] (touchPage p e s)

def runSts (d b : BitVec 5) (z : BitVec 2) (o : BitVec 10) (x : Ctx) (s : State) : Chk State :=
  storeScalar x (ea s.core x (.sts d b z o)) (2 ^ z.toNat) (cap x 0) s

/-- R120. -/
def execSts (d b : BitVec 5) (z : BitVec 2) (o : BitVec 10) (s : State) : Out :=
  issueA (.sts d b z o) (runSts d b z o) s

def runSta (d b : BitVec 5) (o : BitVec 10) (x : Ctx) (s : State) : Chk State :=
  storeScalar x (ea s.core x (.sta d b o)) 8 (areg s.core d) s

/-- R120. -/
def execSta (d b : BitVec 5) (o : BitVec 10) (s : State) : Out := issueA (.sta d b o) (runSta d b o) s

/-! ## Full/empty words (R121, R122) -/

def fullBit (s : State) (pl : Nat) : Bool := sget false s.mem.full (pl / 8)

def setFull (b : Bool) (pl : Nat) (s : State) : State :=
  { s with mem := { s.mem with full := sset false s.mem.full (pl / 8) b } }

/-- The word is the EXPECTED word of a barrier of its core: current, or recorded by a command in flight (R201). -/
def barrierWord (s : State) (pl : Nat) : Bool :=
  let c := coreOf s (scratchCore pl)
  decide (c.barrier = some (scratchOff pl)) || c.ycmds.any (fun y => decide (y.barrier = some (scratchOff pl)))

/-- The wait of LDF, LDFT and STE (DETAIL 4, or 5 at a byte-counting barrier). -/
def fullWait (s : State) (pl : Nat) (e : Word) : WaitOn := ⟨if barrierWord s pl then 5 else 4, e⟩

/-- No word of another core waits at the home before this core's word for the same state of the bit (R121). -/
def firstAtHome (s : State) (pl : Nat) (full : Bool) : Bool :=
  match s.fullWaiters.find? (fun e => decide (e.place = pl) && e.full == full) with
  | some e => decide (e.core = s.cur)
  | none => true

/-- The core's word no longer waits for a bit. -/
def leaveHome (s : State) : State := { s with fullWaiters := s.fullWaiters.filter (fun e => e.core ≠ s.cur) }

/-- A full/empty word at its home: it waits for a state of the bit, in the order of arrival (R121). A misaligned EA faults
ALIGN, as R116 lists it, and not PAGE, as R121's "any other EA" has it (log 72). -/
def atBit (x : Ctx) (e : Word) (k : AccessKind) (full : Bool) (ready : State → Chk State) (s : State) :
    Chk (Page × Nat × State) := do
  streamReady x 0 s
  let _ ← checkLine x e k e 8 s
  let s ← ready s
  let (p, s) ← reach x 0 e k e 8 s
  let pl := p.place e
  if fullBit s pl == full && firstAtHome s pl full then return (p, pl, leaveHome s)
  else .error (.home (fullWait s pl e) [(e, p)] (some (pl, full)))

/-- The word at EA once it is full (R121). -/
def loadFull (x : Ctx) (e : Word) (s : State) : Chk (Nat × Word × State) := do
  let (p, pl, s) ← atBit x e .core true .ok s
  match loadFault s p e 8 with
  | some f => faultNow f
  | none => return (pl, BitVec.ofNat 64 (bytesAt s (pageVersion s p) pl 8), s)

def runLdf (d b : BitVec 5) (o : BitVec 10) (x : Ctx) (s : State) : Chk State := do
  let (pl, v, s) ← loadFull x (ea s.core x (.ldf d b o)) s
  return setFull false pl (s.onCore (fun c => setS c d v))

/-- R121. -/
def execLdf (d b : BitVec 5) (o : BitVec 10) (s : State) : Out := issueA (.ldf d b o) (runLdf d b o) s

def runLdft (d b : BitVec 5) (o : BitVec 10) (x : Ctx) (s : State) : Chk State := do
  let (_, v, s) ← loadFull x (ea s.core x (.ldft d b o)) s
  return s.onCore (fun c => setS c d v)

/-- R121. -/
def execLdft (d b : BitVec 5) (o : BitVec 10) (s : State) : Out := issueA (.ldft d b o) (runLdft d b o) s

/-- A release at cluster scope by the access processor: every earlier access performed (R121, R122). -/
def releaseAccesses (x : Ctx) (s : State) : Chk State :=
  if earlierRuns s.core x.ord || !accessesDone s.core || !drainable s then waitNow headHeld else .ok (drainStores s)

def runSte (d b : BitVec 5) (o : BitVec 10) (x : Ctx) (s : State) : Chk State := do
  let e := ea s.core x (.ste d b o)
  let (p, pl, s) ← atBit x e .coreStore false (releaseAccesses x) s
  return setFull true pl (writeBytes s p e 8 (cap x 0).toNat)

/-- R121. -/
def execSte (d b : BitVec 5) (o : BitVec 10) (s : State) : Out := issueA (.ste d b o) (runSte d b o) s

/-- The words of a FESET or the bytes of an OWNWAIT, page by page: the place and count of each part. All lie in one
scratchpad, those of `below` under its ring area (R122, R147). -/
def corePages (k : AccessKind) (unit : Nat) (below : Bool) (home : Option Nat) (s : State) :
    Nat → Word → Nat → Chk (List (Nat × Nat))
  | 0, _, _ => .ok []
  | pages + 1, va, n =>
    if n = 0 then .ok []
    else do
      let p ← checkedPage s k va 1
      let pl := p.place va
      let here := min n ((65536 - va.toNat % 65536) / unit)
      if (match home with | some h => decide (h ≠ scratchCore pl) | none => false) then faultNow (flt cPAGE va)
      else if (below || !privileged s.core) && decide (ringArea < scratchOff pl + unit * here) then
        faultNow (flt cPRIV (va + BitVec.ofNat 64 (ringArea - scratchOff pl)))
      else
        let rest ← corePages k unit below (some (scratchCore pl)) s pages (va + BitVec.ofNat 64 (unit * here)) (n - here)
        return (pl, here) :: rest

/-- The sluice holds some tile of the given parts. -/
def partsHeld (s : State) (x : Ctx) (unit : Nat) (ps : List (Nat × Nat)) : Bool :=
  ps.any (fun q => (List.range ((q.1 % 4096 + unit * q.2 + 4095) / 4096)).any (fun i =>
    sluiceHolds s x (q.1 - q.1 % 4096 + 4096 * i)))

/-- It waits for no data and for no verdict, so that each of its waits at the head is timed (R21, R117). n = 0 has no effect, whatever
a[a] is (log 72). The pages are checked as R122 asks, and not for W, since no data changes
(R274). -/
def runFeset (a b state : BitVec 5) (x : Ctx) (s : State) : Chk State := do
  let n := (cap x 0).toNat
  let e := ea s.core x (.feset a b state)
  streamReady x 0 s
  if n = 0 then return s
  else if e.toNat % 8 ≠ 0 then faultNow (flt cALIGN e)
  else
    let ps ← corePages .core 8 true none s (n / 8192 + 2) e n
    if partsHeld s x 8 ps then sluiceWait s e
    else if accessHeld s.core.flight x.ord x.trap 0 false then waitNow headHeld
    else
      let s ← if state = 1 then releaseAccesses x s else .ok s
      return ps.foldl (fun s q => (List.range q.2).foldl (fun s i => setFull (state == 1) (q.1 + 8 * i) s) s) s

/-- R122. -/
def execFeset (a b c : BitVec 5) (s : State) : Out := issueA (.feset a b c) (runFeset a b c) s

/-! ## Address arithmetic (R119) -/

/-- The meaning of the address arithmetic words. -/
def runAddress (i : Instr) (x : Ctx) (s : State) : Chk State :=
  match addressResult s.core x i with
  | some (d, v) => .ok (s.onCore (fun c => setA c d v))
  | none => .ok s

/-- R119. -/
def execAdda (d a b : BitVec 5) (s : State) : Out := issueA (.adda d a b) (runAddress (.adda d a b)) s
/-- R119. -/
def execSuba (d a b : BitVec 5) (s : State) : Out := issueA (.suba d a b) (runAddress (.suba d a b)) s
/-- R119. -/
def execAddai (d a : BitVec 5) (i : BitVec 13) (s : State) : Out := issueA (.addai d a i) (runAddress (.addai d a i)) s
/-- R119. -/
def execShlai (d a : BitVec 5) (n : BitVec 6) (s : State) : Out := issueA (.shlai d a n) (runAddress (.shlai d a n)) s
/-- R119. -/
def execMulai (d a : BitVec 5) (i : BitVec 13) (s : State) : Out := issueA (.mulai d a i) (runAddress (.mulai d a i)) s
/-- R119. -/
def execAndai (d a : BitVec 5) (i : BitVec 13) (s : State) : Out := issueA (.andai d a i) (runAddress (.andai d a i)) s
/-- R119: the captured s register. -/
def execMovsa (d a : BitVec 5) (s : State) : Out := issueA (.movsa d a) (runAddress (.movsa d a)) s

def runMovas (d a : BitVec 5) (_ : Ctx) (s : State) : Chk State := .ok (s.onCore (fun c => setS c d (areg c a)))

/-- R119: a[a] into a pending s register. -/
def execMovas (d a : BitVec 5) (s : State) : Out := issueA (.movas d a) (runMovas d a) s

/-! ## Fences (R135, R143 to R147) -/

/-- It waits at the head while a sink of s[a], whose fault it would take, has steps to issue (R117, R133; log 38). -/
def runSbar (x : Ctx) (s : State) : Chk State :=
  let m1 := bitsNat (cap x 0) 0 16
  match sinkFault s.core m1 with
  | some f => faultNow f
  | none =>
    if (List.range 16).any (fun st => m1.testBit st && runHolds s.core x.ord st && decide ((runOf s.core st).kind = .sink)) then
      waitNow headHeld
    else
      .ok (issueFlight ⟨x.ord, x.trap, 0, 0, .barrier ⟨BitVec.ofNat 16 m1, false, (cap x 1).setWidth 16, false⟩⟩ s)

/-- R135: the accesses of the streams in s[a] are performed before the later ones of the streams in s[b]. -/
def execSbar (c : BitVec 3) (a b : BitVec 5) (s : State) : Out := issueA (.sbar c a b) runSbar s

/-- What a FENCE orders (R143): ACQ the earlier loads before every later access, REL every earlier access before the later
ones but loads, FULL every earlier before every later one. The word cannot tell whether both parties of a synchronisation stand
within the scope it names, and one that does not conform is ordered as the wider scope would order it, so every scope waits for
the stores' homes (R209, R210; log 38). -/
def fenceBarrier (m : BitVec 2) : Barrier := ⟨0xFFFF, m == 0, 0xFFFF, m == 1⟩

/-- It waits at the head while an earlier sink, whose fault it would take, has steps to issue; ACQ, which orders no store,
does not (log 38). -/
def runFence (m : BitVec 2) (x : Ctx) (s : State) : Chk State :=
  match sinkFault s.core 0xFFFF with
  | some f => faultNow f
  | none =>
    if m ≠ 0 ∧ earlierSinks s.core x.ord then waitNow headHeld
    else .ok (issueFlight ⟨x.ord, x.trap, 0, 0, .barrier (fenceBarrier m)⟩ s)

/-- R143: ACQ orders the earlier loads, REL and FULL every earlier access. -/
def execFence (c : BitVec 3) (m : BitVec 2) (s : State) : Out := issueA (.fence c m) (runFence m) s

/-- FENCESC at the head of its ring waits for a heartbeat tick, which completes it (R144). -/
def runFencesc (_ : Ctx) (s : State) : Chk State :=
  match sinkFault s.core 0xFFFF with
  | some f => faultNow f
  | none => waitNow headHeld

/-- R144. -/
def execFencesc (s : State) : Out := issueA .fencesc runFencesc s

/-- A store in flight. -/
def storesFly (c : Core) : Bool := c.flight.any (fun f => f.busy && !f.isLoad)

def runRcfence (x : Ctx) (s : State) : Chk State :=
  if earlierSinks s.core x.ord || storesFly s.core || !drainable s then waitNow headHeld
  else .ok ((drainStores s).onCore (fun c => { c with records := [] }))

/-- R146: the shape-record cache emptied. -/
def execRcfence (s : State) : Out := issueA .rcfence runRcfence s

def runOwnwait (a : BitVec 5) (x : Ctx) (s : State) : Chk State := do
  let n := (cap x 0).toNat
  let e := areg s.core a + x.so
  streamReady x 0 s
  if n = 0 then return s
  else
    let ps ← corePages .core 1 false none s (n / 65536 + 2) e n
    if partsHeld s x 1 ps then sluiceWait s (areg s.core a) else return s

/-- R147: waits until every tile of the range reads THREAD. -/
def execOwnwait (a b : BitVec 5) (s : State) : Out := issueA (.ownwait a b) (runOwnwait a) s

/-! ## Bindings and flume status (R134) -/

def bindingOf (b : Bindings) (v : Nat) : Option (BitVec 3) := (b.find? (fun e => e.1 == v)).map Prod.snd

/-- A BIND that names a bound register or flume is ILLEGAL at the splitter (R134). -/
def bindRejected (q v : BitVec 3) (c : Core) (w : IWord) : Option Flt :=
  if (bindingOf c.bnd (56 + v.toNat)).isSome || c.bnd.any (fun e => e.2 == q) then some (illegalWordFault w) else none

/-- What BIND and UNBIND do to the bindings in split order. -/
def bindAfter (i : Instr) (b : Bindings) : Bindings :=
  match i with
  | .bind q v => b ++ [(56 + v.toNat, q)]
  | .unbind v => b.filter (fun e => e.1 ≠ 56 + v.toNat)
  | _ => b

/-- The words at the A ring's head have no effect of their own. -/
def runBinding (_ : Ctx) (s : State) : Chk State := .ok s

/-- A word that changes the bindings, once it is placed. -/
def issueBinding (i : Instr) (reject : Core → IWord → Option Flt) (s : State) : Out :=
  match issue .A i i reject runBinding s with
  | .next t => if t.core.ord = s.core.ord then .next t else .next (t.onCore (fun c => { c with bnd := bindAfter i c.bnd }))
  | o => o

/-- R134. -/
def execBind (q v : BitVec 3) (s : State) : Out := issueBinding (.bind q v) (bindRejected q v) s

/-- R134. -/
def execUnbind (v : BitVec 3) (s : State) : Out := issueBinding (.unbind v) noReject s

/-- Steps that generators and sinks on a flume have still to issue. -/
def flumeLeft (c : Core) (q : Nat) : Nat :=
  ((List.range 16).map (fun st =>
    if (runOf c st).kind ≠ .none ∧ descFlume (descOf c st) = q then (runOf c st).left.toNat else 0)).sum

/-- The status of R134. LEFT sums the streams that name the flume, modulo 2^32 (log 75). -/
def flumeStatus (c : Core) (b : Bindings) (q : BitVec 3) : Word :=
  let bound : Nat := match b.find? (fun e => e.2 == q) with | some e => 8 + (e.1 - 56) | none => 0
  BitVec.ofNat 64 (flumeLeft c q.toNat % 2 ^ 32 * 2 ^ 32 + flumeCap c * 2 ^ 16 + (flumeOf c q.toNat).length * 2 ^ 8 + bound)

def runQstat (d : BitVec 5) (q : BitVec 3) (x : Ctx) (s : State) : Chk State :=
  .ok (s.onCore (fun c => setS c d (flumeStatus c x.bnd q)))

/-- R134. -/
def execQstat (d : BitVec 5) (q : BitVec 3) (s : State) : Out := issueA (.qstat d q) (runQstat d q) s

end Sys2Proof.Machine
end

