-- ==== Sys2Proof/Machine/Atomics.lean ====
section
/-! DEFINITION. The atomics and ACONT (R136 to R140). -/

namespace Sys2Proof.Machine

/-- The access size of an atomic type. -/
def atomBytes (ty : BitVec 3) : Nat := if ty.toNat < 3 then 4 else if ty = 6 then 16 else 8

/-- The format with which a type agrees (R137). -/
def atomFmt (ty : BitVec 3) : Nat :=
  match ty.toNat with
  | 0 => kINT32
  | 1 => kUINT32
  | 2 => kFP32
  | 3 => kINT64
  | 4 => kUINT64
  | 5 => kFP64
  | _ => kRAW

def atomSigned (ty : BitVec 3) : Bool := decide (ty = 0 ∨ ty = 3)

/-- The float format of a type that is one. -/
def atomFloat (ty : BitVec 3) : Option FloatFmt :=
  if ty = 2 then some FloatFmt.fp32 else if ty = 5 then some FloatFmt.fp64 else none

inductive AtomOp where
  | add | min | max | and | or | xor | swap | cas
  deriving DecidableEq, Repr

/-- The lesser operand is the first: -0 orders below +0. -/
def numBelow (x y : Num) : Bool :=
  let c := x.cmp y
  decide (c < 0) || (decide (c = 0) && (x.sign || !y.sign))

/-- The new memory value (R137). -/
def atomNew (op : AtomOp) (ty : BitVec 3) (m c e : Nat) : Nat :=
  let w := 8 * atomBytes ty
  match op with
  | .swap => c
  | .cas => if m = c then e else m
  | .and => m &&& c
  | .or => m ||| c
  | .xor => m ^^^ c
  | .add => match atomFloat ty with
    | some f => (toFloat f .rne false ((f.decode m).add false (f.decode c))).bits
    | none => (m + c) % 2 ^ w
  | .min => match atomFloat ty with
    | some f =>
      let x := f.decode m
      let y := f.decode c
      if x.isNaN || y.isNaN then f.nanCode else if numBelow x y then m else c
    | none => if atomSigned ty then (if signedOf w m ≤ signedOf w c then m else c) else min m c
  | .max => match atomFloat ty with
    | some f =>
      let x := f.decode m
      let y := f.decode c
      if x.isNaN || y.isNaN then f.nanCode else if numBelow x y then c else m
    | none => if atomSigned ty then (if signedOf w c ≤ signedOf w m then m else c) else max m c

/-- The old value as it is returned (R136). -/
def atomReturn (ty : BitVec 3) (m : Nat) : Word :=
  if ty = 0 then BitVec.ofInt 64 (signedOf 32 m) else BitVec.ofNat 64 m

/-- An operand of a type from captured slots. -/
def atomOperand (x : Ctx) (ty : BitVec 3) (k : Nat) : Nat :=
  if ty = 6 then (cap x k).toNat + 2 ^ 64 * (cap x (k + 1)).toNat else (cap x k).toNat % 2 ^ (8 * atomBytes ty)

/-- The checks at the slice (R137) on the line of an atomic, its class before its type (log 75); its old value. -/
def atomChecked (s : State) (p : Page) (e : Word) (ty : BitVec 3) : Chk Nat :=
  let n := atomBytes ty
  let pl := p.place e
  let t := (plainLine s p e).tag
  if bytesPoisoned s pl n then faultNow (invalidFault (mkInvalid (tagFmt t) dPOISON))
  else if tagVc t = vcInvalid then faultNow (invalidFault t)
  else if tagVc t = vcSpoiled && spoilTrap s.core then faultNow ⟨cVCLASS, t.setWidth 64, true, 0⟩
  else if !(decide (ty = 6) || decide (tagFmt t = kRAW) || decide (tagFmt t = atomFmt ty)) then
    faultNow (tagFault cTYPE t)
  else .ok (bytesAt s (pageVersion s p) pl n)

/-- The old value written to s[d], or to the pair from s[d]. -/
def putAtom (d : BitVec 5) (ty : BitVec 3) (m : Nat) (s : State) : State :=
  s.onCore (fun c =>
    if ty = 6 then setS (setS c d (BitVec.ofNat 64 m)) (d + 1) (BitVec.ofNat 64 (m / 2 ^ 64))
    else setS c d (atomReturn ty m))

/-- An atomic at its home: s[d] := m, and the new value written (R137). -/
def runAtomic (op : AtomOp) (i : Instr) (d : BitVec 5) (ty : BitVec 3) (x : Ctx) (s : State) : Chk State := do
  let e := ea s.core x i
  streamReady x 0 s
  let (p, s) ← reachHome x 0 e .atomic e (atomBytes ty) s
  let m ← atomChecked s p e ty
  let new := atomNew op ty m (atomOperand x ty 0) (atomOperand x ty (if ty = 6 then 2 else 1))
  return putAtom d ty m (writeBytes s p e (atomBytes ty) new)

/-- TY F64 is an operand condition of the FP64 feature (R319). -/
def atomRejected (ty : BitVec 3) (c : Core) (w : IWord) : Option Flt :=
  if ty = 5 ∧ c.csr.features.getLsbD 2 = false then some (illegalWordFault w) else none

def issueAtomic (op : AtomOp) (i : Instr) (d : BitVec 5) (ty : BitVec 3) (s : State) : Out :=
  issue .A i i (atomRejected ty) (runAtomic op i d ty) s

/-- R137. -/
def execAadd (d b c : BitVec 5) (t : BitVec 3) (s : State) : Out := issueAtomic .add (.aadd d b c t) d t s
/-- R137. -/
def execAmin (d b c : BitVec 5) (t : BitVec 3) (s : State) : Out := issueAtomic .min (.amin d b c t) d t s
/-- R137. -/
def execAmax (d b c : BitVec 5) (t : BitVec 3) (s : State) : Out := issueAtomic .max (.amax d b c t) d t s
/-- R137. -/
def execAand (d b c : BitVec 5) (t : BitVec 3) (s : State) : Out := issueAtomic .and (.aand d b c t) d t s
/-- R137. -/
def execAor (d b c : BitVec 5) (t : BitVec 3) (s : State) : Out := issueAtomic .or (.aor d b c t) d t s
/-- R137. -/
def execAxor (d b c : BitVec 5) (t : BitVec 3) (s : State) : Out := issueAtomic .xor (.axor d b c t) d t s
/-- R137. -/
def execAswap (d b c : BitVec 5) (t : BitVec 3) (s : State) : Out := issueAtomic .swap (.aswap d b c t) d t s
/-- R137. -/
def execAcas (d b c e : BitVec 5) (t : BitVec 3) (s : State) : Out := issueAtomic .cas (.acas d b c e t) d t s

/-! ## ACONT (R139, R140) -/

/-- The checks of a launch that ACONT makes at issue: of the slot (R320), the table, CONT, the reserved bits and GANG of D0. -/
def contChecked (d0 : Word) (s : State) : Chk State := do
  match s.core.run with
  | none => faultNow (launchFault 1 d0)
  | some r =>
    let fti := bitsNat d0 0 20
    if slotRevoked s r then faultNow (launchFault 6 d0)
    else if r.tabLen ≤ fti then faultNow (launchFault 1 d0)
    else
      let (f, s) ← readFunc fti s
      if f.reserved then faultNow (flt cCFI (BitVec.ofNat 64 fti))
      else if f.cont = false then faultNow (launchFault 2 d0)
      else if bitsNat d0 30 2 ≠ 0 then faultNow (launchFault 4 d0)
      else if 0 < bitsNat d0 20 8 ∧ f.gang = false then faultNow (launchFault 3 d0)
      else return s

/-- The page of a template as the slice finds it: through the job's tables, as a core of the word's cluster reaches it, or in the
save area that the word named (R139, R308, R351). -/
def templatePage (s : State) (r : RunInfo) (tp : Word) : Option Page :=
  if inSaveWindow tp then some (windowPage tp)
  else match jobAccessor s r.job with
    | none => none
    | some w =>
      let w := { w with core := s.cur }
      match walkFrom s r.job tp 3 w.ptb with
      | none => none
      | some (p, _) => if canonical tp && pageAllows s w .load p tp then some p else none

/-- The record that a successful ACONT launches: the template as the slice reads it, with D3 := m (R139). -/
def contRecord (s : State) (r : RunInfo) (p : Page) (tp : Word) (m : Word) : Entry :=
  let v := bytesAt s (pageVersion s p) (p.place tp) 24
  ⟨BitVec.ofNat 64 (fieldAt 64 v 0), BitVec.ofNat 64 (fieldAt 64 v 1), BitVec.ofNat 64 (fieldAt 64 v 2), m, 2, r.slot, r.job⟩

/-- The launch after the swap: the record pushed; a template that the slice cannot read stops the job instead (R351). -/
def contLaunch (r : RunInfo) (q : Nat) (tp m : Word) (s : State) : State :=
  match templatePage s r tp with
  | none => memoryFailed s r.job tp (Entry.none r.job)
  | some p => launchPush (noteAccess r.job p tp s) q (contRecord s r p tp m)

/-- Something waits where the slice reads the template. -/
def templateHeld (s : State) (r : RunInfo) (tp : Word) : Bool :=
  match templatePage s r tp with | some p => bytesStalled s (p.place tp) 32 | none => false

/-- A word that waits for its first access has not been issued. -/
def beforeIssue {α : Type} : Chk α → Chk α
  | .error (.home w _ _) => .error (.wait w)
  | r => r

/-- The checks that ACONT makes at issue, with D0 as they read it; of one that was issued they are made and done (R139, R229). -/
def contIssue (x : Ctx) (tp : Word) (s : State) : Chk State := do
  if x.issued.isSome then return s
  else
    let (d0, s) ← beforeIssue (consumeBytes x tp 8 s)
    contChecked (BitVec.ofNat 64 d0) s

/-- The home of an ACONT's operand. An ACONT whose checks have just been made and that must wait there is issued. -/
def contHome (x : Ctx) (va : Word) (n : Nat) (s : State) : Chk (Page × State) :=
  match reachHome x 0 va .atomic va n s with
  | .error (.home w ps bit) => .error (if x.issued.isSome then .home w ps bit else .paused s ps)
  | r => r

def runAcont (d b c e : BitVec 5) (ty : BitVec 3) (x : Ctx) (s : State) : Chk State := do
  let va := ea s.core x (.acont d b c e ty)
  let tp := cap x 2
  streamReady x 0 s
  if tp.toNat % 32 ≠ 0 then faultNow (flt cALIGN tp)
  else
    let s ← contIssue x tp s
    let (p, s) ← contHome x va (atomBytes ty) s
    let m ← atomChecked s p va ty
    if m ≠ atomOperand x ty 0 then return putAtom d ty m (writeBytes s p va (atomBytes ty) m)
    else match s.core.run with
      | none => return putAtom d ty m (writeBytes s p va (atomBytes ty) (atomOperand x ty 1))
      | some r =>
        let q := launchQueueOf p (p.place va)
        if !launchRoom s q || templateHeld s r tp then .error (.launchFull s q va p)
        else
          let s := unstall (writeBytes s p va (atomBytes ty) (atomOperand x ty 1))
          return putAtom d ty m (contLaunch r q tp (atomReturn ty m) s)

/-- ACONT is a word of the CONT feature, and its TY F64 of FP64 (R319). -/
def contRejected (ty : BitVec 3) (c : Core) (w : IWord) : Option Flt :=
  if c.csr.features.getLsbD 1 = false then some (illegalWordFault w) else atomRejected ty c w

/-- R139. -/
def execAcont (d b c e : BitVec 5) (t : BitVec 3) (s : State) : Out :=
  issue .A (.acont d b c e t) (.acont d b c e t) (contRejected t) (runAcont d b c e t) s

end Sys2Proof.Machine
end

