-- ==== Sys2Proof/Machine/Digest.lean ====
section
/-! DEFINITION. SHA-384 (FIPS 180-4) and the verification of an ECDSA signature on P-384 (FIPS 186-5), which R238, R330 and R337
name. -/

namespace Sys2Proof.Machine

/-! ## SHA-384 -/

/-- The greatest number below 2^bits above `r`'s bits whose e-th power is at most `n`: the integer root, from its top bit down. -/
def rootFrom (e n : Nat) : Nat → Nat → Nat
  | 0, r => r
  | bit + 1, r => rootFrom e n bit (if (r + 2 ^ bit) ^ e ≤ n then r + 2 ^ bit else r)

/-- The first 64 bits of the fraction of the e-th root of a number below 2^16. -/
def rootFraction (e n : Nat) : Word := BitVec.ofNat 64 (rootFrom e (n * 2 ^ (64 * e)) 72 0)

/-- The primes below 410, of which there are 80, rising. -/
def smallPrimes : List Nat :=
  (List.range 410).filter (fun n => decide (2 ≤ n) && (List.range 19).all (fun d => decide (d + 2 ≥ n ∨ n % (d + 2) ≠ 0)))

/-- A round adds the fraction of the cube root of its prime; the hash starts at the fractions of the square roots of the ninth to the
sixteenth prime. -/
def roundFractions : List Word := smallPrimes.map (rootFraction 3)
def startFractions : List Word := ((smallPrimes.drop 8).take 8).map (rootFraction 2)

/-- A number of `n` bytes, big-endian. -/
def beBytes (n v : Nat) : List Byte := (List.range n).map (fun i => BitVec.ofNat 8 (v / 256 ^ (n - 1 - i)))

/-- The number that bytes give, big-endian. -/
def beNumber (bs : List Byte) : Nat := bs.foldl (fun a b => 256 * a + b.toNat) 0

/-- A message padded to whole blocks of 128 bytes. -/
def shaPad (m : List Byte) : List Byte :=
  m ++ [0x80] ++ List.replicate ((239 - m.length % 128) % 128) 0 ++ beBytes 16 (8 * m.length)

/-- A word turned right by each of several counts, the turns added without carry. -/
def turns (x : Word) (ks : List Nat) : Word := (ks.map (x.rotateRight ·)).foldl (· ^^^ ·) 0

/-- A block in progress: the eight working variables, the first first, and the sixteen message words still to come. -/
structure ShaRun where
  work : List Word
  coming : List Word
  deriving DecidableEq, Repr

/-- One round with its fraction: the message word that leaves enters the working variables, and the word sixteen later joins. -/
def ShaRun.round (x : ShaRun) (fraction : Word) : ShaRun :=
  let v (i : Nat) : Word := x.work.getD i 0
  let w (i : Nat) : Word := x.coming.getD i 0
  let carried := v 7 + turns (v 4) [14, 18, 41] + (v 6 ^^^ (v 4 &&& (v 5 ^^^ v 6))) + fraction + w 0
  let mixed := turns (v 0) [28, 34, 39] + ((v 0 &&& v 1) ||| (v 2 &&& (v 0 ||| v 1)))
  { work := (carried + mixed) :: (x.work.take 7).set 3 (v 3 + carried)
    coming := x.coming.drop 1 ++
      [w 0 + (turns (w 1) [1, 8] ^^^ w 1 >>> 7) + w 9 + (turns (w 14) [19, 61] ^^^ w 14 >>> 6)] }

/-- The hash value after a block of 16 words. -/
def shaBlock (h : List Word) (ws : List Word) : List Word :=
  h.zipWith (· + ·) (roundFractions.foldl ShaRun.round (ShaRun.mk h ws)).work

/-- The words of the `n` blocks of a message, hashed one after the other. -/
def shaBlocks : Nat → List Byte → List Word → List Word
  | 0, _, h => h
  | n + 1, bs, h =>
    shaBlocks n (bs.drop 128) (shaBlock h ((List.range 16).map (fun i =>
      BitVec.ofNat 64 (beNumber ((bs.drop (8 * i)).take 8)))))

/-- SHA-384 of a message. -/
def sha384 (m : List Byte) : BitVec 384 :=
  let p := shaPad m
  let h := shaBlocks (p.length / 128) p startFractions
  BitVec.ofNat 384 ((h.take 6).foldl (fun a w => 2 ^ 64 * a + w.toNat) 0)

/-! ## P-384 -/

def fieldP : Nat := 2 ^ 192 * (2 ^ 192 - 1) + (2 ^ 192 - 2 ^ 128 - 2 ^ 96 + 2 ^ 32 - 1)
def curveB : Nat := 0xb3312fa7e23ee7e4988e056be3f82d19181d9c6efe8141120314088f5013875ac656398d8a2ed19d2a85c8edd3ec2aef
def orderN : Nat := 0xffffffffffffffffffffffffffffffffffffffffffffffffc7634d81f4372ddf581a0db248b0a77aecec196accc52973
def baseX : Nat := 0xaa87ca22be8b05378eb1c71ef320ad746e1d3b628ba79b9859f741e082542a385502f25dbf55296c3a545e3872760ab7
def baseY : Nat := 0x3617de4a96262c6f5d9e98bf9292dc29f8f41dbd289a147ce9da3113b5f0b8c00a60b1ce1d7e819d7a431d7c90ea0e5f

/-- b^e modulo m, for exponents of at most `bits` bits. -/
def powMod (m : Nat) : Nat → Nat → Nat → Nat
  | 0, _, _ => 1
  | bits + 1, b, e => (if e % 2 = 1 then b else 1) * powMod m bits (b * b % m) (e / 2) % m

/-- The inverse modulo a prime below 2^384. -/
def invMod (m a : Nat) : Nat := powMod m 384 (a % m) (m - 2)

/-- A point of the curve; none is the point at infinity. -/
abbrev Point := Option (Nat × Nat)

/-- The third point of the line of slope `l` through the first of two points, reflected. -/
def chord (l x1 y1 x2 : Nat) : Point :=
  let x := (l * l + 2 * fieldP - x1 - x2) % fieldP
  some (x, (l * (x1 + fieldP - x) + fieldP - y1) % fieldP)

/-- The sum of two points. -/
def addPoints (a b : Point) : Point :=
  match a, b with
  | none, _ => b
  | _, none => a
  | some (x1, y1), some (x2, y2) =>
    if x1 = x2 then
      if y1 ≠ y2 ∨ y1 = 0 then none
      else chord (3 * (x1 * x1 + fieldP - 1) * invMod fieldP (2 * y1) % fieldP) x1 y1 x1
    else chord ((y2 + fieldP - y1) * invMod fieldP (x2 + fieldP - x1) % fieldP) x1 y1 x2

/-- A multiple of a point, by a number of at most `bits` bits. -/
def timesPoint : Nat → Nat → Point → Point
  | 0, _, _ => none
  | bits + 1, k, a =>
    let r := timesPoint bits (k / 2) (addPoints a a)
    if k % 2 = 1 then addPoints r a else r

/-- The signature with its first and second scalar verifies for a digest under a public key, x above y. -/
def ecdsaP384 (key : BitVec 768) (digest : BitVec 384) (r s : BitVec 384) : Bool :=
  let x := (key.extractLsb' 384 384).toNat
  let y := (key.extractLsb' 0 384).toNat
  let onCurve := decide (x < fieldP ∧ y < fieldP) &&
    decide (y * y % fieldP = (x * (x * x + fieldP - 3) + curveB) % fieldP)
  let inRange (v : Nat) : Bool := decide (0 < v ∧ v < orderN)
  onCurve && inRange r.toNat && inRange s.toNat &&
    (let w := invMod orderN s.toNat
     match addPoints (timesPoint 384 (digest.toNat * w % orderN) (some (baseX, baseY)))
         (timesPoint 384 (r.toNat * w % orderN) (some (x, y))) with
     | none => false
     | some (vx, _) => decide (vx % orderN = r.toNat))

end Sys2Proof.Machine
end

