-- ==== Sys2Proof/Machine/Distributor.lean ====
section
/-! DEFINITION. The distributor (R255 to R266): admission, dispatch, gang reservation, launch queues and the spillway; and
the start of a run (R19, R295). -/

namespace Sys2Proof.Machine

/-! ## Cores of a die -/

def isFenced (s : State) (n : Nat) : Bool := sget false s.fenced n

/-- The core that a test needs idle (R340). -/
def testedCore : ErrorSite → Option Nat
  | .scratchpad c _ => some c
  | .registerFile c _ => some c
  | .accumulator c _ => some c
  | _ => none

/-- A test of a unit of the core is pending: it runs in the core's next idle window, before another run (R340). -/
def testPending (s : State) (n : Nat) : Bool := s.fleet.tests.any (fun t => testedCore t.site == some n)

/-- A core that runs nothing, is not fenced, is not reserved and has no test to run. -/
def coreFree (s : State) (n : Nat) : Bool :=
  (coreOf s n).run.isNone && !isFenced s n && !(dieOf s (n / 256)).reserved.contains n && !testPending s n

def dieCores (die : Nat) : List Nat := (List.range 256).map (256 * die + ·)
def clusterCores (k : Nat) : List Nat := (List.range 8).map (8 * k + ·)

def unfenced (s : State) (cs : List Nat) : Nat := (cs.filter (fun n => !isFenced s n)).length
def freeCores (s : State) (cs : List Nat) : List Nat := cs.filter (coreFree s)

/-! ## The start of a run (R19, R295) -/

/-- STATUS at run start: 0, or handler mode for SLOT 63 (R19, R295). -/
def startStatus (slot : BitVec 6) : BitVec 5 := if slot = 63 then mkStatus false true false true false else 0

/-- The base of a core's save-area window (R308). -/
def saveWindowBase (n : Nat) : Word := BitVec.ofNat 64 (saveBase + saveSize * n)

/-- The core at run start. Its generators, scratchpad and translation caches aside, nothing of the run before is seen. A
run of SLOT 63 starts in handler mode, so its live a24 is the trap bank's (R295, R310; log 24). PC holds a multiple of 4 (R68):
the entry's ADDR, its low bits left out (log 73). The stores of the run before that still wait drain all the same (R207). -/
def startCore (c : Core) (n : Nat) (e : Entry) (j : Job) (sl : Slot) (addr : Word) (gid size gang : Nat)
    (feat : BitVec 5) (cls : BitVec 4) : Core :=
  { Core.idle with
    run := some { job := e.job, slot := e.slot, d0 := e.d0, d2 := e.d2, tabBase := sl.base, tabLen := sl.len,
                  gang := some gang }
    pc := addr &&& ~~~3#64
    s := vput (vput (vput (Vector.replicate 32 0) 3 e.d1) 4 e.d3) 5 e.d2
    a := if e.slot = 63 then vput (Vector.replicate 32 0) 24 (saveWindowBase n) else Vector.replicate 32 0
    trapA := if e.slot = 63 then Vector.replicate 8 0 else vput (Vector.replicate 8 0) 0 (saveWindowBase n)
    tlb := c.tlb, storeQ := c.storeQ, ord := c.ord, free := c.free
    holdWord := c.holdWord, holdAccess := c.holdAccess, holdStore := c.holdStore, holdCommand := c.holdCommand
    csr := { c.csr with
      flags := 0, rmode := 0, tmode := entryTmode e, rrb := 0, latb := j.latb, status := startStatus e.slot,
      speed := cls, gid := BitVec.ofNat 8 gid, gsize := BitVec.ofNat 9 size, features := feat,
      epc := if e.slot = 63 then 0 else c.csr.epc,
      ptb := (BitVec.ofNat 10 e.job).setWidth 64 <<< 48 ||| (j.ptb &&& 0x00000FFFFFFFF000#64),
      age := j.age, waitlim := j.waitlim } }

/-- The class of a core: 5 unless the speed table says otherwise (R266; log 2). -/
def classOf (s : State) (n : Nat) : BitVec 4 := sget 5 s.classes n

/-- A run of an entry whose table entry has a nonzero reserved bit takes CFI before its first word (R96), and one whose ADDR is not
a multiple of 4 takes ALIGN, as JR to it would (R68; log 73). -/
def startChecked (e : Entry) (f : FuncEntry) (s : State) : State :=
  if f.reserved then takeTrap (flt cCFI (BitVec.ofNat 64 (entryFti e))) 0 s
  else if f.addr.toNat % 4 ≠ 0 then takeTrap (flt cALIGN (f.addr.setWidth 64)) 0 s
  else s

/-- The run of an entry started on core `n` (R19, R264), with its lattice loaded (R43). -/
def startRun (s : State) (n : Nat) (e : Entry) (j : Job) (sl : Slot) (f : FuncEntry) (gid size gang : Nat) : State :=
  let c := startCore (coreOf s n) n e j sl (f.addr.setWidth 64) gid size gang (featuresOf s j.owner) (classOf s n)
  let s := setCore s n c
  let s := { s with dispatched := sset false s.dispatched (n / 256) true }
  asCore s n (fun s => startChecked e f (loadLattice s))

/-- The gangs whose members still run. -/
def gangLives (s : State) (g : Nat × Gang) : Bool := !(liveMembers s g.1 g.2).isEmpty

/-- A gang recorded: its members in ascending core number, their classes (R265, R111). -/
def newGang (s : State) (die : Nat) (members : List Nat) (e : Entry) : Nat × State :=
  let g : Gang := ⟨die, members, members.map (fun m => (classOf s m).toNat), 0, entryChunk e⟩
  (s.nextGang, { s with gangs := sput (s.gangs.filter (gangLives s)) s.nextGang g, nextGang := s.nextGang + 1 })

/-- Every member of an entry's gang started. -/
def startMembers (s : State) (die : Nat) (members : List Nat) (e : Entry) (j : Job) (sl : Slot) (f : FuncEntry) : State :=
  let (g, s) := newGang s die members e
  ((List.range members.length).zip members).foldl
    (fun s m => startRun s m.2 e j sl f m.1 members.length g) s

/-! ## The checks of a popped entry (R264) -/

/-- What the checks found: a fault-queue entry, a memory failure, or the run's slot and entry address. -/
inductive Popped where
  | gone
  | fault (code : Nat) (info : Word)
  | memory (va : Word)
  | run (j : Job) (sl : Slot) (f : FuncEntry)

def checkEntry (s : State) (e : Entry) : Popped :=
  match sfind s.jobs e.job with
  | none => .gone
  | some j =>
    if j.stopped then .fault fTEARDOWN e.d0
    else match sfind j.slots e.slot.toNat with
      | none => .fault fSLOT (e.slot.setWidth 64)
      | some sl =>
        if sl.revoked then .fault fREVOKED (sl.svn.setWidth 64)
        else if sl.len ≤ entryFti e then .fault fTABLE e.d0
        else
          let va := addVa sl.base (16 * entryFti e)
          match jobRead s e.job va 16 with
          | none => .memory va
          | some v =>
            let f := funcEntry (BitVec.ofNat 128 v)
            if 0 < entryGsz e ∧ f.gang = false then .fault fGANG e.d0
            else if entryTmode e ≠ 0 ∧ (featuresOf s j.owner).getLsbD 0 = false then .fault fFEATURE e.d0
            else .run j sl f

/-- The read of a popped entry's function-table entry, noted at its home (R279). -/
def notePopped (e : Entry) (s : State) : State :=
  match sfind s.jobs e.job with
  | none => s
  | some j => match sfind j.slots e.slot.toNat with
    | none => s
    | some sl => if sl.len ≤ entryFti e then s else noteRead e.job (addVa sl.base (16 * entryFti e)) 16 s

/-- A popped entry that does not start: the report of what the checks found. -/
def rejectEntry (s : State) (e : Entry) : Popped → State
  | .fault c i => faultEntry s e.job e c i
  | .memory va => memoryFailed s e.job va e
  | _ => s

/-! ## Gang reservation (R265) -/

/-- The cluster for a gang of 8 or fewer: most idle unfenced cores among those with enough unfenced cores, ties to the
lower number. -/
def pickCluster (s : State) (die size : Nat) : Option Nat :=
  ((List.range 32).map (32 * die + ·)).foldl (fun best k =>
    if unfenced s (clusterCores k) < size then best
    else match best with
      | none => some k
      | some b => if (freeCores s (clusterCores b)).length < (freeCores s (clusterCores k)).length then some k else best)
    none

/-- The cores that a reservation may take. -/
def reservable (d : Die) (die : Nat) : List Nat :=
  match d.reserveCluster with
  | some k => clusterCores k
  | none => dieCores die

/-- The register emptied and its cores freed. -/
def clearReservation (s : State) (die : Nat) : State :=
  setDie s die { dieOf s die with reservation := none, reserveCluster := none, reserved := [] }

/-- The reservation in progress: impossible after a fence, or more cores reserved, or the gang started, which waits until no
reserved core has a test to run (R340). -/
def reserveMore (s : State) (die : Nat) (e : Entry) : State :=
  let d := dieOf s die
  let n := entryGsz e + 1
  let pool := reservable d die
  if unfenced s pool < n then faultEntry (clearReservation s die) e.job e fGANGSIZE e.d0
  else
    let held := d.reserved.filter (fun m => !isFenced s m)
    let s := setDie s die { d with reserved := held }
    let members := held ++ (freeCores s pool).take (n - held.length)
    if members.length < n || members.any (testPending s) then setDie s die { dieOf s die with reserved := members }
    else
      let s := notePopped e (clearReservation s die)
      match checkEntry s e with
      | .run j sl f => startMembers s die (pool.filter members.contains) e j sl f
      | p => rejectEntry s e p

/-- A gang entry at the head of the ready queue moves into the empty register, and idle cores are reserved (R265). -/
def reserveHead (s : State) (die : Nat) (e : Entry) : State :=
  let s := notePopped e (readyPop s die)
  match checkEntry s e with
  | .run _ _ _ =>
    let n := entryGsz e + 1
    if n ≤ 8 then
      match pickCluster s die n with
      | none => faultEntry s e.job e fGANGSIZE e.d0
      | some k =>
        reserveMore (setDie s die { dieOf s die with reservation := some e, reserveCluster := some k, reserved := [] }) die e
    else if unfenced s (dieCores die) < n then faultEntry s e.job e fGANGSIZE e.d0
    else reserveMore (setDie s die { dieOf s die with reservation := some e, reserveCluster := none, reserved := [] }) die e
  | p => rejectEntry s e p

/-- R265: an entry with GSZ above 0 at the head is taken into the register, or the reservation goes on. -/
def execGangReserve (die : Nat) (s : State) : Out :=
  match (dieOf s die).reservation with
  | some e => .next (reserveMore s die e)
  | none =>
    match readyHead s die with
    | none => .next s
    | some e => .next (if entryGsz e = 0 then s else reserveHead s die e)

/-! ## Dispatch (R263, R264) -/

/-- The reservation in progress on a die that takes an idle core as it becomes idle (R265). -/
def reservationFor (s : State) (n : Nat) : Option Entry :=
  let d := dieOf s (n / 256)
  if (reservable d (n / 256)).contains n then d.reservation else none

/-- R264: the idle core pops a ready entry, checks it and starts the run; a gang's entry goes to the reservation register,
or waits at the head while that is occupied. A reservation in progress takes the core first (R265). -/
def execDispatch (s : State) : Out :=
  let die := s.cur / 256
  if !coreFree s s.cur then .next s
  else match reservationFor s s.cur, readyHead s die with
    | some g, _ => .next (reserveMore s die g)
    | none, none => .next s
    | none, some e =>
      if 0 < entryGsz e then
        .next (if (dieOf s die).reservation.isSome then s else reserveHead s die e)
      else
        let s := notePopped e (readyPop s die)
        match checkEntry s e with
        | .run j sl f => .next (startMembers s die [s.cur] e j sl f)
        | p => .next (rejectEntry s e p)

/-! ## Admission (R260 to R262) -/

/-- Eligible queues of a die: nonempty, of a job that is not stopped. -/
def eligible (s : State) (die : Nat) : List (Nat × Queue × Job) :=
  s.queues.filterMap (fun q =>
    if q.2.die ≠ die ∨ q.2.tail ≤ q.2.head then none
    else match sfind s.jobs q.2.job with
      | none => none
      | some j => if j.stopped then none else some (q.1, q.2, j))

/-- The functions in order after the one admitted last. -/
def vfOrder (last : Nat) : List Nat := (List.range 33).map (fun i => (last + 1 + i) % 33)

/-- The function chosen (R260). -/
def chooseVf (s : State) (d : Die) (es : List (Nat × Queue × Job)) : Option Nat :=
  let cands := (vfOrder d.lastVf).filter (fun v => es.any (fun e => e.2.2.owner == v))
  match cands.find? (fun v => decide (sget 0 d.usage v < sget 8000 s.quotas v)) with
  | some v => some v
  | none => cands.head?

/-- The jobs of a function with D raised, where no job with an eligible queue has D above 0 (R261). -/
def refill (s : State) (v : Nat) (es : List (Nat × Queue × Job)) : State :=
  if es.all (fun e => decide (e.2.2.deficit.toInt ≤ 0)) then
    { s with jobs := s.jobs.map (fun j =>
        if j.2.owner = v then
          let q : Int := (j.2.weight.toNat * 65536 : Nat)
          (j.1, { j.2 with deficit := BitVec.ofInt 64 (min (j.2.deficit.toInt + q) q) })
        else j) }
  else s

/-- The job chosen: largest D, ties to the lower number (R261). -/
def chooseJob (es : List (Nat × Queue × Job)) : Option Nat :=
  (es.foldl (fun (best : Option (Nat × Int)) e =>
    match best with
    | none => some (e.2.1.job, e.2.2.deficit.toInt)
    | some (b, d) =>
      if d < e.2.2.deficit.toInt ∨ (d = e.2.2.deficit.toInt ∧ e.2.1.job < b) then some (e.2.1.job, e.2.2.deficit.toInt) else best)
    none).map Prod.fst

/-- The queue chosen: lowest level, ties to the next number after the queue last served at that level (R262). -/
def chooseQueue (d : Die) (job : Nat) (es : List (Nat × Queue × Job)) : Option (Nat × Queue) :=
  let qs := es.map (fun e => (e.1, e.2.1))
  let low := qs.foldl (fun a q => min a q.2.level) 8
  let at_ := qs.filter (fun q => q.2.level == low)
  let last := sget 0 d.lastQueue (8 * job + low)
  match at_.find? (fun q => decide (last ≤ q.1)) with
  | some q => some q
  | none => at_.head?

/-- The admission of one record (R260 to R262). -/
def admitOne (s : State) (die : Nat) : State :=
  let es := eligible s die
  match chooseVf s (dieOf s die) es with
  | none => s
  | some v =>
    let s := refill s v (es.filter (fun e => e.2.2.owner == v))
    let es := (eligible s die).filter (fun e => e.2.2.owner == v)
    match chooseJob es with
    | none => s
    | some job =>
      match chooseQueue (dieOf s die) job (es.filter (fun e => e.2.1.job == job)) with
      | none => s
      | some (n, q) =>
        let va := addVa q.base (64 * (q.head % 2 ^ q.k))
        let d := dieOf s die
        let s := setDie { s with queues := sput s.queues n { q with head := q.head + 1, level := q.prio } } die
          { d with lastVf := v, lastQueue := sset 0 d.lastQueue (8 * job + q.level) (n + 1) }
        match jobRead s job va 64 with
        | none => memoryFailed s job va (Entry.none job)
        | some b => readyRecord (noteRead job va 64 s) die { entryOf b with job := job }

/-- R260 to R263: spilled READY records come first; then one record is admitted, while the ready queue holds fewer entries
than the die has idle cores. -/
def execAdmit (die : Nat) (s : State) : Out :=
  let d := dieOf s die
  if d.ready.isNone then .next s
  else match spillingJob s die with
    | some job => .next (reenter s die job)
    | none =>
      if readyRoom d && decide (readyCount d < (freeCores s (dieCores die)).length) then .next (admitOne s die)
      else .next s

/-! ## Launch queues, events, the spillway -/

/-- R256: the record at the head of a slice launch queue is readied on the slice's die. -/
def execLaunchQueueDrain (slice : Nat) (s : State) : Out :=
  match launchQueue s slice with
  | [] => .next s
  | e :: es => .next (readyRecord { s with launch := sset [] s.launch slice es } (slice / 128) e)

/-- R258: a die releases the records that wait on an event that is set. -/
def execEventRelease (die job : Nat) (ev : BitVec 16) (s : State) : Out :=
  match sfind s.jobs job with
  | none => .next s
  | some j =>
    match eventBit s job j ev with
    | some true => .next (releaseWaiting (noteEvent job j ev s) die job ev)
    | _ => .next (noteEvent job j ev s)

/-- R256: a spilled READY record re-enters the ready queue. -/
def execSpillwayReenter (die job : Nat) (s : State) : Out := .next (reenter s die job)

/-- R260: the accounting period ends: usage is cleared, and new quotas take effect. -/
def execVfPeriodEnd (s : State) : Out :=
  .next { s with quotas := s.nextQuotas, dies := s.dies.map (fun d => { d with usage := [] }) }

/-- R262: AGE microseconds have passed for a queue that stayed nonempty without being served. -/
def execQueueAge (n : Nat) (s : State) : Out :=
  match sfind s.queues n with
  | none => .next s
  | some q =>
    match sfind s.jobs q.job with
    | none => .next s
    | some j =>
      if j.age = 0 ∨ q.tail ≤ q.head then .next s
      else .next { s with queues := sput s.queues n { q with level := q.level - 1 } }

/-! ## Pre-emption (R306, R307) -/

/-- One member at the event: it takes PREEMPT and withdraws an arrival, or records the request; while a WAPP has a fetch-and-add left,
PREEMPT comes after it (R80, R306; log 35). -/
def preemptMember (s : State) : State :=
  if s.core.run.isNone then s
  else if inTrap s.core || s.core.pending.isSome || s.core.append.isSome then s.onCore (setPpend true)
  else takeTrap preemptFault 5 s

/-- The request delivered to every member of a gang in one event. -/
def preemptGang (s : State) (n : Nat) (g : Gang) : State :=
  (liveMembers s n g).foldl (fun s m => asCore s m.2 preemptMember) s

/-- R306: the gang of the core that moves is pre-empted. -/
def execGangPreemptEvent (s : State) : Out :=
  match gangOf s with
  | none => .next s
  | some (n, g) => .next (preemptGang s n g)

end Sys2Proof.Machine
end

