-- ==== Sys2Proof/Machine/Headgate.lean ====
section
/-! DEFINITION. Headgate commands (R269, R329): how one is framed, refused and answered; and the scheduler and system
commands (R269, R275, R291 to R293, R330, R343). -/

namespace Sys2Proof.Machine

/-! ## Framing (R269, R329) -/

def stOK : Nat := 0
def stBADARG : Nat := 1
def stEXISTS : Nat := 2
def stNOTFOUND : Nat := 3
def stFULL : Nat := 4
def stBUSY : Nat := 5
def stDENIED : Nat := 6

/-- What a command comes to: refused with a status and a reply; done with a reply; done, with the end of the long command still
to come; or accepted and not applied yet, because something must come before it, with its opcode. -/
inductive CmdResult where
  | refused (status : Nat) (reply : List Word)
  | done (reply : List Word) (s : State)
  | finishLater (reply : List Word) (s : State)
  | later (opc : Nat) (s : State)

/-- D1 to D7 of RESULT. -/
def replyWords (ws : List Word) : List Word := (ws ++ [0, 0, 0, 0, 0, 0, 0]).take 7

/-- The RESULT of an accepted command (R329). -/
def setResult (s : State) (fn : Nat) (done : Bool) (status : Nat) (reply : List Word) : State :=
  let h := hostFn s fn
  setHostFn s fn { h with seq := h.seq + 1, done := done, status := BitVec.ofNat 8 status, reply := replyWords reply }

/-- The RESULT of an accepted command that waits to be applied (R329). -/
def holdCommand (s : State) (fn opc : Nat) (o : CmdOps) : State :=
  let s := setResult s fn false stOK []
  setHostFn s fn { hostFn s fn with pending := some (opc, o) }

/-- Bits of the operands that a command's row names; every other bit is reserved (R269). -/
def operandsOk (o : CmdOps) (masks : List Word) : Bool :=
  let m (i : Nat) : Word := masks.getD i 0
  decide (o.res = 0) && decide (o.o1 &&& ~~~m 0 = 0) && decide (o.o2 &&& ~~~m 1 = 0) && decide (o.o3 &&& ~~~m 2 = 0) &&
    decide (o.o4 &&& ~~~m 3 = 0) && decide (o.o5 &&& ~~~m 4 = 0) && decide (o.o6 &&& ~~~m 5 = 0) &&
    decide (o.o7 &&& ~~~m 6 = 0)

def allBits : Word := BitVec.allOnes 64

/-- An INVAL waits for accesses to be applied: it is final when it is applied, so every host write and read after it waits behind
it (R218, R277, R329; log 49). -/
def hostWaits (s : State) : Bool :=
  (List.range 33).any (fun fn => match (hostFn s fn).pending with | some (opc, _) => opc == 0x202 | none => false)

/-- One command of a function (R329): refused while the previous command has DONE = 0; DENIED to a VF where it is the
PF's; BADARG for a reserved bit; else as its body gives. A long command that ends at once raises CMDDONE. Outside STATE 1
the headgate accepts only FWSTAGE (R337). -/
def command (fn : Nat) (pfOnly long boot : Bool) (masks : List Word) (o : CmdOps) (body : State → CmdResult)
    (s : State) : Out :=
  let h := hostFn s fn
  if s.bootState ≠ 1 && !boot then .next s
  else if !h.done then .next (setHostFn s fn { h with busy := h.busy + 1 })
  else if hostWaits s then .next s
  else
    let finish (s : State) (status : Nat) (reply : List Word) : State :=
      let s := setResult s fn true status reply
      if long then raiseIrq s fn .cmddone else s
    if pfOnly && decide (fn ≠ 0) then .next (finish s stDENIED [])
    else if !operandsOk o masks then .next (finish s stBADARG [])
    else match body s with
      | .refused st reply => .next (finish s st reply)
      | .done reply s' => .next (finish s' stOK reply)
      | .finishLater reply s' => .next (setResult s' fn false stOK reply)
      | .later opc s' => .next (holdCommand s' fn opc o)

/-- A job that a function may name (R269). -/
def ownJob (s : State) (fn job : Nat) : Option Job :=
  match sfind s.jobs job with
  | none => none
  | some j => if fn = 0 ∨ j.owner = fn then some j else none

/-! ## Plain accesses to T0 -/

/-- A store narrower than a line at a T0 address, under given keys: the line keeps its tag, and an UNINIT line becomes RAW zeros
(R328). -/
def storeUnder (ver : Nat) (s : State) (pa n v : Nat) : State :=
  let l := clearLine s ver pa
  let l : Line := if isUninit l.tag then ⟨rawTag, 0⟩ else l
  let q := s.mem.poison
  let m := putLine s.mem pa ver ⟨l.tag, patchLine l.data (pa % 128) n v⟩
  noteStored pa n { s with mem := { m with poison := clearCovered q pa n } }

/-- A store of the hardware's own tables in T0, which are in the clear. -/
def physStore (s : State) (pa n v : Nat) : State := storeUnder 0 s pa n v

/-- T0 addresses have 44 bits (R270 to R273). -/
def inT0 (pa : Nat) : Bool := decide (pa < 2 ^ 44)

/-! ## Jobs (R269) -/

/-- R269. -/
def execJobcreate (fn : Nat) (o : CmdOps) (s : State) : Out :=
  command fn false false false [0xFF03FF#64, allBits, allBits, allBits, allBits, 0x00000F00000FFFFF#64, 0xFFFFFFFF#64] o
    (fun s =>
      let job := bitsNat o.o1 0 10
      let w : BitVec 8 := o.o1.extractLsb' 16 8
      let q := 6 + bitsNat o.o6 40 4
      if w = 0 ∨ o.o3.toNat % 1024 ≠ 0 ∨ o.o4.toNat % 8192 ≠ 0 ∨ o.o5.toNat % 4096 ≠ 0 ∨ 16 < q then .refused stBADARG []
      else if (sfind s.jobs job).isSome then .refused stEXISTS []
      else
        let j : Job := { owner := fn, weight := w, deficit := 0, ptb := o.o2, latb := o.o3, evbase := o.o4, fqbase := o.o5,
                         age := o.o6.extractLsb' 0 20, q := q, waitlim := o.o7.extractLsb' 0 32, stopped := false,
                         slots := [], freeBlocks := 0, chainHead := 0, chainTail := 0, kid := 0, blocks := 0, spillDie := [] }
        .done [] (noteTables { s with jobs := sput s.jobs job j })) s

/-- R269. -/
def execJobstop (fn : Nat) (o : CmdOps) (s : State) : Out :=
  command fn false false false [0x3FF#64] o (fun s =>
    let job := bitsNat o.o1 0 10
    match ownJob s fn job with
    | none => .refused stNOTFOUND []
    | some _ => .done [] (stopJob s job)) s

/-- A run of the job runs. -/
def jobRuns (s : State) (job : Nat) : Bool :=
  (allCores s).any (fun e => match e.2.run with | some r => r.job == job | none => false)

/-- The entries of a die's ready queue. -/
def readyEntries (s : State) (die : Nat) : List Entry :=
  match (dieOf s die).ready with
  | none => []
  | some r => (List.range (r.tail - r.head)).map (fun i =>
      entryOf (bytesAt s 0 (r.base + 64 * ((r.head + i) % 2 ^ r.k)) 64))

/-- Some record of the job stands in a launch queue, a ready queue, a wait slot or its spillway. -/
def jobRecords (s : State) (job : Nat) : Bool :=
  s.launch.any (fun q => q.2.any (fun e => e.job == job)) ||
  (List.range 4).any (fun d =>
    (readyEntries s d).any (fun e => e.job == job) ||
    (dieOf s d).waiting.any (fun w => w.2.2.job == job)) ||
  !(spillEntries s job).isEmpty

/-- R269. -/
def execJobdestroy (fn : Nat) (o : CmdOps) (s : State) : Out :=
  command fn false false false [0x3FF#64] o (fun s =>
    let job := bitsNat o.o1 0 10
    match ownJob s fn job with
    | none => .refused stNOTFOUND []
    | some j =>
      if !j.stopped || jobRuns s job || jobRecords s job then .refused stBUSY []
      else .done [] { s with jobs := sdel s.jobs job, queues := s.queues.filter (fun q => q.2.job ≠ job) }) s

/-! ## Queues (R254, R269) -/

/-- R269. -/
def execQcreate (fn : Nat) (o : CmdOps) (s : State) : Out :=
  command fn false false false [0x000F030703FF0FFF#64, allBits] o (fun s =>
    let n := bitsNat o.o1 0 12
    let job := bitsNat o.o1 16 10
    let k := 4 + bitsNat o.o1 48 4
    if 16 < k ∨ o.o2.toNat % 4096 ≠ 0 then .refused stBADARG []
    else if (ownJob s fn job).isNone then .refused stNOTFOUND []
    else if (sfind s.queues n).isSome then .refused stEXISTS []
    else
      let prio := bitsNat o.o1 32 3
      let q : Queue := { job := job, die := bitsNat o.o1 40 2, prio := prio, k := k, base := o.o2, head := 0, tail := 0,
                         level := prio }
      .done [] { s with queues := sput s.queues n q }) s

/-- A queue that a function may name. -/
def ownQueue (s : State) (fn n : Nat) : Option Queue :=
  match sfind s.queues n with
  | none => none
  | some q => if (ownJob s fn q.job).isSome then some q else none

/-- R269. -/
def execQdestroy (fn : Nat) (o : CmdOps) (s : State) : Out :=
  command fn false false false [0xFFF#64] o (fun s =>
    let n := bitsNat o.o1 0 12
    match ownQueue s fn n with
    | none => .refused stNOTFOUND []
    | some q => if q.head ≠ q.tail then .refused stBUSY [] else .done [] { s with queues := sdel s.queues n }) s

/-- R269: a record pushed with ORIGIN 0. A VF may not name slot 63 (R295); an entry that cannot be written is BADARG
(R351). -/
def execQpush (fn : Nat) (o : CmdOps) (s : State) : Out :=
  command fn false false false [0x3F0FFF#64, allBits, allBits, allBits, allBits] o (fun s =>
    let n := bitsNat o.o1 0 12
    let slot : BitVec 6 := o.o1.extractLsb' 16 6
    match ownQueue s fn n with
    | none => .refused stNOTFOUND []
    | some q =>
      if bitsNat o.o2 30 2 ≠ 0 ∨ (slot = 63 ∧ fn ≠ 0) then .refused stBADARG []
      else if 2 ^ q.k ≤ q.tail - q.head then .refused stFULL []
      else
        let e : Entry := ⟨o.o2, o.o3, o.o4, o.o5, 0, slot, q.job⟩
        match jobWrite s q.job (addVa q.base (64 * (q.tail % 2 ^ q.k))) 64 (entryBits e 0 0 false) true with
        | none => .refused stBADARG []
        | some s => .done [] (queuePush s n q)) s

/-! ## Spillway blocks and events -/

/-- R269: a block joins the job's free list, linked through NEXT (R259). -/
def execSpilladd (fn : Nat) (o : CmdOps) (s : State) : Out :=
  command fn false false false [0x3FF#64, allBits] o (fun s =>
    let job := bitsNat o.o1 0 10
    match ownJob s fn job with
    | none => .refused stNOTFOUND []
    | some j =>
      if o.o2.toNat % 4096 ≠ 0 then .refused stBADARG []
      else match jobWrite s job o.o2 24 (headerBits j.freeBlocks 0 0) true with
        | none => .refused stBADARG []
        | some s => .done [] { s with jobs := sput s.jobs job { j with freeBlocks := o.o2, blocks := j.blocks + 1 } }) s

def evhostMask : List Word := [0x1FFFF03FF#64]

/-- EVHOST (R269): as EVSET or, by OP, as EVCLR, in the event's order. -/
def evhostBody (fn : Nat) (o : CmdOps) (s : State) : CmdResult :=
  let job := bitsNat o.o1 0 10
  let ev : BitVec 16 := o.o1.extractLsb' 16 16
  match ownJob s fn job with
  | none => .refused stNOTFOUND []
  | some j =>
    if !o.o1.getLsbD 32 then .done [] (completeEvent s job ev)
    else if ev = 0 then .done [] s
    else match putEventBit s job j ev false with
      | some s => .done [] s
      | none => .done [] (memoryFailed s job (eventVa j ev) (Entry.none job))

/-- R269: EVHOST with OP 0. -/
def execEvhostSet (fn : Nat) (o : CmdOps) (s : State) : Out := command fn false false false evhostMask o (evhostBody fn o) s

/-- R269: EVHOST with OP 1. -/
def execEvhostClear (fn : Nat) (o : CmdOps) (s : State) : Out := command fn false false false evhostMask o (evhostBody fn o) s

/-! ## The distributor's settings -/

/-- R263: the die's ready queue, before its first dispatch; entries that already stand in a ready queue move over. -/
def execRqset (fn : Nat) (o : CmdOps) (s : State) : Out :=
  command fn true false false [0x0000001F00000003#64, allBits] o (fun s =>
    let die := bitsNat o.o1 0 2
    let k := bitsNat o.o1 32 5
    let base := o.o2.toNat
    if k < 10 ∨ 20 < k ∨ base % 4096 ≠ 0 ∨ 2 ^ 44 < base + 64 * 2 ^ k then .refused stBADARG []
    else if sget false s.dispatched die then .refused stBUSY []
    else
      let es := readyEntries s die
      let s := setDie s die { dieOf s die with ready := some ⟨k, base, 0, 0⟩ }
      .done [] (es.foldl (fun s e => readyPush s die e) s)) s

/-- R260: a VF's quota from the next period on. -/
def execVfslice (fn : Nat) (o : CmdOps) (s : State) : Out :=
  command fn true false false [0x1F#64, allBits] o (fun s =>
    if 256000 < o.o2.toNat then .refused stBADARG []
    else .done [] { s with nextQuotas := sset 8000 s.nextQuotas (bitsNat o.o1 0 5 + 1) o.o2.toNat }) s

/-- A core fenced; a reservation that this makes impossible is reported (R265, R266). -/
def setFence (s : State) (n : Nat) : State :=
  let s := { s with fenced := sset false s.fenced n true }
  let die := n / 256
  let d := dieOf s die
  match d.reservation with
  | none => s
  | some e =>
    if unfenced s (reservable d die) < entryGsz e + 1 then
      faultEntry (clearReservation s die) e.job e fGANGSIZE e.d0
    else setDie s die { d with reserved := d.reserved.filter (· ≠ n) }

/-- R266: a class lowered or a fence set; raising or clearing is DENIED. -/
def execSpeedset (fn : Nat) (o : CmdOps) (s : State) : Out :=
  command fn true false false [0x10F03FF#64] o (fun s =>
    let n := bitsNat o.o1 0 10
    let c : BitVec 4 := o.o1.extractLsb' 16 4
    let f := o.o1.getLsbD 24
    if classOf s n < c ∨ (isFenced s n = true ∧ f = false) then .refused stDENIED []
    else
      let s := { s with classes := sset 5 s.classes n c }
      .done [] (if f then setFence s n else s)) s

/-! ## Page tables (R271, R277, R293) -/

/-- A table entry written, which may map a compressed page (R293). -/
def mapsCompressed (e : Word) (s : State) : State :=
  { s with compMapped := s.compMapped || (leafV e && decide (leafTier e ≠ 3) && leafComp e) }

/-- R293: compare-and-swap of a page-table entry at its home. -/
def execPtecas (fn : Nat) (o : CmdOps) (s : State) : Out :=
  command fn true false false [allBits, allBits, allBits] o (fun s =>
    let pa := o.o1.toNat
    if pa % 8 ≠ 0 ∨ !inT0 pa then .refused stBADARG []
    else
      let old := tableEntry s pa
      let s := meetHeld pa 8 s
      .done [old] (if old = o.o2 then mapsCompressed o.o3 (physStore s pa 8 o.o3.toNat) else s)) s

/-- INVAL (R277, R293): applied once no access translated through an entry of the range is still to be applied. -/
def invalBody (fn : Nat) (o : CmdOps) (s : State) : CmdResult :=
  let job := bitsNat o.o1 0 10
  let n := o.o3.toNat
  if (ownJob s fn job).isNone then .refused stNOTFOUND []
  else if n = 0 ∨ 2 ^ 20 < n then .refused stBADARG []
  else
    let n := if o.o1.getLsbD 63 then 0 else n
    if rangeBusy s job o.o2 n then .later 0x202 s else .done [] (invalidate s job o.o2 n)

/-- R277, R293. -/
def execInval (fn : Nat) (o : CmdOps) (s : State) : Out :=
  command fn false false false [0x80000000000003FF#64, allBits, allBits] o (invalBody fn o) s

/-! ## Migration and pools -/

/-- R279, R293. -/
def execMigcfg (fn : Nat) (o : CmdOps) (s : State) : Out :=
  command fn true false false [0x0000FFFFFFFF0001#64, allBits] o (fun s =>
    let epoch := o.o2.toNat
    if epoch < 100 ∨ 1000000 < epoch then .refused stBADARG []
    else .done [] { s with mig := { s.mig with
      enabled := o.o1.getLsbD 0, hot := bitsNat o.o1 16 16, cold := bitsNat o.o1 32 16, epoch := epoch } }) s

/-- R279, R293: a free frame for the engine's list of a tier. -/
def execMigfree (fn : Nat) (o : CmdOps) (s : State) : Out :=
  command fn true false false [1, allBits] o (fun s =>
    let f := o.o2.toNat
    if f % 2 ^ 16 ≠ 0 ∨ !inT0 f then .refused stBADARG []
    else if o.o1.getLsbD 0 then
      (if 4096 ≤ s.mig.freeT1.length then .refused stFULL []
       else .done [] { s with mig := { s.mig with freeT1 := s.mig.freeT1 ++ [f] } })
    else
      (if 4096 ≤ s.mig.freeT0.length then .refused stFULL []
       else .done [] { s with mig := { s.mig with freeT0 := s.mig.freeT0 ++ [f] } })) s

/-- R285: the pool's window and stack, before the first compressed page is mapped. -/
def execOvfset (fn : Nat) (o : CmdOps) (s : State) : Out :=
  command fn true false false [allBits, allBits, allBits] o (fun s =>
    let base := o.o1.toNat
    let stack := o.o2.toNat
    let n := o.o3.toNat
    if base % 2 ^ 16 ≠ 0 ∨ !inT0 base ∨ stack % 4096 ≠ 0 ∨ 2 ^ 24 < n ∨ 2 ^ 44 < stack + 4 * n then .refused stBADARG []
    else if s.compMapped || someLeaf s (fun e => leafComp e.leaf) then .refused stBUSY []
    else .done [] { s with pool := some ⟨base, stack, n, 0, [], false, []⟩ }) s

/-- The end of a period in which the stack was empty: writebacks that wait may go on, and the microseconds they waited are
counted (R285; log 9). -/
def endPeriod (p : Pool) (s : State) : State :=
  if p.waiting.isEmpty then s
  else
    let k := s.core.free
    { s with core := { s.core with free := k + 1 }
             fleet := { s.fleet with overflowWait := s.fleet.overflowWait + Config.runMicros k } }

/-- An index pushed on the pool's stack (R285). -/
def poolPush (s : State) (p : Pool) (i : Nat) : State :=
  let s := physStore s (p.stackAt + 4 * p.depth) 4 i
  if p.depth = 0 then endPeriod p { s with pool := some { p with depth := 1, raised := false } }
  else { s with pool := some { p with depth := p.depth + 1 } }

def pushIndices (s : State) : List Nat → State
  | [] => s
  | i :: is => match s.pool with
    | none => s
    | some p => pushIndices (poolPush s p i) is

/-- R285: the 128 indices of a 64 KiB chunk of the window. -/
def execOvfadd (fn : Nat) (o : CmdOps) (s : State) : Out :=
  command fn true false false [allBits] o (fun s =>
    let a := o.o1.toNat
    match s.pool with
    | none => .refused stBADARG []
    | some p =>
      if a % 2 ^ 16 ≠ 0 ∨ a < p.base ∨ p.base + 512 * 2 ^ 24 < a + 2 ^ 16 ∨ 2 ^ 44 < a + 2 ^ 16 then .refused stBADARG []
      else if p.capacity < p.depth + 128 then .refused stFULL []
      else .done [] (pushIndices s ((List.range 128).map ((a - p.base) / 512 + ·)))) s

/-! ## The noria's ring (R289) -/

/-- R289: the die's ring, while it is empty. -/
def execNorset (fn : Nat) (o : CmdOps) (s : State) : Out :=
  command fn true false false [0xF0003#64, allBits] o (fun s =>
    let die := bitsNat o.o1 0 2
    let k := 4 + bitsNat o.o1 16 4
    let base := o.o2.toNat
    if 12 < k ∨ base % 4096 ≠ 0 ∨ 2 ^ 44 < base + 32 * 2 ^ k then .refused stBADARG []
    else
      let d := dieOf s die
      if !d.noriaQ.isEmpty then .refused stBUSY []
      else .done [] (setDie s die { d with noria := some (k, base), noriaTail := 0, noriaAt := 0, noriaDone := [] })) s

/-- R289: an entry appended to a die's ring. -/
def execNorpush (fn : Nat) (o : CmdOps) (s : State) : Out :=
  command fn false false false [3, 0x000000FFFFFF03FF#64, allBits, allBits, allBits] o (fun s =>
    let die := bitsNat o.o1 0 2
    let rm := bitsNat o.o2 21 3
    let n := o.o4.toNat
    let d := dieOf s die
    if ¬(rm = 0 ∨ rm = 4) ∨ !narrowFmt (bitsNat o.o2 16 5) ∨ bitsNat o.o2 24 16 = 0 ∨ n = 0 ∨ 2 ^ 32 < n ∨
        o.o3.toNat % 128 ≠ 0 then .refused stBADARG []
    else match d.noria with
      | none => .refused stNOTFOUND []
      | some (k, base) =>
        if (ownJob s fn (bitsNat o.o2 0 10)).isNone then .refused stNOTFOUND []
        else if 2 ^ k ≤ d.noriaQ.length then .refused stFULL []
        else
          let v := joinFields 64 [o.o2.toNat, o.o3.toNat, o.o4.toNat, o.o5.toNat]
          let s := physWrite s (base + 32 * (d.noriaTail % 2 ^ k)) 32 v
          let d := dieOf s die
          .done [] (setDie s die { d with
            noriaQ := d.noriaQ ++ [[o.o2, o.o3, o.o4, o.o5]], noriaTail := d.noriaTail + 1 })) s

/-! ## Slices, keys, ranges -/

/-- R292: the slices' stochastic generators. -/
def execSrslice (fn : Nat) (o : CmdOps) (s : State) : Out :=
  command fn true false false [0x81FF#64, 0xFFFFFFFF#64] o (fun s =>
    let v : BitVec 32 := if o.o2.extractLsb' 0 32 = 0 then 1 else o.o2.extractLsb' 0 32
    if o.o1.getLsbD 15 then
      .done [] { s with sliceGen := (List.range 512).foldl (fun g k => sset 0 g k (v.rotateLeft (k % 32))) s.sliceGen }
    else .done [] { s with sliceGen := sset 0 s.sliceGen (bitsNat o.o1 0 9) v }) s

/-- R275, R293: the key slot of a job. -/
def execKeyjob (fn : Nat) (o : CmdOps) (s : State) : Out :=
  command fn true false false [0x3F03FF#64] o (fun s =>
    let job := bitsNat o.o1 0 10
    let kid : BitVec 6 := o.o1.extractLsb' 16 6
    match sfind s.jobs job with
    | none => .refused stNOTFOUND []
    | some j =>
      if kid ≠ 0 ∧ s.jobs.any (fun e => e.1 != job && e.2.kid == kid) then .refused stEXISTS []
      else .done [] { s with jobs := sput s.jobs job { j with kid := kid } }) s

/-- What is left of a range on both sides of bytes [base, base + size) that are declared anew (R291). -/
def rangeRest (base size : Nat) (r : T1Range) : List T1Range :=
  let stop := r.base + r.size
  if stop ≤ base ∨ base + size ≤ r.base then [r]
  else (if r.base < base then [{ r with size := base - r.base }] else []) ++
    (if base + size < stop then [{ r with base := base + size, size := stop - (base + size) }] else [])

/-- R291: a T1 range and its kind; an older range keeps what the new one does not cover. -/
def execCxlrange (fn : Nat) (o : CmdOps) (s : State) : Out :=
  command fn true false false [0x301#64, allBits, allBits] o (fun s =>
    let base := o.o2.toNat
    let size := o.o3.toNat
    let meets (lo n : Nat) : Bool := decide (lo < base + size) && decide (base < lo + n)
    if bitsNat o.o1 8 2 = 3 ∨ base % 2 ^ 30 ≠ 0 ∨ size % 2 ^ 30 ≠ 0 ∨ size = 0 ∨ 2 ^ 44 < base + size then
      .refused stBADARG []
    else if someLeaf s (fun e => leafTier e.leaf == 1 && meets (leafFrame e.leaf) (leafSize e.level)) then .refused stBUSY []
    else
      let kind : RangeKind := match bitsNat o.o1 8 2 with | 0 => .tagged | 1 => .shadow | _ => .untagged
      .done [] { s with mem := { s.mem with
        ranges := s.mem.ranges.flatMap (rangeRest base size) ++ [⟨bitsNat o.o1 0 1, kind, base, size⟩] } }) s

/-! ## System commands (R330) -/

/-- The gangs of a job that run. -/
def jobGangs (s : State) (job : Nat) : List (Nat × Gang) :=
  s.gangs.filter (fun g => (liveMembers s g.1 g.2).any (fun m =>
    match (coreOf s m.2).run with | some r => r.job == job | none => false))

/-- R330: pre-emption of the gang on a core, or of every gang of a job. -/
def execPreempt (fn : Nat) (o : CmdOps) (s : State) : Out :=
  command fn false true false [0x80000000000003FF#64, 0x3FF#64] o (fun s =>
    let job := bitsNat o.o1 0 10
    if (ownJob s fn job).isNone then .refused stNOTFOUND []
    else
      let gs := (jobGangs s job).filter (fun g =>
        o.o1.getLsbD 63 || (liveMembers s g.1 g.2).any (fun m => m.2 == bitsNat o.o2 0 10))
      if gs.isEmpty then .done [0] s
      else .finishLater [BitVec.ofNat 64 gs.length] (gs.foldl (fun s g => preemptGang s g.1 g.2) s)) s

/-- R330: a line rewritten whole with its own data and a new tag. -/
def execTagset (fn : Nat) (o : CmdOps) (s : State) : Out :=
  command fn false false false [0x3FF#64, allBits, 0xFFFFFFFF#64] o (fun s =>
    let job := bitsNat o.o1 0 10
    if (ownJob s fn job).isNone then .refused stNOTFOUND []
    else if o.o2.toNat % 128 ≠ 0 then .refused stBADARG []
    else match jobPage s job .store o.o2 with
      | none => .refused stBADARG []
      | some p => .done [] (noteAccess job p o.o2
        (writeLine (meetHeld (p.place o.o2) 128 s) p o.o2 ⟨o.o3.extractLsb' 0 32, (mergeLine s p o.o2).data⟩))) s

/-- R330: a line's stored tag, and the tag that a read yields. -/
def execTagget (fn : Nat) (o : CmdOps) (s : State) : Out :=
  command fn false false false [0x3FF#64, allBits] o (fun s =>
    let job := bitsNat o.o1 0 10
    if (ownJob s fn job).isNone then .refused stNOTFOUND []
    else if o.o2.toNat % 128 ≠ 0 then .refused stBADARG []
    else match jobPage s job .load o.o2 with
      | none => .refused stBADARG []
      | some p =>
        let l := clearLine s (pageVersion s p) (p.place o.o2)
        .done [l.tag.setWidth 64, (readLine s p o.o2).tag.setWidth 64] (noteAccess job p o.o2 (meetHeld (p.place o.o2) 128 s))) s

/-- R330, R319: a VF's feature mask, and whether its LOADs need a signature. -/
def execFeatset (fn : Nat) (o : CmdOps) (s : State) : Out :=
  command fn true false false [0x1F#64, 0x11F#64] o (fun s =>
    let v := bitsNat o.o1 0 5 + 1
    .done [] { s with featMask := sset 0x1F s.featMask v (o.o2.extractLsb' 0 5),
                      sigReq := sset false s.sigReq v (o.o2.getLsbD 8) }) s

def keyBits (o : CmdOps) : BitVec 256 := o.o5 ++ o.o4 ++ o.o3 ++ o.o2

/-- A key slot before it was given keys. -/
def keySlotOf (s : State) (kid : Nat) : KeySlot :=
  match sfind s.keys kid with | some k => k | none => ⟨0, 0, none⟩

def keysetMask : List Word := [0x13F#64, allBits, allBits, allBits, allBits]

/-- KEYSET (R330, R287): PART 0 stages the data key; PART 1 gives the tweak key, and the slot's keys change. -/
def keysetBody (o : CmdOps) (s : State) : CmdResult :=
  let kid := bitsNat o.o1 0 6
  let k := keySlotOf s kid
  if kid = 0 then .refused stBADARG []
  else if !o.o1.getLsbD 8 then .done [] { s with keys := sput s.keys kid { k with staged := some (keyBits o) } }
  else match k.staged with
    | none => .refused stBADARG []
    | some d => .done [] { s with keys := sput s.keys kid ⟨d, keyBits o, none⟩ }

/-- R330: KEYSET with PART 0. -/
def execKeysetStage (fn : Nat) (o : CmdOps) (s : State) : Out := command fn true false false keysetMask o (keysetBody o) s

/-- R330: KEYSET with PART 1. -/
def execKeysetInstall (fn : Nat) (o : CmdOps) (s : State) : Out := command fn true false false keysetMask o (keysetBody o) s

/-- The 48 bytes of O2 to O7 as a big-endian number. -/
def bigEndian48 (o : CmdOps) : BitVec 384 :=
  let v := joinFields 64 [o.o2.toNat, o.o3.toNat, o.o4.toNat, o.o5.toNat, o.o6.toNat, o.o7.toNat]
  BitVec.ofNat 384 ((List.range 48).foldl (fun acc i => acc * 256 + v / 2 ^ (8 * i) % 256) 0)

def vkeysetMask : List Word := [0x107#64, allBits, allBits, allBits, allBits, allBits, allBits]

/-- VKEYSET (R330): PART 0 stages x; PART 1 gives y, and the key is installed where the digest of 0x04, x and y is the fused
one. -/
def vkeysetBody (o : CmdOps) (s : State) : CmdResult :=
  let id := bitsNat o.o1 0 3
  if !o.o1.getLsbD 8 then .done [] { s with vkeyX := sput s.vkeyX id (bigEndian48 o) }
  else match sfind s.vkeyX id with
    | none => .refused stBADARG []
    | some x =>
      let y := bigEndian48 o
      if sha384 (4#8 :: beBytes 48 x.toNat ++ beBytes 48 y.toNat) = Config.fusedDigest id then
        .done [] { s with vkeys := sput s.vkeys id (x ++ y : BitVec 768), vkeyX := sdel s.vkeyX id }
      else .refused stBADARG []

/-- R330: VKEYSET with PART 0. -/
def execVkeysetStage (fn : Nat) (o : CmdOps) (s : State) : Out := command fn true false false vkeysetMask o (vkeysetBody o) s

/-- R330: VKEYSET with PART 1. -/
def execVkeysetInstall (fn : Nat) (o : CmdOps) (s : State) : Out := command fn true false false vkeysetMask o (vkeysetBody o) s

/-- A signed object below the count (R320). -/
def revokes (n : BitVec 32) (sl : Slot) : Bool := sl.signed && decide (sl.svn < n)

/-- R320, R330: the anti-rollback counter raised, and every older object revoked and purged. -/
def execSvninc (fn : Nat) (o : CmdOps) (s : State) : Out :=
  command fn true true false [0xFFFFFFFF#64] o (fun s =>
    let n : BitVec 32 := o.o1.extractLsb' 0 32
    if n ≤ s.svnCount then .refused stBADARG []
    else
      let old (job : Nat) (k : BitVec 6) : Bool := match sfind s.jobs job with
        | none => true
        | some j => match sfind j.slots k.toNat with | none => true | some sl => revokes n sl
      .finishLater [n.setWidth 64] { s with
        svnCount := n
        verified := s.verified.filter (fun e => !old e.1 e.2)
        jobs := s.jobs.map (fun j => (j.1, { j.2 with
          slots := j.2.slots.map (fun e => (e.1, if revokes n e.2 then { e.2 with revoked := true } else e.2)) })) }) s

/-- R331: an interrupt source mapped to a vector. -/
def execIntmap (fn : Nat) (o : CmdOps) (s : State) : Out :=
  command fn false false false [0x3F03FF00FF#64] o (fun s =>
    let src := bitsNat o.o1 0 8
    let job := bitsNat o.o1 16 10
    let v := bitsNat o.o1 32 6
    if 4 < src ∨ (src ≠ 1 ∧ job ≠ 0) then .refused stBADARG []
    else if src = 1 then
      (if (ownJob s fn job).isNone then .refused stNOTFOUND []
       else .done [] { s with faultMap := sput s.faultMap job v })
    else .done [] { s with intmap := sput s.intmap (8 * fn + src) v }) s

/-! ## Network queues (R335, R336) -/

def netqpMask : List Word :=
  [0x13FFF03FF#64, allBits, 0xFFFFFFFF00FFFFFF#64, allBits, allBits, allBits, 0xFFFFFFFF#64]

/-- A queue pair bound to a port and a job; its status doubleword reads READY (R330, R334). -/
def netqpCreate (fn : Nat) (o : CmdOps) (s : State) : CmdResult :=
  let qp := bitsNat o.o1 0 10
  let job := bitsNat o.o1 20 10
  if (ownJob s fn job).isNone then .refused stNOTFOUND []
  else if (sfind s.netqs qp).isSome then .refused stEXISTS []
  else if o.o2.toNat % 8 ≠ 0 then .refused stBADARG []
  else match jobWrite s job o.o2 8 0 false with
    | none => .refused stBADARG []
    | some s =>
      let q : NetQueue := { port := bitsNat o.o1 16 4, job := job, statusVa := o.o2, remote := [o.o3, o.o4, o.o5, o.o6],
                            localKey := o.o7.extractLsb' 0 32, ready := true, refused := false, dropped := 0, started := 0 }
      .done [] { s with netqs := sput s.netqs qp q }

/-- A queue pair removed; BUSY with commands in flight (R330). -/
def netqpDestroy (fn : Nat) (o : CmdOps) (s : State) : CmdResult :=
  let qp := bitsNat o.o1 0 10
  match sfind s.netqs qp with
  | none => .refused stNOTFOUND []
  | some q =>
    if (ownJob s fn q.job).isNone then .refused stNOTFOUND []
    else if (allCores s).any (fun c => c.2.ycmds.any (fun y => y.qp == some qp)) then .refused stBUSY []
    else .done [] { s with netqs := sdel s.netqs qp }

/-- NETQP: OP creates or destroys. -/
def netqpBody (fn : Nat) (o : CmdOps) (s : State) : CmdResult :=
  if o.o1.getLsbD 32 then netqpDestroy fn o s else netqpCreate fn o s

/-- R330, R334: NETQP with OP 0. -/
def execNetqpCreate (fn : Nat) (o : CmdOps) (s : State) : Out := command fn false false false netqpMask o (netqpBody fn o) s

/-- R330: NETQP with OP 1. -/
def execNetqpDestroy (fn : Nat) (o : CmdOps) (s : State) : Out := command fn false false false netqpMask o (netqpBody fn o) s

/-! ## Firmware (R337) -/

/-- The signature of an image holds under the fused firmware key. -/
def firmwareSigned (img : List Byte) : Bool :=
  let (r, t) := Config.firmwareSignature img
  ecdsaP384 Config.firmwareKey (sha384 img) r t

/-- The image of a flash bank. -/
def flashImage (s : State) (bank : Bool) : List Byte :=
  match vat none s.flash (if bank then 1 else 0) with | some img => img | none => Config.flashImage (if bank then 1 else 0)

/-- R337: an image verified and written into the bank that was not booted, which the next reset boots. -/
def execFwstage (fn : Nat) (o : CmdOps) (s : State) : Out :=
  command fn true true true [allBits, allBits] o (fun s =>
    let pa := o.o1.toNat
    let n := o.o2.toNat
    if 2 ^ 24 < n ∨ 2 ^ 44 < pa + n then .refused stBADARG []
    else
      let img := (List.range n).map (fun i => BitVec.ofNat 8 (bytesAt s 0 (pa + i) 1))
      if !firmwareSigned img then .finishLater [1] s
      else if Config.firmwareSvn img < s.svnCount then .finishLater [2] s
      else .finishLater [0] { s with flash := vput s.flash (if s.bootBank then 0 else 1) (some img), fwFirst := !s.bootBank }) s

/-! ## Power (R343) -/

/-- R343: the budget from the next grant microsecond on. -/
def execPwrcap (fn : Nat) (o : CmdOps) (s : State) : Out :=
  command fn true false false [0xFFF#64] o (fun s =>
    let w := bitsNat o.o1 0 12
    if w < 1200 ∨ 2400 < w then .refused stBADARG []
    else .done [BitVec.ofNat 64 s.fleet.nextBudget] { s with fleet := { s.fleet with nextBudget := w } }) s

end Sys2Proof.Machine
end

