-- ==== Sys2Proof/Machine/Transc.lean ====
section
/-! DEFINITION. The transcendental words (R62 to R66): the FP32 reference algorithms, the rounding to FP16 and BF16, and
the correctly rounded FP64 results. -/

namespace Sys2Proof.Machine

/-! ## FP32 operations, each rounded once RNE (R62) -/

/-- A value with the flags of the operations that led to it. -/
structure Fl where
  v : Num
  flags : Flags
  deriving DecidableEq, Repr

def Fl.pure (v : Num) : Fl := ⟨v, 0⟩

/-- The flag of an invalid operation: a NaN from operands of which none is one (R46). -/
def invalidOf (r : Num) (ops : List Num) : Flags := flagIf (r.isNaN && !ops.any Num.isNaN) fINVALID

/-- One FP32 rounding of an exact value. -/
def round32 (x : Num) : Fl :=
  let c := toFloat FloatFmt.fp32 .rne false x
  ⟨FloatFmt.fp32.decode c.bits, c.flags⟩

def Fl.op1 (x : Fl) (r : Num) : Fl := let y := round32 r; ⟨y.v, x.flags ||| invalidOf r [x.v] ||| y.flags⟩

def Fl.op2 (x y : Fl) (r : Num) : Fl :=
  let z := round32 r
  ⟨z.v, x.flags ||| y.flags ||| invalidOf r [x.v, y.v] ||| z.flags⟩

def Fl.add (x y : Fl) : Fl := x.op2 y (Num.add false x.v y.v)
def Fl.sub (x y : Fl) : Fl := x.op2 y (Num.sub false x.v y.v)
def Fl.mul (x y : Fl) : Fl := x.op2 y (Num.mul x.v y.v)
def Fl.div (x y : Fl) : Fl := x.op2 y (Num.div x.v y.v)
def Fl.neg (x : Fl) : Fl := ⟨x.v.neg, x.flags⟩

/-- FMA(x, y, z): one rounding. -/
def Fl.fma (x y z : Fl) : Fl :=
  let r := Num.add false (Num.mul x.v y.v) z.v
  let w := round32 r
  ⟨w.v, x.flags ||| y.flags ||| z.flags ||| invalidOf r [x.v, y.v, z.v] ||| w.flags⟩

/-- Scale(y, n). -/
def Fl.scale (x : Fl) (n : Int) : Fl := x.op1 (x.v.scale n)

/-- The FP32 value nearest the decimal n / 10^k. -/
def near (n k : Nat) : Fl := .pure (round32 (.fin false n (10 ^ k))).v

def Fl.one : Fl := .pure Num.one

/-- Horner steps: p := FMA(p, s, c) for each coefficient in turn. -/
def horner (s p : Fl) (cs : List Fl) : Fl := cs.foldl (fun p c => p.fma s c) p

/-- RoundToIntegerEven of a finite value. -/
def nearestInt : Num → Int
  | .fin neg n d => let (k, _) := roundInt .rne neg n d 0; if neg then -k else k
  | _ => 0

/-- Split(x): |x| = m × 2^n with 1 ≤ m < 2. -/
def split (x : Num) : Int × Num := let n := x.floorLog2; (n, x.abs.scale (-n))

/-! ## VEXP2 and VLOG2 (R63) -/

def exCoefs : List Fl :=
  [near 154035313 12, near 133335581 11, near 961812911 11, near 555041087 10, near 240226507 9, near 693147182 9,
    Fl.one]

def exp2Of (x : Fl) : Fl :=
  let fl := x.flags
  if x.v.isNaN then ⟨.nan false, fl⟩
  else if x.v = .inf true then ⟨Num.zero, fl⟩
  else if 0 ≤ x.v.cmp (Num.ofNat 128) then
    ⟨.inf false, fl ||| flagIf (!x.v.isInf) (fOVERFLOW ||| fINEXACT)⟩
  else if x.v.cmp (Num.ofInt (-150)) < 0 then ⟨Num.zero, fl ||| fUNDERFLOW ||| fINEXACT⟩
  else
    let n := nearestInt x.v
    let f : Fl := ⟨Num.sub false x.v (Num.ofInt n), fl⟩
    (horner f (near 152527338 13) exCoefs).scale n

def lgCoefs : List Fl := [near 412198583 9, near 577078016 9, near 961796694 9, near 288539008 8]

/-- Below zero, which −0 is not. -/
def belowZero (x : Num) : Bool := x.sign && !x.isNaN && !x.isZero

def log2Of (x : Num) : Fl :=
  if x.isNaN then .pure (.nan false)
  else if belowZero x then ⟨.nan false, fINVALID⟩
  else if x.isZero then ⟨.inf true, fDIVZERO⟩
  else if x.isInf then .pure (.inf false)
  else
    let (n, m) := split x
    let (n, m) : Int × Num := if 0 < m.cmp (near 141421356 8).v then (n + 1, m.scale (-1)) else (n, m)
    let t := ((Fl.pure m).sub Fl.one).div ((Fl.pure m).add Fl.one)
    let s := t.mul t
    (Fl.pure (Num.ofInt n)).add ((horner s (near 320598898 9) lgCoefs).mul t)

/-! ## VSIN and VCOS (R64) -/

/-- π / 2 to fifty places. -/
def halfPi : Num := .fin false 314159265358979323846264338327950288419716939937510 (2 * 10 ^ 50)

def ph1 : Fl := near 15703125 7
def ph2 : Fl := .pure (round32 (Num.sub false halfPi ph1.v)).v
def ph3 : Fl := .pure (round32 (Num.sub false (Num.sub false halfPi ph1.v) ph2.v)).v

def snCoefs : List Fl := [(near 198412698 12).neg, near 833333333 11, (near 166666667 9).neg]
def cnCoefs : List Fl := [near 248015873 13, (near 138888889 11).neg, near 416666667 10, (near 5 1).neg]

/-- The reduced pair sn, cn for k quarter turns. -/
def quadrant (cos : Bool) (k : Int) (sn cn : Fl) : Fl :=
  match cos, (k % 4).toNat with
  | false, 0 => sn
  | false, 1 => cn
  | false, 2 => sn.neg
  | false, _ => cn.neg
  | true, 0 => cn
  | true, 1 => sn.neg
  | true, 2 => cn.neg
  | true, _ => sn

/-- The numerator and denominator of a finite value. -/
def ratioOf : Num → Nat × Nat
  | .fin _ n d => (n, d)
  | _ => (0, 1)

def sinCos (cos : Bool) (x : Num) : Fl :=
  if x.isNaN then .pure (.nan false)
  else if x.isInf then ⟨.nan false, fINVALID⟩
  else if x.isZero then .pure (if cos then Num.one else x)
  else
    let y := (Fl.pure x).mul (near 636619772 9)
    if y.v.isInf then
      ⟨FloatFmt.fp32.decode (Config.hugeAngle cos x.sign (ratioOf x).1 (ratioOf x).2).toNat, y.flags⟩
    else
      let k := nearestInt y.v
      let mk : Fl := ⟨Num.ofInt (-k), y.flags⟩
      let r := mk.fma ph3 (mk.fma ph2 (mk.fma ph1 (.pure x)))
      let s := r.mul r
      let sn := (horner s (near 275573192 14) snCoefs).fma (s.mul r) r
      let cn := (horner s (near 275573192 15).neg cnCoefs).fma s Fl.one
      let q := quadrant cos k sn cn
      ⟨q.v, sn.flags ||| cn.flags⟩

/-! ## VTANH (R65) -/

def thCoefs : List Fl := [near 218694885 10, (near 539682540 10).neg, near 133333333 9, (near 333333333 9).neg]

def withSign (neg : Bool) (x : Fl) : Fl := if neg then x.neg else x

def tanhOf (x : Num) : Fl :=
  if x.isNaN then .pure (.nan false)
  else if x.isZero then .pure x
  else if x.abs.cmp (.fin false 1 4) < 0 then
    let w := Fl.pure x
    let s := w.mul w
    (horner s (near 886323552 11).neg thCoefs).fma (s.mul w) w
  else
    let z := (Fl.pure x.abs).mul (near 288539008 8)
    if 0 ≤ z.v.cmp (Num.ofNat 128) then withSign x.sign ⟨Num.one, fINEXACT⟩
    else
      let d := (exp2Of z).add Fl.one
      withSign x.sign (Fl.one.sub ((Fl.pure (Num.ofNat 2)).div d))

/-! ## VRCP and VRSQ (R66) -/

def rcpStep (m y : Fl) : Fl := let e := m.neg.fma y Fl.one; y.fma e y

def rcpOf (x : Num) : Fl :=
  if x.isNaN then .pure (.nan false)
  else if x.isZero then ⟨.inf x.sign, fDIVZERO⟩
  else if x.isInf then .pure (.fin x.sign 0 1)
  else
    let (n, m) := split x
    let m := Fl.pure m
    let y := (near 282352941 8).sub ((near 188235294 8).mul m)
    withSign x.sign ((rcpStep m (rcpStep m (rcpStep m y))).scale (-n))

def rsqStep (m y : Fl) : Fl :=
  let half := near 5 1
  let e := (half.mul m).neg.fma (y.mul y) half
  y.fma e y

def rsqOf (x : Num) : Fl :=
  if x.isNaN then .pure (.nan false)
  else if belowZero x then ⟨.nan false, fINVALID⟩
  else if x.isZero then ⟨.inf x.sign, fDIVZERO⟩
  else if x.isInf then .pure Num.zero
  else
    let (n, m) := split x
    let (n, m) : Int × Num := if n % 2 = 0 then (n, m) else (n - 1, m.scale 1)
    let m := Fl.pure m
    let y := (near 125 2).sub ((near 1875 4).mul m)
    (rsqStep m (rsqStep m (rsqStep m (rsqStep m (rsqStep m y))))).scale (-n / 2)

/-! ## Correctly rounded FP64 results (R62). Enclosures in fixed point with P fraction bits; the rounding is taken where
both ends of the enclosure round to one number. -/

/-- The product of two fixed-point numbers. -/
def fxMul (P : Nat) (a b : Int) : Int := a * b / 2 ^ P

/-- A value as a fixed-point number. -/
def fxOf (P : Nat) : Num → Int
  | .fin neg n d => let k : Int := n * 2 ^ P / d; if neg then -k else k
  | _ => 0

/-- Σ over k of z^(2k+1) / (2k+1), with the sign of odd k flipped by `alt`: artanh or arctan of z. -/
def fxArc (P : Nat) (alt : Bool) (z2 : Int) : Nat → Nat → Int → Int
  | 0, _, _ => 0
  | fuel + 1, k, t =>
    let term := t / (2 * k + 1)
    (if alt && k % 2 == 1 then -term else term) + fxArc P alt z2 fuel (k + 1) (fxMul P t z2)

/-- π by Machin's formula. -/
def fxPi (P : Nat) : Int :=
  let one : Int := 2 ^ P
  let at5 := fxArc P true (one / 25) (P / 4 + 2) 0 (one / 5)
  let at239 := fxArc P true (one / 57121) (P / 15 + 2) 0 (one / 239)
  16 * at5 - 4 * at239

/-- ln m of a fixed-point m near 1 to 2. -/
def fxLn (P : Nat) (m : Int) : Int :=
  let one : Int := 2 ^ P
  let z := (m - one) * one / (m + one)
  2 * fxArc P false (fxMul P z z) (P / 3 + 2) 0 z

def fxLn2 (P : Nat) : Int := fxLn P (2 * 2 ^ P)

/-- Σ t^k / k!, from the term for k. -/
def fxExpGo (P : Nat) (t : Int) : Nat → Nat → Int → Int
  | 0, _, term => term
  | fuel + 1, k, term => term + fxExpGo P t fuel (k + 1) (fxMul P term t / (k + 1))

def fxExp (P : Nat) (t : Int) : Int := fxExpGo P t (P / 4 + 8) 0 (2 ^ P)

/-- sin (from k = 1, term t) or cos (from k = 0, term 1) of a small angle. -/
def fxTrigGo (P : Nat) (t2 : Int) : Nat → Nat → Int → Int
  | 0, _, term => term
  | fuel + 1, k, term => term + fxTrigGo P t2 fuel (k + 2) (-(fxMul P term t2 / ((k + 1) * (k + 2))))

def fxSin (P : Nat) (t : Int) : Int := fxTrigGo P (fxMul P t t) (P / 8 + 8) 1 t
def fxCos (P : Nat) (t : Int) : Int := fxTrigGo P (fxMul P t t) (P / 8 + 8) 0 (2 ^ P)

/-- v × 2^(e - P) between its ends 2^20 units apart on each side, rounded; none where the ends do not round alike. The value
is never exact, so INEXACT is set. -/
def roundEnclosed (P : Nat) (v : Int) (e : Int) : Option (Nat × Flags) :=
  let f := FloatFmt.fp64
  let r (i : Int) : Conv := toFloat f .rne false ((Num.ofInt i).scale (e - P))
  let lo := r (v - 2 ^ 20)
  let hi := r (v + 2 ^ 20)
  if lo.bits = hi.bits then some (lo.bits, (r v).flags ||| fINEXACT) else none

/-- The FP64 functions that need an enclosure. -/
inductive Fn where
  | exp2 | log2 | sin | cos | tanh
  deriving DecidableEq, Repr

/-- An enclosure of the function of a finite nonzero value at P fraction bits: the centre and the exponent of its unit. -/
def enclose (fn : Fn) (P : Nat) (x : Num) : Int × Int :=
  match fn with
  | .exp2 =>
    let n := nearestInt x
    (fxExp P (fxMul P (fxOf P (Num.sub false x (Num.ofInt n))) (fxLn2 P)), n)
  | .log2 =>
    let (n, m) := split x
    let (n, m) : Int × Num := if 0 < m.cmp (.fin false 3 2) then (n + 1, m.scale (-1)) else (n, m)
    (n * 2 ^ P + fxLn P (fxOf P m) * 2 ^ P / fxLn2 P, 0)
  | .sin =>
    let Q := P + (max 0 x.floorLog2).toNat
    let h := fxPi Q / 2
    let a := fxOf Q x
    let k := (2 * a + h) / (2 * h)
    let t := (a - k * h) / 2 ^ (Q - P)
    (match (k % 4).toNat with
      | 0 => fxSin P t
      | 1 => fxCos P t
      | 2 => -fxSin P t
      | _ => -fxCos P t, 0)
  | .cos =>
    let Q := P + (max 0 x.floorLog2).toNat
    let h := fxPi Q / 2
    let a := fxOf Q x
    let k := (2 * a + h) / (2 * h)
    let t := (a - k * h) / 2 ^ (Q - P)
    (match (k % 4).toNat with
      | 0 => fxCos P t
      | 1 => -fxSin P t
      | 2 => -fxCos P t
      | _ => fxSin P t, 0)
  | .tanh =>
    -- (1 - y) / (1 + y) with y = e^(-2|x|)
    let ln2 := fxLn2 P
    let u := 2 * fxOf P x.abs
    let n := u / ln2
    let y := fxExp P (-(u - n * ln2)) / 2 ^ n.toNat
    let one : Int := 2 ^ P
    let t := (one - y) * one / (one + y)
    (if x.sign then -t else t, 0)

/-- Where the exact value is a rational number that the rounding takes directly, or lies within a hair of one. -/
def easyValue (fn : Fn) (x : Num) : Option (Num × Bool) :=
  let tiny := decide (x.floorLog2 < -40)
  match fn with
  | .exp2 =>
    if 0 ≤ x.cmp (Num.ofNat 1100) then some (Num.pow2 1100, true)
    else if x.cmp (Num.ofInt (-1100)) < 0 then some (Num.pow2 (-1100), true)
    else if (Num.ofInt (nearestInt x)).cmp x = 0 then some (Num.pow2 (nearestInt x), false)
    else none
  | .log2 => let (n, m) := split x; if m.cmp Num.one = 0 then some (Num.ofInt n, false) else none
  -- x - x³/6 + ... and x - x³/3 + ...: x less a part below 2^-80 of it
  | .sin => if tiny then some (Num.mul x (.fin false (2 ^ 90 - 1) (2 ^ 90)), true) else none
  | .cos => if tiny then some (.fin false (2 ^ 90 - 1) (2 ^ 90), true) else none
  | .tanh =>
    if tiny then some (Num.mul x (.fin false (2 ^ 90 - 1) (2 ^ 90)), true)
    else if 0 ≤ x.abs.cmp (Num.ofNat 64) then some (.fin x.sign (2 ^ 90 - 1) (2 ^ 90), true)
    else none

def fnCode : Fn → Nat
  | .exp2 => 0
  | .log2 => 1
  | .sin => 2
  | .cos => 3
  | .tanh => 4

/-- The FP64 result for a finite nonzero value: the rounding of the exact value, from an enclosure that two precisions give
(log 12). -/
def fp64Value (fn : Fn) (x : Num) : Nat × Flags :=
  let f := FloatFmt.fp64
  match easyValue fn x with
  | some (v, inexact) => let c := toFloat f .rne false v; (c.bits, c.flags ||| flagIf inexact fINEXACT)
  | none =>
    let (v, e) := enclose fn 256 x
    match roundEnclosed 256 v e with
    | some r => r
    | none =>
      let (v, e) := enclose fn 768 x
      match roundEnclosed 768 v e with
      | some r => r
      | none =>
        ((Config.fp64Fallback (fnCode fn) (BitVec.ofNat 64 (toFloat f .rne false x).bits)).toNat, fINEXACT)

/-! ## The words -/

inductive Transc where
  | rcp | rsq | exp2 | log2 | sin | cos | tanh
  deriving DecidableEq, Repr

/-- The FP32 algorithm of a word. -/
def algorithm : Transc → Num → Fl
  | .rcp, x => rcpOf x
  | .rsq, x => rsqOf x
  | .exp2, x => exp2Of (.pure x)
  | .log2, x => log2Of x
  | .sin, x => sinCos false x
  | .cos, x => sinCos true x
  | .tanh, x => tanhOf x

def nan64 : Nat := FloatFmt.fp64.nanCode

/-- The FP64 result of a word, its special cases as its algorithm's lines give them. -/
def exact64 (t : Transc) (x : Num) : Nat × Flags :=
  let f := FloatFmt.fp64
  let fin (y : Num) (fl : Flags) : Nat × Flags := let c := toFloat f .rne false y; (c.bits, c.flags ||| fl)
  if x.isNaN then (nan64, 0)
  else match t with
    | .rcp => if x.isZero then (f.infCode x.sign, fDIVZERO) else fin (Num.div Num.one x) 0
    | .rsq =>
      if belowZero x then (nan64, fINVALID)
      else if x.isZero then (f.infCode x.sign, fDIVZERO)
      else if x.isInf then (0, 0)
      else fin (Num.div Num.one x).sqrt 0
    | .exp2 =>
      if x.isInf then (if x.sign then 0 else f.infCode false, 0)
      else if x.isZero then fin Num.one 0
      else fp64Value .exp2 x
    | .log2 =>
      if belowZero x then (nan64, fINVALID)
      else if x.isZero then (f.infCode true, fDIVZERO)
      else if x.isInf then (f.infCode false, 0)
      else fp64Value .log2 x
    | .sin => if x.isInf then (nan64, fINVALID) else if x.isZero then fin x 0 else fp64Value .sin x
    | .cos => if x.isInf then (nan64, fINVALID) else if x.isZero then fin Num.one 0 else fp64Value .cos x
    | .tanh => if x.isInf then fin (.fin x.sign 1 1) 0 else if x.isZero then fin x 0 else fp64Value .tanh x

/-- The result of a transcendental word in a compute format (R62): FP64 correctly rounded; FP32 by the algorithm; FP16 and
BF16 by the algorithm and one more rounding. -/
def transcendental (t : Transc) (f : FloatFmt) (x : Num) : Nat × Flags :=
  if f = FloatFmt.fp64 then exact64 t x
  else
    let r := algorithm t x
    let c := toFloat f .rne false r.v
    (c.bits, r.flags ||| c.flags)

end Sys2Proof.Machine
end

