-- ==== Sys2Proof/Machine/VectorMemory.lean ====
section
/-! DEFINITION. Vector loads and stores (R38 to R40, R123 to R130) and work vectors (R141, R142). -/

namespace Sys2Proof.Machine

/-- The checks of R116 at a word's first line, which no entry and no room need be waited for. -/
def addressOk (s : State) (k : AccessKind) (va : Word) : Chk Unit := (checkedPage s k va 128).map (fun _ => ())

/-! ## VLD, VLDP and the steps of a generator (R123, R124, R132) -/

def runVld (i : Instr) (q : BitVec 3) (st : BitVec 4) (eg : BitVec 3) (pair : Bool) (x : Ctx) (s : State) : Chk State := do
  streamReady x st.toNat s
  let e := ea s.core x i
  addressOk s .load e
  if !flumeRoom s.core q.toNat (if pair then 2 else 1) 0 then waitNow (flumeWait q.toNat)
  else
    issueReading x st.toNat (fun s base va => checkFrom x e base .load va 128 s)
      (readingOf s.core st.toNat q.toNat (.reg eg.toNat pair) e false) s

/-- R123. -/
def execVld (q : BitVec 3) (b : BitVec 5) (st : BitVec 4) (e : BitVec 3) (o : BitVec 8) (s : State) : Out :=
  issueA (.vld q b st e o) (runVld (.vld q b st e o) q st e false) s

/-- R124. -/
def execVldp (q : BitVec 3) (b : BitVec 5) (st : BitVec 4) (e : BitVec 3) (o : BitVec 8) (s : State) : Out :=
  issueA (.vldp q b st e o) (runVld (.vldp q b st e o) q st e true) s

/-- R128: no architectural effect. -/
def runPref (_ : Ctx) (s : State) : Chk State := .ok s

/-- R128. -/
def execPref (n : BitVec 3) (b : BitVec 5) (st : BitVec 4) (o : BitVec 8) (s : State) : Out :=
  issueA (.pref n b st o) runPref s

/-! ## VLDC (R127) -/

/-- The offset of a scratchpad line within the destination of a Y command: load direction, or a fill. -/
def landedLine (y : YCommand) (off : Nat) : Option Bool :=
  let from_ (base : Nat) : Option Bool :=
    if base ≤ off ∧ off < base + y.size then some (decide (off < base + y.landed) || y.above.contains ((off - base) / 128)) else none
  match y.kind with
  | .cpyz => from_ y.se.toNat
  | .report => none
  | .cpy => if y.sf.getLsbD 20 then none else from_ (bitsNat y.sf 0 20)

/-- VLDC need not wait for the sluice at a line: its tile has one outstanding claim, that of a Y command in flight whose
arrival pointer has passed the line. -/
def arrivedAt (s : State) (pl : Nat) : Bool :=
  let h := switchTo s (scratchCore pl)
  let t := scratchOff pl / 4096
  match (claimsOf h).filter (fun c => c.2.contains t) with
  | [c] => h.core.ycmds.any (fun y => decide (y.ord = c.1) && y.claims.contains t &&
      (landedLine y (scratchOff pl - scratchOff pl % 128) == some true))
  | _ => false

/-- The checks of VLDC at a line. -/
def chainedLine (x : Ctx) (e va : Word) (s : State) : Chk Page := do
  let p ← checkedPage s .core va 128
  if sluiceHolds s x (p.place va) && !arrivedAt s (p.place va) then sluiceWait s e else return p

def runVldc (q : BitVec 3) (b : BitVec 5) (st : BitVec 4) (eg : BitVec 3) (o : BitVec 8) (x : Ctx) (s : State) : Chk State := do
  streamReady x st.toNat s
  let e := ea s.core x (.vldc q b st eg o)
  addressOk s .core e
  if !flumeRoom s.core q.toNat 1 0 then waitNow (flumeWait q.toNat)
  else
    issueReading x st.toNat (fun s _ va => chainedLine x e va s)
      (readingOf s.core st.toNat q.toNat (.reg eg.toNat false) e false) s

/-- R127: as VLD, following a copy's arrival. -/
def execVldc (q : BitVec 3) (b : BitVec 5) (st : BitVec 4) (e : BitVec 3) (o : BitVec 8) (s : State) : Out :=
  issueA (.vldc q b st e o) (runVldc q b st e o) s

/-! ## VST and the steps of a sink (R39, R40, R123) -/

/-- A popped register of 64 one-byte elements is stored as half a line (R40). -/
def isHalf (f : Nat) : Bool := decide (f = kINT8 ∨ f = kUINT8 ∨ f = kRAW)

/-- The tag of a line that stores a register with this tag (R39). -/
def storedLineTag (t : Tag) : Tag :=
  if tagVc t = vcInvalid then t
  else mkTag (tagFmt t) (tagVc t) (isFillFmt (tagFmt t)) (tagLse t) (tagSub t)

/-- The writes of an entry at its lines: line offset in bytes, and what is written (R39, R40). -/
def entryWrites (e : FlumeEntry) (eg : Nat) : List (Nat × QueuedWrite) :=
  let f := tagFmt e.tag
  if isHalf f then
    [(0, .half (eg == 1) (BitVec.ofNat 512 (joinFields 8 ((List.range 64).map (laneBits f e.data)))) e.tag)]
  else if 64 ≤ nativeCount f then
    [(0, .line (packLine f ((List.range 64).map (laneBits f e.data))) (storedLineTag e.tag))]
  else [(0, .line (e.data.extractLsb' 0 1024) e.tag), (128, .line (e.data.extractLsb' 1024 1024) e.tag)]

/-- The tangent lines of a stored entry: offset from the tangent's address, and data (R130). -/
def tangentWrites (f : Nat) (d : RegBits) : List (Nat × QueuedWrite) :=
  [(0, .line (d.extractLsb' 0 1024) (tangentTag f)), (128, .line (d.extractLsb' 1024 1024) (tangentTag f))]

/-- 2 × G for the line that stores an entry of a format. -/
def storeG2 (f : Nat) : Nat := if isHalf f then 4 else if 64 ≤ nativeCount f then 2 else 1

/-- The tangent writes of an entry stored at a line, by t: the block's address, the line's, the write. -/
def entryTangents (c : Core) (st : Nat) (e : FlumeEntry) (la : Word) (el : Nat) : List (Word × Word × QueuedWrite) :=
  let f := tagFmt e.tag
  (List.range (tangentCount c st)).flatMap (fun t =>
    let ta := tangentVa (descToff (descOf c st)) (t + 1) (storeG2 f) la (tangentBytes f) el
    (tangentWrites f (e.tangents.getD t 0)).map (fun w => (ta, ta + BitVec.ofNat 64 w.1, w.2)))

/-- One entry popped from q and stored at va with EG (R123): RANGE, and nothing written, for an EG that the format does not
have. -/
def storeFrom (x : Ctx) (st q : Nat) (va : Word) (eg : Nat) (s : State) : Chk State := do
  match flumeOf s.core q with
  | [] => waitNow (flumeWait q)
  | e :: es =>
    let f := tagFmt e.tag
    let s' := s.onCore (setFlume q es)
    if (if isHalf f then 1 else 0) < eg then
      let _ ← checkLine x va .store va 128 s
      return s'.onCore (orFlags fRANGE)
    else
      let ws := (entryWrites e eg).map (fun w => (va, va + BitVec.ofNat 64 w.1, w.2))
      let (qs, s) ← checkStores x st va (ws ++ entryTangents s.core st e va (64 * eg)) s'
      return issueStores x st qs s

def runVst (q : BitVec 3) (b : BitVec 5) (st : BitVec 4) (eg : BitVec 3) (o : BitVec 8) (x : Ctx) (s : State) : Chk State := do
  streamReady x st.toNat s
  let va := ea s.core x (.vst q b st eg o)
  addressOk s .store va
  storeFrom x st.toNat q.toNat va eg.toNat s

/-- R123. -/
def execVst (q : BitVec 3) (b : BitVec 5) (st : BitVec 4) (e : BitVec 3) (o : BitVec 8) (s : State) : Out :=
  issueA (.vst q b st e o) (runVst q b st e o) s

/-! ## VSTP (R125) -/

/-- The formats whose native line holds 128 elements. -/
def pairFmt (f : Nat) : Bool :=
  decide (f = kE4M3 ∨ f = kE5M2 ∨ f = kE3M2 ∨ f = kE2M3) || isHalf f

/-- The line of a pair: tag, data, and the flags of its conversions. -/
def pairLine (sel : RoundSel) (e1 e2 : FlumeEntry) : Tag × LineBits × Flags :=
  let f := tagFmt e1.tag
  let lanes (e : FlumeEntry) := (List.range 64).map (laneBits f e.data)
  let spoiled := tagVc e1.tag == vcSpoiled || tagVc e2.tag == vcSpoiled
  if tagVc e1.tag = vcInvalid then (e1.tag, packLine f (lanes e1 ++ lanes e2), 0)
  else if tagVc e2.tag = vcInvalid then (e2.tag, packLine f (lanes e1 ++ lanes e2), 0)
  else if isHalf f then
    (if spoiled then mkTag f vcSpoiled false (tagLse e1.tag) (tagSub e1.tag) else e1.tag,
      packLine f (lanes e1 ++ lanes e2), 0)
  else
    let xs (e : FlumeEntry) := (List.range 64).map (regElem ⟨e.data, e.tag⟩)
    let plain := match sel with | .sr => RoundSel.rne | r => r
    let r := formLine f false plain 0 false false none (xs e1 ++ xs e2)
    (r.tag f false spoiled, r.data, r.flags)

def runVstp (q : BitVec 3) (b : BitVec 5) (st : BitVec 4) (o : BitVec 8) (x : Ctx) (s : State) : Chk State := do
  let st := st.toNat
  streamReady x st s
  let va := ea s.core x (.vstp q b (BitVec.ofNat 4 st) o)
  addressOk s .store va
  match flumeOf s.core q.toNat with
  | e1 :: e2 :: es =>
    let f := tagFmt e1.tag
    if f ≠ tagFmt e2.tag ∨ pairFmt f = false then
      let _ ← checkLine x va .store va 128 s
      faultNow (tagFault cTYPE e1.tag)
    else
      let (tag, data, fl) := pairLine (roundSel s.core.csr.rmode.toNat) e1 e2
      let c := s.core
      let tangents := (List.range (tangentCount c st)).flatMap (fun t =>
        [e1, e2].zipIdx.flatMap (fun (e, k) =>
          let ta := tangentVa (descToff (descOf c st)) (t + 1) 4 va 4 (64 * k)
          (tangentWrites f (e.tangents.getD t 0)).map (fun w => (ta, ta + BitVec.ofNat 64 w.1, w.2))))
      let (qs, s) ← checkStores x st va ((va, va, .line data tag) :: tangents) (s.onCore (setFlume q.toNat es))
      return issueStores x st qs (s.onCore (orFlags fl))
  | _ => waitNow (flumeWait q.toNat)

/-- R125. -/
def execVstp (q : BitVec 3) (b : BitVec 5) (st : BitVec 4) (o : BitVec 8) (s : State) : Out :=
  issueA (.vstp q b st o) (runVstp q b st o) s

/-! ## Gather and scatter (R129) -/

/-- The index entry checked: R34, then its format (R129). -/
def indexChecked (c : Core) (ix : FlumeEntry) : Chk Unit :=
  if tagVc ix.tag = vcInvalid then faultNow (invalidFault ix.tag)
  else if tagVc ix.tag = vcSpoiled && spoilTrap c then faultNow ⟨cVCLASS, ix.tag.setWidth 64, true, 0⟩
  else if tagFmt ix.tag = kINT32 ∨ tagFmt ix.tag = kUINT32 then .ok ()
  else faultNow (tagFault cTYPE ix.tag)

/-- EA of a gather or scatter: canonical and a multiple of 128 (R116). -/
def gatherBase (e : Word) : Chk Unit :=
  if !canonical e then faultNow (flt cPAGE e)
  else if e.toNat % 128 ≠ 0 then faultNow (flt cALIGN e)
  else .ok ()

def runVldx (q : BitVec 3) (b : BitVec 5) (st : BitVec 4) (i : BitVec 3) (x : Ctx) (s : State) : Chk State := do
  let st' := st.toNat
  streamReady x st' s
  let e := ea s.core x (.vldx q b st i)
  gatherBase e
  match flumeOf s.core i.toNat with
  | [] => waitNow (flumeWait i.toNat)
  | ix :: es =>
    indexChecked s.core ix
    if !flumeRoom s.core q.toNat 1 0 then waitNow (flumeWait q.toNat)
    else
      let (n, m) := gatherCount s ix e
      issueReading x st' (fun s base va => checkFrom x e base .load va 128 s) (readingOf s.core st' q.toNat (.gather ix n m) e false)
        (s.onCore (setFlume i.toNat es))

/-- R129. -/
def execVldx (q : BitVec 3) (b : BitVec 5) (st : BitVec 4) (i : BitVec 3) (s : State) : Out :=
  issueA (.vldx q b st i) (runVldx q b st i) s

/-- The tag that a scatter finds at a target line: an untagged line's is its page's DFMT (R291). -/
def targetTag (s : State) (p : Page) (va : Word) : Tag :=
  let pl := p.place va
  if untaggedAt s pl then dfmtTag p.dfmt else (clearLine (settledView s pl) (pageVersion s p) pl).tag

/-- A target line whose format does not agree with the entry's (R129). -/
def scatterRefused (s : State) (f : Nat) (p : Page) (va : Word) : Option Tag :=
  let t := targetTag s p va
  if isUninit t || tagMalformed t || decide (tagVc t = vcInvalid) then none
  else if tagFmt t = f ∨ tagFmt t = kRAW then none
  else some t

/-- The tag whose G places the tangents of a target line (R124, R130): the line's own where its format is the entry's, else
the format's plain tag (log 33). -/
def targetG (s : State) (f : Nat) (p : Page) (va : Word) : Tag :=
  let t := targetTag s p va
  if isUninit t || decide (tagFmt t ≠ f) then plainTag f else t

/-- The pages of lines that a scatter writes, each checked. -/
def scatterPages (x : Ctx) (e : Word) : List Word → State → Chk (List (Word × Page) × State)
  | [], s => .ok ([], s)
  | va :: vas, s => do
    let p ← checkLine x e .store va 128 s
    let (ps, s) ← scatterPages x e vas (touchPage p va s)
    return ((va, p) :: ps, s)

/-- The tangent bytes of a scatter's lanes for tangent t: address, value, by lane. -/
def scatterTangents (toff : Word) (t : Nat) (e : FlumeEntry) (gOf : Word → Tag) (ts : List Target) : List (Word × Nat) :=
  let f := tagFmt e.tag
  let w := tangentBytes f
  ts.map (fun q => (laneTangent toff f t (gOf q.va) q, bitsNat (e.tangents.getD (t - 1) 0) (8 * w * q.lane) (8 * w)))

/-- The stores of a scatter: each line's elements merged in one step, then the lanes' tangents (R129, R130). -/
def scatterStores (x : Ctx) (st : Nat) (e : FlumeEntry) (ts : List Target) (tan : List (Word × Nat))
    (ps qs : List (Word × Page)) (s : State) : List QueuedStore :=
  let f := tagFmt e.tag
  ps.map (fun p => storeOf x st p.1 p.2 (.elems e.tag ((ts.filter (fun t => t.va == p.1)).map (fun t =>
    (t.pos, laneBits f e.data t.lane)))) s) ++
  tan.filterMap (fun q =>
    let va := pageBase q.1 128
    (qs.find? (fun p => p.1 == va)).map (fun p =>
      storeOf x st va p.2 (.tangent f (q.1.toNat % 128) (tangentBytes f) q.2) s))

def runVstx (q : BitVec 3) (b : BitVec 5) (st : BitVec 4) (i : BitVec 3) (x : Ctx) (s : State) : Chk State := do
  let st' := st.toNat
  streamReady x st' s
  let va := ea s.core x (.vstx q b st i)
  gatherBase va
  match flumeOf s.core q.toNat, flumeOf s.core i.toNat with
  | [], _ => waitNow (flumeWait q.toNat)
  | _, [] => waitNow (flumeWait i.toNat)
  | e :: es, ix :: ixs =>
    indexChecked s.core ix
    let f := tagFmt e.tag
    if isScaled f && decide (tagVc e.tag ≠ vcInvalid) && decide (tagLse e.tag ≠ 127 ∨ tagSub e.tag ≠ 0) then
      faultNow (tagFault cTYPE e.tag)
    else
      let ts := targets ix va (nativeCount f) (regCount f)
      let (ps, s) ← scatterPages x va (distinctLines (ts.map Target.va)) s
      let gOf (a : Word) : Tag := match ps.find? (fun p => p.1 == a) with | some p => targetG s f p.2 a | none => plainTag f
      let tans := (List.range (tangentCount s.core st')).map (fun t =>
        scatterTangents (descToff (descOf s.core st')) (t + 1) e gOf ts)
      let (qs, s) ← scatterPages x va (tans.flatMap (fun tan => distinctLines (tan.map (fun t => pageBase t.1 128)))) s
      match ps.findSome? (fun p => scatterRefused s f p.2 p.1) with
      | some t => faultNow (tagFault cTYPE t)
      | none =>
        let s := s.onCore (fun c => setFlume i.toNat ixs (setFlume q.toNat es c))
        return issueStores x st' (scatterStores x st' e ts tans.flatten ps qs s) s

/-- R129. -/
def execVstx (q : BitVec 3) (b : BitVec 5) (st : BitVec 4) (i : BitVec 3) (s : State) : Out :=
  issueA (.vstx q b st i) (runVstx q b st i) s

/-! ## Work vectors (R141, R142) -/

/-- PTAG must be unscaled with LSE 127 and SUB 0 (R141). -/
def ptagRefused (t : Tag) : Bool :=
  isScaled (tagFmt t) || decide (tagLse t ≠ 127 ∨ tagSub t ≠ 0) || tagFill t || tagMalformed t

/-- The schedule's choice for the next access: true leaves what follows it for a later move. -/
def takeAccessHold (s : State) : Bool × State :=
  match s.core.holdAccess with
  | [] => (false, s)
  | b :: bs => (b, s.onCore (fun c => { c with holdAccess := bs }))

/-- A WAPP that has to wait: where it has made an access in this move it keeps that, with the pages that its checks found. -/
def wappStop (moved : Bool) (ps : List (Word × Page)) (s : State) : Stop → Stop
  | .home w qs bit => if moved then .paused s (ps ++ qs) else .home w (ps ++ qs) bit
  | .sluice w cs => if moved then .paused s ps else .sluice w cs
  | .wait w => if moved then .paused s ps else .wait w
  | r => r

/-- What WAPP has done so far in the move: the accesses made, the pages found, the state. -/
structure WappMove where
  made : Nat
  pages : List (Word × Page)
  state : State
  deriving DecidableEq, Repr

/-- A read of WAPP before its verdict: made in an earlier move, or now (R207). -/
def wappRead (before : Nat) (va : Word) (read : State → Chk (Page × Line × State)) (a : WappMove) : Chk (Line × WappMove) :=
  let s := a.state
  match s.core.seen[a.made]? with
  | some q => .ok (q.2, { a with made := a.made + 1 })
  | none => match read s with
    | .error e => .error (wappStop (decide (before < s.core.seen.length)) a.pages s e)
    | .ok (p, l, s) =>
      let s := s.onCore (fun c => { c with seen := c.seen ++ [(va, l)] })
      let ps := a.pages ++ [(va, p)]
      let (hold, s) := takeAccessHold s
      if hold then .error (.paused s ps) else .ok (l, ⟨a.made + 1, ps, s⟩)

/-- Entry k of the header table, consumed (R34). -/
def tableEntryLine (x : Ctx) (e va : Word) (s : State) : Chk (Page × Line × State) := do
  let (p, s) ← reachFrom x 0 va e .load va 8 s
  let s := settleOwn (p.place va) s
  let seen := ownView s (p.place va)
  match loadFault seen p va 8 with
  | some f => faultNow f
  | none => return (p, plainLine seen p va, s)

/-- A header's line at its home, its class checked. -/
def headerLine (x : Ctx) (va : Word) (s : State) : Chk (Page × Line × State) := do
  let (p, s) ← reachHome x 0 va .atomic va 128 s
  let l := readLine s p va
  if tagVc l.tag = vcInvalid then faultNow (invalidFault l.tag)
  else if tagVc l.tag = vcSpoiled && spoilTrap s.core then faultNow ⟨cVCLASS, l.tag.setWidth 64, true, 0⟩
  else return (p, l, s)

/-- The pages of the payload lines that a group will write if TAIL stays as its header has it, each checked (R116, R142): of a range
that begins at the header (R308). -/
def payloadPages (x : Ctx) (before : Nat) (head : Word) : List Nat → WappMove → Chk WappMove
  | [], a => .ok a
  | i :: is, a =>
    let va := payloadVa head i
    match checkFrom x va head .store va 128 a.state with
    | .error e => .error (wappStop (decide (before < a.state.core.seen.length)) a.pages a.state e)
    | .ok p => payloadPages x before head is { a with pages := a.pages ++ [(va, p)] }

/-- The groups that a header table names, each checked before anything changes (R142). -/
def wappGroups (x : Ctx) (e : Word) (before : Nat) : Nat → List FlumeEntry → WappMove → Chk (List WappGroup × WappMove)
  | _, [], a => .ok ([], a)
  | k, en :: ens, a => do
    let at_ := addVa e (8 * k)
    let (l, a) ← wappRead before at_ (tableEntryLine x e at_) a
    let va : Word := BitVec.ofNat 64 (bitsNat l.data (8 * (at_.toNat % 128)) 64)
    if va = 0 then wappGroups x e before (k + 1) ens a
    else
      let (l, a) ← wappRead before va (headerLine x va) a
      let pt : Tag := BitVec.ofNat 32 (headerField l.data 24 4)
      if tagFmt en.tag ≠ tagFmt pt then faultNow (tagFault cTYPE en.tag)
      else if ptagRefused pt then faultNow (tagFault cTYPE pt)
      else
        let old := headerField l.data 0 8
        let fit := wappFit (entryCount en) (headerField l.data 8 8) old
        let a ← payloadPages x before va (payloadTouched (tagFmt pt) old fit) a
        let p := match heldPage x va with
          | some p => p
          | none => ((a.pages.find? (fun q => q.1 == va)).map Prod.snd).getD (windowPage va)
        let (gs, a) ← wappGroups x e before (k + 1) ens a
        return (⟨va, p, en, entryCount en, pt⟩ :: gs, a)

/-- The page of a payload line: as the checks found it, or as it is found when TAIL has moved meanwhile; none where the line may
not be written (log 35). -/
def payloadPage (x : Ctx) (head va : Word) (s : State) : Option Page :=
  match heldPage x va with
  | some p => some p
  | none => match checkedPage s .store va 128 with
    | .ok p => if leavesWindow head va then none else some p
    | .error _ => none

/-- The payload stores of a group put in flight, line by line: each merges its elements at the line's home in one step (R36). -/
def payloadStores (x : Ctx) (g : WappGroup) (old fit : Nat) (s : State) : List QueuedStore × State :=
  let f := tagFmt g.ptag
  let n := payloadPer f
  let tag := if tagVc g.entry.tag = vcSpoiled then mkTag f vcSpoiled false 127 0 else g.ptag
  (payloadTouched f old fit).foldl (fun a i =>
    let va := payloadVa g.head i
    match payloadPage x g.head va a.2 with
    | none => a
    | some p =>
      let es := (List.range fit).filterMap (fun L =>
        if (old + L) / n = i then some ((old + L) % n, laneBits f g.entry.data L) else none)
      (a.1 ++ [storeOf x 0 va p (.payload tag es) a.2], touchPage p va a.2)) ([], s)

/-- Further stores of a word put in flight with those that it has there already. -/
def addStores (x : Ctx) (qs : List QueuedStore) (s : State) : State :=
  if qs.isEmpty then s
  else if inFlight s.core x.ord then
    s.onCore (fun c => { c with flight := c.flight.map (fun f => match f.work with
      | .stores l => if f.ord = x.ord then { f with work := .stores (l ++ qs) } else f
      | _ => f) })
  else issueStores x 0 qs s

/-- The access that a WAPP has still to make first: its header, and the byte there. -/
def appendNext (a : Append) : Option (WappGroup × Nat) :=
  match a.loss, a.groups with
  | some (g, _), _ => some (g, 16)
  | none, g :: _ => some (g, 0)
  | none, [] => none

/-- The next access of a WAPP that has passed its checks: a group's fetch-and-add, whose payload stores are put in flight behind
it, or the atomic add to its OVF (R142). -/
def appendAccess (x : Ctx) (a : Append) (s : State) : State :=
  let field (g : WappGroup) (s : State) (o : Nat) : Nat := bytesAt s (pageVersion s g.page) (g.page.place (addVa g.head o)) 8
  match a.loss, a.groups with
  | some (g, n), _ =>
    let s := drainLine (g.page.place g.head) s
    let s := writeBytes s g.page (addVa g.head 16) 8 (field g s 16 + n)
    s.onCore (fun c => { c with append := some { a with loss := none } })
  | none, g :: gs =>
    let s := drainLine (g.page.place g.head) s
    let old := field g s 0
    let fit := wappFit g.count (field g s 8) old
    let (qs, s) := payloadStores x g old fit (writeBytes s g.page g.head 8 (old + g.count))
    let lost := g.count - fit
    let a : Append := ⟨gs, if lost = 0 then none else some (g, lost), a.dropped + lost, a.written + fit⟩
    (addStores x qs s).onCore (fun c => { c with append := some a })
  | none, [] => s

/-- Something keeps that access waiting at its home. -/
def appendHeld (s : State) (g : WappGroup) (o : Nat) : Bool :=
  bytesStalled s (g.page.place (addVa g.head o)) 8 || !lineDrains (g.page.place g.head) s

/-- The accesses of a WAPP that has passed its checks, one after the other; of `n` at most. -/
def appendAll (x : Ctx) (ps : List (Word × Page)) : Nat → Bool → State → Chk State
  | 0, _, s => .ok s
  | n + 1, moved, s =>
    match s.core.append with
    | none => .ok s
    | some a => match appendNext a with
      | none => .ok s
      | some (g, o) =>
        if appendHeld s g o then .error (wappStop moved ps s (.home untimed [] none))
        else
          let s := appendAccess x a s
          match s.core.append.bind appendNext with
          | none => .ok s
          | some _ =>
            let (hold, s) := takeAccessHold s
            if hold then .error (.paused s ps) else appendAll x ps n true s

/-- The entries that WAPP consumes (R34). -/
def wappConsumes (c : Core) (es : List FlumeEntry) : Option Flt :=
  es.findSome? (fun e =>
    if tagVc e.tag = vcInvalid then some (invalidFault e.tag)
    else if tagVc e.tag = vcSpoiled && spoilTrap c then some ⟨cVCLASS, e.tag.setWidth 64, true, 0⟩
    else none)

/-- The reads and checks of a WAPP, unless it has passed them (R142): the pages found, and the state with its groups. -/
def wappChecked (x : Ctx) (e : Word) (es : List FlumeEntry) (s : State) : Chk (List (Word × Page) × State) :=
  if s.core.append.isSome then .ok ([], s)
  else match wappConsumes s.core es with
    | some f => faultNow f
    | none => do
      let (gs, a) ← wappGroups x e s.core.seen.length 0 es ⟨0, [], s⟩
      return (a.pages, a.state.onCore (fun c => { c with append := some ⟨gs.filter (fun g => decide (g.count ≠ 0)), none, 0, 0⟩ }))

def runWapp (d b : BitVec 5) (q v : BitVec 3) (x : Ctx) (s : State) : Chk State := do
  streamReady x 0 s
  let e := ea s.core x (.wapp d b q v)
  let n := if v = 0 then 4 else 1
  let es := flumeOf s.core q.toNat
  if es.length < n then waitNow (flumeWait q.toNat)
  else
    let (ps, s1) ← wappChecked x e (es.take n) s
    let s2 ← appendAll x ps 9 (s.core.append.isNone) s1
    let a := s2.core.append.getD ⟨[], none, 0, 0⟩
    return s2.onCore (fun c => setA (setFlume q.toNat (es.drop n) { c with seen := [], append := none }) d
      (BitVec.ofNat 64 (a.dropped * 2 ^ 32 + a.written)))

/-- R142. -/
def execWapp (d b : BitVec 5) (q v : BitVec 3) (s : State) : Out := issueA (.wapp d b q v) (runWapp d b q v) s

end Sys2Proof.Machine
end

