-- ==== Sys2Proof/Machine/Lanes.lean ====
section
/-! DEFINITION. What X words share: the registers they name and their bindings (R12, R134, R349), sources and the validity
checks (R34, R148), the lattice step (R41, R42), lanes and the old destination (R152 to R154), tangents (R156 to R158,
R224), and the write of a result. -/

namespace Sys2Proof.Machine

/-! ## The registers that X words name -/

/-- The destination register and the vector registers that an X word reads by name. VFMA and its kind read vd; VTSET and
VTZERO read and write vd's shadows. -/
structure XNames where
  dest : Option (BitVec 6)
  srcs : List (BitVec 6)
  deriving DecidableEq, Repr

def xNames : Instr → XNames
  | .vadd d a b _ => ⟨some d, [a, b]⟩
  | .vsub d a b _ => ⟨some d, [a, b]⟩
  | .vmul d a b _ => ⟨some d, [a, b]⟩
  | .vfma d a b _ => ⟨some d, [a, b, d]⟩
  | .vfms d a b _ => ⟨some d, [a, b, d]⟩
  | .vfnma d a b _ => ⟨some d, [a, b, d]⟩
  | .vmin d a b _ => ⟨some d, [a, b]⟩
  | .vmax d a b _ => ⟨some d, [a, b]⟩
  | .vabs d a _ => ⟨some d, [a]⟩
  | .vneg d a _ => ⟨some d, [a]⟩
  | .vdiv d a b _ => ⟨some d, [a, b]⟩
  | .vsqrt d a _ => ⟨some d, [a]⟩
  | .vrcp d a _ => ⟨some d, [a]⟩
  | .vrsq d a _ => ⟨some d, [a]⟩
  | .vexp2 d a _ => ⟨some d, [a]⟩
  | .vlog2 d a _ => ⟨some d, [a]⟩
  | .vsin d a _ => ⟨some d, [a]⟩
  | .vcos d a _ => ⟨some d, [a]⟩
  | .vtanh d a _ => ⟨some d, [a]⟩
  | .vconj d a _ => ⟨some d, [a]⟩
  | .vcmulj d a b _ => ⟨some d, [a, b]⟩
  | .vand d a b _ => ⟨some d, [a, b]⟩
  | .vor d a b _ => ⟨some d, [a, b]⟩
  | .vxor d a b _ => ⟨some d, [a, b]⟩
  | .vnot d a _ => ⟨some d, [a]⟩
  | .vshl d a b _ => ⟨some d, [a, b]⟩
  | .vshr d a b _ => ⟨some d, [a, b]⟩
  | .vclz d a _ => ⟨some d, [a]⟩
  | .vpopc d a _ => ⟨some d, [a]⟩
  | .vcmp _ _ a b _ => ⟨none, [a, b]⟩
  | .vsel d a b _ => ⟨some d, [a, b]⟩
  | .vcvt d a _ _ _ _ => ⟨some d, [a]⟩
  | .vcvth d a _ _ _ => ⟨some d, [a]⟩
  | .vscale d a _ _ => ⟨some d, [a]⟩
  | .vqnt d a _ _ _ _ => ⟨some d, [a]⟩
  | .vtag d a _ => ⟨some d, [a]⟩
  | .vtagq a => ⟨none, [a]⟩
  | .vred d a _ _ => ⟨some d, [a]⟩
  | .vscan d a _ _ => ⟨some d, [a]⟩
  | .vperm d a b _ => ⟨some d, [a, b]⟩
  | .vrgath d a b _ => ⟨some d, [a, b]⟩
  | .vslide d a _ _ => ⟨some d, [a]⟩
  | .vbcast d _ _ _ => ⟨some d, []⟩
  | .viota d _ => ⟨some d, []⟩
  | .vmov d a _ => ⟨some d, [a]⟩
  | .vpart d a b _ => ⟨some d, [a, b]⟩
  | .vappend d a _ => ⟨some d, [a]⟩
  | .vtget d a _ _ => ⟨some d, [a]⟩
  | .vtset d a _ _ => ⟨some d, [d, a]⟩
  | .vtzero d _ _ => ⟨some d, [d]⟩
  | _ => ⟨none, []⟩

/-- The word with its vector register fields replaced (R349). -/
def mapRegs (r : BitVec 6 → BitVec 6) : Instr → Instr
  | .vadd d a b m => .vadd (r d) (r a) (r b) m
  | .vsub d a b m => .vsub (r d) (r a) (r b) m
  | .vmul d a b m => .vmul (r d) (r a) (r b) m
  | .vfma d a b m => .vfma (r d) (r a) (r b) m
  | .vfms d a b m => .vfms (r d) (r a) (r b) m
  | .vfnma d a b m => .vfnma (r d) (r a) (r b) m
  | .vmin d a b m => .vmin (r d) (r a) (r b) m
  | .vmax d a b m => .vmax (r d) (r a) (r b) m
  | .vabs d a m => .vabs (r d) (r a) m
  | .vneg d a m => .vneg (r d) (r a) m
  | .vdiv d a b m => .vdiv (r d) (r a) (r b) m
  | .vsqrt d a m => .vsqrt (r d) (r a) m
  | .vrcp d a m => .vrcp (r d) (r a) m
  | .vrsq d a m => .vrsq (r d) (r a) m
  | .vexp2 d a m => .vexp2 (r d) (r a) m
  | .vlog2 d a m => .vlog2 (r d) (r a) m
  | .vsin d a m => .vsin (r d) (r a) m
  | .vcos d a m => .vcos (r d) (r a) m
  | .vtanh d a m => .vtanh (r d) (r a) m
  | .vconj d a m => .vconj (r d) (r a) m
  | .vcmulj d a b m => .vcmulj (r d) (r a) (r b) m
  | .vand d a b m => .vand (r d) (r a) (r b) m
  | .vor d a b m => .vor (r d) (r a) (r b) m
  | .vxor d a b m => .vxor (r d) (r a) (r b) m
  | .vnot d a m => .vnot (r d) (r a) m
  | .vshl d a b m => .vshl (r d) (r a) (r b) m
  | .vshr d a b m => .vshr (r d) (r a) (r b) m
  | .vclz d a m => .vclz (r d) (r a) m
  | .vpopc d a m => .vpopc (r d) (r a) m
  | .vcmp c p a b g => .vcmp c p (r a) (r b) g
  | .vsel d a b p => .vsel (r d) (r a) (r b) p
  | .vcvt d a f m n p => .vcvt (r d) (r a) f m n p
  | .vcvth d a f h m => .vcvth (r d) (r a) f h m
  | .vscale d a s m => .vscale (r d) (r a) s m
  | .vqnt d a f m n p => .vqnt (r d) (r a) f m n p
  | .vtag d a s => .vtag (r d) (r a) s
  | .vtagq a => .vtagq (r a)
  | .vred d a i p => .vred (r d) (r a) i p
  | .vscan d a i m => .vscan (r d) (r a) i m
  | .vperm d a b m => .vperm (r d) (r a) (r b) m
  | .vrgath d a b m => .vrgath (r d) (r a) (r b) m
  | .vslide d a k m => .vslide (r d) (r a) k m
  | .vbcast d f s m => .vbcast (r d) f s m
  | .viota d p => .viota (r d) p
  | .vmov d a m => .vmov (r d) (r a) m
  | .vpart d a b p => .vpart (r d) (r a) (r b) p
  | .vappend d a p => .vappend (r d) (r a) p
  | .vtget d a t m => .vtget (r d) (r a) t m
  | .vtset d a t m => .vtset (r d) (r a) t m
  | .vtzero d t p => .vtzero (r d) t p
  | i => i

/-! ## Checks of the splitter (R134, R319) -/

/-- A source bound to an output flume, or a destination bound to an input flume (R12). -/
def bindingRefused (b : Bindings) (n : XNames) : Bool :=
  n.srcs.any (fun a => match bindingOf b a.toNat with | some q => decide (6 ≤ q.toNat) | none => false) ||
  (match n.dest with
   | some d => (match bindingOf b d.toNat with | some q => decide (q.toNat < 6) | none => false)
   | none => false)

def isFp64 (f : Nat) : Bool := decide (f = kFP64 ∨ f = kCF64)

/-- A cleared feature covers the word (R319). -/
def featureRefused (c : Core) : Instr → Bool
  | .vcvt _ _ f _ _ _ => !c.csr.features.getLsbD 2 && isFp64 f.toNat
  | .vqnt _ _ f _ _ _ => !c.csr.features.getLsbD 2 && isFp64 f.toNat
  | .vcvth _ _ f _ _ => !c.csr.features.getLsbD 2 && isFp64 f.toNat
  | .vbcast _ f _ _ => !c.csr.features.getLsbD 2 && isFp64 f.toNat
  | .vtget _ _ _ _ => !c.csr.features.getLsbD 0
  | .vtset _ _ _ _ => !c.csr.features.getLsbD 0
  | .vtzero _ _ _ => !c.csr.features.getLsbD 0
  | _ => false

def xReject (i : Instr) (c : Core) (w : IWord) : Option Flt :=
  if bindingRefused c.bnd (xNames i) || featureRefused c i then some (illegalWordFault w) else none

/-- An X word at the splitter: placed with physical register numbers. -/
def issueX (i : Instr) (run : Ctx → State → Chk State) (s : State) : Out :=
  issue .X i (mapRegs (physReg s.core.csr.rrb) i) (xReject i) run s

/-! ## Sources -/

/-- A source as a word reads it: the register and its shadows. -/
structure Src where
  reg : VReg
  tans : List RegBits
  deriving DecidableEq, Repr

def Src.tag (r : Src) : Tag := r.reg.tag
def Src.fmt (r : Src) : Nat := tagFmt r.reg.tag
def Src.count (r : Src) : Nat := regCount r.fmt

/-- Shadow t of a register, from 1. -/
def shadow (c : Core) (t n : Nat) : RegBits :=
  match t with
  | 1 => vat 0 c.t1 n
  | 2 => vat 0 c.t2 n
  | 3 => vat 0 c.t3 n
  | _ => 0

def setShadow (t n : Nat) (v : RegBits) (c : Core) : Core :=
  match t with
  | 1 => { c with t1 := vput c.t1 n v }
  | 2 => { c with t2 := vput c.t2 n v }
  | 3 => { c with t3 := vput c.t3 n v }
  | _ => c

/-- The fault of a stopped generator whose next entry the flume lacks (R133). -/
def generatorFault (c : Core) (q : Nat) : Option Flt :=
  if inTrap c then none
  else (List.range 16).findSome? (fun st =>
    let r := runOf c st
    if decide (r.kind = .generator) && decide (descFlume (descOf c st) = q) then r.flt else none)

/-- A named source: the register, or the head of the flume that it is bound to. -/
def readV (x : Ctx) (n : BitVec 6) (s : State) : Chk Src :=
  match bindingOf x.bnd n.toNat with
  | none => .ok ⟨vat VReg.zero s.core.v n.toNat, (List.range s.core.csr.tmode.toNat).map (fun t => shadow s.core (t + 1) n.toNat)⟩
  | some q =>
    if 6 ≤ q.toNat then faultNow (illegalWordFault x.word)
    else match flumeOf s.core q.toNat with
      | e :: _ => .ok ⟨⟨e.data, e.tag⟩, e.tangents⟩
      | [] => match (if comingTo s.core q.toNat = 0 then generatorFault s.core q.toNat else none) with
        | some f => faultNow f
        | none => waitNow (flumeWait q.toNat)

def readAllV (x : Ctx) : List (BitVec 6) → State → Chk (List Src)
  | [], _ => .ok []
  | n :: ns, s => do
    let r ← readV x n s
    let rs ← readAllV x ns s
    return r :: rs

/-- R34 over sources in operand order: whether one is SPOILED. -/
def consume (c : Core) : List Src → Chk Bool
  | [] => .ok false
  | r :: rs =>
    if tagVc r.tag = vcInvalid then faultNow (invalidFault r.tag)
    else if tagVc r.tag = vcSpoiled && spoilTrap c then faultNow ⟨cVCLASS, r.tag.setWidth 64, true, 0⟩
    else match consume c rs with
      | .ok sp => .ok (sp || tagVc r.tag == vcSpoiled)
      | .error e => .error e

/-- The flumes that the named sources pop, each once (R12). -/
def popsOf (b : Bindings) (ns : List (BitVec 6)) : List Nat :=
  (ns.filterMap (fun n => (bindingOf b n.toNat).map BitVec.toNat)).eraseDups

def popSources (x : Ctx) (ns : List (BitVec 6)) (s : State) : State :=
  (popsOf x.bnd ns).foldl (fun s q => s.onCore (fun c => setFlume q ((flumeOf c q).drop 1) c)) s

/-! ## The compute format (R41, R42, R319) -/

/-- The compute format of the sources, and whether a step marks the result SPOILED. -/
def computeFormat (x : Ctx) (c : Core) (rs : List Src) : Chk (Nat × Bool) := do
  let tag (i : Nat) : Tag := (rs.map Src.tag).getD i 0
  let fmt (i : Nat) : Nat := tagFmt (tag i)
  -- a complex operand of a step whose format is real (R42, R54)
  let madeReal (f : Nat) (n : Nat) : Option Src := if isComplex f then none else (rs.take n).find? (fun q => isComplex q.fmt)
  let r ← (match latticeStep c.lattice (fmt 0) (fmt (if rs.length < 2 then 0 else 1)) with
    | none => faultNow (tagFault cTYPE (tag 0))
    | some (f1, sp1) =>
      if rs.length < 3 then .ok (f1, sp1)
      else match madeReal f1 2 with
        | some q => faultNow (tagFault cTYPE q.tag)
        | none => match latticeStep c.lattice f1 (fmt 2) with
          | none => faultNow (tagFault cTYPE (tag 2))
          | some (f2, sp2) => .ok (f2, sp1 || sp2) : Chk (Nat × Bool))
  match madeReal r.1 rs.length with
  | some q => faultNow (tagFault cTYPE q.tag)
  | none => if isFp64 r.1 && !c.csr.features.getLsbD 2 then faultNow (illegalWordFault x.word) else .ok r

/-- TYPE with va's tag where the word does not allow the compute format. -/
def allow (ok : Bool) (t : Tag) : Chk Unit := if ok then .ok () else faultNow (tagFault cTYPE t)

/-! ## Lanes (R152, R153) -/

/-- Which lanes a predicate governs: the first m, and whether the others of them are zeroed. -/
structure Gov where
  m : Nat
  p : BitVec 64
  z : Bool
  deriving DecidableEq, Repr

def Gov.active (g : Gov) (L : Nat) : Bool := decide (L < g.m) && g.p.getLsbD L

/-- The old destination is read: a lane is merged. -/
def Gov.readsOld (g : Gov) : Bool := !g.z && (List.range g.m).any (fun L => !g.p.getLsbD L)

def predOf (c : Core) (p : Nat) : BitVec 64 := vat 0 c.p p

/-- The lanes of MOD: MOD[3:0] governs, MOD[4] zeroes. -/
def govMod (c : Core) (m : BitVec 5) (n : Nat) : Gov := ⟨n, predOf c (bitsNat m 0 4), m.getLsbD 4⟩

/-- The least element count of the sources and of the result. -/
def laneCount (f : Nat) (rs : List Src) : Nat := rs.foldl (fun n r => min n r.count) (regCount f)

/-- The old destination, checked as R153 says; `need` says that it is read. A merging VMOV consumes it as every other word does
(log 75). -/
def oldReg (x : Ctx) (d : BitVec 6) (need : Bool) (tag : Tag) (s : State) : Chk (Option Src × Bool) :=
  if !need then .ok (none, false)
  else do
    let o ← readV x d s
    let sp ← consume s.core [o]
    if tagFmt o.tag ≠ tagFmt tag ∨ tagLse o.tag ≠ tagLse tag ∨ tagSub o.tag ≠ tagSub tag then
      faultNow (tagFault cTYPE o.tag)
    else return (some o, sp)

/-- Lanes merged: `new` where active, the old or zero elsewhere. -/
def mergeLanes (g : Gov) (n : Nat) (old new : Nat → Nat) : List Nat :=
  (List.range n).map (fun L => if g.active L then new L else if L < g.m then old L else 0)

/-! ## The write of a result (R148, R151, R154, R157) -/

/-- A push into an output flume takes the deferred fault of a sink on it (R133). -/
def pushFault (c : Core) (ord q : Nat) : Option Flt :=
  if inTrap c then none
  else (List.range 16).findSome? (fun st =>
    let r := runOf c st
    if decide (r.kind = .sink) && decide (descFlume (descOf c st) = q) && decide (r.ord < ord) then r.flt else none)

/-- Entries pushed into flume q as one step. -/
def pushEntries (x : Ctx) (q : Nat) (es : List FlumeEntry) (s : State) : Chk State :=
  match pushFault s.core x.ord q with
  | some f => faultNow f
  | none => if flumeRoom s.core q es.length 0 then .ok (pushFlume q es s) else waitNow (flumeWait q)

/-- The register may be written: it is not locked (R151). -/
def lockWait (x : Ctx) (d : BitVec 6) (s : State) : Chk Unit :=
  if (lockedFor s.core x.ord).contains d.toNat then waitNow ⟨8, BitVec.ofNat 64 d.toNat⟩ else .ok ()

/-- vd written with shadows 1 to T, or pushed where vd is bound. -/
def writeV (x : Ctx) (d : BitVec 6) (r : VReg) (tans : List RegBits) (s : State) : Chk State :=
  match bindingOf x.bnd d.toNat with
  | some q => pushEntries x q.toNat [entryFor s.core.csr.tmode.toNat r tans] s
  | none => do
    lockWait x d s
    return s.onCore (fun c =>
      let c := { c with v := vput c.v d.toNat r }
      (List.range c.csr.tmode.toNat).foldl (fun c t => setShadow (t + 1) d.toNat (tans.getD t 0) c) c)

/-- What a word computed: its tag, whether it newly spoils, its flags, its lanes, and its tangent lanes by t; where a
tangent is not listed it is zero. -/
structure Computed where
  tag : Tag
  newSpoil : Bool
  flags : Flags
  lanes : List Nat
  tans : List (List Nat)
  deriving DecidableEq, Repr

/-- The last steps of a word: the old destination, the sources popped, vd written, FLAGS. -/
def finish (x : Ctx) (ns : List (BitVec 6)) (d : BitVec 6) (g : Gov) (spoiled : Bool) (r : Computed) (s : State) :
    Chk State := do
  let (old, osp) ← oldReg x d g.readsOld r.tag s
  let f := tagFmt r.tag
  let n := regCount f
  let bits (o : Option RegBits) (fm : Nat) (L : Nat) : Nat := match o with | some b => laneBits fm b L | none => 0
  let data := packReg f (mergeLanes g n (bits (old.map (·.reg.data)) f) (fun L => r.lanes.getD L 0))
  let tf := tangentFmt f
  let tans := (List.range s.core.csr.tmode.toNat).map (fun t =>
    packReg tf (mergeLanes g n (bits (old.bind (fun o => o.tans[t]?)) tf) (fun L => (r.tans.getD t []).getD L 0)))
  let s1 ← writeV x d ⟨data, spoilTag r.tag (spoiled || osp || r.newSpoil)⟩ tans (popSources x ns s)
  return s1.onCore (orFlags (r.flags ||| flagIf r.newSpoil fSPOIL))

/-! ## Tangents (R156 to R158, R224) -/

/-- The tangents that a word computes: N of its DUAL prefix, else T (R157). -/
def dualCount (x : Ctx) (c : Core) : Nat := if x.dual = 0 then c.csr.tmode.toNat else x.dual

/-- Lane L of tangent t (from 0) of a source, exact. -/
def tanElt (r : Src) (t L : Nat) : Elt :=
  if L < r.count then tangentElem r.fmt (r.tans.getD t 0) L else Elt.zero

/-- Lane L of a source, exact; zero past its count. -/
def srcElt (r : Src) (L : Nat) : Elt := if L < r.count then regElem r.reg L else Elt.zero

/-- An exact real value rounded RNE to a real tangent format, an exact zero as +0. -/
def roundTan (f : FloatFmt) (x : Num) : Nat := if x.isZero then 0 else (toFloat f .rne false x).bits

/-- An exact tangent rounded to a tangent format. -/
def tanBits (tf : Nat) (v : Elt) : Nat :=
  match kindOf tf with
  | .float f => roundTan f v.re
  | .complex f => (pairConv f ⟨roundTan f v.re, 0, false⟩ ⟨roundTan f v.im, 0, false⟩).bits
  | _ => 0

/-- Tangents carried with their elements: `pick` gives for each lane the source and the lane that supply it. -/
def carryTans (x : Ctx) (c : Core) (tf n : Nat) (pick : Nat → Option (Src × Nat)) : List (List Nat) :=
  (List.range (dualCount x c)).map (fun t => (List.range n).map (fun L =>
    match pick L with
    | some (r, k) => laneBits tf (r.tans.getD t 0) k
    | none => 0))

/-! ## Exact arithmetic on elements (R45, R46) -/

/-- The exact result of an operation and the flags of its operation. -/
structure Exact where
  v : Elt
  flags : Flags
  deriving DecidableEq, Repr

def eltAdd (down : Bool) (x y : Elt) : Elt := ⟨Num.add down x.re y.re, Num.add down x.im y.im⟩
def eltNeg (x : Elt) : Elt := ⟨x.re.neg, x.im.neg⟩
def eltConj (x : Elt) : Elt := ⟨x.re, x.im.neg⟩

/-- The product: real, or complex by its real formulas. -/
def eltMul (cx down : Bool) (x y : Elt) : Elt :=
  if cx then ⟨Num.sub down (Num.mul x.re y.re) (Num.mul x.im y.im), Num.add down (Num.mul x.re y.im) (Num.mul x.im y.re)⟩
  else Elt.real (Num.mul x.re y.re)

/-- An element times a real value, component by component. -/
def eltScaleBy (k : Num) (x : Elt) : Elt := ⟨Num.mul k x.re, Num.mul k x.im⟩

/-- The flags of an exact result: INVALID for a NaN component whose real formula has no NaN operand. Both components of a
factor enter each formula, of an addend its own component alone. -/
def exactFlags (v : Elt) (factors addends : List Elt) : Flags :=
  let fs := factors.flatMap (fun e => [e.re, e.im])
  invalidOf v.re (fs ++ addends.map Elt.re) ||| invalidOf v.im (fs ++ addends.map Elt.im)

/-- The exact quotient of the values, R161 for complex ones. A complex numerator that cancels to zero from unlike terms is
+0 in every rounding mode (log 28). -/
def eltDiv (cx : Bool) (x y : Elt) : Elt :=
  if cx then
    let n := eltMul true false x (eltConj y)
    let d := Num.add false (Num.mul y.re y.re) (Num.mul y.im y.im)
    ⟨Num.div n.re d, Num.div n.im d⟩
  else Elt.real (Num.div x.re y.re)

/-! ## One rounding to the compute format (R45 to R47) -/

/-- An integer value modulo 2^w. -/
def wrapInt (w : Nat) : Num → Nat
  | .fin neg n d => let k := n / d % 2 ^ w; if neg then (2 ^ w - k) % 2 ^ w else k
  | _ => 0

/-- The exact value of a lane rounded to the compute format. -/
def roundLane (f : Nat) (mode : RMode) (allInt : Bool) (v : Elt) : Conv :=
  match kindOf f with
  | .int s w => if allInt then ⟨wrapInt w v.re, 0, false⟩ else toInteger s w mode false false v.re
  | .float ff => toFloat ff mode false v.re
  | .complex ff => pairConv ff (toFloat ff mode false v.re) (toFloat ff mode false v.im)
  | _ => ⟨0, 0, false⟩

def isRdn : RMode → Bool | .rdn => true | _ => false

/-- The rounding of a word without a rounding field: RMODE.RM, SR as RNE (R48, R49). -/
def plainMode (c : Core) : RMode := (roundSel c.csr.rmode.toNat).plain

end Sys2Proof.Machine
end

