-- ==== Sys2Proof/Machine/Matrix.lean ====
section
/-! DEFINITION. The matrix engine: accumulator tiles (R184, R185), MCFG, MMA, MXV, MZERO, MLDC and MDRAIN (R186 to R193), the
sums of R59 to R61, and the completion of an M command (R181). -/

namespace Sys2Proof.Machine

/-! ## What M words share -/

def issueM (i : Instr) (run : Ctx → State → Chk State) (s : State) : Out := issue .M i i noReject run s

/-- The matrix engine takes the word: no M command is in progress (R181), and every earlier thread access to its tiles is
performed (R16). -/
def matrixFree (x : Ctx) (tiles : List Nat) (s : State) : Chk Unit :=
  if s.core.mcmd.isSome || threadHolds s x.ord tiles then waitNow headHeld else .ok ()

/-- The schedule's choice for a started command: true leaves its completion for a later move. -/
def takeCommandHold (s : State) : Bool × State :=
  match s.core.holdCommand with
  | [] => (false, s)
  | b :: bs => (b, s.onCore (fun c => { c with holdCommand := bs }))

/-- ILLEGAL with TVAL the word's bits, where `bad` holds. -/
def illegalIf (x : Ctx) (bad : Bool) : Chk Unit := if bad then faultNow (illegalWordFault x.word) else .ok ()

/-- R34 over the tags of a command's operands, in order: whether one is SPOILED. -/
def consumeTags (c : Core) (ts : List Tag) : Chk Bool := consume c (ts.map (fun t => ⟨⟨0, t⟩, []⟩))

/-! ## Tiles (R184, R185) -/

def afFormat (af : BitVec 2) : Nat := match af.toNat with | 0 => kFP32 | 1 => kFP16 | _ => kBF16
def afFloat (af : BitVec 2) : FloatFmt :=
  match af.toNat with | 0 => FloatFmt.fp32 | 1 => FloatFmt.fp16 | _ => FloatFmt.bf16

def tileOf (c : Core) (e : Nat) : Tile := vat Tile.zero c.tiles e

/-- A named tile that does not exist: past c31, or the odd tile of an FP32 pair. -/
def tileAbsent (c : Core) (e : Nat) : Bool := decide (31 < e) || (e % 2 == 1 && decide ((tileOf c (e - 1)).af = 0))

/-- The tile as an operand's tag: its class and detail under its format. -/
def tileTag (t : Tile) : Tag :=
  if t.vc.toNat = vcInvalid then mkInvalid (afFormat t.af) t.detail.toNat else mkTag (afFormat t.af) t.vc.toNat false 127 0

/-- The tile named by MZERO or MLDC with format af is refused: code 3, or an odd tile given FP32 (R184). -/
def reformatRefused (e : Nat) (af : BitVec 2) : Bool := decide (af = 3) || (e % 2 == 1 && decide (af = 0))

/-- The pair of tile e reformatted for af (R184). A 16-bit tile given the other 16-bit format keeps its contents. -/
def reformat (c : Core) (e : Nat) (af : BitVec 2) : Core :=
  let ev := e - e % 2
  if af = 0 then
    if (tileOf c ev).af = 0 then c
    else { c with tiles := vput (vput c.tiles ev Tile.zero) (ev + 1) Tile.zero }
  else if (tileOf c ev).af = 0 then
    { c with tiles := vput (vput c.tiles ev ⟨af, 0, 0, []⟩) (ev + 1) ⟨af, 0, 0, []⟩ }
  else { c with tiles := vput c.tiles e { tileOf c e with af := af } }

def setTile (e : Nat) (t : Tile) (c : Core) : Core := { c with tiles := vput c.tiles e t }

/-- A position's exact value. -/
def tileElem (t : Tile) (i j : Nat) : Num := (afFloat t.af).decode (sget 0 t.data (64 * i + j)).toNat

/-- The bits of a value that FlushRound gave. -/
def accBits (af : BitVec 2) (v : Num) : BitVec 32 := BitVec.ofNat 32 (toFloat (afFloat af) .rne false v).bits

/-- Tile contents that are of no account (R185), or that no rule gives (log 39): free values, from count k up. -/
def junkData (af : BitVec 2) (k : Nat) : Sparse (BitVec 32) :=
  ((List.range 3072).map (fun i =>
    (i, if af = 0 then Config.freeBits (k + i) else ((Config.freeBits (k + i)).setWidth 16).setWidth 32))).filter (fun q => q.2 ≠ 0)

/-- Class VALID or SPOILED after an accumulation or a load. -/
def tileClass (spoiled : Bool) : BitVec 2 := if spoiled then 1 else 0

/-! ## MCFG (R186) -/

def runMcfg (x : Ctx) (s : State) : Chk State := do
  let f := cap x 0
  let g := cap x 1
  matrixFree x [] s
  illegalIf x (mcfgRefused f g)
  return s.onCore (fun c => { c with mcfg := mcfgOf f g })

/-- R186. -/
def execMcfg (f g : BitVec 5) (s : State) : Out := issueM (.mcfg f g) runMcfg s

/-! ## Sums (R59, R60, R61) -/

/-- The K step of R59. -/
def kStep (fa fb : Nat) (af : BitVec 2) : Nat :=
  if fb = kBF16 then 1
  else if fa ≠ kBF16 ∧ (fb = kE2M1 ∨ fb = kGI4 ∨ fb = kGI3) ∧ af ≠ 0 then 4
  else 2

/-- One group: the exact sum of its products added to acc, one FlushRound. -/
def groupStep (f : FloatFmt) (w : Nat) (a : Num × Flags) (g : List (List (Num × Num))) : Num × Flags :=
  let ps := (g ++ List.replicate (w - g.length) [(Num.zero, Num.zero)]).flatten
  let qs := ps.map (fun p => Num.mul p.1 p.2)
  let sum := (qs.drop 1).foldl (Num.add false) (qs.headD Num.zero)
  let v := Num.add false a.1 sum
  let (y, fl) := flushRound f v
  let nanIn := a.1.isNaN || ps.any (fun p => p.1.isNaN || p.2.isNaN)
  (y, a.2 ||| fl ||| flagIf (v.isNaN && !nanIn) fINVALID)

/-- A list cut into n parts of w. -/
def parts {α : Type} (w : Nat) : Nat → List α → List (List α)
  | 0, _ => []
  | n + 1, l => l.take w :: parts w n (l.drop w)

/-- One output position: `terms` holds the pairs multiplied at each k. -/
def sumProducts (f : FloatFmt) (w : Nat) (acc : Num) (terms : List (List (Num × Num))) : Num × Flags :=
  (parts w (ceilDiv terms.length w) terms).foldl (groupStep f w) (acc, 0)

/-- A tile with positions replaced by their sums. -/
def accumulate (t : Tile) (w : Nat) (spoiled : Bool) (cells : List (Nat × List (List (Num × Num)))) : Tile × Flags :=
  let f := afFloat t.af
  cells.foldl (fun r q =>
    let (v, fl) := sumProducts f w (f.decode (sget 0 t.data q.1).toNat) q.2
    ({ r.1 with data := sset 0 r.1.data q.1 (accBits t.af v) }, r.2 ||| fl))
    (⟨t.af, tileClass spoiled, 0, t.data⟩, 0)

/-! ## MMA (R187, R188, R190) -/

/-- The element count that places an operand: its first line's. -/
def operandCount (s : State) (base : Nat) : Nat := if base < scratchEnd then tagCount (scratchLine s base).tag else 64

/-- The rows of an operand as line offsets, for n elements a line. -/
def operandRows (n base pitch rows depth : Nat) : List (List Nat) :=
  (List.range rows).map (fun i => (List.range (ceilDiv depth n)).map (fun c => base + 128 * (pitch * i + c)))

/-- The exact elements of a row, n from each line. -/
def rowElems (n depth : Nat) (row : List Line) : List Num :=
  (row.flatMap (fun l => (List.range n).map (fun p => (lineElem l.tag l.data p).re))).take depth

/-- The operands of an MMA as line offsets: A, B, and under DUAL A′ and B′ (R187, R190). -/
def mmaOperands (m : MatrixConfig) (dual : Bool) (f g : Word) (counts : List Nat) : List (List (List Nat)) :=
  let a (k o : Nat) := operandRows (counts.getD k 64) o m.apitch.toNat m.mr.toNat m.k.toNat
  let b (k o : Nat) := operandRows (counts.getD k 64) o m.bpitch.toNat m.nc.toNat m.k.toNat
  [a 0 f.toNat, b 1 g.toNat] ++ (if dual then [a 2 (dualOff m f), b 3 (dualOff m g)] else [])

/-- Every line has one FMT that the operand allows, and one FILL; else TYPE with the first other line's tag. -/
def uniformTags (ok : Nat → Bool) (ts : List Tag) : Chk Unit :=
  let t0 := ts.headD 0
  match ts.find? (fun t => !ok (tagFmt t0) || decide (tagFmt t ≠ tagFmt t0) || (tagFill t != tagFill t0)) with
  | some t => faultNow (tagFault cTYPE t)
  | none => .ok ()

/-- The bank group of a scratchpad offset (R14). -/
def bankGroup (off : Nat) : Nat := off / 0x30000

/-- All lines lie in one group. -/
def groupOf (rows : List (List Nat)) : Option Nat :=
  match rows.flatten with
  | [] => none
  | o :: os => if os.all (fun q => bankGroup q == bankGroup o) then some (bankGroup o) else none

/-- R188. -/
def bankRule (rows : List (List (List Nat))) : Bool :=
  match rows.map groupOf with
  | [some a, some b] => a != b
  | [some a, some b, some a', some b'] => a != b && a == a' && b == b'
  | _ => false

/-- A line that a command in progress has read. -/
def MCommand.line (m : MCommand) (k : Nat) : Line :=
  match m.got.find? (fun q => q.1 == k) with | some q => q.2 | none => ⟨rawTag, 0⟩

/-- The detail of the first INVALID line that a command met after its start (R185; log 39). -/
def metInvalid (ls : List Line) : Option Nat :=
  (ls.find? (fun l => decide (tagVc l.tag = vcInvalid))).map (fun l => tagDetail l.tag)

def anySpoiled (ts : List Tag) : Bool := ts.any (fun t => decide (tagVc t = vcSpoiled))

/-- A tile after a command: INVALID, with contents of no account, where the command met such a line. -/
def tileOutcome (bad : Option Nat) (e : Nat) (t : Tile) (c : Core) : Core :=
  match bad with
  | none => setTile e t c
  | some d => { setTile e ⟨t.af, BitVec.ofNat 2 vcInvalid, BitVec.ofNat 8 d, junkData t.af c.free⟩ c with free := c.free + 3072 }

/-- The tile of the other sum under DUAL (R190). -/
def dualTile (c : Core) (e : Nat) : Nat := e + (if (tileOf c e).af = 0 then 2 else 1)

/-- The sums of an MMA over the lines it has read (R187, R190). Each tile consumes the operands of its own sum (R185). -/
def mmaResult (e : Nat) (m : MCommand) (c : Core) : Core × Flags :=
  let cfg := c.mcfg
  let dual := decide (m.dual ≠ 0)
  let lines := (mmaOperands cfg dual (m.caps.getD 0 0) (m.caps.getD 1 0) m.counts).map (fun r => r.map (fun row => row.map m.line))
  let flat (o : Nat) : List Line := (lines.getD o []).flatten
  let t := tileOf c e
  let w := kStep (tagFmt ((flat 0).headD ⟨rawTag, 0⟩).tag) (tagFmt ((flat 1).headD ⟨rawTag, 0⟩).tag) t.af
  let vals := lines.zipIdx.map (fun (r, o) => r.map (rowElems (m.counts.getD o 64) cfg.k.toNat))
  let row (o i : Nat) : List Num := (vals.getD o []).getD i []
  let cells (terms : Nat → Nat → List (List (Num × Num))) : List (Nat × List (List (Num × Num))) :=
    (List.range cfg.mr.toNat).flatMap (fun i => (List.range cfg.nc.toNat).map (fun j => (64 * i + j, terms i j)))
  let spoiled (ls : List Line) (t : Tile) : Bool := anySpoiled (ls.map Line.tag ++ [tileTag t])
  let (r, fl) := accumulate t w (spoiled (flat 0 ++ flat 1) t)
    (cells (fun i j => List.zipWith (fun a b => [(a, b)]) (row 0 i) (row 1 j)))
  let c1 := tileOutcome (metInvalid (flat 0 ++ flat 1)) e r c
  if dual then
    let e' := dualTile c e
    let t' := tileOf c e'
    let (r', fl') := accumulate t' w (spoiled lines.flatten.flatten t') (cells (fun i j =>
      List.zipWith (fun p q => p ++ q) (List.zipWith (fun a b => [(a, b)]) (row 2 i) (row 1 j))
        (List.zipWith (fun a b => [(a, b)]) (row 0 i) (row 3 j))))
    (tileOutcome (metInvalid lines.flatten.flatten) e' r' c1, fl ||| fl')
  else (c1, fl)

/-! ## MXV (R191) and MLDC (R192) over the lines read -/

/-- The first weight line of column j. -/
def weightColumn (cfg : MatrixConfig) (f : Word) (j : Nat) : Word := f + BitVec.ofNat 64 (128 * cfg.bpitch.toNat * j)

/-- The addresses of the weight lines, by column, for n elements a line. -/
def weightLines (cfg : MatrixConfig) (f g : Word) (n : Nat) : List (List Word) :=
  let k0 := 64 * bitsNat g 9 3
  (List.range cfg.nc.toNat).map (fun j =>
    (List.range ((k0 + 63) / n + 1 - k0 / n)).map (fun i => weightColumn cfg f j + BitVec.ofNat 64 (128 * (k0 / n + i))))

/-- The product of an MXV over the lines it has read. -/
def mxvResult (e : Nat) (m : MCommand) (c : Core) : Core × Flags :=
  let g := m.caps.getD 1 0
  let n := m.counts.headD 64
  let k0 := 64 * bitsNat g 9 3
  let cols := (weightLines c.mcfg (m.caps.getD 0 0) g n).map (fun col => col.map (fun va => m.line va.toNat))
  let batch := (batchRegs g).map (fun r => vat VReg.zero c.v r)
  let t := tileOf c e
  let w := kStep (tagFmt (batch.headD VReg.zero).tag) (tagFmt ((cols.flatten).headD ⟨rawTag, 0⟩).tag) t.af
  let weights := cols.map (fun col => ((rowElems n (col.length * n) col).drop (k0 % n)).take 64)
  let acts := batch.map (fun r => (List.range 64).map (fun L => (regElem r L).re))
  let cells := acts.zipIdx.flatMap (fun (a, i) => weights.zipIdx.map (fun (ws, j) =>
    (64 * i + j, List.zipWith (fun p q => [(p, q)]) a ws)))
  let (r, fl) := accumulate t w (anySpoiled (batch.map VReg.tag ++ cols.flatten.map Line.tag ++ [tileTag t])) cells
  (tileOutcome (metInvalid cols.flatten) e r c, fl)

/-- A row of MLDC as a 64-element vector load reads it, from its lines. -/
def loadRow (two : Bool) (l l' : Line) : VReg := if two then (twoLineReg l l' 0).1 else (oneLineReg l 0).1

/-- A tile loaded from the rows that an MLDC has read: the positions it loads, and under a format of another width free
values elsewhere (log 39). -/
def mldcResult (e : Nat) (m : MCommand) (c : Core) : Core × Flags :=
  let f := m.caps.getD 0 0
  let af : BitVec 2 := (m.caps.getD 1 0).extractLsb' 0 2
  let two := decide (m.counts.headD 64 < 64)
  let p := if two then 256 else 128
  let at_ (i : Nat) : Line × Line := (m.line (f.toNat + p * i), m.line (f.toNat + p * i + 128))
  let rows := (List.range c.mcfg.mr.toNat).map (fun i => loadRow two (at_ i).1 (at_ i).2)
  let ff := afFloat af
  let cells := rows.zipIdx.flatMap (fun (r, i) =>
    (List.range c.mcfg.nc.toNat).map (fun j => (64 * i + j, flushRound ff (regElem r j).re)))
  let fl := cells.foldl (fun a q => a ||| q.2.2) (0 : Flags)
  let other := decide ((tileOf c e).af = 0) != decide (af = 0)
  let c1 := reformat c e af
  let c1 := if other then { c1 with free := c1.free + 3072 } else c1
  let old := if other then junkData af c.free else (tileOf c1 e).data
  let data := cells.foldl (fun d q => sset 0 d q.1 (accBits af q.2.1)) old
  (tileOutcome (metInvalid (rows.map (fun r => ⟨r.tag, 0⟩))) e ⟨af, tileClass (anySpoiled (rows.map VReg.tag)), 0, data⟩ c1, fl)

/-! ## A command in progress (R180, R181) -/

/-- What the command does once it has read all its lines. -/
def matrixCompute (m : MCommand) (s : State) : State :=
  let r : Core × Flags := match placedInstr m.word with
    | some (.mma _ _ e _ _) => mmaResult e.toNat m s.core
    | some (.mxv _ _ e _ _) => mxvResult e.toNat m s.core
    | some (.mldc _ _ e _ _) => mldcResult e.toNat m s.core
    | _ => (s.core, 0)
  s.onCore (fun _ => { r.1 with mcmd := some { m with todo := [], flags := m.flags ||| r.2 } })

/-- The place of a line that the command reads. -/
def MCommand.place (m : MCommand) (s : State) (k : Nat) : Nat :=
  match m.pages.find? (fun p => p.1 == k) with
  | some p => p.2.place (BitVec.ofNat 64 k)
  | none => placeScratch s.cur k

/-- A line as the command reads it now (R183, R207). -/
def readMatrixLine (m : MCommand) (k : Nat) (s : State) : Line × State :=
  match m.pages.find? (fun p => p.1 == k) with
  | some p => readNow p.2 (BitVec.ofNat 64 k) s
  | none => (scratchLine s k, s)

/-- The line at position i of those to be read is read; with the last one the command computes. -/
def matrixRead (i : Nat) (s : State) : State :=
  match s.core.mcmd with
  | none => s
  | some m => match m.todo[i]? with
    | none => s
    | some k =>
      if lineHeld s (m.place s k) then s
      else
        let (l, s) := readMatrixLine m k s
        let m := { m with todo := m.todo.eraseIdx i, got := (k, l) :: m.got }
        if m.todo.isEmpty then matrixCompute m s else s.onCore (fun c => { c with mcmd := some m })

/-- A line of a drain written at its home in one step (R36): merged with the positions that it keeps, whose words keep their
poison (R15). -/
def putMatrixLine (w : MWrite) (s : State) : State :=
  match w.whole with
  | some d => putScratch s w.off ⟨w.tag, d⟩
  | none =>
    let n := lineCount w.fmt (tagFill w.tag)
    let old := (scratchStored s w.off).data
    let elem (e : Nat) : Nat := match w.sets.find? (fun q => q.1 == e) with | some q => q.2 | none => lineElemBits w.fmt old e
    let q := s.mem.poison
    let s' := putScratch s w.off ⟨w.tag, packLine w.fmt ((List.range n).map elem)⟩
    { s' with mem := { s'.mem with
      poison := clearWords q (placeScratch s.cur w.off) (writtenWords w.fmt n (w.sets.map Prod.fst)) } }

/-- The line at position i of those to be written is written. -/
def matrixWrite (i : Nat) (s : State) : State :=
  match s.core.mcmd with
  | none => s
  | some m => match m.writes[i]? with
    | none => s
    | some w =>
      if lineHeld s (placeScratch s.cur w.off) then s
      else (putMatrixLine w s).onCore (fun c => { c with mcmd := some { m with writes := m.writes.eraseIdx i } })

/-- The completion of an M command (R181): flags, claims and locks, token. -/
def matrixDone (flags : Flags) (raise : BitVec 4) (s : State) : State :=
  s.onCore (fun c => addToken raise (orFlags flags { c with mcmd := none }))

/-- The lines still to be read, or still to be written, of the command in progress. -/
def linesLeft (write : Bool) (s : State) : Nat :=
  match s.core.mcmd with
  | none => 0
  | some m => if write then m.writes.length else m.todo.length

/-- `n` lines tried from position i on, in order; those at which a word waits are passed over. -/
def matrixLinesFrom (write : Bool) : Nat → Nat → State → State
  | 0, _, s => s
  | n + 1, i, s =>
    let t := if write then matrixWrite i s else matrixRead i s
    matrixLinesFrom write n (if linesLeft write t < linesLeft write s then i else i + 1) t

/-- Every line read that can be read, and every line written that can be written. -/
def matrixLinesDone (s : State) : State :=
  let s := matrixLinesFrom false (linesLeft false s) 0 s
  matrixLinesFrom true (linesLeft true s) 0 s

/-- The command in progress goes on as far as it can; it completes when nothing is left (R181). -/
def matrixAdvance (s : State) : State :=
  let s := matrixLinesDone s
  match s.core.mcmd with
  | some m => if m.todo.isEmpty && m.writes.isEmpty then matrixDone m.flags m.raise s else s
  | none => s

/-- The lines of the command in progress that may be read or written now: those to be read before those to be written. -/
def matrixParts (s : State) : List (Bool × Nat) :=
  match s.core.mcmd with
  | none => []
  | some m =>
    ((List.range m.todo.length).filter (fun i => !lineHeld s (m.place s (m.todo.getD i 0)))).map (fun i => (false, i)) ++
    ((List.range m.writes.length).filter (fun i => match m.writes[i]? with
      | some w => !lineHeld s (placeScratch s.cur w.off) && !(m.writes.take i).any (fun v => decide (v.off = w.off))
      | none => false)).map (fun i => (true, i))

/-- A command that starts, with the lines that it has read: it goes on at once as far as it can, or stays in progress where the
schedule says so. -/
def matrixStarted (x : Ctx) (tiles locks : List Nat) (counts : List Nat) (pages : List (Nat × Page)) (got : List (Nat × Line))
    (todo : List Nat) (writes : List MWrite) (flags : Flags) (s : State) : State :=
  let (hold, s) := takeCommandHold s
  let m : MCommand :=
    { ord := x.ord, trap := x.trap, word := x.word, caps := x.caps, dual := x.dual, counts := counts,
      pages := pages, job := ptbJob s.core.csr.ptb, todo := todo, got := got, writes := writes, flags := flags, raise := x.raise,
      claims := tiles, locks := locks }
  let s := s.onCore (fun c => { c with mcmd := some m })
  let s := if got.isEmpty then s else matrixCompute m s
  if hold then s else matrixAdvance s

/-! ## The start of each M word -/

/-- R187. R34's order is taken over the lines of A, B, A' and B', then the tiles (log 75). -/
def runMma (e : BitVec 5) (x : Ctx) (s : State) : Chk State := do
  let c := s.core
  let m := c.mcfg
  let f := cap x 0
  let g := cap x 1
  let dual := decide (x.dual ≠ 0)
  matrixFree x (tilesOf (matrixLines s settledLines m x.dual x.caps (.mma 0 0 e 0 0))) s
  let t := tileOf c e.toNat
  let e' := dualTile c e.toNat
  illegalIf x (tileAbsent c e.toNat || (dual && tileAbsent c e'))
  let t' := tileOf c e'
  firstFault [offsetFault f, offsetFault g]
  let counts := [operandCount s f.toNat, operandCount s g.toNat, operandCount s (dualOff m f), operandCount s (dualOff m g)]
  let ops := mmaOperands m dual f g counts
  firstFault (ops.map (fun r => linesFault r.flatten))
  let tags := ops.map (fun r => r.flatten.map (fun o => (scratchLine s o).tag))
  let _ ← consumeTags c (tags.flatten ++ [tileTag t] ++ (if dual then [tileTag t'] else []))
  uniformTags aFormat (tags.getD 0 [])
  uniformTags bFormat (tags.getD 1 [])
  if dual then
    uniformTags aFormat (tags.getD 2 [])
    uniformTags bFormat (tags.getD 3 [])
  if dual && decide (t'.af ≠ t.af) then faultNow (tagFault cTYPE (tileTag t'))
  else if !bankRule ops then faultNow (flt cMBANK f)
  else return matrixStarted x (tilesOf (ops.flatten.flatten)) [] counts [] [] ops.flatten.flatten.eraseDups [] 0 s

/-- R187. -/
def execMma (w r : BitVec 4) (e f g : BitVec 5) (s : State) : Out := issueM (.mma w r e f g) (runMma e) s

/-! ## MXV (R191, R151) -/

/-- Some earlier X word that has not started writes one of the batch registers. -/
def batchPending (c : Core) (ord : Nat) (regs : List Nat) : Bool :=
  (activeRings c).x.entries.any (fun r => decide (r.ord < ord) &&
    (match placedInstr r.word with
     | some i => (match (xNames i).dest with
       | some d => regs.contains d.toNat && (bindingOf r.bnd d.toNat).isNone
       | none => false)
     | none => false))

/-- The pages of the given addresses, each checked (R180). -/
def enginePages (s : State) : List Word → Chk (List (Nat × Page))
  | [] => .ok []
  | va :: vas => do
    let p ← checkedPage s .load va 1
    let ps ← enginePages s vas
    return (va.toNat, p) :: ps

/-- The weight line that the MXV at the ring's head has read at an address. -/
def gatheredLine (c : Core) (va : Word) : Line :=
  match (c.gathered.getD []).find? (fun g => g.1 == va.toNat) with | some g => g.2 | none => ⟨rawTag, 0⟩

/-- The weight lines that are still to be read before the MXV starts (R191), each read at its own instant (R207): as far as the
schedule and what waits at them let it. -/
def gatherLines : List (Nat × Page) → Bool → State → Chk State
  | [], _, s => .ok s
  | (va, p) :: l, moved, s =>
    let at_ : Word := BitVec.ofNat 64 va
    if (s.core.gathered.getD []).any (fun g => g.1 == va) then gatherLines l moved s
    else if lineHeld s (p.place at_) then (if moved then .error (.paused s []) else waitNow untimed)
    else
      let (line, s) := readNow p at_ (touchPage p at_ s)
      let s := s.onCore (fun c => { c with gathered := some (c.gathered.getD [] ++ [(va, line)]) })
      let (hold, s) := takeCommandHold s
      if hold then .error (.paused s []) else gatherLines l true s

def runMxv (e : BitVec 5) (x : Ctx) (s : State) : Chk State := do
  let c := s.core
  let m := c.mcfg
  let f := cap x 0
  let g := cap x 1
  let vf := bitsNat g 0 6
  let nb := bitsNat g 6 3 + 1
  let regs := batchRegs g
  matrixFree x [] s
  if batchPending c x.ord regs then waitNow headHeld
  else
    illegalIf x (x.badReserved || decide (bitsNat g 12 47 ≠ 0) || decide (64 < vf + nb) ||
      (List.range nb).any (fun k => (bindingOf x.bnd (vf + k)).isSome) || tileAbsent c e.toNat)
    let t := tileOf c e.toNat
    firstFault [offsetFault f]
    let before := (s.core.gathered.getD []).length
    let head ← enginePages s [weightColumn m f 0]
    let s ← gatherLines head false s
    let n := tagCount (gatheredLine s.core (weightColumn m f 0)).tag
    let ps ← enginePages s (weightLines m f g n).flatten
    let s ← gatherLines ps (decide (before < (s.core.gathered.getD []).length)) s
    let got := ps.map (fun p => (p.1, gatheredLine s.core (BitVec.ofNat 64 p.1)))
    let ts := got.map (fun q => q.2.tag)
    let batch := regs.map (fun r => vat VReg.zero s.core.v r)
    let _ ← consumeTags c (batch.map (·.tag) ++ ts ++ [tileTag t])
    let b0 := (batch.headD VReg.zero).tag
    match batch.find? (fun r => !aFormat (tagFmt r.tag) || decide (tagFmt r.tag ≠ tagFmt b0)) with
    | some r => faultNow (tagFault cTYPE r.tag)
    | none =>
      uniformTags bFormat ts
      return matrixStarted x [] regs [n] ps got [] [] 0 (s.onCore (fun c => { c with gathered := none }))

/-- R191. -/
def execMxv (w r : BitVec 4) (e f g : BitVec 5) (s : State) : Out := issueM (.mxv w r e f g) (runMxv e) s

/-! ## The start of MZERO and MLDC (R192) -/

def runMzero (e : BitVec 5) (x : Ctx) (s : State) : Chk State := do
  let v := cap x 0
  let af : BitVec 2 := v.extractLsb' 0 2
  matrixFree x [] s
  illegalIf x (decide (bitsNat v 2 62 ≠ 0) || reformatRefused e.toNat af)
  return matrixStarted x [] [] [] [] [] [] [] 0 (s.onCore (fun c => setTile e.toNat ⟨af, 0, 0, []⟩ (reformat c e.toNat af)))

/-- R192. -/
def execMzero (w r : BitVec 4) (e f : BitVec 5) (s : State) : Out := issueM (.mzero w r e f) (runMzero e) s

/-- The tag that a row is judged by and that a fault of the row gives: the line's, or the one R38 forms from two lines. -/
def rowTag (s : State) (off : Nat) : Tag :=
  let l := scratchLine s off
  if twoLines l.tag then (loadRow true l (scratchLine s (off + 128))).tag else l.tag

def runMldc (e : BitVec 5) (x : Ctx) (s : State) : Chk State := do
  let c := s.core
  let m := c.mcfg
  let f := cap x 0
  let g := cap x 1
  let af : BitVec 2 := g.extractLsb' 0 2
  let lines := matrixLines s settledLines m 0 x.caps (.mldc 0 0 e 0 0)
  matrixFree x (tilesOf lines) s
  illegalIf x (decide (bitsNat g 2 62 ≠ 0) || reformatRefused e.toNat af)
  firstFault [offsetFault f, linesFault lines]
  let t0 := (scratchLine s f.toNat).tag
  let tags := (List.range m.mr.toNat).map (fun i => rowTag s (f.toNat + rowPitch (tagFmt t0) * i))
  let _ ← consumeTags c tags
  let f0 := tagFmt (tags.headD 0)
  match tags.find? (fun t => !rowFormat f0 || decide (tagFmt t ≠ f0)) with
  | some t => faultNow (tagFault cTYPE t)
  | none => return matrixStarted x (tilesOf lines) [] [tagCount t0] [] [] lines [] 0 s

/-- R192. -/
def execMldc (w r : BitVec 4) (e f g : BitVec 5) (s : State) : Out := issueM (.mldc w r e f g) (runMldc e) s

/-! ## MDRAIN (R193) -/

/-- What a drain does to each line: format, rounding, FLSE where SM gives it, NONSAT, the tile's class and detail. -/
structure Drain where
  fmt : Nat
  sel : RoundSel
  flse : Option Nat
  nonsat : Bool
  vc : Nat
  detail : Nat
  deriving DecidableEq, Repr

/-- A line of data that is of no account (log 6). -/
def drawLine (s : State) : LineBits × State :=
  (BitVec.ofNat 1024 (joinFields 32 ((List.range 32).map (fun i => (Config.freeBits (s.core.free + i)).toNat))),
    s.onCore (fun c => { c with free := c.free + 32 }))

/-- An INVALID line of a format: its elements are of no account (log 6), its padding is zero (R30). -/
def invalidLine (f detail : Nat) (s : State) : Line × State :=
  let (bits, s) := drawLine s
  (⟨mkInvalid f detail, padLine (mkInvalid f detail) bits⟩, s)

/-- One line to be written: elements from `e0` of its group take the values from position 0, the positions of `zeros` are +0, and
the others keep their bits. -/
def drainLineAt (d : Drain) (lse : Nat) (decs : List Nat) (off : Nat) (vals : List Num) (zero : Nat → Bool) (s : State) :
    MWrite × State × Flags :=
  let fill := isFillFmt d.fmt
  let (rnd, s) : BitVec 32 × State :=
    if d.sel = .sr then
      let g := advance s.core.gens.drain
      (g, s.onCore (fun c => { c with gens := { c.gens with drain := g } }))
    else (0, s)
  if d.vc = vcInvalid then
    let (l, s) := invalidLine d.fmt d.detail s
    (⟨off, d.fmt, l.tag, [], some l.data⟩, s, 0)
  else
    let r := formLine d.fmt fill d.sel rnd d.nonsat false (some (lse, decs)) (vals.map Elt.real)
    let sets := (List.range (lineCount d.fmt fill)).filterMap (fun e =>
      if e < vals.length then some (e, lineElemBits d.fmt r.data e) else if zero e then some (e, 0) else none)
    let vc := if r.spoiled || decide (d.vc = vcSpoiled) then vcSpoiled else vcValid
    (⟨off, d.fmt, mkTag d.fmt vc fill lse (mkSub decs), sets, none⟩, s, r.flags)

/-- The line group of one row or column: its scale, then its lines. -/
def drainGroup (d : Drain) (off : Nat) (vals : List Num) (zero : Nat → Bool) (s : State) : List MWrite × State × Flags :=
  let (lse, decs) : Nat × List Nat :=
    if !isScaled d.fmt then (127, [0, 0, 0, 0, 0, 0, 0, 0])
    else match d.flse with
      | some l => (l, [0, 0, 0, 0, 0, 0, 0, 0])
      | none => chooseScale d.fmt 8 vals
  if elemBits d.fmt = 32 then
    let (w1, s, f1) := drainLineAt d lse decs off (vals.take 32) zero s
    let (w2, s, f2) := drainLineAt d lse decs (off + 128) (vals.drop 32) (fun e => zero (32 + e)) s
    ([w1, w2], s, f1 ||| f2)
  else
    let (w, s, f) := drainLineAt d lse decs off vals zero s
    ([w], s, f)

def drainGroups (d : Drain) (gs : List (Nat × List Num)) (zero : Nat → Bool) (s : State) : List MWrite × State × Flags :=
  gs.foldl (fun r q => let (w, s, f) := drainGroup d q.1 q.2 zero r.2.1; (r.1 ++ w, s, r.2.2 ||| f)) ([], s, 0)

def runMdrain (e : BitVec 5) (x : Ctx) (s : State) : Chk State := do
  let c := s.core
  let m := c.mcfg
  let f := cap x 0
  let g := cap x 1
  let o := bitsNat g 0 5
  let rm := bitsNat g 5 3
  let tr := g.getLsbD 9
  let tdst := bitsNat g 44 20
  let lines := matrixLines s settledLines m 0 x.caps (.mdrain 0 0 e 0 0)
  matrixFree x (tilesOf lines) s
  illegalIf x (tileAbsent c e.toNat || decide (bitsNat g 24 20 ≠ 0 ∨ bitsNat g 12 4 ≠ 0) || decide (rm = 5 ∨ rm = 6))
  firstFault [offsetFault f, if tr then offsetFault (BitVec.ofNat 64 tdst) else none,
    linesFault (drainLines f.toNat o m.mr.toNat), if tr then linesFault (drainLines tdst o m.nc.toNat) else none]
  if !rowFormat o then faultNow (flt cTYPE (BitVec.ofNat 64 o))
  else
    let t := tileOf c e.toNat
    let d : Drain := ⟨o, roundSel (if rm = 7 then c.csr.rmode.toNat else rm), if g.getLsbD 10 then some (bitsNat g 16 8) else none,
      g.getLsbD 8, t.vc.toNat, t.detail.toNat⟩
    let p := drainPitch o
    let mr := m.mr.toNat
    let nc := m.nc.toNat
    let rows := (List.range mr).map (fun i => (f.toNat + p * i, (List.range nc).map (tileElem t i)))
    let cols := if tr then (List.range nc).map (fun j => (tdst + p * j, (List.range mr).map (fun i => tileElem t i j))) else []
    let (w1, s, f1) := drainGroups d rows (fun _ => false) s
    let (w2, s, f2) := drainGroups d cols (fun k => decide (48 ≤ k)) s
    let s := if g.getLsbD 11 then s.onCore (setTile e.toNat ⟨t.af, 0, 0, []⟩) else s
    return matrixStarted x (tilesOf lines) [] [] [] [] [] (w1 ++ w2) (f1 ||| f2) s

/-- R193. -/
def execMdrain (w r : BitVec 4) (e f g : BitVec 5) (s : State) : Out := issueM (.mdrain w r e f g) (runMdrain e) s

end Sys2Proof.Machine
end

