-- ==== Sys2Proof/Machine/Load.lean ====
section
/-! DEFINITION. LOAD (R330): the code object (R232 to R235), its checks (R236, R238), and the writing of its sections. -/

namespace Sys2Proof.Machine

/-- An image in job memory: the job, its address, its size. -/
structure Image where
  job : Nat
  va : Word
  size : Nat
  deriving DecidableEq, Repr

/-- A byte of the image; bytes past its end read as zero. -/
def Image.byte (s : State) (m : Image) (i : Nat) : Nat :=
  if m.size ≤ i then 0 else (jobRead s m.job (addVa m.va i) 1).getD 0

/-- `n` bytes from an offset, little-endian. -/
def Image.read (s : State) (m : Image) (off : Nat) : Nat → Nat
  | 0 => 0
  | n + 1 => m.byte s off + 256 * Image.read s m (off + 1) n

/-- The lines of the image. -/
def Image.lines (m : Image) : List Word := (List.range (ceilDiv m.size 128)).map (fun i => addVa m.va (128 * i))

/-- Every byte of the image can be read through the job's tables. -/
def Image.readable (s : State) (m : Image) : Bool :=
  m.lines.all (fun va => (jobRead s m.job va 1).isSome)

/-! ## Header and section entries (R232, R233) -/

structure Header where
  magic : Nat
  format : Nat
  mmrev : Nat
  signed : Bool
  feats : Nat
  nsect : Nat
  svn : BitVec 32
  keyid : Nat
  sectoff : Nat
  reserved : Bool
  deriving DecidableEq, Repr

def headerFields (v : Nat) : Header :=
  let b : BitVec 1024 := BitVec.ofNat 1024 v
  { magic := bitsNat b 0 32
    format := bitsNat b 32 16
    mmrev := bitsNat b 48 8
    signed := b.getLsbD 56
    feats := bitsNat b 64 5
    nsect := bitsNat b 128 16
    svn := b.extractLsb' 192 32
    keyid := bitsNat b 224 8
    sectoff := bitsNat b 256 64
    reserved := decide (bitsNat b 58 6 ≠ 0 ∨ bitsNat b 69 27 ≠ 0 ∨ bitsNat b 96 32 ≠ 0 ∨ bitsNat b 144 48 ≠ 0 ∨
      bitsNat b 232 24 ≠ 0 ∨ bitsNat b 320 704 ≠ 0) }

structure Section where
  type : Nat
  write : Bool
  assoc : Nat
  fileOff : Nat
  size : Nat
  link : Word
  reserved : Bool
  deriving DecidableEq, Repr

def tCODE : Nat := 1
def tDATA : Nat := 2
def tTAGS : Nat := 3
def tFTAB : Nat := 4
def tSIG : Nat := 5
def tZERO : Nat := 6
def tSHAPE : Nat := 7
def tKINFO : Nat := 8

def sectionFields (v : Nat) : Section :=
  let b : BitVec 256 := BitVec.ofNat 256 v
  let t := bitsNat b 0 8
  { type := t
    write := b.getLsbD 8
    assoc := bitsNat b 16 16
    fileOff := bitsNat b 64 64
    size := bitsNat b 128 64
    link := b.extractLsb' 192 64
    reserved := decide (bitsNat b 9 7 ≠ 0 ∨ bitsNat b 32 32 ≠ 0 ∨ (t ≠ tTAGS ∧ bitsNat b 16 16 ≠ 0) ∨ t = 0 ∨ 9 ≤ t) }

/-- CODE, DATA, FTAB, ZERO and SHAPE (R234). -/
def Section.loaded (c : Section) : Bool :=
  decide (c.type = tCODE ∨ c.type = tDATA ∨ c.type = tFTAB ∨ c.type = tZERO ∨ c.type = tSHAPE)

def Section.lines (c : Section) : Nat := ceilDiv c.size 128

/-- An object as the headgate reads it: header, and the section entries that lie in the image. -/
structure Object where
  head : Header
  sections : List Section
  deriving DecidableEq, Repr

def readObject (s : State) (m : Image) : Object :=
  let h := headerFields (m.read s 0 128)
  { head := h
    sections := ((List.range h.nsect).filter (fun i => decide (h.sectoff + 32 * i + 32 ≤ m.size))).map (fun i =>
      sectionFields (m.read s (h.sectoff + 32 * i) 32)) }

def Object.ofType (o : Object) (t : Nat) : List Section := o.sections.filter (fun c => c.type == t)

/-! ## The checks (R236) -/

/-- The rules of R233 and R234 on one section's size, WRITE and place. -/
def sectionMisplaced (m : Image) (c : Section) : Bool :=
  let unit : Nat := if c.type = tCODE then 4
    else if c.type = tDATA then 128 else if c.type = tFTAB ∨ c.type = tKINFO then 16
    else if c.type = tSHAPE then 64 else 1
  decide (c.type ≠ tZERO ∧ (m.size < c.fileOff + c.size ∨ c.fileOff % 128 ≠ 0)) ||
  decide (c.size % unit ≠ 0) ||
  (c.write && decide (c.type = tCODE ∨ c.type = tFTAB)) ||
  (if c.loaded then decide (c.link.toNat % 65536 ≠ 0) else decide (c.link ≠ 0))

def sectionsOverlap (a b : Section) : Bool :=
  a.loaded && b.loaded && decide (a.link.toNat < b.link.toNat + b.size ∧ b.link.toNat < a.link.toNat + a.size)

/-- Some two members of a list are in a relation. -/
def somePair {α : Type} (r : α → α → Bool) : List α → Bool
  | [] => false
  | a :: l => l.any (r a) || somePair r l

/-- The signature section ends the file. -/
def sigMisplaced (o : Object) : Bool :=
  match o.ofType tSIG with
  | [] => false
  | [g] => decide (g.size ≠ 96) || o.sections.any (fun c => c.type != tSIG && c.type != tZERO && decide (g.fileOff < c.fileOff + c.size))
  | _ => true

/-- KINFO's size, reserved bits and tiles (R235). -/
def kinfoWrong (s : State) (m : Image) (o : Object) : Bool :=
  match o.ofType tKINFO with
  | [] => false
  | [k] =>
    decide (k.size ≠ ((o.ofType tFTAB).map (·.size)).sum) ||
    (List.range (k.size / 16)).any (fun i =>
      let e := m.read s (k.fileOff + 16 * i) 16
      decide (2 ^ 25 ≤ e ∨ 188 < e / 2 ^ 8 % 256 + e / 2 ^ 16 % 256))
  | _ => true

/-- A target page is unmapped, or a CODE or FTAB page is writable (R330). -/
def targetWrong (s : State) (job : Nat) (c : Section) : Bool :=
  c.loaded && (List.range c.lines).any (fun i =>
    match jobPage s job .load (addVa c.link (128 * i)) with
    | none => true
    | some p => leafW p.leaf && decide (c.type = tCODE ∨ c.type = tFTAB))

/-- What R236's row 5 refuses: R234's rules, and with them every misplaced header field, entry, LINKADDR and SIG size, to which
R236 gives no row of their own (log 75). -/
def layoutWrong (s : State) (m : Image) (o : Object) : Bool :=
  decide (o.head.nsect = 0 ∨ 256 < o.head.nsect ∨ o.head.sectoff % 128 ≠ 0 ∨ o.sections.length ≠ o.head.nsect) ||
  o.sections.any (sectionMisplaced m) || somePair sectionsOverlap o.sections ||
  decide (1 < (o.ofType tFTAB).length) || sigMisplaced o || kinfoWrong s m o ||
  o.sections.any (targetWrong s m.job)

/-- A TAGS section's SIZE does not match its ASSOC, or a tag is malformed (R236). A section that does not exist has no lines to
match. -/
def tagsWrong (s : State) (m : Image) (o : Object) : Bool :=
  (o.ofType tTAGS).any (fun c =>
    (match o.sections[c.assoc]? with
     | some d => decide (c.size ≠ 4 * d.lines)
     | none => true) ||
    (List.range (c.size / 4)).any (fun i => tagMalformed (BitVec.ofNat 32 (m.read s (c.fileOff + 4 * i) 4))))

def ftabWrong (s : State) (m : Image) (o : Object) : Bool :=
  (o.ofType tFTAB).any (fun c => (List.range (c.size / 16)).any (fun i =>
    let e := funcEntry (BitVec.ofNat 128 (m.read s (c.fileOff + 16 * i) 16))
    e.reserved || decide (e.addr.toNat % 4 ≠ 0) ||
      !(o.ofType tCODE).any (fun k => decide (k.link.toNat ≤ e.addr.toNat ∧ e.addr.toNat < k.link.toNat + k.size))))

def shapesWrong (s : State) (m : Image) (o : Object) : Bool :=
  (o.ofType tSHAPE).any (fun c => (List.range (c.size / 64)).any (fun i =>
    (shapeFault 0 (shapeOf ((List.range 8).map (fun j =>
      BitVec.ofNat 64 (m.read s (c.fileOff + 64 * i + 8 * j) 8))))).isSome))

/-- The signature verifies (R238). -/
def signatureHolds (s : State) (m : Image) (o : Object) : Bool :=
  match o.ofType tSIG, sfind s.vkeys o.head.keyid with
  | [g], some key =>
    let message := (List.range g.fileOff).map (fun i => BitVec.ofNat 8 (m.byte s i))
    let scalar (off : Nat) : BitVec 384 :=
      BitVec.ofNat 384 (beNumber ((List.range 48).map (fun i => BitVec.ofNat 8 (m.byte s (g.fileOff + off + i)))))
    ecdsaP384 key (sha384 message) (scalar 0) (scalar 48)
  | _, _ => false

/-- The status of R236. -/
def loadStatus (s : State) (owner : Nat) (m : Image) : Nat :=
  let o := readObject s m
  let h := o.head
  if h.magic ≠ 0x4F435849 then 1
  else if h.format ≠ 1 then 2
  else if 1 < h.mmrev then 3
  else if h.reserved || o.sections.any (·.reserved) then 4
  else if layoutWrong s m o then 5
  else if tagsWrong s m o then 6
  else if ftabWrong s m o then 7
  else if shapesWrong s m o then 8
  else if BitVec.ofNat 5 h.feats &&& ~~~featuresOf s owner ≠ 0 then 9
  else if (if h.signed then !signatureHolds s m o else sget false s.sigReq owner) then 11
  else if h.signed && decide (h.svn < s.svnCount) then 12
  else 0

/-! ## The effect (R330, R234) -/

/-- The tag of line i of a section: of a DATA section from the TAGS section that names it. -/
def sectionTag (s : State) (m : Image) (o : Object) (k : Nat) (c : Section) (i : Nat) : Tag :=
  if c.type = tZERO then uninitTag
  else if c.type = tDATA then
    match (o.ofType tTAGS).find? (fun t => t.assoc == k) with
    | some t => BitVec.ofNat 32 (m.read s (t.fileOff + 4 * i) 4)
    | none => rawTag
  else rawTag

/-- One line of a section written; bytes past the section's end are of no account (log 6). -/
def writeSectionLine (s0 : State) (m : Image) (o : Object) (k : Nat) (c : Section) (s : State) (i : Nat) : State :=
  match jobPage s m.job .load (addVa c.link (128 * i)) with
  | none => s
  | some p =>
    let n := min 128 (c.size - 128 * i)
    let (d, s) := if n = 128 then ((0 : LineBits), s) else drawLine s
    let data := if c.type = tZERO then 0 else patchLine d 0 n (m.read s0 (c.fileOff + 128 * i) n)
    let tag := sectionTag s0 m o k c i
    let va := addVa c.link (128 * i)
    noteAccess m.job p va (writeLine (meetHeld (p.place va) 128 s) p va ⟨tag, padLine tag data⟩)

/-- Every loaded section written at its LINKADDR. -/
def writeSections (s0 : State) (m : Image) (o : Object) (s : State) : State :=
  o.sections.zipIdx.foldl (fun s (c, k) =>
    if c.loaded then (List.range c.lines).foldl (writeSectionLine s0 m o k c) s else s) s

/-- The slot that an object fills. -/
def slotOfObject (o : Object) : Slot :=
  let t := (o.ofType tFTAB).headD ⟨tFTAB, false, 0, 0, 0, 0, false⟩
  { base := t.link, len := t.size / 16, svn := o.head.svn, signed := o.head.signed, revoked := false }

/-- A run of the job's slot exists. -/
def slotRuns (s : State) (job slot : Nat) : Bool :=
  (allCores s).any (fun e => match e.2.run with | some r => r.job == job && r.slot.toNat == slot | none => false)

/-- R330, R236: an object checked and loaded into a slot of a job. -/
def execLoad (fn : Nat) (o : CmdOps) (s : State) : Out :=
  command fn false true false [0x3F03FF#64, allBits, allBits] o (fun s =>
    let job := bitsNat o.o1 0 10
    let slot := bitsNat o.o1 16 6
    if slot = 63 ∧ fn ≠ 0 then .refused stDENIED []
    else match ownJob s fn job with
      | none => .refused stNOTFOUND []
      | some j =>
        let m : Image := ⟨job, o.o2, o.o3.toNat⟩
        if o.o2.toNat % 128 ≠ 0 || !m.readable s then .refused stBADARG []
        else if slotRuns s job slot then .refused stBUSY []
        else
          let st := loadStatus s j.owner m
          if st ≠ 0 then .refused stBADARG [BitVec.ofNat 64 st]
          else
            let ob := readObject s m
            let key := (job, BitVec.ofNat 6 slot)
            let cache := s.verified.filter (fun e => e != key)
            let t := writeSections s m ob (noteReads job 128 m.lines s)
            .finishLater [0] { t with
              jobs := sput t.jobs job { j with slots := sput j.slots slot (slotOfObject ob) }
              verified := if ob.head.signed then cache ++ [key] else cache }) s

end Sys2Proof.Machine
end

