-- ==== Sys2Proof/Machine/Fleet.lean ====
section
/-! DEFINITION. Errors, self-test and repair (R340 to R342), the weir (R339), telemetry (R343, R344), and module reset
(R337, R266). -/

namespace Sys2Proof.Machine

/-! ## Counters -/

def CoreTel.zero : CoreTel := ⟨0, 0, 0, 0, 0, 0, 0, false⟩

def onCoreTel (s : State) (n : Nat) (f : CoreTel → CoreTel) : State :=
  { s with fleet := { s.fleet with cores := sset CoreTel.zero s.fleet.cores n (f (sget CoreTel.zero s.fleet.cores n)) } }

def onSliceTel (s : State) (n : Nat) (f : CoreTel → CoreTel) : State :=
  { s with fleet := { s.fleet with slices := sset CoreTel.zero s.fleet.slices n (f (sget CoreTel.zero s.fleet.slices n)) } }

/-- DEVERR, after an error or fault count has changed (R343). -/
def raiseDeverr (s : State) : State := raiseIrq s 0 .deverr

def countError (unc : Bool) (t : CoreTel) : CoreTel :=
  if unc then { t with uncorrected := t.uncorrected + 1 } else { t with corrected := t.corrected + 1 }

/-- The unit that a test of a site covers (R340): bank, register bank, tile pair, row, lane. -/
def sameUnit : ErrorSite → ErrorSite → Bool
  | .scratchpad c o, .scratchpad d p => c == d && scratchBank o == scratchBank p
  | .registerFile c b, .registerFile d e => c == d && b == e
  | .accumulator c b, .accumulator d e => c == d && b == e
  | .slice k l, .slice m n => k == m && l == n
  | .culvert c l, .culvert d m => c == d && l == m
  | _, _ => false

/-- A test scheduled, or one more error counted for a test that is pending (R340). A lane whose test has failed has none
pending. -/
def scheduleTest (s : State) (site : ErrorSite) : State :=
  let ts := s.fleet.tests
  let pending (t : SelfTest) : Bool := !t.due && sameUnit t.site site
  let new := if ts.any pending then ts.map (fun t => if pending t then { t with errors := t.errors + 1 } else t)
    else ts ++ [⟨site, 1, false⟩]
  { s with fleet := { s.fleet with tests := new } }

/-- A word of a scratchpad poisoned by an uncorrectable error (R15). -/
def poisonWord (s : State) (pl : Nat) : State :=
  { s with mem := { s.mem with poison := sset false s.mem.poison (pl / 8) true } }

/-- A line made INVALID with detail POISON by an uncorrectable error (R33). -/
def poisonLine (s : State) (pl : Nat) : State :=
  let t := storedTag s.mem pl
  { s with mem := { s.mem with
    tags := sset uninitTag s.mem.tags (lineOf pl) (mkInvalid (if isReserved (tagFmt t) then kRAW else tagFmt t) dPOISON) } }

/-- R340: the error is counted, schedules a test of its unit, and leaves poison where it was not corrected. -/
def execErrorDetected (e : ErrorReport) (s : State) : Out :=
  let unc := e.uncorrected
  let s := match e.site with
    | .scratchpad core off =>
      let s := scheduleTest (onCoreTel s core (countError unc)) e.site
      if unc then poisonWord s (placeScratch core (off % scratchSize)) else s
    | .registerFile core _ => scheduleTest (onCoreTel s core (countError unc)) e.site
    | .accumulator core _ => scheduleTest (onCoreTel s core (countError unc)) e.site
    | .slice k l =>
      let s := scheduleTest (onSliceTel s k (countError unc)) e.site
      if unc then poisonLine s l else s
    | .culvert core _ =>
      let die := core / 256
      let s := { s with fleet := { s.fleet with
        resent := s.fleet.resent + 1, replays := sset 0 s.fleet.replays die (sget 0 s.fleet.replays die + 1) } }
      scheduleTest s e.site
    | .hbm l =>
      if unc then poisonLine { s with fleet := { s.fleet with hbmUncorrected := s.fleet.hbmUncorrected + 1 } } l
      else { s with fleet := { s.fleet with hbmCorrected := s.fleet.hbmCorrected + 1 } }
  .next (raiseDeverr s)

/-! ## Tests and repairs -/

/-- A core that the machine fences for a lasting fault (R341). -/
def selfFence (s : State) (n : Nat) : State := setFence (onCoreTel s n (fun t => { t with selfFenced := true })) n

/-- The repair of a lasting fault (R340); a culvert lane's remap is a step of its own (R342). -/
def repair (s : State) : ErrorSite → State
  | .scratchpad c _ | .registerFile c _ | .accumulator c _ =>
    let t := sget CoreTel.zero s.fleet.cores c
    if t.spareRows < Config.spareRows c then onCoreTel s c (fun t => { t with spareRows := t.spareRows + 1 })
    else selfFence s c
  | .slice k _ =>
    let t := sget CoreTel.zero s.fleet.slices k
    if t.spareRows < Config.spareRows (1024 + k) then onSliceTel s k (fun t => { t with spareRows := t.spareRows + 1 })
    else s
  | _ => s

/-- The classes of a test's errors: soft errors where it passes, one lasting fault where it fails. -/
def classify (site : ErrorSite) (fails : Bool) (errors : Nat) (s : State) : State :=
  let f (t : CoreTel) : CoreTel :=
    if fails then { t with lasting := t.lasting + 1 } else { t with soft := t.soft + errors }
  match site with
  | .scratchpad c _ | .registerFile c _ | .accumulator c _ | .culvert c _ => onCoreTel s c f
  | .slice k _ => onSliceTel s k f
  | .hbm _ => s

/-- R340: the pending test `k` runs, once no run holds the core it tests. -/
def execSelfTest (k : Nat) (s : State) : Out :=
  match s.fleet.tests[k]? with
  | none => .next s
  | some t =>
    if t.due then .next s
    else if (match testedCore t.site with | some c => (coreOf s c).run.isSome | none => false) then .next s
    else
      let fails := Config.lastingFault s.core.free
      let s := s.onCore (fun c => { c with free := c.free + 1 })
      let s := raiseDeverr (classify t.site fails t.errors s)
      let rest := s.fleet.tests.eraseIdx k
      match t.site, fails with
      | .culvert _ _, true => .next { s with fleet := { s.fleet with tests := rest ++ [⟨t.site, 0, true⟩] } }
      | site, true => .next (repair { s with fleet := { s.fleet with tests := rest } } site)
      | _, false => .next { s with fleet := { s.fleet with tests := rest } }

/-- The first lane of a core whose remap is due (R342). -/
def dueLane (s : State) (core : Nat) : Option ErrorSite :=
  (s.fleet.tests.find? (fun t => t.due && (match t.site with | .culvert c _ => c == core | _ => false))).map SelfTest.site

/-- R342: a failing lane is remapped to one of four spares; the core is fenced when none remains. The beats in flight are
resent. -/
def execCulvertRemap (core : Nat) (s : State) : Out :=
  match dueLane s core with
  | none => .next s
  | some site =>
    let k := s.core.free
    let s := s.onCore (fun c => { c with free := k + 1 })
    let s := { s with fleet := { s.fleet with
      tests := s.fleet.tests.filter (fun t => !(t.due && sameUnit t.site site)), resent := s.fleet.resent + Config.freeNat k } }
    if (sget CoreTel.zero s.fleet.cores core).spareLanes < 4 then
      .next (raiseDeverr (onCoreTel s core (fun t => { t with spareLanes := t.spareLanes + 1 })))
    else .next (raiseDeverr (selfFence s core))

/-! ## The weir (R339) -/

/-- R339: a microsecond's grants. A cluster that the budget holds back is counted, and so are the idle groups; nothing
else changes. -/
def execWeirGrant (s : State) : Out :=
  let k := s.core.free
  let s := s.onCore (fun c => { c with free := k + 1 })
  let thr := (List.range 128).foldl (fun l c =>
    if Config.weirThrottles (128 * k + c) then sset 0 l c (sget 0 l c + 1) else l) s.fleet.throttled
  let heat := (List.range 128).foldl (fun l c => sset 0 l c (sget 0 l c + Config.weirIdles (128 * k + c))) s.fleet.heat
  .next { s with fleet := { s.fleet with budget := s.fleet.nextBudget, throttled := thr, heat := heat } }

/-! ## Telemetry (R343) -/

/-- A counter saturates at 2^64 - 1. -/
def counter (n : Nat) : Word := BitVec.ofNat 64 (min n (2 ^ 64 - 1))

/-- The counters of a group; none where the index is out of range. -/
def telemetry (s : State) (group i : Nat) : Option (List Word) :=
  let f := s.fleet
  match group with
  | 0 =>
    let t := sget CoreTel.zero f.cores i
    some [counter t.corrected, counter t.uncorrected, counter t.soft, counter t.lasting,
      BitVec.ofNat 64 (min t.spareRows (2 ^ 32 - 1) + 2 ^ 32 * min t.spareLanes 255), counter t.lastCnt,
      BitVec.ofNat 64 ((classOf s i).toNat + (if isFenced s i then 16 else 0) + (if t.selfFenced then 32 else 0))]
  | 1 => if i < 128 then some [counter (sget 0 f.throttled i), counter (sget 0 f.heat i)] else none
  | 2 =>
    if i < 4 then
      some [counter (sget 0 f.gbars i), counter (sget 0 f.lagSum i), counter (sget 0 f.lagMax i),
        counter (sget 0 f.doubleFaults i), counter (sget 0 s.walkWait i), counter (sget 0 f.recoded i),
        counter (sget 0 f.unrecoded i)]
    else none
  | 3 =>
    if i < 512 then
      let t := sget CoreTel.zero f.slices i
      some [counter t.corrected, counter t.uncorrected, counter t.soft, counter t.lasting, counter t.spareRows,
        counter (sget 0 f.replays (i / 128))]
    else none
  | 4 =>
    if i = 0 then
      some [counter s.mig.failed, counter f.overflowWait, counter f.hbmCorrected, counter f.hbmUncorrected,
        counter f.budget, counter (Config.meanPower s.core.free), counter f.resent]
    else none
  | _ => none

/-- R343. -/
def execTelread (fn : Nat) (o : CmdOps) (s : State) : Out :=
  command fn true false false [0x3FFFF#64] o (fun s =>
    match telemetry s (bitsNat o.o1 0 8) (bitsNat o.o1 8 10) with
    | none => .refused stBADARG []
    | some ws => .done ws (s.onCore (fun c => { c with free := c.free + 1 }))) s

/-! ## Module reset (R337) -/

/-- The image of a bank boots: its signature holds and its version is not below the counter (R337). -/
def bootable (s : State) (bank : Bool) : Bool :=
  firmwareSigned (flashImage s bank) && decide (s.svnCount ≤ Config.firmwareSvn (flashImage s bank))

/-- The fences that the machine set for lasting faults, which lie in flash (R341); the other counts start again (R343). -/
def keptFences (l : Sparse CoreTel) : Sparse CoreTel :=
  l.foldl (fun k e => sset CoreTel.zero k e.1 { CoreTel.zero with selfFenced := e.2.selfFenced }) []

/-- R337, R266: reset. Fuses and flash are kept: the anti-rollback counter, classes and fences, and the firmware banks. The
ROM tries a bank, bank 0 unless FWSTAGE has written bank 1 since (log 74), and then the other. -/
def execModuleReset (s : State) : Out :=
  let r := { State.reset with classes := s.classes, fenced := s.fenced, svnCount := s.svnCount, fwSvn := s.fwSvn,
                              bootBank := s.bootBank, flash := s.flash, fwFirst := s.fwFirst,
                              fleet := { State.reset.fleet with cores := keptFences s.fleet.cores } }
  match [s.fwFirst, !s.fwFirst].find? (bootable s) with
  | some b => .next { r with bootBank := b, fwSvn := Config.firmwareSvn (flashImage s b) }
  | none => .next { r with bootState := 2 }

end Sys2Proof.Machine
end

