-- ==== Sys2Proof/Machine/Window.lean ====
section
/-! DEFINITION. The host's window (R325 to R328), requests of peers (R333), and remote accesses (R336). -/

namespace Sys2Proof.Machine

/-- WINERR.FAIL counts a failed or discarded access (R328). -/
def countFail (s : State) (fn : Nat) : State :=
  let h := hostFn s fn
  setHostFn s fn { h with fail := h.fail + 1 }

def winJob (w : Word) : Nat := bitsNat w 54 10
def winPhys (w : Word) : Bool := w.getLsbD 53

/-- The address of a DATA offset: WINCTL.BASE, sign-extended from bit 47, + offset (R325, R327). -/
def winAddress (w : Word) (off : Nat) : Word :=
  ((w.extractLsb' 15 33).signExtend 49).signExtend 64 <<< 15 ||| BitVec.ofNat 64 off

/-- The T0 address of a DATA offset under PHYS. -/
def winPhysical (w : Word) (off : Nat) : Nat := bitsNat w 15 33 * 2 ^ 15 + off

/-- The page of a DATA access (R328): a page with HOME CORE or TIER HOST fails, as a failed translation does. -/
def windowDataPage (s : State) (fn : Nat) (w : Word) (store : Bool) (va : Word) : Option Page :=
  if (ownJob s fn (winJob w)).isNone then none
  else match jobPage s (winJob w) (if store then .store else .load) va with
    | none => none
    | some p => if p.home = homeCore ∨ leafTier p.leaf = 2 then none else some p

/-- The keys under which a line stands. -/
def standingKeys (s : State) (pa : Nat) : Nat := sget 0 s.mem.keyed (lineOf pa)

/-- `n` bytes written through DATA (R328). Under PHYS the line stays under the keys under which it stands, and an address that T0
does not have fails (log 52). A line at which something waits keeps the access waiting: it has not arrived yet (log 51). -/
def windowStore (s : State) (fn off n v : Nat) : Out :=
  let w := (hostFn s fn).winctl
  if winPhys w then
    let pa := winPhysical w off
    if !inT0 pa then .next (countFail s fn)
    else if lineHeld s pa then .next s
    else .next (storeUnder (standingKeys s pa) s pa n v)
  else
    let va := winAddress w off
    match windowDataPage s fn w true va with
    | none => .next (countFail s fn)
    | some p =>
      if lineHeld s (p.place va) then .next s
      else .next (noteAccess (winJob w) p va (writeBytes s p va n v))

/-- A write has the shape that joins the arrival order (R326). -/
def writeShape (off : Nat) : HostWrite → Option (Nat × Nat)
  | .dword v => if off % 8 = 0 then some (8, v.toNat) else none
  | .line v => if off % 64 = 0 then some (64, v.toNat) else none
  | .other => none

/-- The headgate accepts accesses other than reads of BOOTSTAT (R337). -/
def headgateOpen (s : State) : Bool := decide (s.bootState = 1)

/-- R328, R326: a host write through DATA. -/
def execDataWrite (fn off : Nat) (w : HostWrite) (s : State) : Out :=
  if !headgateOpen s || hostWaits s then .next s
  else match writeShape off w with
    | none => .next (countFail s fn)
    | some (n, v) => if 0x8000 ≤ off then .next s else windowStore s fn off n v

/-! ## Registers (R325, R327 to R329) -/

/-- D0 of RESULT (R329). -/
def resultWord (h : HostFn) : Word :=
  (h.seq.setWidth 64 <<< 32) ||| (boolWord h.done <<< 31) ||| h.status.setWidth 64

/-- The doubleword of the window at an offset, for a read. -/
def windowWord (s : State) (fn off : Nat) : Word :=
  let h := hostFn s fn
  if off = 0x8040 then resultWord h
  else if 0x8048 ≤ off ∧ off < 0x8080 then h.reply.getD ((off - 0x8048) / 8) 0
  else if off = 0x8080 then h.winctl
  else if off = 0x8088 then (h.busy.setWidth 64 <<< 32) ||| h.fail.setWidth 64
  else if off = 0x8090 then
    (s.fwSvn.setWidth 64 <<< 32) ||| (boolWord s.bootBank <<< 8) ||| s.bootState.setWidth 64
  else if 0xC000 ≤ off ∧ off < 0xC400 then
    (if (off - 0xC000) / 8 % 2 = 1 then msixControl h ((off - 0xC000) / 16) else sget 0 h.msix ((off - 0xC000) / 8))
  else if off = 0xD000 then h.msixPending
  else 0

/-- The bytes that a read returns last (the model's own record of it). -/
def answer (s : State) (fn n v : Nat) : State :=
  let h := hostFn s fn
  setHostFn s fn { h with readback := (List.range n).map (fun i => BitVec.ofNat 8 (v / 256 ^ i)) }

/-- All ones in n bytes. -/
def ones (n : Nat) : Nat := 256 ^ n - 1

/-- R328, R326: a host read returns after every earlier host write; of a register of the window too. Outside STATE 1 only BOOTSTAT
can be read, and every other read returns all ones (R337; log 51). -/
def execDataRead (fn off n : Nat) (s : State) : Out :=
  if hostWaits s then .next s
  else if ¬((n = 8 ∨ n = 64) ∧ off % n = 0) || (!headgateOpen s && decide (off ≠ 0x8090 ∨ n ≠ 8)) then .next (answer s fn n (ones n))
  else if 0x8000 ≤ off then
    .next (answer s fn n (joinFields 64 ((List.range (n / 8)).map (fun i => (windowWord s fn (off + 8 * i)).toNat))))
  else
    let w := (hostFn s fn).winctl
    if winPhys w then
      let pa := winPhysical w off
      if !inT0 pa then .next (answer (countFail s fn) fn n (ones n))
      else if lineHeld s pa then .next s
      else .next (answer s fn n (bytesAt s (standingKeys s pa) pa n))
    else
      let va := winAddress w off
      match windowDataPage s fn w false va with
      | none => .next (answer (countFail s fn) fn n (ones n))
      | some p =>
        if lineHeld s (p.place va) then .next s
        else .next (noteAccess (winJob w) p va (answer s fn n (bytesAt s (pageVersion s p) (p.place va) n)))

/-- The value that WINCTL keeps of a write (R327). -/
def winctlValue (fn : Nat) (v : Word) : Word :=
  let v := v &&& 0xFFE0FFFFFFFF8000#64
  if fn = 0 then v else v &&& ~~~(1#64 <<< 53)

/-- A doubleword of the MSI-X table written; a vector that is unmasked with its pending bit set sends its message
(R325, R331). -/
def writeMsix (s : State) (fn k : Nat) (v : Word) : State :=
  let h := hostFn s fn
  let dflt : Word := if k % 2 = 1 then 0x0000000100000000#64 else 0
  let h := { h with msix := (if v = dflt then sdel h.msix k else sput h.msix k v) }
  let vec := k / 2
  if k % 2 = 1 ∧ v.getLsbD 32 = false ∧ h.msixPending.getLsbD vec then
    let s := setHostFn s fn { h with msixPending := h.msixPending &&& ~~~(1#64 <<< vec) }
    { s with msgs := s.msgs ++ [⟨fn, vec⟩] }
  else setHostFn s fn h

/-- One doubleword written to the window beyond DATA. -/
def writeRegister (s : State) (fn off : Nat) (v : Word) : State :=
  if off = 0x8080 then
    let h := hostFn s fn
    setHostFn s fn { h with winctl := winctlValue fn v }
  else if 0xC000 ≤ off ∧ off < 0xC400 then writeMsix s fn ((off - 0xC000) / 8) v
  else s

/-! ## Peers and remotes -/

/-- R333: a peer's request to a T0 address is served at the line's home; the tag travels with the line, in both directions.
A read's answer is recorded (log 13). An address that T0 does not have is not served. -/
def execCxlMemRequest (r : PeerAccess) (s : State) : Out :=
  if !inT0 r.pa || lineHeld s r.pa then .next s
  else if r.write then .next (noteStored (lineOf r.pa * 128) 128 { s with mem := putLine s.mem r.pa 0 ⟨r.tag, r.data⟩ })
  else
    let l := clearLine s 0 r.pa
    .next { s with replies := s.replies ++ [⟨none, r.pa, some l.tag, 128, l.data⟩] }

/-- What a remote access does at its line (R336): it reads bytes as stored, and the line's tag with them where tags travel
(R335), writes bytes under the line's standing tag, or a whole line, which takes the page's DFMT where no tag came with it
(R335; log 59) and whose padding is written zero (R30). -/
def remoteAccess (r : RemoteAccess) (p : Page) (s : State) : State :=
  let o := r.va.toNat % 128
  match r.work with
  | .read n =>
    let n := min n (128 - o)
    let reply : PeerReply := ⟨some r.qp, r.va.toNat, if Config.tagsTravel r.qp then some (readLine s p r.va).tag else none, n,
      BitVec.ofNat 1024 (bytesAt s (pageVersion s p) (p.place r.va) n)⟩
    { s with replies := s.replies ++ [reply] }
  | .write n d =>
    let n := min n (128 - o)
    if n = 128 then writeLine s p r.va ⟨dfmtTag p.dfmt, padLine (dfmtTag p.dfmt) d⟩ else writeBytes s p r.va n (bitsNat d 0 (8 * n))
  | .line t d => writeLine s p r.va ⟨t, padLine t d⟩

/-- R336: an access with the queue's local key is translated through its job's tables and applied at the line's home; any other
is refused. A read's answer is recorded. -/
def execIncomingRdma (r : RemoteAccess) (s : State) : Out :=
  match sfind s.netqs r.qp with
  | none => .next s
  | some q =>
    if q.localKey ≠ r.key then .next s
    else match jobPage s q.job (match r.work with | .read _ => .load | _ => .store) r.va with
      | none => .next s
      | some p => if lineHeld s (p.place r.va) then .next s else .next (noteAccess q.job p r.va (remoteAccess r p s))

end Sys2Proof.Machine
end

