-- ==== Sys2Proof/Machine/Movers.lean ====
section
/-! DEFINITION. What moves or recodes memory beneath its homes: writeback of compressed blocks (R283, R285), CLEAN and
COMPSET (R293, R288), migration (R279, R280), and the noria (R290). -/

namespace Sys2Proof.Machine

/-! ## Compressed blocks -/

/-- H and the block number of an aperture place (R281). -/
def apertureOff (p : Nat) : Nat := (p - 2 ^ 44) % 2 ^ 16
def apertureH (p : Nat) : Nat := (p - 2 ^ 44 - apertureOff p) / 2

/-- The slot of a block in T0 (R281). -/
def slotOf (p : Nat) : Nat := apertureH p + 256 * (apertureOff p / 512)

/-- The four places of the block that holds a place. -/
def blockPlaces (p : Nat) : List Nat := (List.range 4).map (fun i => p - p % 512 + 128 * i)

/-- Some line of the block is held by its home slice. -/
def blockHeld (s : State) (p : Nat) : Bool := (blockPlaces p).any (fun q => sget false s.mem.held (lineOf q))

/-- An index popped from the pool's stack. -/
def poolPop (s : State) : Option (Nat × State) :=
  match s.pool with
  | none => none
  | some p =>
    if p.depth = 0 then none
    else some (bytesAt s 0 (p.stackAt + 4 * (p.depth - 1)) 4, { s with pool := some { p with depth := p.depth - 1 } })

/-- The overflow block that a stored slot names, when its size needs one (R282). -/
def slotOverflow (s : State) (p : Nat) : Option Nat :=
  let ctl := loadBytes s.mem.bytes (slotOf p) 8
  if 8 < ctl / 8 % 32 then some (ctl / 2 ^ 8 % 2 ^ 24) else none

/-- Bytes from a line of T0 on written as stored, with a tag and under the keys `ver`; `header` says that the first line holds
a block's header sector. What the write does not cover stays as it is stored. -/
def rawStore (m : Memory) (header : Bool) (a n v ver : Nat) : Memory :=
  (List.range (ceilDiv n 128)).foldl (fun m i =>
    let q := a + 128 * i
    let k := if header && decide (i = 0) then headerKey ver else ver
    putLine m q k ⟨rawTag, patchLine (lineData m k q) 0 (min 128 (n - 128 * i)) (v / 2 ^ (1024 * i))⟩) m

/-- The keys under which a block is written: those of its first line that the slice holds (R283, R286). -/
def blockVersion (s : State) (p : Nat) : Nat :=
  match (blockPlaces p).find? (fun q => sget false s.mem.held (lineOf q)) with
  | some q => sget 0 s.mem.keyed (lineOf q)
  | none => 0

/-- The slice holds the four lines of a block no longer. -/
def dropBlock (m : Memory) (p : Nat) : Memory :=
  (blockPlaces p).foldl (fun m q => { m with
    bytes := storeBytes m.bytes q 128 0
    tags := sset uninitTag m.tags (lineOf q) uninitTag
    keyed := sset 0 m.keyed (lineOf q) 0
    held := sset false m.held (lineOf q) false }) m

/-- The block waits for an overflow block no longer. -/
def blockStored (p : Nat) (s : State) : State :=
  { s with pool := s.pool.map (fun q => { q with waiting := q.waiting.filter (· ≠ lineOf p / 4) }) }

/-- A block coded and stored in its slot; `fresh` says that the slot held none before. None where an overflow block is
needed and the stack is empty (R283, R285). -/
def storeBlock (s : State) (fresh : Bool) (p : Nat) : Option State :=
  let ver := blockVersion s p
  let ls := (blockPlaces p).map (clearLine s ver)
  let tags := ls.map Line.tag
  let c := bestCoding tags (joinFields 1024 (ls.map (fun l => l.data.toNat)))
  let old := if fresh then none else slotOverflow s p
  let room : Option (Nat × State) :=
    if c.size ≤ 8 then
      some (0, match old, s.pool with | some i, some q => poolPush s q i | _, _ => s)
    else match old with
      | some i => some (i, s)
      | none => poolPop s
  match room with
  | none => none
  | some (ovf, s) =>
    let head := joinMixed ([(64, headerOf c ovf)] ++ tags.map (fun t => (32, t.toNat)) ++ [(64, 0)])
    let m := rawStore s.mem true (slotOf p) (32 * min c.size 8) (head + 2 ^ 256 * c.data) ver
    let m := if c.size ≤ 8 then m
      else rawStore m false (poolBase s + 512 * ovf) (32 * (c.size - 8)) (c.data / 2 ^ 1792) ver
    some (blockStored p { s with mem := dropBlock m p })

/-- A block whose writeback waits for an overflow block; OVFLOW is raised once for the period (R285). -/
def waitOverflow (s : State) (p : Nat) : State :=
  match s.pool with
  | none => s
  | some q =>
    let b := lineOf p / 4
    let s := { s with pool := some { q with
      waiting := if q.waiting.contains b then q.waiting else q.waiting ++ [b], raised := true } }
    if q.raised then s else raiseIrq s 0 .ovflow

/-- A held block written back, or waiting (R285). -/
def writeBack (s : State) (p : Nat) : Except State State :=
  match storeBlock s false p with
  | some s => .ok s
  | none => .error (waitOverflow s p)

/-- R283, R285: the home slice codes a block that it holds and writes it back. -/
def execBlockWriteback (line : Nat) (s : State) : Out :=
  let p := 128 * line
  if !isAperture p || !blockHeld s p then .next s
  else match writeBack s p with
    | .ok s => .next s
    | .error s => .next s

/-! ## CLEAN (R293) -/

/-- The held block behind an address written back, or waiting. -/
def cleanLine (s : State) (job : Nat) (va : Word) : Except State State :=
  match jobPage s job .load va with
  | none => .ok s
  | some pg =>
    let p := pg.place va
    if isAperture p && blockHeld s p then writeBack s p else .ok s

def cleanLines (s : State) (job : Nat) (va : Word) : Nat → Except State State
  | 0 => .ok s
  | n + 1 => match cleanLine s job va with
    | .error s => .error s
    | .ok s => cleanLines s job (va + 128) n

/-- CLEAN: the range's lines held in slices written back and dropped, then the event; while a block waits for an overflow
block, so does the command (R285, R293). -/
def cleanBody (fn : Nat) (o : CmdOps) (s : State) : CmdResult :=
  let job := bitsNat o.o1 0 10
  if (ownJob s fn job).isNone then .refused stNOTFOUND []
  else if o.o2.toNat % 128 ≠ 0 then .refused stBADARG []
  else match cleanLines s job o.o2 o.o3.toNat with
    | .error s => .later 0x203 s
    | .ok s => .finishLater [] (completeEvent s job (o.o1.extractLsb' 16 16))

/-- R293. -/
def execClean (fn : Nat) (o : CmdOps) (s : State) : Out :=
  command fn false true false [0xFFFF03FF#64, allBits, allBits] o (cleanBody fn o) s

/-! ## Moving a page -/

/-- A line moved to another place beneath its home: data, tag and poison; it is read and written under the keys of its page, at
each address with its own tweak (R280, R286). -/
def moveLine (s : State) (ver src dst : Nat) : State :=
  let l := clearLine s ver src
  let q := (List.range 16).foldl (fun q i =>
    sset false q (16 * lineOf dst + i) (sget false s.mem.poison (16 * lineOf src + i))) s.mem.poison
  let m := putLine s.mem dst ver l
  { s with mem := { m with poison := q } }

def moveLines (s : State) (ver src dst : Nat) (n : Nat) : State :=
  (List.range n).foldl (fun s i => moveLine s ver (src + 128 * i) (dst + 128 * i)) s

/-- The place of byte 0 of a 64 KiB page. -/
def leafPlace (leaf : Word) : Nat := Page.place ⟨leaf, 0, 2 ^ 16, 0⟩ 0

/-- A leaf with its frame replaced. -/
def withFrame (leaf : Word) (frame : Nat) : Word :=
  (leaf &&& ~~~(0x1FFFFFFF#64 <<< 15)) ||| ((BitVec.ofNat 29 (frame / 2 ^ 15)).setWidth 64 <<< 15)

/-- A leaf with its tier replaced. -/
def withTier (leaf : Word) (tier : Nat) : Word :=
  (leaf &&& ~~~(3#64 <<< 13)) ||| ((BitVec.ofNat 2 tier).setWidth 64 <<< 13)

/-! ## COMPSET (R288) -/

/-- The leaf's COMP bit replaced. -/
def withComp (leaf : Word) (c : Bool) : Word := (leaf &&& ~~~(1#64 <<< 6)) ||| (boolWord c <<< 6)

/-- Every held block of a compressed page stored in its slot; the state in which one waits for an overflow block instead. -/
def storeBlocks (s : State) (fresh : Bool) (base : Nat) : Except State State :=
  (List.range 128).foldlM (fun s b =>
    let p := base + 512 * b
    if !blockHeld s p then .ok s
    else match storeBlock s fresh p with
      | some s => .ok s
      | none => .error (waitOverflow s p)) s

/-- The overflow blocks of a half frame returned to the pool. -/
def freeOverflow (s : State) (base : Nat) : State :=
  (List.range 128).foldl (fun s b =>
    let p := base + 512 * b
    match slotOverflow s p, s.pool with
    | some i, some q => poolPush s q i
    | _, _ => s) s

/-- The overflow blocks that stand on the pool's stack. -/
def stackIndices (s : State) : List Nat :=
  match s.pool with
  | none => []
  | some q => (List.range q.depth).map (fun i => bytesAt s 0 (q.stackAt + 4 * i) 4)

/-- The overflow blocks that a waiting COMPSET holds returned to the pool. -/
def returnTaken (s : State) : State :=
  let taken := match s.pool with | some q => q.taken | none => []
  pushIndices { s with pool := s.pool.map (fun q => { q with taken := [] }) } taken

/-- The commit of a page that has been copied (R280, R288). -/
def commitPage (s : State) (job : Nat) (va : Word) (entryAt : Nat) (new : Word) : State :=
  invalidate (mapsCompressed new (physStore s entryAt 8 new.toNat)) job va 1

/-- The page's lines copied into the new frame, and the commit (R280, R288); or the state in which a block waits for an overflow
block. A copy that waits holds every entry of the stack; of an old half frame, the lines that a slice holds are written back
under it first. -/
def recodePage (s : State) (job : Nat) (va : Word) (comp : Bool) (entryAt : Nat) (old new : Word) : Except State State :=
  let copy (s : State) : State := moveLines s (keyVersion s (leafKid old)) (leafPlace old) (leafPlace new) 512
  if comp then
    match storeBlocks (copy s) true (leafPlace new) with
    | .error u =>
      .error { s with pool := u.pool.map (fun q => { q with taken := stackIndices s }), hostFns := u.hostFns, msgs := u.msgs }
    | .ok t => .ok (commitPage t job va entryAt new)
  else
    match storeBlocks s false (leafPlace old) with
    | .error u => .error u
    | .ok t => .ok (freeOverflow (commitPage (copy t) job va entryAt new) (leafPlace old))

/-- COMPSET: the page moved into a new frame with COMP changed; D1 is 1 where the commit held. Another COMPSET
cannot run meanwhile: the PF, whose command it is, has one command at a time (R329). -/
def compsetBody (o : CmdOps) (s : State) : CmdResult :=
  let job := bitsNat o.o1 0 10
  let ev : BitVec 16 := o.o1.extractLsb' 16 16
  let comp := o.o1.getLsbD 32
  let frame := o.o3.toNat
  let old := o.o4
  let new := withComp (withFrame old frame) comp
  match sfind s.jobs job with
  | none => .refused stNOTFOUND []
  | some j =>
    if o.o2.toNat % 2 ^ 16 ≠ 0 ∨ !inT0 frame ∨ frame % (if comp then 2 ^ 15 else 2 ^ 16) ≠ 0 ∨
        leafComp old = comp ∨ leafV old = false ∨ leafMalformed 0 old ∨ leafMalformed 0 new then
      .refused stBADARG []
    else if rangeBusy s job o.o2 1 then .later 0x206 s
    else match walkFrom s job o.o2 3 (ptbBase j.ptb) with
      | none => .finishLater [0] (completeEvent s job ev)
      | some (p, _) =>
        if p.leaf ≠ old ∨ p.size ≠ 2 ^ 16 then .finishLater [0] (completeEvent s job ev)
        else match recodePage s job o.o2 comp p.entryAt old new with
          | .error s => .later 0x206 s
          | .ok s => .finishLater [1] (completeEvent s job ev)

/-- R288, R293. -/
def execCompset (fn : Nat) (o : CmdOps) (s : State) : Out :=
  command fn true true false [0x1FFFF03FF#64, allBits, allBits, allBits] o (compsetBody o) s

/-! ## The end of a long command (R329) -/

/-- A command that was accepted and waited, tried again. -/
def heldCommand (opc fn : Nat) (o : CmdOps) (s : State) : CmdResult :=
  if opc = 0x202 then invalBody fn o s else if opc = 0x203 then cleanBody fn o s else compsetBody o s

/-- DONE turns 1 with the command's status and reply; a long command raises CMDDONE (R329). -/
def finishHeld (fn opc status : Nat) (reply : List Word) (s : State) : State :=
  let s := setHostFn s fn { hostFn s fn with
    done := true, pending := none, status := BitVec.ofNat 8 status, reply := replyWords reply }
  if opc = 0x202 then s else raiseIrq s fn .cmddone

/-- A COMPSET waits for overflow blocks, and none has been added. -/
def compsetStarved (s : State) : Bool :=
  match s.pool with | some q => decide (q.depth = 0) && !q.taken.isEmpty | none => false

/-- R329: a command that left DONE at 0 finishes; one that waited is applied first, if it need not wait longer. -/
def execLongCommandDone (fn : Nat) (s : State) : Out :=
  let h := hostFn s fn
  match h.pending with
  | some (opc, o) =>
    if opc = 0x206 && compsetStarved s then .next s
    else
      let s := if opc = 0x206 then returnTaken s else s
      match heldCommand opc fn o s with
      | .refused st reply => .next (finishHeld fn opc st reply s)
      | .done reply s' => .next (finishHeld fn opc stOK reply s')
      | .finishLater reply s' => .next (finishHeld fn opc stOK reply s')
      | .later _ s' => .next s'
  | none => if h.done then .next s else .next (raiseIrq (setHostFn s fn { h with done := true }) fn .cmddone)

/-! ## Migration (R279, R280) -/

/-- A T1 frame of a range that carries tags (R291). -/
def carriesTags (s : State) (frame : Nat) : Bool :=
  match rangeAt s frame with | some r => r.kind != .untagged | none => false

/-- A page that the engine may move now: MIG, homed CACHED, not compressed, 64 KiB; T1 in a range that carries tags. -/
def movable (s : State) (e : LeafAt) : Bool :=
  let l := e.leaf
  leafMig l && decide (leafHome l = homeCached) && !leafComp l && decide (e.level = 0) &&
    (decide (leafTier l = 0) || (decide (leafTier l = 1) && carriesTags s (leafFrame l)))

/-- The count of a page in this epoch. -/
def pageCount (s : State) (entryAt : Nat) : Nat :=
  match s.mig.counts.find? (fun c => c.entryAt == entryAt) with | some c => c.count | none => 0

/-- A page placed in a list in descending order of count, after its equals. -/
def insertByCount (x : MigCount) : List MigCount → List MigCount
  | [] => [x]
  | y :: ys => if y.count < x.count then x :: y :: ys else y :: insertByCount x ys

/-- R279: at the end of an epoch the engine takes its candidates, promotions first, each in descending count order, and
clears the counts. -/
def execMigrationEpoch (s : State) : Out :=
  if !s.mig.enabled then .next s
  else
    let pages : List (Nat × MigCount) := s.jobs.flatMap (fun j =>
      ((jobLeaves s j.2).filter (movable s)).map (fun e =>
        (leafTier e.leaf, ⟨e.entryAt, j.1, e.va, pageCount s e.entryAt⟩)))
    let up := (pages.filter (fun p => p.1 == 1 && decide (s.mig.hot ≤ p.2.count))).map Prod.snd
    let down := (pages.filter (fun p => p.1 == 0 && decide (p.2.count ≤ s.mig.cold))).map Prod.snd
    let sorted (l : List MigCount) : List MigCount := l.foldl (fun acc x => insertByCount x acc) []
    .next { s with mig := { s.mig with counts := [], candidates := sorted up ++ sorted down } }

/-- The leaf of a page as it stands at its home, when the engine may move it. -/
def moveLeaf (s : State) (c : MigCount) : Option Word :=
  let l := tableEntry s c.entryAt
  if leafV l && decide (leafTier l ≠ 3) && !leafMalformed 0 l && movable s ⟨0, c.entryAt, l, c.va⟩ then some l else none

/-- The free frame that a move out of a tier would take: of T1 the first in a range that carries tags (R291). -/
def frameFor (s : State) (tier : Nat) : Option Nat :=
  if tier = 1 then s.mig.freeT0.head? else s.mig.freeT1.find? (carriesTags s)

/-- A frame taken from the list of the other tier. -/
def takeFrame (m : Migration) (tier frame : Nat) : Migration :=
  if tier = 1 then { m with freeT0 := m.freeT0.drop 1 } else { m with freeT1 := m.freeT1.erase frame }

/-- The engine starts the first candidate that has a free frame of its destination tier. -/
def startMove (s : State) : State :=
  let ready (c : MigCount) : Bool := match moveLeaf s c with
    | none => true
    | some l => (frameFor s (leafTier l)).isSome
  match s.mig.candidates.find? ready with
  | none => s
  | some c =>
    let m := { s.mig with candidates := s.mig.candidates.filter (· ≠ c) }
    match moveLeaf s c with
    | none => { s with mig := m }
    | some l => match frameFor s (leafTier l) with
      | none => s
      | some f => { s with mig := { takeFrame m (leafTier l) f with moving := some ⟨c, l, f⟩ } }

/-- A frame returned to the list of a tier. -/
def returnFrame (m : Migration) (tier frame : Nat) : Migration :=
  if tier = 0 then { m with freeT0 := m.freeT0 ++ [frame] } else { m with freeT1 := m.freeT1 ++ [frame] }

/-- The freeze, the last copies and the commit by compare-and-swap (R280), in one step, once no access translated through
the old leaf is still to be applied. A T1 frame whose range carries tags no longer takes no page (R291; log 56). -/
def commitMove (s : State) (m : PageMove) : State :=
  let src := leafTier m.leaf
  let dst := if src = 1 then 0 else 1
  let new := withTier (withFrame m.leaf m.dest) dst
  let mig := { s.mig with moving := none }
  if tableEntry s m.page.entryAt ≠ m.leaf ∨ (dst = 1 ∧ carriesTags s m.dest = false) then
    { s with mig := { returnFrame mig dst m.dest with failed := mig.failed + 1 } }
  else if accessesHeld s m.page.job m.page.va 1 then s
  else
    let s := moveLines s (keyVersion s (leafKid m.leaf)) (leafPlace m.leaf) (leafPlace new) 512
    let s := invalidate (physStore s m.page.entryAt 8 new.toNat) m.page.job m.page.va 1
    { s with mig := returnFrame mig src (leafFrame m.leaf) }

/-- R280: the move in progress commits, or the next begins. -/
def execMigratePage (s : State) : Out :=
  match s.mig.moving with
  | some m =>
    let t := commitMove s m
    .next (if s.mig.failed < t.mig.failed then raiseDeverr t else t)
  | none => .next (if s.mig.enabled then startMove s else s)

/-! ## The noria (R290) -/

/-- What the noria does with a line. -/
inductive NoriaLine where
  | held
  | recoded (s : State)
  | skipped (s : State)
  | unmapped

/-- A line that the noria recodes to a format, by the tag that a read of it yields (R290, R291). -/
def noriaTakes (tfmt : Nat) (t : Tag) : Bool :=
  tagVc t == vcValid && !tagMalformed t &&
    (if tagFill t then decide (elemBits tfmt < elemBits (tagFmt t))
     else decide (tagFmt t = kFP16 ∨ tagFmt t = kBF16))

/-- One line at its home, after every word queued there before it (R216, R290). -/
def noriaLine (s : State) (job tfmt : Nat) (sr : Bool) (va : Word) : NoriaLine :=
  match sfind s.jobs job with
  | none => .unmapped
  | some j =>
    if j.stopped then .unmapped
    else match jobPage s job .store va with
      | none => .unmapped
      | some p =>
        let pl := p.place va
        let l := clearLine s (pageVersion s p) pl
        let t := if untaggedAt s pl then dfmtTag p.dfmt else l.tag
        if lineHeld s pl then .held
        else if linePoisoned s.mem pl || !noriaTakes tfmt t then .skipped (noteAccess job p va s)
        else
          let k := homeSliceOf p pl
          let g := if sr then advance (sliceState s k) else 0
          let (t, d) := recodeLine tfmt (if sr then .sr else .rne) g t l.data
          let s := if sr then { s with sliceGen := sset 0 s.sliceGen k g } else s
          .recoded (noteAccess job p va (writeLine s p va ⟨t, d⟩))

/-- A value of `n` bytes at an address in the pieces that lie in one line each. -/
def linePieces (va : Word) (n v : Nat) : List (Word × Nat × Nat) :=
  let k := 128 - va.toNat % 128
  if n ≤ k then [(va, n, v)] else [(va, k, v % 256 ^ k), (addVa va k, n - k, v / 256 ^ k)]

/-- The entry's end (R290): the report, then the event. -/
def noriaEnd (s : State) (die job : Nat) (report : Word) (ev : BitVec 16) : State :=
  let d := dieOf s die
  let s := setDie s die { d with noriaQ := d.noriaQ.drop 1, noriaAt := 0, noriaDone := [], recoded := 0, skipped := 0, unmapped := 0 }
  let s := if report = 0 then s
    else (linePieces report 8 d.recoded ++ linePieces (addVa report 8) 8 d.skipped ++ linePieces (addVa report 16) 8 d.unmapped).foldl
      (fun s x => match jobWrite s job x.1 x.2.1 x.2.2 true with
        | some s => s
        | none => memoryFailed s job x.1 (Entry.none job)) s
  completeEvent s job ev

/-- A change of the module's counters. -/
def onFleet (f : Fleet → Fleet) (s : State) : State := { s with fleet := f s.fleet }

/-- R290: a line of the first entry of a die's noria reaches its home: the `s.pick`-th of those that have not, since their order
is not kept (R216). After the last the noria reports and sets the event. -/
def execNoriaRecodeLine (die : Nat) (s : State) : Out :=
  let d := dieOf s die
  match d.noriaQ with
  | [] => .next s
  | e :: _ =>
    let w (i : Nat) : Word := e.getD i 0
    let job := bitsNat (w 0) 0 10
    let i := unappliedLine d.noriaAt s.pick d.noriaDone
    let (below, above) := markApplied i d.noriaAt d.noriaDone
    let d' := { d with noriaAt := below, noriaDone := above }
    let settle (s : State) (d : Die) : Out :=
      let s := setDie s die d
      .next (if (w 2).toNat ≤ below then noriaEnd s die job (w 3) ((w 0).extractLsb' 24 16) else s)
    if (w 2).toNat ≤ i then .next s
    else match noriaLine s job (bitsNat (w 0) 16 5) (bitsNat (w 0) 21 3 == 4) (addVa (w 1) (128 * i)) with
      | .held => .next s
      | .recoded t => settle (onFleet (fun f => { f with recoded := sset 0 f.recoded die (sget 0 f.recoded die + 1) }) t)
          { d' with recoded := d.recoded + 1 }
      | .skipped t => settle (onFleet (fun f => { f with unrecoded := sset 0 f.unrecoded die (sget 0 f.unrecoded die + 1) }) t)
          { d' with skipped := d.skipped + 1 }
      | .unmapped => settle (onFleet (fun f => { f with unrecoded := sset 0 f.unrecoded die (sget 0 f.unrecoded die + 1) }) s)
          { d' with unmapped := d.unmapped + 1 }

end Sys2Proof.Machine
end

