-- ==== Sys2Proof/Machine/Commands.lean ====
section
/-! DEFINITION. The CMD register of a window: a 64-byte write issues the command that its OPC names (R269, R325, R330); and the
window's register writes (R326, R327). -/

namespace Sys2Proof.Machine

/-- The operands that the 64 bytes of a command hold: D0[63:16] and D1 to D7 (R269). -/
def commandOps (v : Nat) : CmdOps :=
  let w (i : Nat) : Word := BitVec.ofNat 64 (fieldAt 64 v i)
  ⟨(w 0).extractLsb' 16 48, w 1, w 2, w 3, w 4, w 5, w 6, w 7⟩

/-- The scheduler's commands (R269). -/
def schedulerCommand (opc fn : Nat) (o : CmdOps) (s : State) : Option Out :=
  match opc with
  | 0x0101 => some (execJobcreate fn o s)
  | 0x0102 => some (execJobstop fn o s)
  | 0x0103 => some (execJobdestroy fn o s)
  | 0x0104 => some (execQcreate fn o s)
  | 0x0105 => some (execQdestroy fn o s)
  | 0x0106 => some (execQpush fn o s)
  | 0x0107 => some (execSpilladd fn o s)
  | 0x0108 => some (command fn false false false evhostMask o (evhostBody fn o) s)
  | 0x0180 => some (execRqset fn o s)
  | 0x0181 => some (execVfslice fn o s)
  | 0x0182 => some (execSpeedset fn o s)
  | _ => none

/-- The memory commands (R293). -/
def memoryCommand (opc fn : Nat) (o : CmdOps) (s : State) : Option Out :=
  match opc with
  | 0x0201 => some (execPtecas fn o s)
  | 0x0202 => some (execInval fn o s)
  | 0x0203 => some (execClean fn o s)
  | 0x0204 => some (execMigcfg fn o s)
  | 0x0205 => some (execMigfree fn o s)
  | 0x0206 => some (execCompset fn o s)
  | 0x0207 => some (execOvfset fn o s)
  | 0x0208 => some (execOvfadd fn o s)
  | 0x0209 => some (execNorset fn o s)
  | 0x020A => some (execNorpush fn o s)
  | 0x020B => some (execSrslice fn o s)
  | 0x020C => some (execKeyjob fn o s)
  | 0x020D => some (execCxlrange fn o s)
  | _ => none

/-- The host and system commands (R330) and those of R343. -/
def systemCommand (opc fn : Nat) (o : CmdOps) (s : State) : Option Out :=
  match opc with
  | 0x0301 => some (execLoad fn o s)
  | 0x0302 => some (execPreempt fn o s)
  | 0x0303 => some (execTagset fn o s)
  | 0x0304 => some (execTagget fn o s)
  | 0x0305 => some (execFeatset fn o s)
  | 0x0306 => some (command fn true false false keysetMask o (keysetBody o) s)
  | 0x0307 => some (command fn true false false vkeysetMask o (vkeysetBody o) s)
  | 0x0308 => some (execSvninc fn o s)
  | 0x0309 => some (execIntmap fn o s)
  | 0x030A => some (command fn false false false netqpMask o (netqpBody fn o) s)
  | 0x030B => some (execFwstage fn o s)
  | 0x0401 => some (execTelread fn o s)
  | 0x0402 => some (execPwrcap fn o s)
  | _ => none

/-- A command as its 64 bytes give it; an OPC that no row names is BADARG (R269; log 48). -/
def issueCommand (fn v : Nat) (s : State) : Out :=
  let opc := v % 2 ^ 16
  let o := commandOps v
  match schedulerCommand opc fn o s, memoryCommand opc fn o s, systemCommand opc fn o s with
  | some r, _, _ => r
  | none, some r, _ => r
  | none, none, some r => r
  | none, none, none => command fn false false false [] o (fun _ => .refused stBADARG []) s

/-- R326, R327, R325: a host write to a window register; registers that are read only discard it. A 64-byte write to CMD issues a
command; an 8-byte write there issues none (R329). Outside STATE 1 only FWSTAGE is accepted (R337). -/
def execRegisterWrite (fn off : Nat) (w : HostWrite) (s : State) : Out :=
  match writeShape off w with
  | none => if headgateOpen s && !hostWaits s then .next (countFail s fn) else .next s
  | some (n, v) =>
    if off = 0x8000 ∧ n = 64 then issueCommand fn v s
    else if !headgateOpen s || hostWaits s then .next s
    else .next ((List.range (n / 8)).foldl (fun s i => writeRegister s fn (off + 8 * i) (BitVec.ofNat 64 (v / 2 ^ (64 * i)))) s)

end Sys2Proof.Machine
end

