-- ==== Sys2Proof/Machine/Copy.lean ====
section
/-! DEFINITION. The copy engine: CPY (R197 to R199), CPYZ (R200), byte-counting barriers (R201, R202), CPYQ and CPYCAN (R203,
R204), lines that land and commands that complete (R181), network copies (R334 to R336), the record cache (R221). -/

namespace Sys2Proof.Machine

def issueY (i : Instr) (run : Ctx → State → Chk State) (s : State) : Out := issue .Y i i noReject run s

/-! ## Operands of a command in flight -/

def copyOff (y : YCommand) : Nat := bitsNat y.sf 0 20
def copyStores (y : YCommand) : Bool := y.sf.getLsbD 20
def copyStart (y : YCommand) : Nat := bitsNat y.sg 0 48

/-- CTAG; 0 for CPYZ (R200). -/
def copyTag (y : YCommand) : Nat := match y.kind with | .cpy => bitsNat y.sg 48 16 | _ => 0

/-- The scratchpad offset of the layout line at byte b. -/
def layoutOff (y : YCommand) (b : Nat) : Nat := match y.kind with | .cpy => copyOff y + b | _ => y.se.toNat + b

/-- The count that places x0 within the lines of tensor row R (R195). -/
def rowCount (h : Shape) (stores : Bool) (tags : List Tag) (R : Nat) : Nat :=
  if !h.cvt then 1 else if stores then nativeCount h.ofmt else tagCount (tags.getD R 0)

/-- The fault of a scratchpad range [lo, hi) (R183). -/
def rangeFault (lo hi : Nat) : Option Flt :=
  if hi ≤ lo ∨ hi ≤ scratchEnd then none
  else
    let o := max lo scratchEnd
    some (flt (if o < scratchSize then cPRIV else cPAGE) (BitVec.ofNat 64 o))

/-! ## Ranges of commands (R181) -/

/-- Ranges of places [lo, hi). -/
abbrev Spans := List (Nat × Nat)

def spansMeet (a b : Spans) : Bool := a.any (fun p => b.any (fun q => decide (p.1 < q.2 ∧ q.1 < p.2)))

/-- The place that stands for a network address in the ranges of commands: queue by queue, off the memories of the module
(R181, R334). -/
def placeNet (q : Nat) (va : Word) : Nat := 2 ^ 50 + 2 ^ 30 * q + (va.toNat - netBase) % 2 ^ 30

/-- The places of a command's memory side, line by line. -/
def memoryPlaces (y : YCommand) : List Nat :=
  match y.qp with
  | some q => ((shapeOf y.shape).lines (copyStart y) (fun _ => 1)).map (fun va => placeNet q (BitVec.ofNat 64 va))
  | none => y.pages.map (fun p => lineOf (p.2.place (BitVec.ofNat 64 p.1)) * 128)

/-- The bytes that a command has read to place its operands: of its record, and of the first lines of rows. -/
def extraSpans (y : YCommand) : Spans :=
  y.extra.map (fun q => let pl := q.2.2.place (BitVec.ofNat 64 q.1); (pl, pl + q.2.1))

/-- What a command reads and what it writes. -/
def copySpans (core : Nat) (y : YCommand) : Spans × Spans :=
  match y.kind with
  | .cpy =>
    let pad : Spans := [(placeScratch core (copyOff y + copyStart y), placeScratch core (copyOff y + y.size))]
    let memory : Spans := (memoryPlaces y).map (fun pl => (pl, pl + 128))
    if copyStores y then (pad ++ extraSpans y, memory) else (memory ++ extraSpans y, pad)
  | _ => ([], [(placeScratch core y.se.toNat, placeScratch core (y.se.toNat + y.size))])

/-- The command waits: a range it reads or writes meets the destination of a command in flight, or its destination a range of
one (R181). -/
def spansHeld (s : State) (reads writes : Spans) : Bool :=
  s.core.ycmds.any (fun y =>
    let (r, w) := copySpans s.cur y
    spansMeet (reads ++ writes) w || spansMeet writes r)

/-! ## Byte-counting barriers (R201) -/

/-- `n` bytes of the core's scratchpad written under the line's tag. -/
def scratchPut (off n v : Nat) (s : State) : State :=
  let l := scratchStored s off
  let q := s.mem.poison
  let s := putScratch s off ⟨l.tag, patchLine l.data (off % 128) n v⟩
  { s with mem := { s.mem with poison := clearCovered q (placeScratch s.cur off) n } }

/-- A landed line counted at a barrier. -/
def countLanded (b : Option Nat) (s : State) : State :=
  match b with
  | none => s
  | some off =>
    let pl := placeScratch s.cur off
    let want := bytesAt s 0 pl 8
    let old := bytesAt s 0 (pl + 8) 8
    let new := (old + 128) % 2 ^ 64
    let s := scratchPut (off + 8) 8 new s
    if old < want ∧ want ≤ new then setFull true pl s else s

/-! ## Lines of a load (R198) -/

/-- The remote address that an address of the aperture names (R334). -/
def remoteOf (s : State) (q : Nat) (va : Word) : Word :=
  (match sfind s.netqs q with | some n => n.remote.getD 1 0 | none => 0) + BitVec.ofNat 64 ((va.toNat - netBase) % 2 ^ 30)

/-- A line that the network returns: with its tag from a Scegizia remote, from any other with the page's DFMT, which the
aperture does not have and is a free value (R335; log 13). -/
def receivedLine (q k : Nat) : Line :=
  if Config.tagsTravel q then yieldLine false false kRAW ⟨Config.linkTag k, Config.linkData k⟩
  else ⟨dfmtTag (Config.freeNat k % 32), Config.linkData k⟩

/-- The line of memory at an address, as a command that holds its page reads it, with the core's own queued stores (R207), or
as the network returns it (R335). -/
def copiedLine (y : YCommand) (va : Word) (s : State) : Line × State :=
  match y.qp with
  | some q =>
    let l := receivedLine q s.core.free
    (l, { s.onCore (fun c => { c with free := c.free + 1 }) with
      sent := s.sent ++ [⟨q, remoteOf s q va, false, l.tag, l.data⟩] })
  | none =>
    match y.pages.find? (fun p => p.1 == va.toNat) with
    | some p => readNow p.2 va s
    | none => (⟨rawTag, 0⟩, s)

/-- An element that feeds a line: where it lies, its line, and the tag by which its row was placed. -/
structure Feed where
  line : Line
  e : Nat
  placed : Tag
  deriving DecidableEq, Repr

/-- The detail of a destination line that becomes INVALID (R198): that of the first INVALID source, else TAGSPLIT for a
conversion that R54 forbids or a line whose FMT or FILL is not its row's. -/
def feedsDetail (ofmt : Nat) (fs : List Feed) : Option Nat :=
  match fs.find? (fun f => tagVc f.line.tag == vcInvalid) with
  | some f => some (tagDetail f.line.tag)
  | none =>
    if fs.any (fun f => convForbidden (tagFmt f.line.tag) ofmt || decide (tagFmt f.line.tag ≠ tagFmt f.placed) ||
        (tagFill f.line.tag != tagFill f.placed)) then some dTAGSPLIT
    else none

def feedsSpoiled (fs : List Feed) : Bool := fs.any (fun f => tagVc f.line.tag == vcSpoiled)

/-- An element decoded with its own line's scale, its imaginary part negated under CONJ; whether it is an integer's. -/
def feedElem (conj : Bool) (f : Feed) : Elt × Bool :=
  let x := lineElem f.line.tag f.line.data f.e
  (if conj && isComplex (tagFmt f.line.tag) then ⟨x.re, x.im.neg⟩ else x, isInt (tagFmt f.line.tag))

/-- The scale that SMODE 1 gives. -/
def givenScale (h : Shape) : Option (Nat × List Nat) :=
  if h.smode = 1 then some (h.flse, [0, 0, 0, 0, 0, 0, 0, 0]) else none

/-- A line of OFMT formed from its elements, absent ones +0 (R198); the flags of its conversions. -/
def formCopied (h : Shape) (rnd : BitVec 32) (xs : List (Option Feed)) (s : State) : Line × Flags × State :=
  let fs := xs.filterMap id
  match feedsDetail h.ofmt fs with
  | some d =>
    let (l, s) := invalidLine h.ofmt d s
    (l, 0, s)
  | none =>
    let r := formMixed h.ofmt false (roundSel h.rm) rnd h.ns (givenScale h) (xs.map (fun x =>
      match x with | none => (Elt.zero, false) | some f => feedElem h.conj f))
    (⟨r.tag h.ofmt false (feedsSpoiled fs), r.data⟩, r.flags, s)

/-- The generator advanced n times (R56). -/
def advanceTimes (n : Nat) (g : BitVec 32) : BitVec 32 := (List.range n).foldl (fun g _ => advance g) g

/-- The generator's value for the r-th line, by ascending destination, that a command writes under SR; it advances once for each
line written (R56; log 69). -/
def drawCopy (h : Shape) (r : Nat) (y : YCommand) (s : State) : BitVec 32 × YCommand × State :=
  if h.cvt && decide (roundSel h.rm = .sr) then
    let g := s.core.gens.copy
    (if y.drawn ≤ r then advanceTimes (r + 1 - y.drawn) g else advanceTimes (r + 1) y.gen, { y with drawn := y.drawn + 1 },
      s.onCore (fun c => { c with gens := { c.gens with copy := advance g } }))
  else (0, y, s)

/-- The addresses of the memory lines from which a load forms the layout line at byte b. -/
def sourceVas (y : YCommand) (h : Shape) (b : Nat) : List Nat :=
  (((h.sources b).filterMap id).map (fun q => (h.lineVa (rowCount h false y.rowTags q.1) q.1 q.2).toNat)).eraseDups

/-- A line has been read for the layout line at byte b: from an address, or by a store from the scratchpad (address 0). -/
def YCommand.has (y : YCommand) (b va : Nat) : Bool := y.got.any (fun g => g.1 == b && g.2.1 == va)

/-- That line. -/
def YCommand.line (y : YCommand) (b va : Nat) : Line :=
  match y.got.find? (fun g => g.1 == b && g.2.1 == va) with | some g => g.2.2 | none => ⟨rawTag, 0⟩

/-- The elements of the layout line at byte b, from the lines read for it. -/
def loadFeeds (y : YCommand) (h : Shape) (b : Nat) : List (Option Feed) :=
  (h.sources b).map (Option.map (fun q =>
    let n := rowCount h false y.rowTags q.1
    ⟨y.line b (h.lineVa n q.1 q.2).toNat, q.2 % n, y.rowTags.getD q.1 0⟩))

/-- The layout line at byte b as a load writes it, from the lines read for it; the flags of its conversions. -/
def loadedLine (y : YCommand) (b : Nat) (s : State) : Line × Flags × YCommand × State :=
  let h := shapeOf y.shape
  if h.cvt then
    let (rnd, y, s) := drawCopy h ((b - copyStart y) / 128) y s
    let (l, fl, s) := formCopied h rnd (loadFeeds y h b) s
    (l, fl, y, s)
  else match sourceVas y h b with
    | [] => (⟨rawTag, 0⟩, 0, y, s)
    | va :: _ =>
      let l := y.line b va
      (⟨l.tag, padLine l.tag l.data⟩, 0, y, s)

/-- A line of the quiesce report (R203): the report's doublewords; bytes past the last are of no account (log 6). -/
def reportLine (y : YCommand) (b : Nat) (s : State) : Line × State :=
  let (d, s) := drawLine s
  let n := min 128 (8 * y.shape.length - b)
  (⟨rawTag, patchLine d 0 n (joinFields 64 (((y.shape.drop (b / 8)).take 16).map BitVec.toNat))⟩, s)

/-- The line that a command writes in the scratchpad at byte b of its layout. -/
def padLineOf (y : YCommand) (b : Nat) (s : State) : Line × Flags × YCommand × State :=
  match y.kind with
  | .cpy => loadedLine y b s
  | .cpyz => (⟨y.sg.setWidth 32, 0⟩, 0, y, s)
  | .report => let (l, s) := reportLine y b s; (l, 0, y, s)

/-! ## Lines of a store (R199) -/

/-- An element sent to memory: its position in the memory line, and its place in the scratchpad layout. -/
structure Piece where
  pos : Nat
  byte : Nat
  e : Nat
  deriving DecidableEq, Repr

/-- The positions of a memory line of a store; one in line mode. -/
def Shape.perLine (h : Shape) : Nat := if h.cvt then nativeCount h.ofmt else 1

/-- The elements that the layout from `start` on sends to line m of tensor row R, by position. A line that layout lines below
`start` feed in part is no whole line (R199; log 75). -/
def piecesOf (h : Shape) (start R m : Nat) : List Piece :=
  let n := h.perLine
  (List.range n).filterMap (fun p =>
    let i0 : Int := (m * n + p : Nat) - h.orgN 0
    if i0 < 0 ∨ (h.boxN 0 : Int) ≤ i0 ∨ h.extN 0 ≤ m * n + p then none
    else
      let (b, e) := h.layoutAt i0.toNat R
      if start ≤ b then some ⟨p, b, e⟩ else none)

/-- A sent element that its scratchpad line does not hold, since the line's count is less than OFMT's: a free value. -/
def pieceFeed (y : YCommand) (h : Shape) (s : State) (p : Piece) : Feed :=
  let l := y.line p.byte 0
  if p.e < tagCount l.tag || decide (tagVc l.tag = vcInvalid) then ⟨l, p.e, l.tag⟩
  else ⟨⟨plainTag h.ofmt, packFreeElem h.ofmt s.core.free p⟩, 0, plainTag h.ofmt⟩
where
  packFreeElem (f k : Nat) (p : Piece) : LineBits := BitVec.ofNat 1024 (Config.freeNat (k + p.pos) % 2 ^ elemBits f)

/-- The bits of a sent element: as the scratchpad holds them, where its line has OFMT; else a free value. -/
def pieceBits (y : YCommand) (h : Shape) (s : State) (p : Piece) : Nat :=
  let l := y.line p.byte 0
  if tagFmt l.tag = h.ofmt ∧ p.e < tagCount l.tag then lineElemBits h.ofmt l.data p.e
  else Config.freeNat (s.core.free + p.pos)

/-- The scale exponent of position p of a standing line. -/
def standingScale (t : Tag) (p : Nat) : Int :=
  if isScaled (tagFmt t) then (tagLse t : Int) - 127 - decAt t (p / subSize (tagFmt t) (tagFill t)) else 0

/-- Elements converted to a standing line's scale and put into it; a fill line has no place for those past its 64 (log 69). The
line keeps its tag, but that a SPOILED source or a conversion that spoils leaves it SPOILED (R35, R199; log 69). -/
def mergeElems (h : Shape) (rnd : BitVec 32) (l : Line) (ps : List (Piece × Feed)) : Line × Flags :=
  let n := nativeCount h.ofmt
  let sel := roundSel h.rm
  let cs := (ps.filter (fun q => decide (q.1.pos < tagCount l.tag))).map (fun q =>
    let (x, i) := feedElem h.conj q.2
    (q.1.pos, convElem h.ofmt (sel.withBits (srBits rnd q.1.pos)) (sel.withBits (srBits rnd (q.1.pos + n))) h.ns i
      (standingScale l.tag q.1.pos) x))
  (⟨spoilTag l.tag (feedsSpoiled (ps.map (·.2)) || convSpoils (cs.map (·.2))),
    mergedData l.tag h.ofmt l.data (cs.map (fun c => (c.1, c.2.bits)))⟩, convFlags (cs.map (·.2)))

/-- What becomes of a line that takes bytes and has another tag. -/
def splitTag (t : Tag) : Tag := mkInvalid (if isReserved (tagFmt t) then kRAW else tagFmt t) dTAGSPLIT

/-- A partial line merged (R199): its new tag and data, and flags. -/
def mergePartial (y : YCommand) (h : Shape) (rnd : BitVec 32) (p : Page) (va : Word) (ps : List Piece) (s : State) :
    Line × Flags × State :=
  let pl := p.place va
  let old := clearLine s (pageVersion s p) pl
  let old : Line := if untaggedAt s pl then ⟨dfmtTag p.dfmt, old.data⟩ else old
  let feeds := ps.map (fun q => (q, pieceFeed y h s q))
  let s' := s.onCore (fun c => { c with free := c.free + 512 })
  let receive (l : Line) : Line × Flags × State :=
    match feedsDetail h.ofmt (feeds.map (·.2)) with
    | some d => let (l, s) := invalidLine h.ofmt d s'; (l, 0, s)
    | none => let (l, fl) := mergeElems h rnd l feeds; (l, fl, s')
  let bytes (t : Tag) : Line × Flags × State :=
    (⟨t, putElems h.ofmt old.data (ps.map (fun q => (q.pos, pieceBits y h s q)))⟩, 0, s')
  if isUninit old.tag then
    receive ⟨mkTag h.ofmt vcValid false (if isScaled h.ofmt && decide (h.smode = 1) then h.flse else 127) 0, 0⟩
  else if tagMalformed old.tag then bytes (splitTag old.tag)
  else if tagFmt old.tag = h.ofmt ∧ tagVc old.tag ≠ vcInvalid then receive old
  else if tagFmt old.tag = kRAW then bytes old.tag
  else bytes (splitTag old.tag)

/-- The address of line m of tensor row R. -/
def Shape.rowLine (h : Shape) (R m : Nat) : Word := h.rowBase R + BitVec.ofNat 64 (128 * m)

/-- The number of lines of the memory side below an address. -/
def linesBelow (y : YCommand) (va : Word) : Nat := (y.pages.filter (fun p => decide (p.1 < va.toNat))).length

/-- Line m of tensor row R written at its home in one step, after the core's own queued stores to it (R207). -/
def storeLine (y : YCommand) (R m : Nat) (p : Page) (s : State) : Flags × YCommand × State :=
  let h := shapeOf y.shape
  let ps := piecesOf h (copyStart y) R m
  let va := h.rowLine R m
  let (rnd, y, s) := drawCopy h (linesBelow y va) y (drainLine (p.place va) s)
  if ps.length = nativeCount h.ofmt then
    let (l, fl, s) := formCopied h rnd (ps.map (fun q => some (pieceFeed y h s q)))
      (s.onCore (fun c => { c with free := c.free + 512 }))
    (fl, y, writeLine s p va l)
  else
    let (l, fl, s) := mergePartial y h rnd p va ps s
    (fl, y, mergeInto p va l (mergedWords l.tag h.ofmt (ps.map (·.pos))) s)

/-- The layout lines that feed line m of tensor row R, by their bytes. -/
def feeders (h : Shape) (start R m : Nat) : List Nat := ((piecesOf h start R m).map Piece.byte).eraseDups

/-- The memory lines, as tensor row and line, that the layout line at byte b feeds. -/
def fedLines (h : Shape) (b : Nat) : List (Nat × Nat) :=
  (((h.sources b).filterMap id).map (fun q => (q.1, q.2 / h.perLine))).eraseDups

/-- Line m of tensor row R sent to memory, or over the network (R199, R335). -/
def sendLine (y : YCommand) (R m : Nat) (s : State) : Flags × YCommand × State :=
  let h := shapeOf y.shape
  let va := h.rowLine R m
  let l := y.line ((feeders h (copyStart y) R m).headD 0) 0
  let l : Line := ⟨l.tag, padLine l.tag l.data⟩
  match y.qp with
  | some q => (0, y, { s with sent := s.sent ++ [⟨q, remoteOf s q va, true, l.tag, l.data⟩] })
  | none => match y.pages.find? (fun p => p.1 == va.toNat) with
    | none => (0, y, s)
    | some (_, p) =>
      if h.cvt then storeLine y R m p s else (0, y, writeLine (drainLine (p.place va) s) p va l)

/-! ## The parts of a command (R207, R347) -/

/-- A part of a Y command: a line read for the layout line at byte b, from an address or (address 0) from the scratchpad; the
layout line at byte b written in the scratchpad; a line of a tensor row sent. -/
inductive YPart where
  | read (b va : Nat)
  | write (b : Nat)
  | send (R m : Nat)
  deriving DecidableEq, Repr

/-- The layout line at byte b has landed. -/
def YCommand.hasLanded (y : YCommand) (b : Nat) : Bool := decide (b < y.landed) || y.above.contains (b / 128)

/-- The layout lines that have not. -/
def YCommand.linesLeft (y : YCommand) : List Nat :=
  (((List.range ((y.size - y.landed) / 128)).map (fun i => y.landed + 128 * i))).filter (fun b => !y.above.contains (b / 128))

/-- Every line has landed. -/
def YCommand.allLanded (y : YCommand) : Bool := decide (y.size ≤ y.landed)

/-- The layout lines that the landing of the one at byte b needs read, by the lines that it feeds. -/
def neededLines (y : YCommand) (b : Nat) : List Nat :=
  let h := shapeOf y.shape
  (b :: (fedLines h b).flatMap (fun q => feeders h (copyStart y) q.1 q.2)).eraseDups

/-- The lines still to be read for the layout line at byte b. -/
def readsLeft (y : YCommand) (b : Nat) : List YPart :=
  match y.kind with
  | .cpy =>
    if copyStores y then ((neededLines y b).filter (fun b => !y.has b 0)).map (fun b => .read b 0)
    else ((sourceVas y (shapeOf y.shape) b).filter (fun va => !y.has b va)).map (fun va => .read b va)
  | _ => []

/-- What is still to be written for the layout line at byte b. -/
def writesLeft (y : YCommand) (b : Nat) : List YPart :=
  if y.kind = .cpy ∧ copyStores y then
    ((fedLines (shapeOf y.shape) b).filter (fun q => !y.written.contains q)).map (fun q => .send q.1 q.2)
  else [.write b]

/-- Everything that the part needs read has been read, and of a bank of the scratchpad every earlier line is written (R127). -/
def partReady (y : YCommand) : YPart → Bool
  | .read _ _ => true
  | .write b => (readsLeft y b).isEmpty &&
      !(y.linesLeft.takeWhile (fun a => decide (a < b))).any (fun a => scratchBank (layoutOff y a) == scratchBank (layoutOff y b))
  | .send R m => (feeders (shapeOf y.shape) (copyStart y) R m).all (fun b => y.has b 0)

/-- The place of a line of the memory side; none over the network. -/
def memoryPlace (y : YCommand) (va : Nat) : Option Nat :=
  (y.pages.find? (fun p => p.1 == va)).map (fun p => p.2.place (BitVec.ofNat 64 va))

/-- Where a part reads or writes. -/
def partPlace (y : YCommand) (s : State) : YPart → Option Nat
  | .read b va => if copyStores y then some (placeScratch s.cur (layoutOff y b)) else memoryPlace y va
  | .write b => some (placeScratch s.cur (layoutOff y b))
  | .send R m => memoryPlace y ((shapeOf y.shape).rowLine R m).toNat

/-- The part waits at its home behind something that waits there (R140, R285). -/
def partHeld (y : YCommand) (s : State) (p : YPart) : Bool :=
  match partPlace y s p with
  | none => false
  | some pl => lineHeld s pl || (match p with | .send _ _ => !lineDrains pl s | _ => false)

/-- A layout line lands and is counted at the command's barrier (R201). -/
def landLine (b : Nat) (a : YCommand × State) : YCommand × State :=
  let (below, above) := markApplied (b / 128) (a.1.landed / 128) a.1.above
  ({ a.1 with landed := 128 * below, above := above }, countLanded a.1.barrier a.2)

/-- Of the given layout lines of a store those land that have been read and whose every memory line has been written. -/
def landSent (bs : List Nat) (y : YCommand) (s : State) : YCommand × State :=
  (bs.filter (fun b => y.has b 0 && !y.hasLanded b && (fedLines (shapeOf y.shape) b).all y.written.contains)).foldl
    (fun a b => landLine b a) (y, s)

/-- A part performed. -/
def copyPart (p : YPart) (y : YCommand) (s : State) : YCommand × State :=
  match p with
  | .read b va =>
    let (l, s) := if copyStores y then (scratchLine s (layoutOff y b), s) else copiedLine y (BitVec.ofNat 64 va) s
    let y := { y with got := y.got ++ [(b, va, l)] }
    if copyStores y then landSent [b] y s else (y, s)
  | .write b =>
    let (l, fl, y, s) := padLineOf y b s
    landLine b ({ y with flags := y.flags ||| fl, got := y.got.filter (fun g => g.1 != b) }, putScratch s (layoutOff y b) l)
  | .send R m =>
    let (fl, y, s) := sendLine y R m s
    let y := { y with flags := y.flags ||| fl, written := y.written ++ [(R, m)] }
    landSent (feeders (shapeOf y.shape) (copyStart y) R m) y s

/-! ## Lines issued (R203) -/

/-- The memory lines of a store in element mode: address, and first and last layout line that feed it. -/
def feedExtents (y : YCommand) : List (Nat × Nat × Nat) :=
  let h := shapeOf y.shape
  (List.range h.tensorRows).flatMap (fun R =>
    (joinEqual ((h.rowXs (copyStart y) R).map (· / h.perLine))).map (fun m =>
      let bs := feeders h (copyStart y) R m
      ((h.rowLine R m).toNat, bs.foldl min y.size, bs.foldl max 0)))

/-- The layout lines below byte c feed no memory line that others feed too, and under SR only lines below those that the others
feed: a command that stops there, and its re-issue from there, write what the whole command would have (R56, R67). -/
def cleanCut (h : Shape) (ext : List (Nat × Nat × Nat)) (c : Nat) : Bool :=
  !ext.any (fun x => decide (x.2.1 < c ∧ c ≤ x.2.2)) &&
    (decide (roundSel h.rm ≠ .sr) || !ext.any (fun x => decide (x.2.2 < c) && ext.any (fun z => decide (c ≤ z.2.1 ∧ z.1 < x.1))))

/-- The layout that is issued when its line at byte b is: lines are issued in ascending order, in element mode of a store with those
that share memory lines with them (R203; log 75). -/
def issuedWith (y : YCommand) (b : Nat) : Nat :=
  if y.kind = .cpy ∧ copyStores y ∧ (shapeOf y.shape).cvt then
    let ext := feedExtents y
    (((List.range ((y.size - b) / 128)).map (fun i => b + 128 * (i + 1))).find? (cleanCut (shapeOf y.shape) ext)).getD y.size
  else b + 128

/-- The layout line at byte b issued; a line of a network copy is issued at the instant at which it lands (R335). -/
def YCommand.issue (b : Nat) (y : YCommand) : YCommand :=
  if b < y.issued || y.qp.isSome then y else { y with issued := issuedWith y b }

/-- CPYCAN names the command (R204). -/
def cancels (e : Word) (y : YCommand) : Bool :=
  decide (y.kind ≠ .report) && (e.getLsbD 16 || decide (copyTag y = bitsNat e 0 16))

/-- The command issues no further line: a CPYQ, or a CPYCAN that names it, has reached the head of the Y ring and starts as soon as
the lines that are issued have landed (R203, R204). -/
def quiesced (s : State) (y : YCommand) : Bool :=
  match (activeRings s.core).y.entries.head? with
  | none => false
  | some r =>
    (match takeToken .Y (tokensOf .Y r.pfx r.word).1 s with | .ok _ => true | .error _ => false) &&
    (match placedInstr r.word with
     | some (.cpyq _ _ _) => !threadHolds s r.ord (copyTiles s r.caps (.cpyq 0 0 0))
     | some (.cpycan _ _ _) => cancels (r.caps.getD 0 0) y
     | _ => false)

/-- The parts of a command that may be performed now, each line at its own instant and the lines in any order (R207, R347). -/
def copyParts (s : State) (y : YCommand) : List YPart :=
  if y.qp.isSome then []
  else
    let stop := quiesced s y
    (y.linesLeft.filter (fun b => !stop || decide (b < y.issued))).flatMap (fun b =>
      ((readsLeft y b).filter (fun p => match p with | .read a _ => a == b | _ => false) ++
        (writesLeft y b).filter (fun p => partReady y p && (match p with
          | .send R m => (feeders (shapeOf y.shape) (copyStart y) R m).foldl min y.size == b
          | _ => true))).filter (fun p => !partHeld y s p))

/-- The parts of the started commands that may be performed now, with the command's place. -/
def copyPartsOf (s : State) : List (Nat × YPart) :=
  s.core.ycmds.zipIdx.flatMap (fun t => (copyParts s t.1).map (fun p => (t.2, p)))

/-- The layout line that a part is for. -/
def partLine (y : YCommand) : YPart → Nat
  | .read b _ => b
  | .write b => b
  | .send R m => (feeders (shapeOf y.shape) (copyStart y) R m).foldl min y.size

/-- Part p of command k performed. -/
def performCopy (k : Nat) (p : YPart) (s : State) : State :=
  match s.core.ycmds[k]? with
  | none => s
  | some y =>
    let (y, s) := copyPart p (y.issue (partLine y p)) s
    s.onCore (fun c => { c with ycmds := c.ycmds.set k y })

/-! ## Landing line by line -/

/-- Parts performed one after the other. -/
def copyPartsDone (ps : List YPart) (a : YCommand × State) : YCommand × State := ps.foldl (fun a p => copyPart p a.1 a.2) a

/-- What is left of the first layout line that has not landed is performed, as far as it can be now. -/
def landNext (y : YCommand) (s : State) : YCommand × State :=
  let b := y.landed
  let (y, s) := copyPartsDone ((readsLeft y b).filter (fun p => !partHeld y s p)) (y, s)
  copyPartsDone ((writesLeft y b).filter (fun p => partReady y p && !partHeld y s p)) (y, s)

/-- Something is left of the first layout line that has not landed, and may be performed now. -/
def landReady (y : YCommand) (s : State) : Bool :=
  !y.allLanded && (!quiesced s y || decide (y.landed < y.issued)) &&
    (readsLeft y y.landed ++ writesLeft y y.landed).any (fun p => partReady y p && !partHeld y s p)

/-- The lines that are left land, up to one that something holds. -/
def landAll : Nat → YCommand → State → YCommand × State
  | 0, y, s => (y, s)
  | n + 1, y, s =>
    let (z, t) := landNext y s
    if z.landed = y.landed then (z.issue y.landed, t) else landAll n z t

/-- A command that ends: its flags ORed in, its claims released, and its token raised unless it was settled. -/
def endCopy (token : Bool) (y : YCommand) (c : Core) : Core :=
  let c := orFlags y.flags c
  if token then addToken y.raise c else c

/-- A command that has started: its lines land now, or as later moves; those of a network copy land with their
acknowledgements. -/
def copyStarted (y : YCommand) (s : State) : State :=
  let (hold, s) := takeCommandHold s
  if hold || y.qp.isSome then s.onCore (fun c => { c with ycmds := c.ycmds ++ [y] })
  else
    let (y, s) := landAll ((y.size - y.landed) / 128) y s
    if y.allLanded then s.onCore (endCopy true y) else s.onCore (fun c => { c with ycmds := c.ycmds ++ [y] })

/-! ## CPY (R197) -/

/-- An RCFENCE earlier in split order has still to complete (R146). -/
def rcfenceBefore (c : Core) (ord : Nat) : Bool :=
  (activeRings c).a.entries.any (fun r => decide (r.ord < ord) &&
    (match placedInstr r.word with | some .rcfence => true | _ => false))

/-- The page of a line of the memory side: a save-area window serves only the copy whose BASE lies in it (R308). -/
def copyPage (k : AccessKind) (base va : Word) (s : State) : Chk (Page × State) := do
  let p ← checkedPage s k va 1
  if saveWindow base ≠ saveWindow va then faultNow (flt cPAGE va)
  else return (p, touchPage p va s)

/-- What a command in flight, or something that waits, keeps from being read before the start (R140, R181). -/
def readWaits (pl n : Nat) (s : State) : Chk Unit :=
  if spansHeld s [(pl, pl + n)] [] then waitNow headHeld
  else if bytesHeld s pl n then waitNow untimed
  else .ok ()

/-- The tags of the first lines of the tensor rows that a load reads, by row, and where they were read (R195). -/
def rowTagsOf (h : Shape) (start : Nat) : List Nat → State → Chk (List Tag × List (Nat × Nat × Page) × State)
  | [], s => .ok ([], [], s)
  | R :: rest, s => do
    let va := h.rowBase R
    let (t, at_, s) ← (if (h.rowXs start R).isEmpty then .ok (0, [], s)
      else do
        let (p, s) ← copyPage .load h.base va s
        readWaits (p.place va) 128 s
        let (l, s) := readNow p va s
        return (l.tag, [(va.toNat, 128, p)], s) : Chk (Tag × List (Nat × Nat × Page) × State))
    let (ts, more, s) ← rowTagsOf h start rest s
    return (t :: ts, at_ ++ more, s)

/-- The pages of the memory side, line by line. -/
def copyPages (k : AccessKind) (base : Word) : List Nat → State → Chk (List (Nat × Page) × State)
  | [], s => .ok ([], s)
  | va :: vas, s => do
    let (p, s) ← copyPage k base (BitVec.ofNat 64 va) s
    let (ps, s) ← copyPages k base vas s
    return ((va, p) :: ps, s)

/-- The queue of a record's BASE (R334). -/
def netQueueOf (base : Word) : Option Nat :=
  if inNetAperture base then some ((base.toNat - netBase) / 2 ^ 30) else none

/-- The checks of a network copy's memory side (R335). -/
def netFault (s : State) (q : Nat) (base : Word) (vas : List Nat) : Option Flt :=
  let ready := match sfind s.netqs q with
    | some n => n.ready && decide (n.job = (accessor s).job)
    | none => false
  if !ready then some (flt cPAGE (match vas with | va :: _ => BitVec.ofNat 64 va | [] => base))
  else (vas.find? (fun va => decide (netQueueOf (BitVec.ofNat 64 va) ≠ some q))).map (fun va => flt cPAGE (BitVec.ofNat 64 va))

/-- The memory side checked and translated whole before start (R180, R195): the rows' tags and where they were read, and the pages of
its lines. -/
def memorySide (h : Shape) (qp : Option Nat) (stores : Bool) (start : Nat) (s : State) :
    Chk (List Tag × List (Nat × Nat × Page) × List (Nat × Page) × State) := do
  match qp with
  | some q =>
    firstFault [netFault s q h.base (h.lines start (fun _ => 1))]
    return ([], [], [], s)
  | none =>
    let (tags, rows, s) ← (if h.cvt && !stores then rowTagsOf h start (List.range h.tensorRows) s else .ok ([], [], s))
    let k : AccessKind := if stores then .store else .load
    let (ps, s) ← copyPages k h.base (h.lines start (rowCount h stores tags)) s
    return (tags, rows, ps, s)

/-- Where the record at an address will be read: nowhere where the cache holds it (R197). -/
def recordRead (s : State) (va : Word) : List (Nat × Nat × Page) :=
  match sfind s.core.records va.toNat, checkedPage s .load va 64 with
  | none, .ok p => [(va.toNat, 64, p)]
  | _, _ => []

/-- RM 7 read as RMODE's when the command starts (R71). -/
def fixRounding (rm : Nat) (ds : List Word) : List Word :=
  match ds with
  | [] => []
  | d :: rest => (if bitsNat d 59 3 = 7 then d - BitVec.ofNat 64 ((7 - (if rm < 5 then rm else 0)) * 2 ^ 59) else d) :: rest

/-- The place of the next command among those that start on a queue (R335). -/
def queueTicket (s : State) (qp : Option Nat) : Nat :=
  match qp.bind (sfind s.netqs) with | some n => n.started | none => 0

/-- A command that has started on a queue is counted there. -/
def onQueue (qp : Option Nat) (s : State) : State :=
  match qp with
  | none => s
  | some q => match sfind s.netqs q with
    | some n => { s with netqs := sput s.netqs q { n with started := n.started + 1 } }
    | none => s

def runCpy (x : Ctx) (s : State) : Chk State := do
  let e := cap x 0
  let f := cap x 1
  let g := cap x 2
  let off := bitsNat f 0 20
  let stores := f.getLsbD 20
  let start := bitsNat g 0 48
  if 8 ≤ s.core.ycmds.length || rcfenceBefore s.core x.ord || threadHolds s x.ord (copyTiles s x.caps (.cpy 0 0 0 0 0)) then
    waitNow headHeld
  else
    illegalIf x (decide (bitsNat f 21 43 ≠ 0))
    let record := recordRead s e
    if spansHeld s (record.map (fun q => let pl := q.2.2.place e; (pl, pl + 64))) [] then waitNow headHeld
    else
    let (ds, s) ← readRecord e s
    firstFault [shapeFault e (shapeOf ds)]
    let ds := fixRounding s.core.csr.rmode.toNat ds
    let h := shapeOf ds
    let qp := netQueueOf h.base
    if qp.isSome && h.cvt then faultNow (flt cILLEGAL e)
    else
      firstFault [offsetFault (BitVec.ofNat 64 off), offsetFault (BitVec.ofNat 64 start),
        rangeFault (off + start) (off + h.size)]
      if h.size ≤ start then return s.onCore (addToken x.raise)
      else
        let (tags, rows, ps, s) ← memorySide h qp stores start s
        let y : YCommand :=
          { kind := .cpy, ord := x.ord, trap := x.trap, se := e, sf := f, sg := g, shape := ds, rowTags := tags, pages := ps,
            extra := record ++ rows, job := ptbJob s.core.csr.ptb, landed := start, above := [], issued := start, got := [],
            written := [], size := h.size, gen := s.core.gens.copy, drawn := 0, barrier := s.core.barrier, flags := 0,
            raise := x.raise, claims := tilesBetween (off + start) (off + h.size), pos := x.pos, qp := qp, ticket := queueTicket s qp }
        let (r, w) := copySpans s.cur y
        if spansHeld s r w then waitNow headHeld
        else return copyStarted y (onQueue qp s)

/-- R197. -/
def execCpy (w r : BitVec 4) (e f g : BitVec 5) (s : State) : Out := issueY (.cpy w r e f g) runCpy s

/-! ## CPYZ (R200) -/

def runCpyz (x : Ctx) (s : State) : Chk State := do
  let e := cap x 0
  let n := cap x 1
  let g := cap x 2
  let lo := e.toNat
  let hi := e.toNat + n.toNat
  if 8 ≤ s.core.ycmds.length || threadHolds s x.ord (copyTiles s x.caps (.cpyz 0 0 0 0 0)) then waitNow headHeld
  else
    illegalIf x (decide (bitsNat g 32 32 ≠ 0))
    firstFault [offsetFault e, offsetFault n, rangeFault lo hi]
    let t : Tag := g.setWidth 32
    if tagMalformed t || decide (tagVc t = vcInvalid) then faultNow (tagFault cTYPE t)
    else if n = 0 then return s.onCore (addToken x.raise)
    else if spansHeld s [] [(placeScratch s.cur lo, placeScratch s.cur hi)] then waitNow headHeld
    else
      return copyStarted
        { kind := .cpyz, ord := x.ord, trap := x.trap, se := e, sf := n, sg := g, shape := [], rowTags := [], pages := [],
          extra := [], job := 0, landed := 0, above := [], issued := 0, got := [], written := [], size := n.toNat, gen := 0, drawn := 0,
          barrier := s.core.barrier, flags := 0, raise := x.raise, claims := tilesBetween lo hi, pos := x.pos, qp := none, ticket := 0 } s

/-- R200. -/
def execCpyz (w r : BitVec 4) (e f g : BitVec 5) (s : State) : Out := issueY (.cpyz w r e f g) runCpyz s

/-! ## CPYB (R202) -/

def runCpyb (x : Ctx) (s : State) : Chk State := do
  let e := cap x 0
  let f := cap x 1
  if e.getLsbD 63 then return s.onCore (fun c => addToken x.raise { c with barrier := none })
  else
    illegalIf x (decide (bitsNat e 20 43 ≠ 0))
    let off := bitsNat e 0 20
    if off % 16 ≠ 0 then faultNow (flt cALIGN e)
    else
      firstFault [rangeFault off (off + 16)]
      let pl := placeScratch s.cur off
      if spansHeld s [] [(pl, pl + 16)] then waitNow headHeld
      else
        let s := setFull (decide (f = 0)) pl (scratchPut (off + 8) 8 0 (scratchPut off 8 f.toNat s))
        return s.onCore (fun c => addToken x.raise { c with barrier := some off })

/-- R202: arms a barrier, or leaves none current. -/
def execCpyb (w r : BitVec 4) (e f : BitVec 5) (s : State) : Out := issueY (.cpyb w r e f) runCpyb s

/-! ## CPYQ and CPYCAN (R203, R204) -/

/-- The commands that `pick` names stopped and settled: lines that have landed stay, claims are released, flags ORed in, no
token raised. -/
def settleCopies (pick : YCommand → Bool) (c : Core) : Core :=
  let c' := (c.ycmds.filter pick).foldl (fun c y => endCopy false y c) c
  { c' with ycmds := c.ycmds.filter (fun y => !pick y) }

/-- An entry of the quiesce report. -/
def reportEntry (y : YCommand) : List Nat :=
  let kind := match y.kind with | .cpyz => 1 | _ => 0
  [y.landed % 2 ^ 32 * 2 ^ 32 + kind * 2 ^ 27 + y.pos.toNat * 2 ^ 16 + copyTag y, y.se.toNat, y.sf.toNat, y.sg.toNat]

/-- The report's doublewords: header, then the entries in Y-ring order. -/
def reportWords (c : Core) : List Word :=
  ([c.ycmds.length, (match c.barrier with | some o => o | none => 2 ^ 63), 0, 0] ++ c.ycmds.flatMap reportEntry).map (BitVec.ofNat 64)

/-- The command that writes a quiesce report, line by line. Its lines count at no barrier. -/
def reportCommand (x : Ctx) (e : Word) (ws : List Word) : YCommand :=
  let size := 128 * ceilDiv (8 * ws.length) 128
  { kind := .report, ord := x.ord, trap := x.trap, se := e, sf := 0, sg := 0, shape := ws, rowTags := [], pages := [], extra := [],
    job := 0, landed := 0, above := [], issued := size, got := [], written := [], size := size, gen := 0, drawn := 0, barrier := none,
    flags := 0, raise := x.raise, claims := tilesBetween e.toNat (e.toNat + size), pos := x.pos, qp := none, ticket := 0 }

/-- CPYQ waits until every line issued has landed, settles the commands in flight, and writes the report. -/
def runCpyq (x : Ctx) (s : State) : Chk State := do
  let e := cap x 0
  if s.core.ycmds.any (fun y => decide (y.kind = .report)) || !s.core.ycmds.all YCommand.settled ||
      threadHolds s x.ord (copyTiles s x.caps (.cpyq 0 0 0)) then waitNow headHeld
  else
    let report := reportCommand x e (reportWords s.core)
    firstFault [offsetFault e, rangeFault e.toNat (e.toNat + report.size)]
    return copyStarted report (s.onCore (settleCopies (fun _ => true)))

/-- R203. -/
def execCpyq (w r : BitVec 4) (e : BitVec 5) (s : State) : Out := issueY (.cpyq w r e) runCpyq s

def runCpycan (x : Ctx) (s : State) : Chk State := do
  let e := cap x 0
  illegalIf x (decide (bitsNat e 17 47 ≠ 0))
  if !(s.core.ycmds.filter (cancels e)).all YCommand.settled then waitNow headHeld
  else return s.onCore (fun c => addToken x.raise (settleCopies (cancels e) c))

/-- R204. -/
def execCpycan (w r : BitVec 4) (e : BitVec 5) (s : State) : Out := issueY (.cpycan w r e) runCpycan s

/-! ## Events -/

/-- What is left of the next line of in-flight command k is performed, where `ok` holds of the command: as a rule the line lands. -/
def landOf (k : Nat) (ok : YCommand → Bool) (s : State) : State :=
  match s.core.ycmds[k]? with
  | none => s
  | some y =>
    if !ok y || !landReady y s then s
    else
      let (y', s') := landNext (y.issue y.landed) s
      s'.onCore (fun c => { c with ycmds := c.ycmds.set k y' })

/-- R201: the next line of in-flight command k lands. -/
def execCopyLineLanded (k : Nat) (s : State) : Out := .next (landOf k (fun y => y.qp.isNone) s)

/-- No command that started before on the same queue has still to be transmitted (R335). -/
def firstOnQueue (s : State) (y : YCommand) : Bool :=
  (s.core :: s.parked.map Prod.snd).all (fun c => c.ycmds.all (fun z =>
    decide (z.qp ≠ y.qp) || decide (y.ticket ≤ z.ticket) || z.allLanded))

/-- R335: an acknowledgement, or a line that was read, returns; the line counts as landed. The commands of one queue are
transmitted in the order in which they started. -/
def execNetAck (k : Nat) (s : State) : Out := .next (landOf k (fun y => y.qp.isSome && firstOnQueue s y) s)

/-- R181: the M command in progress (k = 0) goes on as far as it can and completes when nothing is left of it; or in-flight Y
command k - 1 whose lines have all landed completes. -/
def execCommandComplete (k : Nat) (s : State) : Out :=
  match k with
  | 0 => .next (matrixAdvance s)
  | j + 1 => match s.core.ycmds[j]? with
    | none => .next s
    | some y =>
      if !y.allLanded then .next s
      else .next (s.onCore (fun c => endCopy true y { c with ycmds := c.ycmds.eraseIdx j }))

/-- The commands of a queue complete without their unacknowledged lines; how many lines those are (R336). -/
def dropCopies (qp : Nat) (c : Core) : Nat × Core :=
  let mine := c.ycmds.filter (fun y => y.qp == some qp)
  ((mine.map (fun y => (y.size - y.landed) / 128)).sum,
    mine.foldl (fun c y => endCopy true y c) { c with ycmds := c.ycmds.filter (fun y => y.qp != some qp) })

/-- R336: the queue leaves READY, its commands complete without their unacknowledged lines, its status doubleword is
written, and NETQ is raised. -/
def execNetqFail (qp : Nat) (refused : Bool) (s : State) : Out :=
  match sfind s.netqs qp with
  | none => .next s
  | some q =>
    if !q.ready then .next s
    else
      let dropped := ((s.core :: s.parked.map Prod.snd).map (fun c => (dropCopies qp c).1)).sum
      let q' : NetQueue := { q with ready := false, refused := refused, dropped := q.dropped + BitVec.ofNat 32 dropped }
      let s := mapCores (fun c => (dropCopies qp c).2) { s with netqs := sput s.netqs qp q' }
      let status := (if refused then 2 else 1) + q'.dropped.toNat * 2 ^ 32
      let s := match jobWrite s q.job q.statusVa 8 status false with | some t => t | none => s
      match sfind s.jobs q.job with
      | none => .next s
      | some j => .next (raiseIrq s j.owner .netq)

/-- R117, R118, R180, R207, R347: part `s.pick`, of those that may be performed now, of the accesses in flight, of the M command in
progress, of the Y commands in flight and of the store queue: a line read or written, a store performed or applied at its home, or the
end of a load or a barrier. -/
def execAccessApplied (s : State) : Out :=
  let flying := (flyingParts s).map performPart
  let matrix := (matrixParts s).map (fun p => if p.1 then matrixWrite p.2 else matrixRead p.2)
  let copies := (copyPartsOf s).map (fun p => performCopy p.1 p.2)
  let queue := (queueParts s).map performPart
  match (flying ++ matrix ++ copies ++ queue)[s.pick]? with
  | some f => .next (f s)
  | none => .next s

/-- R221: an entry leaves the shape-record cache. -/
def execShapeRecordCacheEviction (k : Nat) (s : State) : Out :=
  .next (s.onCore (fun c => { c with records := c.records.eraseIdx k }))

end Sys2Proof.Machine
end

