-- ==== Sys2Proof/Machine/Streams.lean ====
section
/-! DEFINITION. Stream words, the steps of generators and sinks (R131 to R133), and the parts of accesses in flight
(R118, R207). -/

namespace Sys2Proof.Machine

/-! ## Descriptors (R131, R132) -/

def setRun (st : Nat) (r : StreamRun) (c : Core) : Core := { c with runs := vput c.runs st r }

def runStrdef (st : BitVec 4) (b : BitVec 5) (x : Ctx) (s : State) : Chk State := do
  streamReady x st.toNat s
  streamReady x 0 s
  let (v, s) ← consumeBytes x (ea s.core x (.strdef st b)) 32 s
  let d := BitVec.ofNat 256 v
  if descRefused d then faultNow (flt cILLEGAL (areg s.core b))
  else return s.onCore (fun c => { c with desc := vput c.desc st.toNat d })

/-- R132: the descriptor read in st0. -/
def execStrdef (st : BitVec 4) (b : BitVec 5) (s : State) : Out := issueA (.strdef st b) (runStrdef st b) s

/-- A run of s[N] steps from the base (R132); no steps start nothing. -/
def startStream (kind : RunKind) (x : Ctx) (st : Nat) (base : Word) (ok : Nat → Bool) (s : State) : Chk State := do
  match sinkFault s.core (2 ^ st) with
  | some f => faultNow f
  | none =>
    if !ok (descFlume (descOf s.core st)) then faultNow (illegalWordFault x.word)
    else
      streamReady x st s
      if (runOf s.core st).kind ≠ .none then waitNow headHeld
      else if cap x 0 = 0 then return s
      else return s.onCore (setRun st ⟨kind, base, 0, cap x 0, x.ord, none, 0, none⟩)

def runStrgo (st : BitVec 4) (b n : BitVec 5) (x : Ctx) (s : State) : Chk State :=
  startStream .generator x st.toNat (ea s.core x (.strgo st b n)) (fun q => decide (q ≤ 5)) s

/-- R132: a generator, whose flume is q0 to q5. -/
def execStrgo (st : BitVec 4) (b n : BitVec 5) (s : State) : Out := issueA (.strgo st b n) (runStrgo st b n) s

def runStrsink (st : BitVec 4) (b n : BitVec 5) (x : Ctx) (s : State) : Chk State :=
  startStream .sink x st.toNat (ea s.core x (.strsink st b n)) (fun q => decide (6 ≤ q)) s

/-- R132: a sink, whose flume is q6 or q7. -/
def execStrsink (st : BitVec 4) (b n : BitVec 5) (s : State) : Out := issueA (.strsink st b n) (runStrsink st b n) s

def runStrstop (st : BitVec 4) (n : BitVec 5) (_ : Ctx) (s : State) : Chk State :=
  match sinkFault s.core (2 ^ st.toNat) with
  | some f => faultNow f
  | none =>
    let r := runOf s.core st.toNat
    .ok (s.onCore (fun c => setS (setRun st.toNat { r with kind := .none, left := 0, flt := none } c) n r.issued))

/-- R132: the stream's run ends, and s[N] receives the steps that the latest run issued. -/
def execStrstop (st : BitVec 4) (n : BitVec 5) (s : State) : Out := issueA (.strstop st n) (runStrstop st n) s

/-! ## Steps (R132, R133) -/

/-- What a step knows of itself: it stands at its STRGO's or STRSINK's place in split order, and has the claims that were outstanding
when it first met one (R16). -/
def stepCtx (r : StreamRun) : Ctx :=
  { ord := r.ord, trap := false, word := 0, caps := [], so := 0, ext := none, dual := 0, bnd := [], badReserved := false,
    raise := 0, pos := 0, issued := none, reached := r.reached }

/-- The run after one more step. -/
def StreamRun.stepped (r : StreamRun) : StreamRun :=
  { r with next := r.next + 1, left := r.left - 1, issued := r.issued + 1, reached := none,
           kind := if r.left = 1 then .none else r.kind }

/-- The next step of stream st's run of the given kind: it is issued, it waits, or its fault stops the run (R133). None
is issued in handler mode (R296). -/
def streamStep (kind : RunKind) (st : Nat) (issue1 : Ctx → BitVec 256 → Word → State → Chk State) (s : State) : State :=
  let r := runOf s.core st
  if inTrap s.core || decide (r.kind ≠ kind) || decide (r.left = 0) || r.flt.isSome then s
  else
    let d := descOf s.core st
    match issue1 (stepCtx r) d (stepVa d r.base r.next.toNat) s with
    | .ok s' => s'.onCore (setRun st r.stepped)
    | .error (.fault f) => s.onCore (setRun st { r with flt := some { f with deferred := true } })
    | .error (.sluice _ cs) => s.onCore (setRun st { r with reached := some (r.reached.getD cs) })
    | .error _ => s

/-- A load step, issued up to DEPTH steps beyond the room of its flume (R131, R132). -/
def issueLoad (st : Nat) (x : Ctx) (d : BitVec 256) (va : Word) (s : State) : Chk State := do
  addressOk s .load va
  let n := if descPair d then 2 else 1
  if !flumeRoom s.core (descFlume d) n (n * descDepth d) then waitNow (flumeWait (descFlume d))
  else
    issueReading x st (fun s base va' => checkFrom x va base .load va' 128 s)
      (readingOf s.core st (descFlume d) (.reg (descEg d) (descPair d)) va true) s

/-- R132: one load step into the stream's flume. -/
def execGeneratorStep (st : BitVec 4) (s : State) : Out :=
  .next (streamStep .generator st.toNat (issueLoad st.toNat) s)

def issueStore (st : Nat) (x : Ctx) (d : BitVec 256) (va : Word) (s : State) : Chk State := do
  addressOk s .store va
  storeFrom x st (descFlume d) va 0 s

/-- R132: one store step from the stream's flume. -/
def execSinkStep (st : BitVec 4) (s : State) : Out := .next (streamStep .sink st.toNat (issueStore st.toNat) s)

end Sys2Proof.Machine
end

