-- ==== Sys2Proof/Machine/Vector.lean ====
section
/-! DEFINITION. The arithmetic words of the execute processor, VADD to VCMULJ, with their tangents (R159 to R161). -/

namespace Sys2Proof.Machine

/-! ## A lane of an arithmetic word -/

/-- What a lane is computed from: the compute format, the rounding, whether every operand and the format are integer, and
the exact operands; `ra` and `rb` say that va and vb are real. -/
structure Lane where
  f : Nat
  mode : RMode
  allInt : Bool
  ra : Bool
  rb : Bool
  a : Elt
  b : Elt
  c : Elt
  deriving DecidableEq, Repr

def Lane.cx (l : Lane) : Bool := isComplex l.f
def Lane.down (l : Lane) : Bool := isRdn l.mode

/-- An exact result rounded, with the flags of its operation; integer arithmetic on integers sets none (R47). -/
def Lane.round (l : Lane) (v : Elt) (fl : Flags) : Conv :=
  let c := roundLane l.f l.mode l.allInt v
  ⟨c.bits, c.flags ||| (if l.allInt then 0 else fl), c.spoiled⟩

/-- The operands of a tangent rule: the primal lane, r, and the exact tangents of the operands. -/
structure TanLane where
  l : Lane
  r : Elt
  da : Elt
  db : Elt
  dc : Elt
  deriving DecidableEq, Repr

/-- Exact products and sums of tangents. -/
def TanLane.mul (t : TanLane) (x y : Elt) : Elt := eltMul t.l.cx false x y
def TanLane.prod (t : TanLane) : Elt := eltAdd false (t.mul t.da t.l.b) (t.mul t.l.a t.db)

/-- A word of 1 to 3 sources: f, its lanes, its tangents (R159). -/
def arith (ns : List (BitVec 6)) (d : BitVec 6) (m : BitVec 5) (ok : Nat → Bool) (val : Lane → Conv)
    (tan : TanLane → Elt) (x : Ctx) (s : State) : Chk State := do
  let rs ← readAllV x ns s
  let spoiled ← consume s.core rs
  let (f, sp) ← computeFormat x s.core rs
  let src (i : Nat) : Src := rs.getD i ⟨VReg.zero, []⟩
  allow (ok f) (src 0).tag
  let g := govMod s.core m (laneCount f rs)
  let lane (L : Nat) : Lane :=
    ⟨f, plainMode s.core, isInt f && rs.all (fun r => isInt r.fmt), !isComplex (src 0).fmt, !isComplex (src 1).fmt,
      srcElt (src 0) L, srcElt (src 1) L, srcElt (src 2) L⟩
  let n := regCount f
  let out := (List.range n).map (fun L => if g.active L then val (lane L) else ⟨0, 0, false⟩)
  let tf := tangentFmt f
  let tans := if isInt f then [] else (List.range (dualCount x s.core)).map (fun t => (List.range n).map (fun L =>
    if g.active L then
      tanBits tf (tan ⟨lane L, decodeElem f (out.getD L ⟨0, 0, false⟩).bits, tanElt (src 0) t L, tanElt (src 1) t L,
        tanElt (src 2) t L⟩)
    else 0))
  finish x ns d g spoiled ⟨plainTag f, sp || convSpoils out, convFlags out, out.map Conv.bits, tans⟩ s

def anyFmt (_ : Nat) : Bool := true
def realFmt (f : Nat) : Bool := !isComplex f
def floatFmtOf (f : Nat) : Bool := decide (f = kFP64 ∨ f = kFP32 ∨ f = kFP16 ∨ f = kBF16)
def floatOrComplex (f : Nat) : Bool := floatFmtOf f || isComplex f

/-! ## Sums and products -/

def laneAdd (l : Lane) : Conv := let v := eltAdd l.down l.a l.b; l.round v (exactFlags v [] [l.a, l.b])

def runVadd (d a b : BitVec 6) (m : BitVec 5) : Ctx → State → Chk State :=
  arith [a, b] d m anyFmt laneAdd (fun t => eltAdd false t.da t.db)

/-- R159. -/
def execVadd (d a b : BitVec 6) (m : BitVec 5) (s : State) : Out :=
  let r := physReg s.core.csr.rrb
  issueX (.vadd d a b m) (runVadd (r d) (r a) (r b) m) s

def laneSub (l : Lane) : Conv := let v := eltAdd l.down l.a (eltNeg l.b); l.round v (exactFlags v [] [l.a, l.b])

def runVsub (d a b : BitVec 6) (m : BitVec 5) : Ctx → State → Chk State :=
  arith [a, b] d m anyFmt laneSub (fun t => eltAdd false t.da (eltNeg t.db))

/-- R159. -/
def execVsub (d a b : BitVec 6) (m : BitVec 5) (s : State) : Out :=
  let r := physReg s.core.csr.rrb
  issueX (.vsub d a b m) (runVsub (r d) (r a) (r b) m) s

def laneMul (l : Lane) : Conv := let v := eltMul l.cx l.down l.a l.b; l.round v (exactFlags v [l.a, l.b] [])

def runVmul (d a b : BitVec 6) (m : BitVec 5) : Ctx → State → Chk State :=
  arith [a, b] d m anyFmt laneMul TanLane.prod

/-- R159. -/
def execVmul (d a b : BitVec 6) (m : BitVec 5) (s : State) : Out :=
  let r := physReg s.core.csr.rrb
  issueX (.vmul d a b m) (runVmul (r d) (r a) (r b) m) s

/-- ± a × b ± c, one rounding. -/
def laneFma (negProd negC : Bool) (l : Lane) : Conv :=
  let a := if negProd then eltNeg l.a else l.a
  let c := if negC then eltNeg l.c else l.c
  let v := eltAdd l.down (eltMul l.cx l.down a l.b) c
  l.round v (exactFlags v [l.a, l.b] [l.c])

def runVfma (d a b : BitVec 6) (m : BitVec 5) : Ctx → State → Chk State :=
  arith [a, b, d] d m anyFmt (laneFma false false) (fun t => eltAdd false t.prod t.dc)

/-- R159. -/
def execVfma (d a b : BitVec 6) (m : BitVec 5) (s : State) : Out :=
  let r := physReg s.core.csr.rrb
  issueX (.vfma d a b m) (runVfma (r d) (r a) (r b) m) s

def runVfms (d a b : BitVec 6) (m : BitVec 5) : Ctx → State → Chk State :=
  arith [a, b, d] d m anyFmt (laneFma false true) (fun t => eltAdd false t.prod (eltNeg t.dc))

/-- R159. -/
def execVfms (d a b : BitVec 6) (m : BitVec 5) (s : State) : Out :=
  let r := physReg s.core.csr.rrb
  issueX (.vfms d a b m) (runVfms (r d) (r a) (r b) m) s

def runVfnma (d a b : BitVec 6) (m : BitVec 5) : Ctx → State → Chk State :=
  arith [a, b, d] d m anyFmt (laneFma true false) (fun t => eltAdd false t.dc (eltNeg t.prod))

/-- R159. -/
def execVfnma (d a b : BitVec 6) (m : BitVec 5) (s : State) : Out :=
  let r := physReg s.core.csr.rrb
  issueX (.vfnma d a b m) (runVfnma (r d) (r a) (r b) m) s

/-! ## Minimum and maximum (R160) -/

/-- vb is chosen. -/
def choosesB (big : Bool) (a b : Num) : Bool :=
  if a.isNaN then !b.isNaN
  else if b.isNaN then false
  else
    let c := a.cmp b
    let c : Int := if c = 0 ∧ a.isZero ∧ b.isZero then (if a.sign = b.sign then 0 else if a.sign then -1 else 1) else c
    if big then decide (c < 0) else decide (0 < c)

def laneMinMax (big : Bool) (l : Lane) : Conv :=
  let c := l.round (if choosesB big l.a.re l.b.re then l.b else l.a) 0
  ⟨c.bits, 0, c.spoiled⟩

def runVmin (d a b : BitVec 6) (m : BitVec 5) : Ctx → State → Chk State :=
  arith [a, b] d m realFmt (laneMinMax false) (fun t => if choosesB false t.l.a.re t.l.b.re then t.db else t.da)

/-- R160. -/
def execVmin (d a b : BitVec 6) (m : BitVec 5) (s : State) : Out :=
  let r := physReg s.core.csr.rrb
  issueX (.vmin d a b m) (runVmin (r d) (r a) (r b) m) s

def runVmax (d a b : BitVec 6) (m : BitVec 5) : Ctx → State → Chk State :=
  arith [a, b] d m realFmt (laneMinMax true) (fun t => if choosesB true t.l.a.re t.l.b.re then t.db else t.da)

/-- R160. -/
def execVmax (d a b : BitVec 6) (m : BitVec 5) (s : State) : Out :=
  let r := physReg s.core.csr.rrb
  issueX (.vmax d a b m) (runVmax (r d) (r a) (r b) m) s

/-! ## Sign words -/

def runVabs (d a : BitVec 6) (m : BitVec 5) : Ctx → State → Chk State :=
  arith [a] d m realFmt (fun l => l.round ⟨l.a.re.abs, Num.zero⟩ 0) (fun t => if t.l.a.re.sign then eltNeg t.da else t.da)

/-- R159. -/
def execVabs (d a : BitVec 6) (m : BitVec 5) (s : State) : Out :=
  let r := physReg s.core.csr.rrb
  issueX (.vabs d a m) (runVabs (r d) (r a) m) s

def runVneg (d a : BitVec 6) (m : BitVec 5) : Ctx → State → Chk State :=
  arith [a] d m anyFmt (fun l => l.round (eltNeg l.a) 0) (fun t => eltNeg t.da)

/-- R159. -/
def execVneg (d a : BitVec 6) (m : BitVec 5) (s : State) : Out :=
  let r := physReg s.core.csr.rrb
  issueX (.vneg d a m) (runVneg (r d) (r a) m) s

/-- The conjugate of an element; a real source's value is only rounded (R159). -/
def conjOf (real : Bool) (x : Elt) : Elt := if real then x else eltConj x

def runVconj (d a : BitVec 6) (m : BitVec 5) : Ctx → State → Chk State :=
  arith [a] d m floatOrComplex (fun l => l.round (conjOf l.ra l.a) 0) (fun t => conjOf t.l.ra t.da)

/-- R159. -/
def execVconj (d a : BitVec 6) (m : BitVec 5) (s : State) : Out :=
  let r := physReg s.core.csr.rrb
  issueX (.vconj d a m) (runVconj (r d) (r a) m) s

def laneMulConj (l : Lane) : Conv :=
  let v := eltMul l.cx l.down l.a (conjOf l.rb l.b)
  l.round v (exactFlags v [l.a, l.b] [])

def runVcmulj (d a b : BitVec 6) (m : BitVec 5) : Ctx → State → Chk State :=
  arith [a, b] d m floatOrComplex laneMulConj
    (fun t => eltAdd false (t.mul t.da (conjOf t.l.rb t.l.b)) (t.mul t.l.a (conjOf t.l.rb t.db)))

/-- R159. -/
def execVcmulj (d a b : BitVec 6) (m : BitVec 5) (s : State) : Out :=
  let r := physReg s.core.csr.rrb
  issueX (.vcmulj d a b m) (runVcmulj (r d) (r a) (r b) m) s

/-! ## Division and square root -/

/-- DIVZERO of a quotient component: an infinite result of finite operands. -/
def divZero (n d : Num) : Flags := flagIf (d.isZero && n.isFin && !n.isZero) fDIVZERO

/-- A signed integer value. -/
def intOf : Num → Int
  | .fin neg n d => let k : Int := (n / d : Nat); if neg then -k else k
  | _ => 0

def laneDiv (l : Lane) : Conv :=
  if l.allInt then
    if l.b.re.isZero then ⟨2 ^ elemBits l.f - 1, fDIVZERO, false⟩
    else ⟨wrapInt (elemBits l.f) (Num.ofInt ((intOf l.a.re).tdiv (intOf l.b.re))), 0, false⟩
  else
    let v := eltDiv l.cx l.a l.b
    let fl : Flags := if l.cx then
        let n := eltMul true false l.a (eltConj l.b)
        let d := Num.add false (Num.mul l.b.re l.b.re) (Num.mul l.b.im l.b.im)
        divZero n.re d ||| divZero n.im d
      else divZero l.a.re l.b.re
    l.round v (fl ||| exactFlags v [l.a, l.b] [])

def runVdiv (d a b : BitVec 6) (m : BitVec 5) : Ctx → State → Chk State :=
  arith [a, b] d m anyFmt laneDiv
    (fun t => eltDiv t.l.cx (eltAdd false t.da (eltNeg (t.mul t.r t.db))) t.l.b)

/-- R159, R161, R47. -/
def execVdiv (d a b : BitVec 6) (m : BitVec 5) (s : State) : Out :=
  let r := physReg s.core.csr.rrb
  issueX (.vdiv d a b m) (runVdiv (r d) (r a) (r b) m) s

def laneSqrt (l : Lane) : Conv :=
  let v := Elt.real l.a.re.sqrt
  l.round v (exactFlags v [] [l.a])

def runVsqrt (d a : BitVec 6) (m : BitVec 5) : Ctx → State → Chk State :=
  arith [a] d m floatFmtOf laneSqrt (fun t => eltDiv false t.da (eltScaleBy (Num.ofNat 2) t.r))

/-- R159. -/
def execVsqrt (d a : BitVec 6) (m : BitVec 5) (s : State) : Out :=
  let r := physReg s.core.csr.rrb
  issueX (.vsqrt d a m) (runVsqrt (r d) (r a) m) s

/-! ## Transcendental words (R62 to R66) -/

def floatOf (f : Nat) : FloatFmt := match kindOf f with | .float ff => ff | _ => FloatFmt.fp32

def laneTransc (w : Transc) (l : Lane) : Conv :=
  let r := transcendental w (floatOf l.f) l.a.re
  ⟨r.1, r.2, false⟩

/-- LN2 of R158: the tangent format's value nearest ln 2. -/
def ln2Of (f : Nat) : Num :=
  if tangentFmt f = kFP64 then FloatFmt.fp64.decode 0x3FE62E42FEFA39EF else FloatFmt.fp32.decode 0x3F317218

/-- The result that another word would give for the same input. -/
def otherOf (w : Transc) (l : Lane) : Num := (floatOf l.f).decode (transcendental w (floatOf l.f) l.a.re).1

def transcTan (w : Transc) (t : TanLane) : Elt :=
  let r := t.r.re
  let da := t.da.re
  Elt.real (match w with
    | .rcp => (Num.mul (Num.mul r r) da).neg
    | .rsq => (Num.mul (Num.mul (Num.mul r r) r) da).neg.scale (-1)
    | .exp2 => Num.mul (Num.mul (ln2Of t.l.f) r) da
    | .log2 => Num.div da (Num.mul (ln2Of t.l.f) t.l.a.re)
    | .sin => Num.mul (otherOf .cos t.l) da
    | .cos => (Num.mul (otherOf .sin t.l) da).neg
    | .tanh => Num.mul (Num.sub false Num.one (Num.mul r r)) da)

def runTransc (w : Transc) (d a : BitVec 6) (m : BitVec 5) : Ctx → State → Chk State :=
  arith [a] d m floatFmtOf (laneTransc w) (transcTan w)

def runVrcp (d a : BitVec 6) (m : BitVec 5) : Ctx → State → Chk State := runTransc .rcp d a m

/-- R66. -/
def execVrcp (d a : BitVec 6) (m : BitVec 5) (s : State) : Out :=
  let r := physReg s.core.csr.rrb
  issueX (.vrcp d a m) (runVrcp (r d) (r a) m) s

def runVrsq (d a : BitVec 6) (m : BitVec 5) : Ctx → State → Chk State := runTransc .rsq d a m

/-- R66. -/
def execVrsq (d a : BitVec 6) (m : BitVec 5) (s : State) : Out :=
  let r := physReg s.core.csr.rrb
  issueX (.vrsq d a m) (runVrsq (r d) (r a) m) s

def runVexp2 (d a : BitVec 6) (m : BitVec 5) : Ctx → State → Chk State := runTransc .exp2 d a m

/-- R63. -/
def execVexp2 (d a : BitVec 6) (m : BitVec 5) (s : State) : Out :=
  let r := physReg s.core.csr.rrb
  issueX (.vexp2 d a m) (runVexp2 (r d) (r a) m) s

def runVlog2 (d a : BitVec 6) (m : BitVec 5) : Ctx → State → Chk State := runTransc .log2 d a m

/-- R63. -/
def execVlog2 (d a : BitVec 6) (m : BitVec 5) (s : State) : Out :=
  let r := physReg s.core.csr.rrb
  issueX (.vlog2 d a m) (runVlog2 (r d) (r a) m) s

def runVsin (d a : BitVec 6) (m : BitVec 5) : Ctx → State → Chk State := runTransc .sin d a m

/-- R64. -/
def execVsin (d a : BitVec 6) (m : BitVec 5) (s : State) : Out :=
  let r := physReg s.core.csr.rrb
  issueX (.vsin d a m) (runVsin (r d) (r a) m) s

def runVcos (d a : BitVec 6) (m : BitVec 5) : Ctx → State → Chk State := runTransc .cos d a m

/-- R64. -/
def execVcos (d a : BitVec 6) (m : BitVec 5) (s : State) : Out :=
  let r := physReg s.core.csr.rrb
  issueX (.vcos d a m) (runVcos (r d) (r a) m) s

def runVtanh (d a : BitVec 6) (m : BitVec 5) : Ctx → State → Chk State := runTransc .tanh d a m

/-- R65. -/
def execVtanh (d a : BitVec 6) (m : BitVec 5) (s : State) : Out :=
  let r := physReg s.core.csr.rrb
  issueX (.vtanh d a m) (runVtanh (r d) (r a) m) s

end Sys2Proof.Machine
end

