-- ==== Sys2Proof/Machine/VectorBits.lean ====
section
/-! DEFINITION. Integer and bitwise words (R162), compares, selects and predicate words (R155, R163 to R165), and the branch
queue's X words (R171, R178, R179). -/

namespace Sys2Proof.Machine

/-! ## Integer and bitwise words (R162) -/

/-- Two tags agree in FMT, LSE and SUB. -/
def tagsAgree (t u : Tag) : Bool :=
  decide (tagFmt t = tagFmt u ∧ tagLse t = tagLse u ∧ tagSub t = tagSub u)

/-- A tag with VC VALID and its other fields kept. -/
def validTag (t : Tag) : Tag := mkTag (tagFmt t) vcValid (tagFill t) (tagLse t) (tagSub t)

/-- A word that computes on the stored bits in va's format: its operand rule and its effect on a lane's bits. -/
def bitsWord (ns : List (BitVec 6)) (d : BitVec 6) (m : BitVec 5) (rule : List Src → Option Tag)
    (op : (fmt w a b : Nat) → Nat) (x : Ctx) (s : State) : Chk State := do
  let rs ← readAllV x ns s
  let spoiled ← consume s.core rs
  match rule rs with
  | some t => faultNow (tagFault cTYPE t)
  | none =>
    let a := rs.getD 0 ⟨VReg.zero, []⟩
    let b := rs.getD 1 ⟨VReg.zero, []⟩
    let f := a.fmt
    let lane (L : Nat) : Nat := op f (elemBits f) (laneBits f a.reg.data L) (laneBits b.fmt b.reg.data L)
    finish x ns d (govMod s.core m a.count) spoiled
      ⟨validTag a.tag, false, 0, (List.range a.count).map lane, []⟩ s

def ruleAny (_ : List Src) : Option Tag := none

/-- VAND, VOR, VXOR: va and vb agree. -/
def ruleAgree (rs : List Src) : Option Tag :=
  match rs with
  | [a, b] => if tagsAgree a.tag b.tag then none else some b.tag
  | _ => none

/-- Shifts: integers with one element count. -/
def ruleShift (rs : List Src) : Option Tag :=
  match rs with
  | [a, b] => if !isInt a.fmt then some a.tag else if !isInt b.fmt || decide (b.count ≠ a.count) then some b.tag else none
  | _ => none

/-- Counts: an integer format or RAW. -/
def ruleCount (rs : List Src) : Option Tag :=
  match rs with
  | [a] => if isInt a.fmt || decide (a.fmt = kRAW) then none else some a.tag
  | _ => none

def runVand (d a b : BitVec 6) (m : BitVec 5) : Ctx → State → Chk State :=
  bitsWord [a, b] d m ruleAgree (fun _ _ a b => a &&& b)

/-- R162. -/
def execVand (d a b : BitVec 6) (m : BitVec 5) (s : State) : Out :=
  let r := physReg s.core.csr.rrb
  issueX (.vand d a b m) (runVand (r d) (r a) (r b) m) s

def runVor (d a b : BitVec 6) (m : BitVec 5) : Ctx → State → Chk State :=
  bitsWord [a, b] d m ruleAgree (fun _ _ a b => a ||| b)

/-- R162. -/
def execVor (d a b : BitVec 6) (m : BitVec 5) (s : State) : Out :=
  let r := physReg s.core.csr.rrb
  issueX (.vor d a b m) (runVor (r d) (r a) (r b) m) s

def runVxor (d a b : BitVec 6) (m : BitVec 5) : Ctx → State → Chk State :=
  bitsWord [a, b] d m ruleAgree (fun _ _ a b => a ^^^ b)

/-- R162. -/
def execVxor (d a b : BitVec 6) (m : BitVec 5) (s : State) : Out :=
  let r := physReg s.core.csr.rrb
  issueX (.vxor d a b m) (runVxor (r d) (r a) (r b) m) s

def runVnot (d a : BitVec 6) (m : BitVec 5) : Ctx → State → Chk State :=
  bitsWord [a] d m ruleAny (fun _ w a _ => 2 ^ w - 1 - a)

/-- R162. -/
def execVnot (d a : BitVec 6) (m : BitVec 5) (s : State) : Out :=
  let r := physReg s.core.csr.rrb
  issueX (.vnot d a m) (runVnot (r d) (r a) m) s

/-- Left shift; zero from the width up. -/
def shlBits (_ w a b : Nat) : Nat := if w ≤ b then 0 else a * 2 ^ b % 2 ^ w

def runVshl (d a b : BitVec 6) (m : BitVec 5) : Ctx → State → Chk State := bitsWord [a, b] d m ruleShift shlBits

/-- R162. -/
def execVshl (d a b : BitVec 6) (m : BitVec 5) (s : State) : Out :=
  let r := physReg s.core.csr.rrb
  issueX (.vshl d a b m) (runVshl (r d) (r a) (r b) m) s

/-- Right shift: arithmetic for signed formats, logical for unsigned. -/
def shrBits (f w a b : Nat) : Nat :=
  let sign := isSignedInt f && decide (2 ^ (w - 1) ≤ a)
  if w ≤ b then (if sign then 2 ^ w - 1 else 0)
  else a / 2 ^ b + (if sign then 2 ^ w - 2 ^ (w - b) else 0)

def runVshr (d a b : BitVec 6) (m : BitVec 5) : Ctx → State → Chk State := bitsWord [a, b] d m ruleShift shrBits

/-- R162. -/
def execVshr (d a b : BitVec 6) (m : BitVec 5) (s : State) : Out :=
  let r := physReg s.core.csr.rrb
  issueX (.vshr d a b m) (runVshr (r d) (r a) (r b) m) s

def runVclz (d a : BitVec 6) (m : BitVec 5) : Ctx → State → Chk State :=
  bitsWord [a] d m ruleCount (fun _ w a _ => if a = 0 then w else w - 1 - Nat.log2 a)

/-- R162. -/
def execVclz (d a : BitVec 6) (m : BitVec 5) (s : State) : Out :=
  let r := physReg s.core.csr.rrb
  issueX (.vclz d a m) (runVclz (r d) (r a) m) s

/-- The one bits of the low w bits. -/
def popNat : Nat → Nat → Nat
  | 0, _ => 0
  | w + 1, a => a % 2 + popNat w (a / 2)

def runVpopc (d a : BitVec 6) (m : BitVec 5) : Ctx → State → Chk State :=
  bitsWord [a] d m ruleCount (fun _ w a _ => popNat w a)

/-- R162. -/
def execVpopc (d a : BitVec 6) (m : BitVec 5) (s : State) : Out :=
  let r := physReg s.core.csr.rrb
  issueX (.vpopc d a m) (runVpopc (r d) (r a) m) s

/-! ## VCMP (R163) -/

/-- The truth of a condition on two exact values; `int` says that the compute format is an integer one. -/
def condReal (cond : Nat) (int : Bool) (a b : Num) : Bool :=
  let un := a.isNaN || b.isNaN
  match cond with
  | 6 => !int && un
  | 7 => int || !un
  | 1 => un || decide (a.cmp b ≠ 0)
  | 0 => !un && decide (a.cmp b = 0)
  | 2 => !un && decide (a.cmp b < 0)
  | 3 => !un && decide (a.cmp b ≤ 0)
  | 4 => !un && decide (0 < a.cmp b)
  | _ => !un && decide (0 ≤ a.cmp b)

/-- EQ, NE, UN and OR on complex elements. -/
def condComplex (cond : Nat) (a b : Elt) : Bool :=
  let un := a.re.isNaN || b.re.isNaN || a.im.isNaN || b.im.isNaN
  let eq := !un && decide (a.re.cmp b.re = 0) && decide (a.im.cmp b.im = 0)
  match cond with
  | 0 => eq
  | 1 => !eq
  | 6 => un
  | _ => !un

/-- A predicate of lanes. -/
def packPred (f : Nat → Bool) : BitVec 64 :=
  BitVec.ofNat 64 (((List.range 64).map (fun L => if f L then 2 ^ L else 0)).sum)

def setPred (d : BitVec 4) (v : BitVec 64) (t : Tag) (c : Core) : Core :=
  { c with p := vput c.p d.toNat v, ptag := vput c.ptag d.toNat t }

def runVcmp (cond : BitVec 3) (pd : BitVec 4) (a b : BitVec 6) (g : BitVec 4) (x : Ctx) (s : State) : Chk State := do
  let rs ← readAllV x [a, b] s
  let _ ← consume s.core rs
  let (f, _) ← computeFormat x s.core rs
  let va := rs.getD 0 ⟨VReg.zero, []⟩
  let vb := rs.getD 1 ⟨VReg.zero, []⟩
  let k := cond.toNat
  allow (!(isComplex f) || decide (k = 0 ∨ k = 1 ∨ k = 6 ∨ k = 7)) va.tag
  let gv : Gov := ⟨laneCount f rs, predOf s.core g.toNat, false⟩
  let test (L : Nat) : Bool :=
    if isComplex f then condComplex k (srcElt va L) (srcElt vb L)
    else condReal k (isInt f) (srcElt va L).re (srcElt vb L).re
  return (popSources x [a, b] s).onCore (setPred pd (packPred (fun L => gv.active L && test L)) va.tag)

/-- R163. -/
def execVcmp (c : BitVec 3) (p : BitVec 4) (a b : BitVec 6) (g : BitVec 4) (s : State) : Out :=
  let r := physReg s.core.csr.rrb
  issueX (.vcmp c p a b g) (runVcmp c p (r a) (r b) g) s

/-! ## VSEL (R164) -/

def runVsel (d a b : BitVec 6) (p : BitVec 4) (x : Ctx) (s : State) : Chk State := do
  let rs ← readAllV x [a, b] s
  let spoiled ← consume s.core rs
  let va := rs.getD 0 ⟨VReg.zero, []⟩
  let vb := rs.getD 1 ⟨VReg.zero, []⟩
  if tagsAgree va.tag vb.tag then
    let n := va.count
    let pv := predOf s.core p.toNat
    let pick (L : Nat) : Src := if pv.getLsbD L then va else vb
    finish x [a, b] d ⟨n, BitVec.allOnes 64, false⟩ spoiled
      ⟨validTag va.tag, false, 0, (List.range n).map (fun L => laneBits va.fmt (pick L).reg.data L),
        carryTans x s.core (tangentFmt va.fmt) n (fun L => some (pick L, L))⟩ s
  else faultNow (tagFault cTYPE vb.tag)

/-- R164. -/
def execVsel (d a b : BitVec 6) (p : BitVec 4) (s : State) : Out :=
  let r := physReg s.core.csr.rrb
  issueX (.vsel d a b p) (runVsel (r d) (r a) (r b) p) s

/-! ## Predicate words (R165, R155) -/

/-- A predicate formed from pa and pb, with pa's source tag. -/
def predWord (d a b : BitVec 4) (op : BitVec 64 → BitVec 64 → BitVec 64) (_ : Ctx) (s : State) : Chk State :=
  .ok (s.onCore (fun c => setPred d (op (predOf c a.toNat) (predOf c b.toNat)) (vat 0 c.ptag a.toNat) c))

def popCount (v : BitVec 64) : Nat := popNat 64 v.toNat

/-- Lanes below a count. -/
def lanesBelow (n : Nat) : BitVec 64 := packPred (fun L => decide (L < n))

def runPand (d a b : BitVec 4) : Ctx → State → Chk State := predWord d a b (· &&& ·)
/-- R165. -/
def execPand (d a b : BitVec 4) (s : State) : Out := issueX (.pand d a b) (runPand d a b) s

def runPor (d a b : BitVec 4) : Ctx → State → Chk State := predWord d a b (· ||| ·)
/-- R165. -/
def execPor (d a b : BitVec 4) (s : State) : Out := issueX (.por d a b) (runPor d a b) s

def runPxor (d a b : BitVec 4) : Ctx → State → Chk State := predWord d a b (· ^^^ ·)
/-- R165. -/
def execPxor (d a b : BitVec 4) (s : State) : Out := issueX (.pxor d a b) (runPxor d a b) s

def runPnot (d a : BitVec 4) : Ctx → State → Chk State := predWord d a a (fun v _ => ~~~v)
/-- R165. -/
def execPnot (d a : BitVec 4) (s : State) : Out := issueX (.pnot d a) (runPnot d a) s

def runPtail (d : BitVec 4) (x : Ctx) (s : State) : Chk State :=
  .ok (s.onCore (setPred d (lanesBelow (cap x 0).toNat) rawTag))
/-- R165: lanes below the captured s register. -/
def execPtail (d : BitVec 4) (a : BitVec 5) (s : State) : Out := issueX (.ptail d a) (runPtail d) s

def runPcnt (d a b : BitVec 4) : Ctx → State → Chk State := predWord d a b (fun v w => lanesBelow (popCount (v &&& w)))
/-- R165. -/
def execPcnt (d a b : BitVec 4) (s : State) : Out := issueX (.pcnt d a b) (runPcnt d a b) s

def runPfirst (d a b : BitVec 4) : Ctx → State → Chk State :=
  predWord d a b (fun v w => (v &&& w) &&& (0 - (v &&& w)))
/-- R165. -/
def execPfirst (d a b : BitVec 4) (s : State) : Out := issueX (.pfirst d a b) (runPfirst d a b) s

/-! ## The branch queue (R95, R171, R178, R179) -/

/-- An entry of BQ. -/
def bqEntry (t : Tag) (b : Bool) (n : Nat) : Word := t ++ (BitVec.ofBool b ++ BitVec.ofNat 31 n)

/-- An entry pushed at the word's start, which waits while BQ holds 16 (R21). -/
def pushBq (w : Word) (s : State) : Chk State :=
  if 16 ≤ s.core.bq.length then waitNow ⟨6, 0⟩ else .ok (s.onCore (fun c => { c with bq := c.bq ++ [w] }))

def runVtagq (a : BitVec 6) (x : Ctx) (s : State) : Chk State := do
  let r ← readV x a s
  pushBq (bqEntry r.tag (tagVc r.tag == vcValid) r.count) (popSources x [a] s)

/-- R171: va is not consumed. -/
def execVtagq (a : BitVec 6) (s : State) : Out :=
  issueX (.vtagq a) (runVtagq (physReg s.core.csr.rrb a)) s

def runVbq (m a b : BitVec 4) (_ : Ctx) (s : State) : Chk State :=
  let pa := predOf s.core a.toNat
  let pb := predOf s.core b.toNat
  let c := popCount (pa &&& pb)
  let v : Bool := match m.toNat with
    | 0 => decide (0 < c)
    | 1 => decide (c = popCount pb)
    | _ => decide (c = 0)
  pushBq (bqEntry (vat 0 s.core.ptag a.toNat) v c) s

/-- R179. -/
def execVbq (m a b : BitVec 4) (s : State) : Out := issueX (.vbq m a b) (runVbq m a b) s

end Sys2Proof.Machine
end

