-- ==== Sys2Proof/Machine/VectorConvert.lean ====
section
/-! DEFINITION. Conversions and retagging: VCVT, VQNT, VCVTH, VSCALE, VTAG (R166 to R170). -/

namespace Sys2Proof.Machine

/-- R54: a conversion that faults TYPE. -/
def convChecked (src : Src) (dst : Nat) : Chk Unit := allow (!(convForbidden src.fmt dst)) src.tag

/-- The rounding of the VCVF format: RM, or RMODE.RM for 0b111 (R48, R166). -/
def vcvfRound (c : Core) (rm : BitVec 3) : RoundSel := roundSel (if rm = 7 then c.csr.rmode.toNat else rm.toNat)

/-- The random value of an index: X0 below 32 and X1 from there (R56, R58). -/
def laneRandom (x0 x1 : BitVec 32) (L : Nat) : BitVec 16 := srBits (if L < 32 then x0 else x1) L

/-- Lanes converted: `src L` is the source lane of destination lane L. The imaginary part of lane L uses the random value of
lane L + n, n the destination's element count (R58; log 28). -/
def convLanes (dst : Nat) (sel : RoundSel) (x0 x1 : BitVec 32) (nonsat : Bool) (scale : Nat → Int) (r : Src)
    (on : Nat → Bool) (src : Nat → Nat) : List Conv :=
  let n := regCount dst
  (List.range n).map (fun L =>
    if on L then
      convElem dst (sel.withBits (laneRandom x0 x1 L)) (sel.withBits (laneRandom x0 x1 (L + n))) nonsat (isInt r.fmt)
        (scale L) (srcElt r (src L))
    else ⟨0, 0, false⟩)

/-- Tangents of a conversion: zero for integer targets, else ȧ rounded to the tangent format (R166). -/
def convTans (x : Ctx) (c : Core) (dst : Nat) (r : Src) (on : Nat → Bool) (src : Nat → Nat) : List (List Nat) :=
  if isInt dst then []
  else (List.range (dualCount x c)).map (fun t => (List.range (regCount dst)).map (fun L =>
    if on L then tanBits (tangentFmt dst) (tanElt r t (src L)) else 0))

/-- The generators after a converting word, and the values it uses (R56). -/
def withRandom (sel : RoundSel) (s : State) : BitVec 32 × BitVec 32 × State :=
  if sel = .sr then
    let a := advance s.core.gens.x0
    let b := advance s.core.gens.x1
    (a, b, s.onCore (fun c => { c with gens := { c.gens with x0 := a, x1 := b } }))
  else (0, 0, s)

/-- VCVT and VQNT: `quant` chooses the scale over the active lanes and zeroes the others. -/
def convertWord (quant : Bool) (d a : BitVec 6) (f : BitVec 5) (rm : BitVec 3) (ns : BitVec 1) (p : BitVec 2) (x : Ctx)
    (s : State) : Chk State := do
  let r ← readV x a s
  let spoiled ← consume s.core [r]
  let dst := f.toNat
  convChecked r dst
  let sel := vcvfRound s.core rm
  let g : Gov := ⟨min r.count (regCount dst), predOf s.core p.toNat, quant⟩
  let (lse, decs) : Nat × List Nat :=
    if quant && isScaled dst then
      chooseScale dst 8 ((List.range 64).map (fun L => if g.active L then (srcElt r L).re else Num.zero))
    else (127, [0, 0, 0, 0, 0, 0, 0, 0])
  let scale (L : Nat) : Int := if isScaled dst then scaleAt lse decs 8 L else 0
  let (x0, x1, s) := withRandom sel s
  let cs := convLanes dst sel x0 x1 (ns == 1) scale r g.active id
  finish x [a] d g spoiled
    ⟨mkTag dst vcValid false lse (mkSub decs), convSpoils cs, convFlags cs, cs.map Conv.bits,
      convTans x s.core dst r g.active id⟩ s

def runVcvt (d a : BitVec 6) (f : BitVec 5) (r : BitVec 3) (n : BitVec 1) (p : BitVec 2) : Ctx → State → Chk State :=
  convertWord false d a f r n p

/-- R166. -/
def execVcvt (d a : BitVec 6) (f : BitVec 5) (r : BitVec 3) (n : BitVec 1) (p : BitVec 2) (s : State) : Out :=
  let q := physReg s.core.csr.rrb
  issueX (.vcvt d a f r n p) (runVcvt (q d) (q a) f r n p) s

def runVqnt (d a : BitVec 6) (f : BitVec 5) (r : BitVec 3) (n : BitVec 1) (p : BitVec 2) : Ctx → State → Chk State :=
  convertWord true d a f r n p

/-- R167. -/
def execVqnt (d a : BitVec 6) (f : BitVec 5) (r : BitVec 3) (n : BitVec 1) (p : BitVec 2) (s : State) : Out :=
  let q := physReg s.core.csr.rrb
  issueX (.vqnt d a f r n p) (runVqnt (q d) (q a) f r n p) s

/-! ## VCVTH (R168) -/

def runVcvth (d a : BitVec 6) (f : BitVec 5) (h : BitVec 1) (m : BitVec 5) (x : Ctx) (s : State) : Chk State := do
  let r ← readV x a s
  let spoiled ← consume s.core [r]
  let dst := f.toNat
  convChecked r dst
  let sel : RoundSel := match roundSel s.core.csr.rmode.toNat with | .sr => .rne | q => q
  let ns := r.count
  let nd := regCount dst
  if 2 * nd = ns then
    let g := govMod s.core m nd
    let src (L : Nat) : Nat := ns / 2 * h.toNat + L
    let cs := convLanes dst sel 0 0 false (fun _ => 0) r g.active src
    finish x [a] d g spoiled
      ⟨plainTag dst, convSpoils cs, convFlags cs, cs.map Conv.bits, convTans x s.core dst r g.active src⟩ s
  else if nd = 2 * ns then
    let base := ns * h.toNat
    let pr := predOf s.core (bitsNat m 0 4)
    let z := m.getLsbD 4
    let inHalf (L : Nat) : Bool := decide (base ≤ L ∧ L < base + ns)
    let on (L : Nat) : Bool := inHalf L && pr.getLsbD L
    let src (L : Nat) : Nat := L - base
    let cs := convLanes dst sel 0 0 false (fun _ => 0) r on src
    let ts := convTans x s.core dst r on src
    let (old, osp) ← oldReg x d true (plainTag dst) s
    let oldData := match old with | some o => o.reg.data | none => 0
    let oldTan (t : Nat) : RegBits := match old with | some o => o.tans.getD t 0 | none => 0
    let lane (fm : Nat) (o : RegBits) (new : List Nat) (L : Nat) : Nat :=
      if on L then new.getD L 0 else if inHalf L && z then 0 else laneBits fm o L
    let tf := tangentFmt dst
    let data := packReg dst ((List.range nd).map (lane dst oldData (cs.map Conv.bits)))
    let tans := (List.range s.core.csr.tmode.toNat).map (fun t =>
      packReg tf ((List.range nd).map (lane tf (oldTan t) (ts.getD t []))))
    let sp := convSpoils cs
    let s1 ← writeV x d ⟨data, spoilTag (plainTag dst) (spoiled || osp || sp)⟩ tans (popSources x [a] s)
    return s1.onCore (orFlags (convFlags cs ||| flagIf sp fSPOIL))
  else faultNow (tagFault cTYPE r.tag)

/-- R168. -/
def execVcvth (d a : BitVec 6) (f : BitVec 5) (h : BitVec 1) (m : BitVec 5) (s : State) : Out :=
  let q := physReg s.core.csr.rrb
  issueX (.vcvth d a f h m) (runVcvth (q d) (q a) f h m) s

/-! ## VSCALE (R169) -/

/-- k of R169, held to ±5,000: beyond that every value of every format has overflowed or vanished. -/
def scaleBy (w : Word) : Int := max (-5000) (min 5000 w.toInt)

def runVscale (d a : BitVec 6) (m : BitVec 5) (x : Ctx) (s : State) : Chk State :=
  let k := scaleBy (cap x 0)
  arith [a] d m (fun f => !isInt f) (fun l => l.round (l.a.scale k) 0) (fun t => t.da.scale k) x s

/-- R169. -/
def execVscale (d a : BitVec 6) (b : BitVec 5) (m : BitVec 5) (s : State) : Out :=
  let q := physReg s.core.csr.rrb
  issueX (.vscale d a b m) (runVscale (q d) (q a) m) s

/-! ## VTAG (R170) -/

/-- The register of VTAG: va's bits under t, or under the INVALID tag of R32. -/
def retag (t : Tag) (bits : RegBits) : VReg :=
  if tagMalformed t || tagFill t || isUninit t then ⟨bits, malformedTag t⟩
  else ⟨packReg (tagFmt t) ((List.range (regCount (tagFmt t))).map (laneBits (tagFmt t) bits)), t⟩

/-- Tangents n + 1 to T of a word dual with n are zero (R157). Under a tag that R32 makes INVALID, the count and the tangent
tag are those of the INVALID tag's format (log 33). -/
def runVtag (d a : BitVec 6) (x : Ctx) (s : State) : Chk State := do
  let r ← readV x a s
  let v := retag ((cap x 0).setWidth 32) r.reg.data
  let f := tagFmt v.tag
  let keep := decide (regCount f = r.count ∧ tangentFmt f = tangentFmt r.fmt)
  writeV x d v (if keep then r.tans.take (dualCount x s.core) else []) (popSources x [a] s)

/-- R170: va is not consumed. -/
def execVtag (d a : BitVec 6) (b : BitVec 5) (s : State) : Out :=
  let q := physReg s.core.csr.rrb
  issueX (.vtag d a b) (runVtag (q d) (q a)) s

end Sys2Proof.Machine
end

