-- ==== Sys2Proof/Machine/VectorMove.lean ====
section
/-! DEFINITION. Reductions and scans (R173), permutes (R172, R174), VBCAST, VIOTA and VMOV (R175), VPART and VAPPEND (R176),
and the tangent access words (R177). -/

namespace Sys2Proof.Machine

/-! ## VRED and VSCAN (R173) -/

/-- The identity of an operation in a compute format, as the element's bits. -/
def redIdentity (f op : Nat) : Nat :=
  match kindOf f with
  | .int sgn w =>
    let hi := if sgn then 2 ^ (w - 1) - 1 else 2 ^ w - 1
    let lo := if sgn then 2 ^ (w - 1) else 0
    (match op with | 1 => hi | 2 => lo | 3 => 2 ^ w - 1 | _ => 0)
  | .float ff => (match op with | 1 => ff.infCode false | 2 => ff.infCode true | _ => 0)
  | _ => 0

/-- The lane that MIN or MAX chooses among the given lanes: the lowest among equal values. -/
def chosenLane (big : Bool) (val : Nat → Num) : List Nat → Option Nat
  | [] => none
  | L :: Ls => some (Ls.foldl (fun k j => if choosesB big (val k) (val j) then j else k) L)

/-- op over some lanes, as the converted element. -/
def reduceLanes (f op : Nat) (mode : RMode) (allInt : Bool) (val : Nat → Elt) (ls : List Nat) : Conv :=
  match ls with
  | [] => ⟨redIdentity f op, 0, false⟩
  | L :: rest =>
    match op with
    | 0 =>
      let vs := (L :: rest).map val
      let v := (vs.drop 1).foldl (eltAdd (isRdn mode)) (vs.getD 0 Elt.zero)
      let c := roundLane f mode allInt v
      ⟨c.bits, c.flags ||| (if allInt then 0 else exactFlags v [] vs), c.spoiled⟩
    | 1 =>
      let c := roundLane f mode allInt (val ((chosenLane false (fun L => (val L).re) ls).getD L))
      ⟨c.bits, 0, c.spoiled⟩
    | 2 =>
      let c := roundLane f mode allInt (val ((chosenLane true (fun L => (val L).re) ls).getD L))
      ⟨c.bits, 0, c.spoiled⟩
    | _ =>
      let cs := (L :: rest).map (fun k => roundLane f mode allInt (val k))
      let bit (a b : Nat) : Nat := match op with | 3 => a &&& b | 4 => a ||| b | _ => a ^^^ b
      ⟨(cs.drop 1).foldl (fun a c => bit a c.bits) ((cs.map Conv.bits).getD 0 0), convFlags cs, false⟩

/-- The tangent of a reduction: the exact sum, or the chosen lane's. -/
def reduceTan (op : Nat) (val : Nat → Elt) (tan : Nat → Elt) (ls : List Nat) : Elt :=
  match op with
  | 0 => (ls.map tan).foldl (eltAdd false) Elt.zero
  | 1 => match chosenLane false (fun L => (val L).re) ls with | some k => tan k | none => Elt.zero
  | 2 => match chosenLane true (fun L => (val L).re) ls with | some k => tan k | none => Elt.zero
  | _ => Elt.zero

/-- Which formats an operation allows. -/
def redAllowed (op f : Nat) : Bool :=
  match op with
  | 0 => true
  | 1 => !isComplex f
  | 2 => !isComplex f
  | _ => isInt f

/-- VRED writes lane 0; VSCAN each active lane with the active lanes up to it. -/
def reduceWord (scan : Bool) (d a : BitVec 6) (op : Nat) (p : BitVec 64) (z : Bool) (x : Ctx) (s : State) :
    Chk State := do
  let r ← readV x a s
  let spoiled ← consume s.core [r]
  let (f, sp) ← computeFormat x s.core [r]
  allow (redAllowed op f) r.tag
  let n := regCount f
  let g : Gov := ⟨laneCount f [r], p, z⟩
  let mode := plainMode s.core
  let allInt := isInt f && isInt r.fmt
  let upTo (k : Nat) : List Nat := (List.range n).filter (fun L => g.active L && decide (L ≤ k))
  let lanesFor (L : Nat) : Option (List Nat) :=
    if scan then (if g.active L then some (upTo L) else none) else if L = 0 then some (upTo (n - 1)) else none
  let out := (List.range n).map (fun L => match lanesFor L with
    | some ls => reduceLanes f op mode allInt (srcElt r) ls
    | none => ⟨0, 0, false⟩)
  let tf := tangentFmt f
  let tans := if isInt f then [] else (List.range (dualCount x s.core)).map (fun t => (List.range n).map (fun L =>
    match lanesFor L with
    | some ls => tanBits tf (reduceTan op (srcElt r) (tanElt r t) ls)
    | none => 0))
  finish x [a] d (if scan then g else ⟨n, BitVec.allOnes 64, true⟩) spoiled
    ⟨plainTag f, sp || convSpoils out, convFlags out, out.map Conv.bits, tans⟩ s

def runVred (d a i : BitVec 6) (p : BitVec 4) (x : Ctx) (s : State) : Chk State :=
  reduceWord false d a i.toNat (predOf s.core p.toNat) true x s

/-- R173. -/
def execVred (d a i : BitVec 6) (p : BitVec 4) (s : State) : Out :=
  let q := physReg s.core.csr.rrb
  issueX (.vred d a i p) (runVred (q d) (q a) i p) s

def runVscan (d a i : BitVec 6) (m : BitVec 5) (x : Ctx) (s : State) : Chk State :=
  reduceWord true d a i.toNat (predOf s.core (bitsNat m 0 4)) (m.getLsbD 4) x s

/-- R173. -/
def execVscan (d a i : BitVec 6) (m : BitVec 5) (s : State) : Out :=
  let q := physReg s.core.csr.rrb
  issueX (.vscan d a i m) (runVscan (q d) (q a) i m) s

/-! ## Permutes (R172, R174) -/

/-- The tag of moved elements (R172): `pick` gives each destination lane's source register and lane, none where no element
reaches it. -/
def movedTag (f lse n : Nat) (pick : Nat → Option (Tag × Nat)) : Tag :=
  let group (g : Nat) : List Nat := ((List.range 8).filterMap (fun i => pick (8 * g + i))).map (fun q => tagDec q.1 (q.2 / 8))
  if n = 64 then
    if (List.range 8).any (fun g => match group g with | [] => false | d :: ds => ds.any (· != d)) then mkInvalid f dTAGSPLIT
    else mkTag f vcValid false lse (mkSub ((List.range 8).map (fun g => (group g).headD 0)))
  else mkTag f vcValid false lse 0

/-- R174: an index register is INT32 or UINT32. -/
def indexFmt (ix : Src) : Chk Unit := allow (decide (ix.fmt = kINT32 ∨ ix.fmt = kUINT32)) ix.tag

/-- The moved register, its lanes and tangents, written. -/
def moveWord (x : Ctx) (ns : List (BitVec 6)) (d : BitVec 6) (g : Gov) (spoiled : Bool) (f lse n : Nat) (split range : Bool)
    (pick : Nat → Option (Src × Nat)) (s : State) : Chk State :=
  let on (L : Nat) : Option (Src × Nat) := if g.active L then pick L else none
  let tag := if split then mkInvalid f dTAGSPLIT else movedTag f lse n (fun L => (on L).map (fun q => (q.1.tag, q.2)))
  finish x ns d g spoiled
    ⟨tag, false, flagIf range fRANGE,
      (List.range n).map (fun L => match on L with | some (r, k) => laneBits f r.reg.data k | none => 0),
      carryTans x s.core (tangentFmt f) n on⟩ s

def runVperm (d a b : BitVec 6) (m : BitVec 5) (x : Ctx) (s : State) : Chk State := do
  let rs ← readAllV x [a, b] s
  let spoiled ← consume s.core rs
  let va := rs.getD 0 ⟨VReg.zero, []⟩
  let ix := rs.getD 1 ⟨VReg.zero, []⟩
  indexFmt ix
  let n := va.count
  let g := govMod s.core m n
  let idx (L : Nat) : Nat := laneBits kUINT32 ix.reg.data L
  moveWord x [a, b] d g spoiled va.fmt (tagLse va.tag) n false
    ((List.range n).any (fun L => g.active L && decide (n ≤ idx L)))
    (fun L => if idx L < n then some (va, idx L) else none) s

/-- R174. -/
def execVperm (d a b : BitVec 6) (m : BitVec 5) (s : State) : Out :=
  let q := physReg s.core.csr.rrb
  issueX (.vperm d a b m) (runVperm (q d) (q a) (q b) m) s

def runVslide (d a k : BitVec 6) (m : BitVec 5) (x : Ctx) (s : State) : Chk State := do
  let va ← readV x a s
  let spoiled ← consume s.core [va]
  let n := va.count
  moveWord x [a] d (govMod s.core m n) spoiled va.fmt (tagLse va.tag) n false false
    (fun L => if L + k.toNat < n then some (va, L + k.toNat) else none) s

/-- R174. -/
def execVslide (d a k : BitVec 6) (m : BitVec 5) (s : State) : Out :=
  let q := physReg s.core.csr.rrb
  issueX (.vslide d a k m) (runVslide (q d) (q a) k m) s

/-- Register i of the eight from the placed field p (R349). -/
def gatherName (p : BitVec 6) (i : Nat) : BitVec 6 :=
  if 32 ≤ p.toNat then BitVec.ofNat 6 (32 + (p.toNat - 32 + i) % 24) else BitVec.ofNat 6 (p.toNat + i)

def runVrgath (d a b : BitVec 6) (m : BitVec 5) (x : Ctx) (s : State) : Chk State := do
  let ix ← readV x b s
  let first ← readV x a s
  let n := first.count
  let g := govMod s.core m n
  let idx (L : Nat) : Nat := laneBits kUINT32 ix.reg.data L
  if (indexFmt ix).isOk then
    let reached := (List.range 8).filter (fun i => (List.range n).any (fun L => g.active L && decide (idx L / n = i)))
    let rs ← readAllV x (reached.map (gatherName a)) s
    let spoiled ← consume s.core (rs ++ [ix])
    let ref := rs.headD first
    let split := rs.any (fun r => decide (r.fmt ≠ ref.fmt ∨ r.count ≠ ref.count ∨ tagLse r.tag ≠ tagLse ref.tag))
    let regOf (i : Nat) : Option Src := (reached.zip rs).findSome? (fun q => if q.1 = i then some q.2 else none)
    moveWord x [b] d g spoiled ref.fmt (tagLse ref.tag) (regCount ref.fmt) split
      ((List.range n).any (fun L => g.active L && decide (8 * n ≤ idx L)))
      (fun L => if split then none else (regOf (idx L / n)).map (fun r => (r, idx L % n))) s
  else
    let _ ← consume s.core [ix]
    indexFmt ix
    return s

/-- R174: the registers that an active index reaches are read and consumed. -/
def execVrgath (d a b : BitVec 6) (m : BitVec 5) (s : State) : Out :=
  let q := physReg s.core.csr.rrb
  issueX (.vrgath d a b m) (runVrgath (q d) (q a) (q b) m) s

/-! ## VBCAST, VIOTA and VMOV (R175) -/

def runVbcast (d : BitVec 6) (f : BitVec 5) (m : BitVec 5) (x : Ctx) (s : State) : Chk State :=
  let fmt := f.toNat
  let n := regCount fmt
  let v := (cap x 0).toNat % 2 ^ elemBits fmt
  finish x [] d (govMod s.core m n) false ⟨plainTag fmt, false, 0, (List.range n).map (fun _ => v), []⟩ s

/-- R175. -/
def execVbcast (d : BitVec 6) (f : BitVec 5) (b : BitVec 5) (m : BitVec 5) (s : State) : Out :=
  issueX (.vbcast d f b m) (runVbcast (physReg s.core.csr.rrb d) f m) s

/-- The one bits below a lane. -/
def predBelow (p : BitVec 64) (L : Nat) : Nat := popNat L p.toNat

def runViota (d : BitVec 6) (p : BitVec 4) (x : Ctx) (s : State) : Chk State :=
  finish x [] d ⟨64, BitVec.allOnes 64, false⟩ false
    ⟨plainTag kINT32, false, 0, (List.range 64).map (predBelow (predOf s.core p.toNat)), []⟩ s

/-- R175. -/
def execViota (d : BitVec 6) (p : BitVec 4) (s : State) : Out :=
  issueX (.viota d p) (runViota (physReg s.core.csr.rrb d) p) s

def runVmov (d a : BitVec 6) (m : BitVec 5) (x : Ctx) (s : State) : Chk State := do
  let r ← readV x a s
  let n := r.count
  finish x [a] d (govMod s.core m n) false
    ⟨r.tag, false, 0, (List.range n).map (laneBits r.fmt r.reg.data),
      carryTans x s.core (tangentFmt r.fmt) n (fun L => some (r, L))⟩ s

/-- R175: va is not consumed. -/
def execVmov (d a : BitVec 6) (m : BitVec 5) (s : State) : Out :=
  let q := physReg s.core.csr.rrb
  issueX (.vmov d a m) (runVmov (q d) (q a) m) s

/-! ## VPART and VAPPEND (R176) -/

/-- The output flume bound to vd; ILLEGAL at the word without one. -/
def outputFlume (x : Ctx) (d : BitVec 6) : Chk Nat :=
  match bindingOf x.bnd d.toNat with
  | some q => if 6 ≤ q.toNat then .ok q.toNat else faultNow (illegalWordFault x.word)
  | none => faultNow (illegalWordFault x.word)

/-- One packed entry: the given lanes of va, from lane 0 up. -/
def packedEntry (c : Core) (va : Src) (spoiled : Bool) (ls : List Nat) : FlumeEntry :=
  let tf := tangentFmt va.fmt
  { data := packReg va.fmt (ls.map (laneBits va.fmt va.reg.data))
    tag := spoilTag (validTag va.tag) spoiled
    poison := false
    tangents := (List.range c.csr.tmode.toNat).map (fun t => packReg tf (ls.map (laneBits tf (va.tans.getD t 0))))
    count := some ls.length }

/-- va must be unscaled (R176). -/
def unscaled (t : Tag) : Bool := !(isScaled (tagFmt t) && decide (tagLse t ≠ 127 ∨ tagSub t ≠ 0))

/-- R176: the active lanes of va packed by their keys, which are read as unsigned, so that a negative one sets RANGE (log 75). -/
def runVpart (d a b : BitVec 6) (p : BitVec 4) (x : Ctx) (s : State) : Chk State := do
  let q ← outputFlume x d
  let rs ← readAllV x [a, b] s
  let spoiled ← consume s.core rs
  let va := rs.getD 0 ⟨VReg.zero, []⟩
  let vb := rs.getD 1 ⟨VReg.zero, []⟩
  allow (unscaled va.tag) va.tag
  indexFmt vb
  let n := va.count
  let g : Gov := ⟨n, predOf s.core p.toNat, false⟩
  let key (L : Nat) : Nat := laneBits kUINT32 vb.reg.data L
  let lanesOf (k : Nat) : List Nat := (List.range n).filter (fun L => g.active L && decide (key L = k))
  let dropped := (List.range n).any (fun L => g.active L && decide (3 < key L))
  let s1 ← pushEntries x q ((List.range 4).map (fun k => packedEntry s.core va spoiled (lanesOf k))) (popSources x [a, b] s)
  return s1.onCore (orFlags (flagIf dropped fRANGE))

/-- R176. -/
def execVpart (d a b : BitVec 6) (p : BitVec 4) (s : State) : Out :=
  let q := physReg s.core.csr.rrb
  issueX (.vpart d a b p) (runVpart (q d) (q a) (q b) p) s

def runVappend (d a : BitVec 6) (p : BitVec 4) (x : Ctx) (s : State) : Chk State := do
  let q ← outputFlume x d
  let va ← readV x a s
  let spoiled ← consume s.core [va]
  allow (unscaled va.tag) va.tag
  let n := va.count
  let g : Gov := ⟨n, predOf s.core p.toNat, false⟩
  pushEntries x q [packedEntry s.core va spoiled ((List.range n).filter g.active)] (popSources x [a] s)

/-- R176. -/
def execVappend (d a : BitVec 6) (p : BitVec 4) (s : State) : Out :=
  let q := physReg s.core.csr.rrb
  issueX (.vappend d a p) (runVappend (q d) (q a) p) s

/-! ## Tangent access (R177) -/

/-- A t above TMODE is ILLEGAL at the word. -/
def tangentPresent (x : Ctx) (c : Core) (t : BitVec 2) : Chk Unit :=
  if c.csr.tmode.toNat < t.toNat then faultNow (illegalWordFault x.word) else .ok ()

def runVtget (d a : BitVec 6) (t : BitVec 2) (m : BitVec 5) (x : Ctx) (s : State) : Chk State := do
  tangentPresent x s.core t
  let r ← readV x a s
  let spoiled ← consume s.core [r]
  let n := r.count
  let tf := tangentFmt r.fmt
  let g := govMod s.core m n
  let (old, osp) ← oldReg x d g.readsOld (tangentTag r.fmt) s
  let oldData := match old with | some o => o.reg.data | none => 0
  let data := packReg tf (mergeLanes g n (fun L => if g.z then 0 else laneBits tf oldData L)
    (laneBits tf (r.tans.getD (t.toNat - 1) 0)))
  writeV x d ⟨data, spoilTag (tangentTag r.fmt) (spoiled || osp)⟩ [] (popSources x [a] s)

/-- R177: shadow t of va as a register; vd's tangents become zero. -/
def execVtget (d a : BitVec 6) (t : BitVec 2) (m : BitVec 5) (s : State) : Out :=
  let q := physReg s.core.csr.rrb
  issueX (.vtget d a t m) (runVtget (q d) (q a) t m) s

/-- Shadow t of vd with its active lanes replaced. -/
def putShadow (d : BitVec 6) (t f n : Nat) (g : Gov) (new : Nat → Nat) (c : Core) : Core :=
  let tf := tangentFmt f
  setShadow t d.toNat (packReg tf (mergeLanes g n (fun L => if g.z then 0 else laneBits tf (shadow c t d.toNat) L) new)) c

def runVtset (d a : BitVec 6) (t : BitVec 2) (m : BitVec 5) (x : Ctx) (s : State) : Chk State := do
  tangentPresent x s.core t
  let r ← readV x a s
  let _ ← consume s.core [r]
  let f := tagFmt (vat VReg.zero s.core.v d.toNat).tag
  let n := regCount f
  allow (decide (r.fmt = tangentFmt f ∧ r.count = n)) r.tag
  lockWait x d s
  return (popSources x [a] s).onCore (putShadow d t.toNat f n (govMod s.core m n) (laneBits r.fmt r.reg.data))

/-- R177: va's lanes into shadow t of vd. -/
def execVtset (d a : BitVec 6) (t : BitVec 2) (m : BitVec 5) (s : State) : Out :=
  let q := physReg s.core.csr.rrb
  issueX (.vtset d a t m) (runVtset (q d) (q a) t m) s

def runVtzero (d : BitVec 6) (t : BitVec 2) (p : BitVec 4) (x : Ctx) (s : State) : Chk State := do
  tangentPresent x s.core t
  let f := tagFmt (vat VReg.zero s.core.v d.toNat).tag
  let n := regCount f
  let g : Gov := ⟨n, predOf s.core p.toNat, false⟩
  lockWait x d s
  let ts := if t = 0 then (List.range s.core.csr.tmode.toNat).map (· + 1) else [t.toNat]
  return s.onCore (fun c => ts.foldl (fun c k => putShadow d k f n g (fun _ => 0) c) c)

/-- R177: shadow t of vd, or every shadow for t = 0, cleared in the active lanes. -/
def execVtzero (d : BitVec 6) (t : BitVec 2) (p : BitVec 4) (s : State) : Out :=
  issueX (.vtzero d t p) (runVtzero (physReg s.core.csr.rrb d) t p) s

end Sys2Proof.Machine
end

