-- ==== Sys2Proof/Machine/Engine.lean ====
section
/-! DEFINITION. What the engines do with the word at the head of a ring (R5): the meaning of each A, X, M and Y word as its
ring holds it, with physical register numbers (R349). -/

namespace Sys2Proof.Machine

/-- The work of a placed word; a ring word that is no engine word is ILLEGAL. -/
def engineRun (i : Instr) : Ctx → State → Chk State :=
  match i with
  | .lds d b z x o => runLds d b z x o
  | .lda d b o => runLda d b o
  | .sts d b z o => runSts d b z o
  | .sta d b o => runSta d b o
  | .ldf d b o => runLdf d b o
  | .ldft d b o => runLdft d b o
  | .ste d b o => runSte d b o
  | .feset a b c => runFeset a b c
  | .adda d a b => runAddress (.adda d a b)
  | .suba d a b => runAddress (.suba d a b)
  | .addai d a i => runAddress (.addai d a i)
  | .shlai d a n => runAddress (.shlai d a n)
  | .mulai d a i => runAddress (.mulai d a i)
  | .andai d a i => runAddress (.andai d a i)
  | .movsa d a => runAddress (.movsa d a)
  | .movas d a => runMovas d a
  | .sbar _ _ _ => runSbar
  | .fence _ m => runFence m
  | .fencesc => runFencesc
  | .rcfence => runRcfence
  | .ownwait a _ => runOwnwait a
  | .qstat d q => runQstat d q
  | .vld q b st e o => runVld (.vld q b st e o) q st e false
  | .vldp q b st e o => runVld (.vldp q b st e o) q st e true
  | .pref _ _ _ _ => runPref
  | .vldc q b st e o => runVldc q b st e o
  | .vst q b st e o => runVst q b st e o
  | .vstp q b st o => runVstp q b st o
  | .vldx q b st i => runVldx q b st i
  | .vstx q b st i => runVstx q b st i
  | .wapp d b q v => runWapp d b q v
  | .strdef st b => runStrdef st b
  | .strgo st b n => runStrgo st b n
  | .strsink st b n => runStrsink st b n
  | .strstop st n => runStrstop st n
  | .vadd d a b m => runVadd d a b m
  | .vsub d a b m => runVsub d a b m
  | .vmul d a b m => runVmul d a b m
  | .vfma d a b m => runVfma d a b m
  | .vfms d a b m => runVfms d a b m
  | .vfnma d a b m => runVfnma d a b m
  | .vmin d a b m => runVmin d a b m
  | .vmax d a b m => runVmax d a b m
  | .vabs d a m => runVabs d a m
  | .vneg d a m => runVneg d a m
  | .vconj d a m => runVconj d a m
  | .vcmulj d a b m => runVcmulj d a b m
  | .vdiv d a b m => runVdiv d a b m
  | .vsqrt d a m => runVsqrt d a m
  | .vrcp d a m => runVrcp d a m
  | .vrsq d a m => runVrsq d a m
  | .vexp2 d a m => runVexp2 d a m
  | .vlog2 d a m => runVlog2 d a m
  | .vsin d a m => runVsin d a m
  | .vcos d a m => runVcos d a m
  | .vtanh d a m => runVtanh d a m
  | .vand d a b m => runVand d a b m
  | .vor d a b m => runVor d a b m
  | .vxor d a b m => runVxor d a b m
  | .vnot d a m => runVnot d a m
  | .vshl d a b m => runVshl d a b m
  | .vshr d a b m => runVshr d a b m
  | .vclz d a m => runVclz d a m
  | .vpopc d a m => runVpopc d a m
  | .vcmp c p a b g => runVcmp c p a b g
  | .vsel d a b p => runVsel d a b p
  | .pand d a b => runPand d a b
  | .por d a b => runPor d a b
  | .pxor d a b => runPxor d a b
  | .pnot d a => runPnot d a
  | .ptail d _ => runPtail d
  | .pcnt d a b => runPcnt d a b
  | .pfirst d a b => runPfirst d a b
  | .vtagq a => runVtagq a
  | .vbq m a b => runVbq m a b
  | .vcvt d a f r n p => runVcvt d a f r n p
  | .vqnt d a f r n p => runVqnt d a f r n p
  | .vcvth d a f h m => runVcvth d a f h m
  | .vscale d a _ m => runVscale d a m
  | .vtag d a _ => runVtag d a
  | .vred d a i p => runVred d a i p
  | .vscan d a i m => runVscan d a i m
  | .vperm d a b m => runVperm d a b m
  | .vslide d a k m => runVslide d a k m
  | .vrgath d a b m => runVrgath d a b m
  | .vbcast d f _ m => runVbcast d f m
  | .viota d p => runViota d p
  | .vmov d a m => runVmov d a m
  | .vpart d a b p => runVpart d a b p
  | .vappend d a p => runVappend d a p
  | .vtget d a t m => runVtget d a t m
  | .vtset d a t m => runVtset d a t m
  | .vtzero d t p => runVtzero d t p
  | .mcfg _ _ => runMcfg
  | .mma _ _ e _ _ => runMma e
  | .mxv _ _ e _ _ => runMxv e
  | .mzero _ _ e _ => runMzero e
  | .mldc _ _ e _ _ => runMldc e
  | .mdrain _ _ e _ _ => runMdrain e
  | .cpy _ _ _ _ _ => runCpy
  | .cpyz _ _ _ _ _ => runCpyz
  | .cpyb _ _ _ _ => runCpyb
  | .cpyq _ _ _ => runCpyq
  | .cpycan _ _ _ => runCpycan
  | .aadd d b c t => runAtomic .add (.aadd d b c t) d t
  | .amin d b c t => runAtomic .min (.amin d b c t) d t
  | .amax d b c t => runAtomic .max (.amax d b c t) d t
  | .aand d b c t => runAtomic .and (.aand d b c t) d t
  | .aor d b c t => runAtomic .or (.aor d b c t) d t
  | .axor d b c t => runAtomic .xor (.axor d b c t) d t
  | .aswap d b c t => runAtomic .swap (.aswap d b c t) d t
  | .acas d b c e t => runAtomic .cas (.acas d b c e t) d t
  | .acont d b c e t => runAcont d b c e t
  | .bind _ _ => runBinding
  | .unbind _ => runBinding
  | _ => fun x _ => faultNow (illegalWordFault x.word)

/-- The work of the word at the head of a ring. -/
def wordRun (w : IWord) : Ctx → State → Chk State :=
  match placedInstr w with
  | some i => engineRun i
  | none => fun x _ => faultNow (illegalWordFault x.word)

/-- The head of ring e of the active rings. -/
def headOf (c : Core) (e : Engine) : Option RingEntry := ((activeRings c).get e).entries.head?

/-- What comes of starting the head of ring e now. -/
def startHead (e : Engine) (r : RingEntry) (s : State) : Chk State := startWord e r (wordRun r.word) s

/-- The head of ring e tried (R5): it starts, it waits, or its fault is found. -/
def pollHead (e : Engine) (s : State) : State :=
  match headOf s.core e with
  | none => s
  | some r => tryHead e r (wordRun r.word) s

end Sys2Proof.Machine
end

