-- ==== Sys2Proof/Machine/Forward.lean ====
section
/-! DEFINITION. The sequencer forwards the words of its block (R99, R100, R102, R103, R349). -/

namespace Sys2Proof.Machine

/-- The ring of a word of the engines A, X, M and Y. -/
def wordEngine (w : IWord) : Option Engine :=
  match engineCode w with
  | some .A => some .A
  | some .X => some .X
  | some .M => some .M
  | some .Y => some .Y
  | _ => none

/-- The checks of the splitter that depend on state (R134, R319). -/
def wordRejected (i : Instr) (c : Core) (w : IWord) : Option Flt :=
  match i with
  | .bind q v => bindRejected q v c w
  | .acont _ _ _ _ t => contRejected t c w
  | .aadd _ _ _ t => atomRejected t c w
  | .amin _ _ _ t => atomRejected t c w
  | .amax _ _ _ t => atomRejected t c w
  | .aand _ _ _ t => atomRejected t c w
  | .aor _ _ _ t => atomRejected t c w
  | .axor _ _ _ t => atomRejected t c w
  | .aswap _ _ _ t => atomRejected t c w
  | .acas _ _ _ _ t => atomRejected t c w
  | i => if wordEngine w = some .X then xReject i c w else none

/-- What stands at the sequencer's position. -/
inductive NextWord where
  /-- A word with its prefix, and the words of the block that they take. -/
  | forward (pfx : Option IWord) (w : SeqWord) (taken : Nat)
  /-- A word that is not forwarded in this iteration. -/
  | skip (taken : Nat)
  /-- A prefix that may not stand before its word now. -/
  | refused (prefixWord : IWord)
  | none

/-- A prefix of the block is judged again where its rule depends on state (R74, R319). -/
def nextWord (c : Core) : NextWord :=
  let q := c.seq
  match q.active.block.drop q.p with
  | [] => .none
  | p :: rest =>
    match decode p.word with
    | .ok (.seqf l) => match rest with
      | [] => .none
      | w :: _ => if firstTime q l.toNat then .forward none w 2 else .skip 2
    | .ok (.seql l) => match rest with
      | [] => .none
      | w :: _ => if lastTime q l.toNat then .forward none w 2 else .skip 2
    | .ok (.dual n) => match rest with
      | [] => .none
      | w :: _ =>
        if prefixAccepts c.csr.tmode.toNat false (.dual n) w.word && c.csr.features.getLsbD 0 then
          .forward (some p.word) w 2
        else .refused p.word
    | _ =>
      if engineCode p.word = some .P then
        match rest with
        | [] => .none
        | w :: _ => .forward (some p.word) w 2
      else .forward none p 1

/-- The values that a replay places with a word: those recorded, MXV's with RRB in force (R99, R349). -/
def replayCaps (c : Core) (i : Instr) (caps : List Word) : List Word × Bool :=
  match i with
  | .mxv _ _ _ _ _ =>
    let g := caps.getD 1 0
    ([caps.getD 0 0, (c.csr.rrb ++ g.extractLsb' 0 59 : BitVec 64)], decide (g.extractLsb' 59 5 ≠ 0))
  | _ => (caps, false)

def seqMove (n : Nat) (c : Core) : Core := { c with seq := { c.seq with p := c.seq.p + n } }

/-- The sequencer has a word to forward or to pass over. -/
def seqForwards (c : Core) : Bool :=
  c.seq.running && !inTrap c && c.pending.isNone && !yields c && decide (c.seq.p < c.seq.active.block.length)

/-- The next word of the block forwarded; the state is unchanged while its ring has no room. -/
def seqForward (s : State) : State :=
  let c := s.core
  match nextWord c with
  | .none => s.onCore (seqMove 1)
  | .skip n => s.onCore (seqMove n)
  | .refused w => raiseFault c.ord 0 (illegalWordFault w) s
  | .forward pfx w n =>
    match decode w.word, wordEngine w.word with
    | .ok i, some e =>
      match wordRejected i c w.word with
      | some f => raiseFault c.ord 0 f s
      | none =>
        let (caps, bad) := replayCaps c i w.caps
        if ringFull c e (if pfx.isSome then 2 else 1) caps.length then s
        else
          let empty := ((activeRings c).get e).entries.isEmpty
          let word := (encode (mapRegs (physReg c.csr.rrb) i)).getD 0
          let so := if e = .A then vat 0 c.seq.so (streamOf i) else 0
          let (s1, r) := placeWord e pfx word caps so bad (s.onCore (seqMove n))
          let s2 := s1.onCore (fun c => { c with bnd := bindAfter i c.bnd })
          settlePlaced e r empty (wordRun word) s2
    | _, _ => raiseFault c.ord 0 (illegalWordFault w.word) s

end Sys2Proof.Machine
end

