-- ==== Sys2Proof/Machine/Timing.lean ====
section
/-! DEFINITION. Events of time and of waiting words: a trap taken (R296, R300), WAITTIMEOUT (R21, R115), the heartbeat (R144,
R145), and a launch that waited for room (R108, R109, R140). -/

namespace Sys2Proof.Machine

/-! ## Taking the fault that waits (R300) -/

/-- The head of ring e can move: it starts, its check fails, its access is issued, it comes to wait at its home, or it makes
some of its accesses. -/
def headMoves (s : State) (e : Engine) : Bool :=
  match headOf s.core e with
  | none => false
  | some r => match startHead e r s with
    | .ok _ => true
    | .error (.fault _) => true
    | .error (.wait _) => false
    | .error (.sluice _ _) => s.core.reached.isNone && decide (e = .A)
    | .error (.home _ _ bit) => s.core.issued.isNone || (bit.isSome && !s.fullWaiters.any (fun t => decide (t.core = s.cur)))
    | .error (.launchFull _ _ _ _) => !s.stalled.any (fun t => decide (t.core = s.cur))
    | .error (.paused _ _) => true

/-- A ring whose head can move and is earlier than `ord`, or is a WAPP that has passed its checks: it can no longer fault, and is
performed whole (R80, R142). -/
def earlierMoves (s : State) (ord : Nat) : Option Engine :=
  engines.find? (fun e => (match headOf s.core e with
    | some r => decide (r.ord < ord) || (s.core.append.isSome && decide (e = .A))
    | none => false) && headMoves s e)

/-- The fault that waits is a double fault, and waits as HALT does (R301, R313). -/
def haltWaits (s : State) : Bool := (inTrap s.core || (handlerEntry s).isNone) && !haltReady s.core

/-- R296: the fault that was found is taken once every ring stands at a later word or at a waiting one (R300), and the words
that were started have completed (R80). -/
def execTrapTaken (s : State) : Out :=
  match s.core.pending with
  | none => .next s
  | some p => match earlierMoves s p.ord with
    | some _ => .next s
    | none => .next (if accessesDone s.core && !haltWaits s then takeTrap p.flt p.ring s else s)

/-! ## Waits that are timed (R21, R115) -/

/-- A wait that is timed. -/
def timed (w : WaitOn) : Option WaitOn := if w.detail = 0 then none else some w

/-- What the head of ring e waits on, where the wait is timed. Of a word whose access has been issued that is the state of a
full/empty bit alone (R21, R228). -/
def headWait (s : State) (e : Engine) : Option WaitOn :=
  match headOf s.core e with
  | none => none
  | some r => match startHead e r s with
    | .error (.home w _ _) => timed w
    | .error (.wait w) => if s.core.issued.isSome && decide (e = .A) then none else timed w
    | .error (.sluice w _) => if s.core.issued.isSome && decide (e = .A) then none else timed w
    | _ => none

/-- The control core's word waits on an empty BQ. -/
def waitsOnBq (s : State) : Bool :=
  s.core.bq.isEmpty && !splitterStops s.core false &&
    (match fetchWord s.core.pc s with
     | .ok (w, _) => (match decode w with
       | .ok (.bqt _) => true
       | .ok (.bqf _) => true
       | .ok (.bqpop _) => true
       | _ => false)
     | .error _ => false)

/-- What the control core waits on: GBAR for other members, or an entry of BQ. -/
def controlWait (s : State) : Option WaitOn :=
  if s.core.arrived.isSome then some ⟨7, 0⟩ else if waitsOnBq s then some ⟨6, 0⟩ else none

/-- The wait of place i (A, X, M, Y, control) as the ticks have counted it. -/
def waited (c : Core) (i : Nat) : Waiting := vat Waiting.none c.waits i

/-- The wait is the one that place i has been counted for. -/
def Waiting.isFor (q : Waiting) (w : WaitOn) : Bool := decide (q.detail = w.detail ∧ q.tval = w.tval)

/-- Place i has waited on w for more than WAITLIM ticks (R21). -/
def overLimit (c : Core) (i : Nat) (w : WaitOn) : Bool :=
  decide (c.csr.waitlim ≠ 0) && (waited c i).isFor w && decide (c.csr.waitlim.toNat < (waited c i).ticks)

/-- A wait beyond WAITLIM: its ticks, and its word's place in split order, RING field and object of waiting. -/
structure Late where
  ticks : Nat
  ord : Nat
  ring : BitVec 3
  on : WaitOn
  deriving DecidableEq, Repr

/-- The waits of the core beyond WAITLIM. -/
def lateWaits (s : State) : List Late :=
  let at_ (i ord : Nat) (ring : BitVec 3) (w : Option WaitOn) : List Late :=
    match w with
    | some w => if overLimit s.core i w then [⟨(waited s.core i).ticks, ord, ring, w⟩] else []
    | none => []
  engines.flatMap (fun e => match headOf s.core e with
    | some r => at_ (engineIndex e) r.ord (ringField e) (headWait s e)
    | none => []) ++ at_ 4 s.core.ord 0 (controlWait s)

/-- Of two late waits the one whose limit expired first, and of two that expired together the earlier in split order (R80,
R244). -/
def sooner (p q : Late) : Late := if q.ticks < p.ticks ∨ (q.ticks = p.ticks ∧ p.ord ≤ q.ord) then p else q

/-- The wait that faults (R244). -/
def firstLate (s : State) : Option Late :=
  match lateWaits s with
  | [] => none
  | q :: qs => some (qs.foldl sooner q)

/-- WAITTIMEOUT of a wait (R299); where R299 names no DETAIL for it, DETAIL and TVAL are free values (log 66). -/
def timeoutFault (w : WaitOn) (s : State) : Flt × State :=
  if w.detail ≤ 8 then (⟨cWAITTIMEOUT, w.tval, false, BitVec.ofNat 16 w.detail⟩, s)
  else
    let (d, s) := drawNat s
    let (v, s) := drawNat s
    (⟨cWAITTIMEOUT, BitVec.ofNat 64 v, false, BitVec.ofNat 16 d⟩, s)

/-- R21, R115: a wait of more than WAITLIM ticks faults at the word that waits. -/
def execWaittimeout (s : State) : Out :=
  if s.core.run.isNone then .next s
  else match firstLate s with
    | some l =>
      let (f, s) := timeoutFault l.on s
      .next (raiseFault l.ord l.ring f s)
    | none => .next s

/-! ## The heartbeat (R144, R145) -/

/-- A wait one tick later; one that has just begun has lasted one. -/
def Waiting.tick (q : Waiting) (w : Option WaitOn) : Waiting :=
  match w with
  | .none => Waiting.none
  | .some w => if q.isFor w then { q with ticks := q.ticks + 1 } else ⟨w.detail, w.tval, 1⟩

/-- One more tick for each timed wait of the core. -/
def tickWaits (s : State) : State :=
  let v := engines.foldl (fun v e => vput v (engineIndex e) ((vat Waiting.none v (engineIndex e)).tick (headWait s e))) s.core.waits
  s.onCore (fun c => { c with waits := vput v 4 ((vat Waiting.none v 4).tick (controlWait s)) })

/-- A FENCESC at the head of the core's A ring whose earlier accesses are performed completes at the tick (R144). -/
def tickFence (s : State) : State :=
  match headOf s.core .A with
  | none => s
  | some r =>
    match placedInstr r.word with
    | some .fencesc =>
      let run : Ctx → State → Chk State := fun x s =>
        if (sinkFault s.core 0xFFFF).isSome || earlierRuns s.core x.ord || !accessesDone s.core || !drainable s then waitNow headHeld
        else .ok (drainStores s)
      match startWord .A r run s with
      | .ok s' => s'
      | .error _ => s
    | _ => s

/-- The cores that run, in ascending number. -/
def runningCores (s : State) : List Nat :=
  (ascending (s.cur :: s.parked.map Prod.fst)).filter (fun n => (coreOf s n).run.isSome)

/-- R145, R144: HBT takes a new value; FENCESCs complete in ascending core number; waits are counted. -/
def execHeartbeatTick (s : State) : Out :=
  let s := { s with hbt := s.hbt + 1 }
  .next ((runningCores s).foldl (fun s n => asCore s n (fun s => tickWaits (tickFence s))) s)

/-! ## Launches that waited (R108, R109, R140) -/

/-- The stalled word of the core that moves is applied again. -/
def applyStalled (k : Deferred) (s : State) : State :=
  let at_ : Option Instr := match fetchWord s.core.pc s with
    | .ok (w, _) => (match decode w with | .ok i => some i | .error _ => none)
    | .error _ => none
  match k with
  | .acont => pollHead .A s
  | .join => match at_ with
    | some (.join d a b) => (match execJoin d a b s with | .next t => t | _ => s)
    | _ => unstall s
  | .exit => match at_ with
    | some .exit => (match execExit s with | .next t => t | _ => s)
    | _ => unstall s

/-- R108, R109, R140: the word that has waited longest at its home for room in a launch queue that has room now is applied
there, and pushes its record. -/
def execDeferredLaunchApply (s : State) : Out :=
  match s.stalled.find? (fun e => launchRoom s e.queue) with
  | none => .next s
  | some e => .next (asCore s e.core (applyStalled e.kind))

end Sys2Proof.Machine
end

