-- ==== Sys2Proof/Machine/Dispatch.lean ====
section
/-! DEFINITION. One arm for each instruction: a direct call of its meaning. -/

namespace Sys2Proof.Machine

/-- The meaning of an instruction, event or command. -/
def exec (i : Instr) (s : State) : Host.Outcome State Fault Refusal :=
  match i with
  | .add d a b => Sys2Proof.Machine.execAdd d a b s
  | .sub d a b => Sys2Proof.Machine.execSub d a b s
  | .mul d a b => Sys2Proof.Machine.execMul d a b s
  | .mulh d a b => Sys2Proof.Machine.execMulh d a b s
  | .mulhu d a b => Sys2Proof.Machine.execMulhu d a b s
  | .div d a b => Sys2Proof.Machine.execDiv d a b s
  | .divu d a b => Sys2Proof.Machine.execDivu d a b s
  | .rem d a b => Sys2Proof.Machine.execRem d a b s
  | .remu d a b => Sys2Proof.Machine.execRemu d a b s
  | .and d a b => Sys2Proof.Machine.execAnd d a b s
  | .or d a b => Sys2Proof.Machine.execOr d a b s
  | .xor d a b => Sys2Proof.Machine.execXor d a b s
  | .shl d a b => Sys2Proof.Machine.execShl d a b s
  | .shrl d a b => Sys2Proof.Machine.execShrl d a b s
  | .shra d a b => Sys2Proof.Machine.execShra d a b s
  | .slt d a b => Sys2Proof.Machine.execSlt d a b s
  | .sltu d a b => Sys2Proof.Machine.execSltu d a b s
  | .min d a b => Sys2Proof.Machine.execMin d a b s
  | .max d a b => Sys2Proof.Machine.execMax d a b s
  | .minu d a b => Sys2Proof.Machine.execMinu d a b s
  | .maxu d a b => Sys2Proof.Machine.execMaxu d a b s
  | .clz d a => Sys2Proof.Machine.execClz d a s
  | .ctz d a => Sys2Proof.Machine.execCtz d a s
  | .popc d a => Sys2Proof.Machine.execPopc d a s
  | .bfx d a p l => Sys2Proof.Machine.execBfx d a p l s
  | .bfxs d a p l => Sys2Proof.Machine.execBfxs d a p l s
  | .bfi d a p l => Sys2Proof.Machine.execBfi d a p l s
  | .fshl d a b c => Sys2Proof.Machine.execFshl d a b c s
  | .fshr d a b c => Sys2Proof.Machine.execFshr d a b c s
  | .sel d a b c => Sys2Proof.Machine.execSel d a b c s
  | .addi d a j => Sys2Proof.Machine.execAddi d a j s
  | .andi d a j => Sys2Proof.Machine.execAndi d a j s
  | .ori d a j => Sys2Proof.Machine.execOri d a j s
  | .xori d a j => Sys2Proof.Machine.execXori d a j s
  | .shli d a y => Sys2Proof.Machine.execShli d a y s
  | .shrli d a y => Sys2Proof.Machine.execShrli d a y s
  | .shrai d a y => Sys2Proof.Machine.execShrai d a y s
  | .slti d a j => Sys2Proof.Machine.execSlti d a j s
  | .lui d j => Sys2Proof.Machine.execLui d j s
  | .auipc d j => Sys2Proof.Machine.execAuipc d j s
  | .beq a b o => Sys2Proof.Machine.execBeq a b o s
  | .bne a b o => Sys2Proof.Machine.execBne a b o s
  | .blt a b o => Sys2Proof.Machine.execBlt a b o s
  | .bge a b o => Sys2Proof.Machine.execBge a b o s
  | .bltu a b o => Sys2Proof.Machine.execBltu a b o s
  | .bgeu a b o => Sys2Proof.Machine.execBgeu a b o s
  | .jmp o => Sys2Proof.Machine.execJmp o s
  | .jal d j => Sys2Proof.Machine.execJal d j s
  | .jr a => Sys2Proof.Machine.execJr a s
  | .jalr d a j => Sys2Proof.Machine.execJalr d a j s
  | .callt a y => Sys2Proof.Machine.execCallt a y s
  | .ret => Sys2Proof.Machine.execRet s
  | .bqt o => Sys2Proof.Machine.execBqt o s
  | .bqf o => Sys2Proof.Machine.execBqf o s
  | .bqpop d => Sys2Proof.Machine.execBqpop d s
  | .nop => Sys2Proof.Machine.execNop s
  | .seqlvl l a r => Sys2Proof.Machine.execSeqlvl l a r s
  | .seqlvlGetShadow l a => Sys2Proof.Machine.execSeqlvlGetShadow l a s
  | .seqlvlGetActive l a => Sys2Proof.Machine.execSeqlvlGetActive l a s
  | .seqlvlGetCounter l a => Sys2Proof.Machine.execSeqlvlGetCounter l a s
  | .seqstr l a n => Sys2Proof.Machine.execSeqstr l a n s
  | .seqstrGetShadow l a n => Sys2Proof.Machine.execSeqstrGetShadow l a n s
  | .seqstrGetActive l a n => Sys2Proof.Machine.execSeqstrGetActive l a n s
  | .seqcap n => Sys2Proof.Machine.execSeqcap n s
  | .seqgo => Sys2Proof.Machine.execSeqgo s
  | .seqbrk => Sys2Proof.Machine.execSeqbrk s
  | .seqwait => Sys2Proof.Machine.execSeqwait s
  | .rrbset j => Sys2Proof.Machine.execRrbset j s
  | .spawn d a b => Sys2Proof.Machine.execSpawn d a b s
  | .join d a b => Sys2Proof.Machine.execJoin d a b s
  | .exit => Sys2Proof.Machine.execExit s
  | .evset d a j => Sys2Proof.Machine.execEvset d a j s
  | .evclr d a j => Sys2Proof.Machine.execEvclr d a j s
  | .evtest d a j => Sys2Proof.Machine.execEvtest d a j s
  | .tile d a c => Sys2Proof.Machine.execTile d a c s
  | .tilenext d a c => Sys2Proof.Machine.execTilenext d a c s
  | .gbar => Sys2Proof.Machine.execGbar s
  | .csrr d c => Sys2Proof.Machine.execCsrr d c s
  | .csrw d a c => Sys2Proof.Machine.execCsrw d a c s
  | .csrs d a c => Sys2Proof.Machine.execCsrs d a c s
  | .csrc d a c => Sys2Proof.Machine.execCsrc d a c s
  | .trap j => Sys2Proof.Machine.execTrap j s
  | .eret => Sys2Proof.Machine.execEret s
  | .spill => Sys2Proof.Machine.execSpill s
  | .fill a => Sys2Proof.Machine.execFill a s
  | .halt => Sys2Proof.Machine.execHalt s
  | .tlbi a b => Sys2Proof.Machine.execTlbi a b s
  | .latinv => Sys2Proof.Machine.execLatinv s
  | .isync => Sys2Proof.Machine.execIsync s
  | .lds d b z x o => Sys2Proof.Machine.execLds d b z x o s
  | .sts d b z o => Sys2Proof.Machine.execSts d b z o s
  | .lda d b o => Sys2Proof.Machine.execLda d b o s
  | .sta d b o => Sys2Proof.Machine.execSta d b o s
  | .ldf d b o => Sys2Proof.Machine.execLdf d b o s
  | .ste d b o => Sys2Proof.Machine.execSte d b o s
  | .ldft d b o => Sys2Proof.Machine.execLdft d b o s
  | .feset a b y => Sys2Proof.Machine.execFeset a b y s
  | .adda d a b => Sys2Proof.Machine.execAdda d a b s
  | .suba d a b => Sys2Proof.Machine.execSuba d a b s
  | .addai d a j => Sys2Proof.Machine.execAddai d a j s
  | .shlai d a y => Sys2Proof.Machine.execShlai d a y s
  | .mulai d a j => Sys2Proof.Machine.execMulai d a j s
  | .andai d a j => Sys2Proof.Machine.execAndai d a j s
  | .movsa d a => Sys2Proof.Machine.execMovsa d a s
  | .movas d a => Sys2Proof.Machine.execMovas d a s
  | .vld q b y e o => Sys2Proof.Machine.execVld q b y e o s
  | .vldp q b y e o => Sys2Proof.Machine.execVldp q b y e o s
  | .vst q b y e o => Sys2Proof.Machine.execVst q b y e o s
  | .vstp q b y o => Sys2Proof.Machine.execVstp q b y o s
  | .vldx q b y j => Sys2Proof.Machine.execVldx q b y j s
  | .vstx q b y j => Sys2Proof.Machine.execVstx q b y j s
  | .vldc q b y e o => Sys2Proof.Machine.execVldc q b y e o s
  | .pref n b y o => Sys2Proof.Machine.execPref n b y o s
  | .strdef y b => Sys2Proof.Machine.execStrdef y b s
  | .strgo y b n => Sys2Proof.Machine.execStrgo y b n s
  | .strstop y n => Sys2Proof.Machine.execStrstop y n s
  | .strsink y b n => Sys2Proof.Machine.execStrsink y b n s
  | .sbar c a b => Sys2Proof.Machine.execSbar c a b s
  | .bind q v => Sys2Proof.Machine.execBind q v s
  | .unbind v => Sys2Proof.Machine.execUnbind v s
  | .qstat d q => Sys2Proof.Machine.execQstat d q s
  | .aadd d b c t => Sys2Proof.Machine.execAadd d b c t s
  | .amin d b c t => Sys2Proof.Machine.execAmin d b c t s
  | .amax d b c t => Sys2Proof.Machine.execAmax d b c t s
  | .aand d b c t => Sys2Proof.Machine.execAand d b c t s
  | .aor d b c t => Sys2Proof.Machine.execAor d b c t s
  | .axor d b c t => Sys2Proof.Machine.execAxor d b c t s
  | .aswap d b c t => Sys2Proof.Machine.execAswap d b c t s
  | .acas d b c e t => Sys2Proof.Machine.execAcas d b c e t s
  | .acont d b c e t => Sys2Proof.Machine.execAcont d b c e t s
  | .wapp d b q v => Sys2Proof.Machine.execWapp d b q v s
  | .fence c m => Sys2Proof.Machine.execFence c m s
  | .fencesc => Sys2Proof.Machine.execFencesc s
  | .rcfence => Sys2Proof.Machine.execRcfence s
  | .ownwait a b => Sys2Proof.Machine.execOwnwait a b s
  | .vadd d a b m => Sys2Proof.Machine.execVadd d a b m s
  | .vsub d a b m => Sys2Proof.Machine.execVsub d a b m s
  | .vmul d a b m => Sys2Proof.Machine.execVmul d a b m s
  | .vfma d a b m => Sys2Proof.Machine.execVfma d a b m s
  | .vfms d a b m => Sys2Proof.Machine.execVfms d a b m s
  | .vfnma d a b m => Sys2Proof.Machine.execVfnma d a b m s
  | .vmin d a b m => Sys2Proof.Machine.execVmin d a b m s
  | .vmax d a b m => Sys2Proof.Machine.execVmax d a b m s
  | .vabs d a m => Sys2Proof.Machine.execVabs d a m s
  | .vneg d a m => Sys2Proof.Machine.execVneg d a m s
  | .vdiv d a b m => Sys2Proof.Machine.execVdiv d a b m s
  | .vsqrt d a m => Sys2Proof.Machine.execVsqrt d a m s
  | .vrcp d a m => Sys2Proof.Machine.execVrcp d a m s
  | .vrsq d a m => Sys2Proof.Machine.execVrsq d a m s
  | .vexp2 d a m => Sys2Proof.Machine.execVexp2 d a m s
  | .vlog2 d a m => Sys2Proof.Machine.execVlog2 d a m s
  | .vsin d a m => Sys2Proof.Machine.execVsin d a m s
  | .vcos d a m => Sys2Proof.Machine.execVcos d a m s
  | .vtanh d a m => Sys2Proof.Machine.execVtanh d a m s
  | .vconj d a m => Sys2Proof.Machine.execVconj d a m s
  | .vcmulj d a b m => Sys2Proof.Machine.execVcmulj d a b m s
  | .vand d a b m => Sys2Proof.Machine.execVand d a b m s
  | .vor d a b m => Sys2Proof.Machine.execVor d a b m s
  | .vxor d a b m => Sys2Proof.Machine.execVxor d a b m s
  | .vnot d a m => Sys2Proof.Machine.execVnot d a m s
  | .vshl d a b m => Sys2Proof.Machine.execVshl d a b m s
  | .vshr d a b m => Sys2Proof.Machine.execVshr d a b m s
  | .vclz d a m => Sys2Proof.Machine.execVclz d a m s
  | .vpopc d a m => Sys2Proof.Machine.execVpopc d a m s
  | .vcmp c p a b g => Sys2Proof.Machine.execVcmp c p a b g s
  | .vsel d a b p => Sys2Proof.Machine.execVsel d a b p s
  | .pand d a b => Sys2Proof.Machine.execPand d a b s
  | .por d a b => Sys2Proof.Machine.execPor d a b s
  | .pxor d a b => Sys2Proof.Machine.execPxor d a b s
  | .pnot d a => Sys2Proof.Machine.execPnot d a s
  | .ptail d y => Sys2Proof.Machine.execPtail d y s
  | .pcnt d a b => Sys2Proof.Machine.execPcnt d a b s
  | .pfirst d a b => Sys2Proof.Machine.execPfirst d a b s
  | .vcvt d a f r n p => Sys2Proof.Machine.execVcvt d a f r n p s
  | .vcvth d a f h m => Sys2Proof.Machine.execVcvth d a f h m s
  | .vscale d a y m => Sys2Proof.Machine.execVscale d a y m s
  | .vqnt d a f r n p => Sys2Proof.Machine.execVqnt d a f r n p s
  | .vtag d a y => Sys2Proof.Machine.execVtag d a y s
  | .vtagq a => Sys2Proof.Machine.execVtagq a s
  | .vred d a j p => Sys2Proof.Machine.execVred d a j p s
  | .vscan d a j m => Sys2Proof.Machine.execVscan d a j m s
  | .vperm d a b m => Sys2Proof.Machine.execVperm d a b m s
  | .vrgath d a b m => Sys2Proof.Machine.execVrgath d a b m s
  | .vslide d a k m => Sys2Proof.Machine.execVslide d a k m s
  | .vbcast d f y m => Sys2Proof.Machine.execVbcast d f y m s
  | .viota d p => Sys2Proof.Machine.execViota d p s
  | .vmov d a m => Sys2Proof.Machine.execVmov d a m s
  | .vpart d a b p => Sys2Proof.Machine.execVpart d a b p s
  | .vappend d a p => Sys2Proof.Machine.execVappend d a p s
  | .vtget d a t m => Sys2Proof.Machine.execVtget d a t m s
  | .vtset d a t m => Sys2Proof.Machine.execVtset d a t m s
  | .vtzero d t p => Sys2Proof.Machine.execVtzero d t p s
  | .vbq m a b => Sys2Proof.Machine.execVbq m a b s
  | .mcfg f g => Sys2Proof.Machine.execMcfg f g s
  | .mma w r e f g => Sys2Proof.Machine.execMma w r e f g s
  | .mxv w r e f g => Sys2Proof.Machine.execMxv w r e f g s
  | .mldc w r e f g => Sys2Proof.Machine.execMldc w r e f g s
  | .mzero w r e f => Sys2Proof.Machine.execMzero w r e f s
  | .mdrain w r e f g => Sys2Proof.Machine.execMdrain w r e f g s
  | .cpy w r e f g => Sys2Proof.Machine.execCpy w r e f g s
  | .cpyz w r e f g => Sys2Proof.Machine.execCpyz w r e f g s
  | .cpyb w r e f => Sys2Proof.Machine.execCpyb w r e f s
  | .cpyq w r e => Sys2Proof.Machine.execCpyq w r e s
  | .cpycan w r e => Sys2Proof.Machine.execCpycan w r e s
  | .dual n => Sys2Proof.Machine.execDual n s
  | .tkn w r => Sys2Proof.Machine.execTkn w r s
  | .ext j => Sys2Proof.Machine.execExt j s
  | .seqf l => Sys2Proof.Machine.execSeqf l s
  | .seql l => Sys2Proof.Machine.execSeql l s
  | .seqAdvance => Sys2Proof.Machine.execSeqAdvance s
  | .generatorStep st => Sys2Proof.Machine.execGeneratorStep st s
  | .sinkStep st => Sys2Proof.Machine.execSinkStep st s
  | .commandComplete k => Sys2Proof.Machine.execCommandComplete k s
  | .copyLineLanded k => Sys2Proof.Machine.execCopyLineLanded k s
  | .trapTaken => Sys2Proof.Machine.execTrapTaken s
  | .waittimeout => Sys2Proof.Machine.execWaittimeout s
  | .heartbeatTick => Sys2Proof.Machine.execHeartbeatTick s
  | .gbarComplete => Sys2Proof.Machine.execGbarComplete s
  | .gangPreemptEvent => Sys2Proof.Machine.execGangPreemptEvent s
  | .launchQueueDrain slice => Sys2Proof.Machine.execLaunchQueueDrain slice s
  | .deferredLaunchApply => Sys2Proof.Machine.execDeferredLaunchApply s
  | .admitJob die => Sys2Proof.Machine.execAdmit die s
  | .dispatch => Sys2Proof.Machine.execDispatch s
  | .gangReserve die => Sys2Proof.Machine.execGangReserve die s
  | .eventRelease die job ev => Sys2Proof.Machine.execEventRelease die job ev s
  | .spillwayReenter die job => Sys2Proof.Machine.execSpillwayReenter die job s
  | .vfPeriodEnd => Sys2Proof.Machine.execVfPeriodEnd s
  | .queueAge queue => Sys2Proof.Machine.execQueueAge queue s
  | .weirGrant => Sys2Proof.Machine.execWeirGrant s
  | .migrationEpoch => Sys2Proof.Machine.execMigrationEpoch s
  | .migratePage => Sys2Proof.Machine.execMigratePage s
  | .blockWriteback line => Sys2Proof.Machine.execBlockWriteback line s
  | .noriaRecodeLine die => Sys2Proof.Machine.execNoriaRecodeLine die s
  | .selfTest unit => Sys2Proof.Machine.execSelfTest unit s
  | .culvertRemap core => Sys2Proof.Machine.execCulvertRemap core s
  | .errorDetected e => Sys2Proof.Machine.execErrorDetected e s
  | .moduleReset => Sys2Proof.Machine.execModuleReset s
  | .netAck k => Sys2Proof.Machine.execNetAck k s
  | .netqFail qp refused => Sys2Proof.Machine.execNetqFail qp refused s
  | .incomingRdma r => Sys2Proof.Machine.execIncomingRdma r s
  | .cxlMemRequest r => Sys2Proof.Machine.execCxlMemRequest r s
  | .dataWrite fn off w => Sys2Proof.Machine.execDataWrite fn off w s
  | .dataRead fn off n => Sys2Proof.Machine.execDataRead fn off n s
  | .registerWrite fn off w => Sys2Proof.Machine.execRegisterWrite fn off w s
  | .jobcreate fn o => Sys2Proof.Machine.execJobcreate fn o s
  | .jobstop fn o => Sys2Proof.Machine.execJobstop fn o s
  | .jobdestroy fn o => Sys2Proof.Machine.execJobdestroy fn o s
  | .qcreate fn o => Sys2Proof.Machine.execQcreate fn o s
  | .qdestroy fn o => Sys2Proof.Machine.execQdestroy fn o s
  | .qpush fn o => Sys2Proof.Machine.execQpush fn o s
  | .spilladd fn o => Sys2Proof.Machine.execSpilladd fn o s
  | .evhostSet fn o => Sys2Proof.Machine.execEvhostSet fn o s
  | .evhostClear fn o => Sys2Proof.Machine.execEvhostClear fn o s
  | .rqset fn o => Sys2Proof.Machine.execRqset fn o s
  | .vfslice fn o => Sys2Proof.Machine.execVfslice fn o s
  | .speedset fn o => Sys2Proof.Machine.execSpeedset fn o s
  | .ptecas fn o => Sys2Proof.Machine.execPtecas fn o s
  | .inval fn o => Sys2Proof.Machine.execInval fn o s
  | .clean fn o => Sys2Proof.Machine.execClean fn o s
  | .migcfg fn o => Sys2Proof.Machine.execMigcfg fn o s
  | .migfree fn o => Sys2Proof.Machine.execMigfree fn o s
  | .compset fn o => Sys2Proof.Machine.execCompset fn o s
  | .ovfset fn o => Sys2Proof.Machine.execOvfset fn o s
  | .ovfadd fn o => Sys2Proof.Machine.execOvfadd fn o s
  | .norset fn o => Sys2Proof.Machine.execNorset fn o s
  | .norpush fn o => Sys2Proof.Machine.execNorpush fn o s
  | .srslice fn o => Sys2Proof.Machine.execSrslice fn o s
  | .keyjob fn o => Sys2Proof.Machine.execKeyjob fn o s
  | .cxlrange fn o => Sys2Proof.Machine.execCxlrange fn o s
  | .load fn o => Sys2Proof.Machine.execLoad fn o s
  | .preempt fn o => Sys2Proof.Machine.execPreempt fn o s
  | .tagset fn o => Sys2Proof.Machine.execTagset fn o s
  | .tagget fn o => Sys2Proof.Machine.execTagget fn o s
  | .featset fn o => Sys2Proof.Machine.execFeatset fn o s
  | .keysetStage fn o => Sys2Proof.Machine.execKeysetStage fn o s
  | .keysetInstall fn o => Sys2Proof.Machine.execKeysetInstall fn o s
  | .vkeysetStage fn o => Sys2Proof.Machine.execVkeysetStage fn o s
  | .vkeysetInstall fn o => Sys2Proof.Machine.execVkeysetInstall fn o s
  | .svninc fn o => Sys2Proof.Machine.execSvninc fn o s
  | .intmap fn o => Sys2Proof.Machine.execIntmap fn o s
  | .netqpCreate fn o => Sys2Proof.Machine.execNetqpCreate fn o s
  | .netqpDestroy fn o => Sys2Proof.Machine.execNetqpDestroy fn o s
  | .fwstage fn o => Sys2Proof.Machine.execFwstage fn o s
  | .longCommandDone fn => Sys2Proof.Machine.execLongCommandDone fn s
  | .telread fn o => Sys2Proof.Machine.execTelread fn o s
  | .pwrcap fn o => Sys2Proof.Machine.execPwrcap fn o s
  | .illegalWord w => Sys2Proof.Machine.execIllegalWord w s
  | .accessApplied => Sys2Proof.Machine.execAccessApplied s
  | .shapeRecordCacheEviction k => Sys2Proof.Machine.execShapeRecordCacheEviction k s

end Sys2Proof.Machine
end

