-- ==== Sys2Proof/Machine/Run.lean ====
section
/-! DEFINITION. Which part of the machine moves, and how: the splitter (R5, R68, R77, R78), the engines, streams, commands,
stores and the sequencer of the core that moves (R5, R102, R132, R181, R207, R300), and the agenda (the model's own). -/

namespace Sys2Proof.Machine

/-- The splitter handles the word at the program counter: fetch, decode, and the word's meaning. A fetch that fails is the
word's fault; a word that is no instruction is ILLEGAL. -/
def splitStep (s : State) : Out :=
  match fetchWord s.core.pc s with
  | .error (.fault f) => .next (raiseFault s.core.ord 0 f s)
  | .error _ => .next s
  | .ok (w, s) =>
    match decode w with
    | .ok i => exec i s
    | .error _ => execIllegalWord w s

/-- The run of stream st would issue a step, find its fault, or come to wait at a claim. -/
def streamMoves (s : State) (st : Nat) : Bool :=
  let r := runOf s.core st
  let d := descOf s.core st
  let tried : Chk State := match r.kind with
    | .none => waitNow untimed
    | .generator => issueLoad st (stepCtx r) d (stepVa d r.base r.next.toNat) s
    | .sink => issueStore st (stepCtx r) d (stepVa d r.base r.next.toNat) s
  !inTrap s.core && decide (r.left ≠ 0) && r.flt.isNone &&
    (match tried with
      | .ok _ => true
      | .error (.fault _) => true
      | .error (.sluice _ _) => r.reached.isNone
      | .error _ => false)

/-- The step that stream st's run issues. -/
def streamMove (st : Nat) (s : State) : Out :=
  match (runOf s.core st).kind with
  | .sink => execSinkStep (BitVec.ofNat 4 st) s
  | _ => execGeneratorStep (BitVec.ofNat 4 st) s

/-- The started Y command that goes on next: one whose lines have landed, or whose next line can land; those of network copies
wait for the network. -/
def copyMoves (s : State) : Option Nat :=
  s.core.ycmds.findIdx? (fun y => y.allLanded || (y.qp.isNone && landReady y s))

/-- The M command in progress completes now: nothing is left of it to read or to write. -/
def matrixMoves (c : Core) : Bool := match c.mcmd with | some m => m.todo.isEmpty && m.writes.isEmpty | none => false

/-- A started command goes on: its next line lands, or it completes. -/
def copyMove (k : Nat) (s : State) : Out :=
  match s.core.ycmds[k]? with
  | none => .next s
  | some y => if y.allLanded then execCommandComplete (k + 1) s else execCopyLineLanded k s

/-- The first of the parts of accesses that may be performed now is performed. -/
def firstAccess (s : State) : Out := execAccessApplied { s with pick := 0 }

/-- The commands in progress go on: a line of the M command, its completion, or a Y command; nothing where none can. -/
def commandMove (s : State) : Out :=
  if !(matrixParts s).isEmpty then firstAccess s
  else if matrixMoves s.core then execCommandComplete 0 s
  else match copyMoves s with
    | some k => copyMove k s
    | none => .next s

/-- One move of the core that moves, by the model's own order: a core without a run looks for one; a fault that waits is
taken once the words before it have moved and the accesses in flight have been performed; then engines, streams, accesses in
flight, started commands, queued stores, the sequencer, and the splitter. -/
def stepCore (s : State) : Out :=
  if s.core.run.isNone then execDispatch s
  else match s.core.pending with
    | some p => match earlierMoves s p.ord with
      | some e => .next (pollHead e s)
      | none =>
        if !(flyingParts s).isEmpty then firstAccess s
        else if haltWaits s then commandMove s
        else execTrapTaken s
    | none =>
      match engines.find? (headMoves s) with
      | some e => .next (pollHead e s)
      | none =>
        match (List.range 16).find? (streamMoves s) with
        | some st => streamMove st s
        | none =>
          if !(flyingParts s).isEmpty || !(matrixParts s).isEmpty then firstAccess s
          else if matrixMoves s.core then execCommandComplete 0 s
          else match copyMoves s with
            | some k => copyMove k s
            | none =>
              if !(queueParts s).isEmpty then firstAccess s
              else if seqForwards s.core then .next (seqForward s)
              else if s.core.seq.running && !inTrap s.core && decide (s.core.seq.active.block.length ≤ s.core.seq.p) then
                execSeqAdvance s
              else splitStep s

/-- The move that the agenda names next. -/
def runMove (m : Move) (s : State) : Out :=
  match m with
  | .event i => exec i s
  | .chosen k i => exec i { s with pick := k }
  | .core n => stepCore (switchTo s n)
  | .split => splitStep s

/-- A move whose access came to bytes at which something waits has not arrived yet: the machine stays as it was before it
(R140, R285; log 51). -/
def heldBack (s : State) (o : Out) : Out :=
  match o with
  | .next t => if t.blocked && !s.blocked then .next s else o
  | o => o

/-- One move of the module. -/
def runStep (s : State) : Out :=
  match s.agenda with
  | [] => heldBack s (stepCore s)
  | m :: rest => heldBack { s with agenda := rest } (runMove m { s with agenda := rest })

/-! ## A word placed where it is fetched -/

/-- The physical address in T0 of the page that a placed word is fetched from. -/
def fetchFrame : Nat := 2 ^ 16

/-- A leaf of that page: valid, executable, cached, tier T0. -/
def fetchLeaf : Word := BitVec.ofNat 64 (5 + fetchFrame)

/-- The run that a placed word belongs to, where the core has none. -/
def fetchRun (c : Core) : RunInfo :=
  match c.run with
  | some r => r
  | none => ⟨0, 0, 0, 0, 0, 0, none⟩

/-- The core that moves, running, with a page at its program counter in its translation cache, and the words of the page
stored there: `w` in its first 4 bytes, zeros behind. -/
def placeFetch (s : State) (w : Nat) : State :=
  let pc := s.core.pc
  let page : Page := ⟨fetchLeaf, 0, 2 ^ 16, pageBase pc (2 ^ 16)⟩
  let c := s.core
  { s with
    agenda := []
    core := { c with
      run := some (fetchRun c), pfx := none, pending := none, icache := []
      tlb := [⟨ptbJob c.csr.ptb, page⟩] }
    mem := { s.mem with
      bytes := storeBytes s.mem.bytes (page.place pc) 8 w
      tags := sset uninitTag s.mem.tags (lineOf (page.place pc)) rawTag } }

end Sys2Proof.Machine
end

