-- ==== Sys2Proof/Machine/Step.lean ====
section
/-! DEFINITION. The machine's step, and an instruction placed where the step fetches its next one. -/

namespace Sys2Proof.Machine

/-- One step: a next state, a fault, or a refusal. -/
def step (s : State) : Host.Outcome State Fault Refusal := runStep s

/-- The state with the instruction whose low `nbits` bits are `w` stored at the program counter, in an executable page of a
run. -/
def State.withFetchWord (s : State) (nbits w : Nat) : State := placeFetch s (w % 2 ^ nbits % 2 ^ 32)

end Sys2Proof.Machine
end

