-- ==== Sys2Proof/Safety.lean ====
section
/-! DEFINITION. The terms in which claims are stated: when a word is not held back, the state in which it acts, and what
every step must keep. -/

namespace Sys2Proof.Machine

/-! ## C and Z words (R5, R6, R80, R86) -/

/-- The splitter of the core goes on: no fault waits to be taken, and no pre-emption waits for the end of a WAPP (R80, R306). -/
def Unstopped (c : Core) : Prop := c.pending = none ∧ yields c = false

/-- Nothing holds a control word back: the splitter goes on, and no register that the word names is pending. -/
def Settled (s : State) (regs : List (BitVec 5)) : Prop := Unstopped s.core ∧ ∀ r ∈ regs, pendingS s.core r = false

/-- The control core past the word at its program counter: the prefix is used up, and the next word stands later in split
order. Nothing else differs. -/
def passed (s : State) : State :=
  { s with core := { s.core with
      pc := s.core.pc + 4, pfx := none, ord := s.core.ord + 1, waits := vput s.core.waits 4 Waiting.none } }

/-- The control core past its word, and going on at `target`. -/
def goingOn (target : Word) (s : State) : State :=
  { passed s with core := { (passed s).core with pc := target } }

/-- The state with `v` in s[d]; s0 discards it (R81). -/
def withS (d : BitVec 5) (v : Word) (s : State) : State :=
  if d = 0 then s else { s with core := { s.core with s := s.core.s.setIfInBounds d.toNat v } }

/-- The payload of the EXT prefix that waits for its word, or none (R75). -/
def extPayload (s : State) : Option (BitVec 23) :=
  match s.core.pfx with
  | none => none
  | some p => if p.extractLsb' 23 6 = 3 then some (p.extractLsb' 0 23) else none

/-- A signed immediate, widened by the payload of an EXT prefix: bits above the field (R75). -/
def immediate {n : Nat} (s : State) (f : BitVec n) : Word :=
  match extPayload s with
  | none => f.signExtend 64
  | some e => (e ++ f).signExtend 64

/-- An extendable field that is read unsigned (R75). -/
def unsignedImmediate {n : Nat} (s : State) (f : BitVec n) : Word :=
  match extPayload s with
  | none => f.setWidth 64
  | some e => (e ++ f).setWidth 64

/-! ## Release (R106) -/

/-- What a releasing word waits for has happened: every earlier word is complete, nothing waits at the line of a queued store, and
no sink holds a deferred fault. -/
def Released (s : State) : Prop := sinkFault s.core 0xFFFF = none ∧ earlierDone s.core = true ∧ drainable s = true

/-- The state past a word that has released: every store in the queue is applied at its home. -/
def released (s : State) : State := drainStores (passed s)

/-- A fault of the control core's word, with its code, TVAL and DETAIL (R298, R299): RING 0, not deferred. -/
def faultsAtWord (s : State) (code : BitVec 8) (tval : Word) (detail : BitVec 16) : Out :=
  .next (raiseFault s.core.ord 0 ⟨code, tval, false, detail⟩ s)

/-- FLAGS with some bits set (R50). -/
def withFlags (f : BitVec 8) (s : State) : State :=
  { s with core := { s.core with csr := { s.core.csr with flags := s.core.csr.flags ||| f } } }

/-- The doubleword of a line at a place, byte 0 low. -/
def lineWord (l : LineBits) (place : Nat) : Word := l.extractLsb' (8 * (place % 128)) 64

/-! ## CSR words (R82, R304, R305) -/

/-- The state in which a CSR word acts: past the word, with the queued stores applied where the word drains. -/
def csrState (n : BitVec 12) (write : Bool) (s : State) : State :=
  if n.toNat ≤ 6 ∨ (write = true ∧ 0x40A ≤ n.toNat ∧ n.toNat ≤ 0x40D) then released s else passed s

/-- What the wait of a CSR word asks (R305, R144). -/
def CsrReady (n : BitVec 12) (write : Bool) (s : State) : Prop :=
  if n.toNat ≤ 6 ∨ (write = true ∧ 0x40A ≤ n.toNat ∧ n.toNat ≤ 0x40D) then csrDrained s.core = true ∧ drainable s = true
  else n = 0x403 → ringHas s.core isFencesc = false

/-- The core may access the register at its level (R82): bits 11 and 10 of the number give the class. -/
def CsrAllowed (n : BitVec 12) (write : Bool) (s : State) : Prop :=
  n.extractLsb' 10 2 ≠ 3 ∧ (s.core.csr.status.getLsbD 1 = true ∨ n.extractLsb' 10 2 = 0 ∨
    (write = false ∧ n.extractLsb' 10 2 = 1))

/-! ## Traps (R296, R303) -/

/-- The general register i of the eight that a bank holds, s24 to s31 or a24 to a31. -/
def high {n : Nat} (v : Vector Word n) (i : Nat) : Word := v[24 + i]?.getD 0

/-- The banks of two states are exchanged, and the other general registers are the same. -/
def BanksExchanged (c c' : Core) : Prop :=
  (∀ i < 8, high c'.s i = c.trapS[i]?.getD 0 ∧ high c'.a i = c.trapA[i]?.getD 0 ∧
    c'.trapS[i]?.getD 0 = high c.s i ∧ c'.trapA[i]?.getD 0 = high c.a i) ∧
  (∀ i < 24, c'.s[i]?.getD 0 = c.s[i]?.getD 0 ∧ c'.a[i]?.getD 0 = c.a[i]?.getD 0)

/-! ## Engine words (R5 to R9, R77) -/

/-- The word of an instruction. -/
def wordOf (i : Instr) : IWord := (encode i).getD 0

/-- Nothing holds an engine word back: the splitter goes on, no nest feeds the rings, no register that it captures is pending, its
ring is empty and has room, the schedule starts it at once, and the token that it awaits is there, beside those of the heads that
are granted theirs before it (R10). `placed` is the word as its ring holds it. -/
def EngineReady (e : Engine) (i placed : Instr) (s : State) : Prop :=
  Unstopped s.core ∧ (s.core.seq.running = false ∨ inTrap s.core = true) ∧
  (∀ r ∈ capturesOf i, pendingS s.core r = false) ∧
  ((activeRings s.core).get e).entries = [] ∧
  ringFull s.core e (if s.core.pfx.isSome then 2 else 1) (captureValues s.core i).length = false ∧
  s.core.holdWord = [] ∧ (e = .A → s.core.issued = none) ∧
  (let k := (tokensOf e s.core.pfx (wordOf placed)).1
   k = 0 ∨ grantedBefore s.core e k < (s.core.tokens[k.toNat]?.getD 0).toNat)

/-- The word in its ring, the splitter past it. -/
def inRing (e : Engine) (i placed : Instr) (s : State) : State × RingEntry :=
  placeWord e s.core.pfx (wordOf placed) (captureValues s.core i) 0 (reservedSet s.core i)
    { s with core := { s.core with pc := s.core.pc + 4, pfx := none } }

/-- The state in which an engine word acts: out of its ring, its awaited token taken. -/
def acting (e : Engine) (i placed : Instr) (s : State) : State :=
  let (t, r) := inRing e i placed s
  let k := (tokensOf e s.core.pfx (wordOf placed)).1
  let t := if k = 0 then t
    else { t with core := { t.core with
      tokens := t.core.tokens.setIfInBounds k.toNat (t.core.tokens[k.toNat]?.getD 0 - 1) } }
  { t with core := popHead e r t.core }

/-- What the word carries to its engine. -/
def carried (e : Engine) (i placed : Instr) (s : State) : Ctx :=
  ctxOf (inRing e i placed s).1.core e (inRing e i placed s).2

/-- The token of an A or X word raised, or to be raised by the part of it that is still in flight (R9). -/
def raising (e : Engine) (placed : Instr) (s t : State) : State :=
  { t with core := raiseAt s.core.ord (tokensOf e s.core.pfx (wordOf placed)).2 t.core }

/-- The A word i at once: the state in which it acts, what it carries, and its completion with `t`. -/
def actsA (i : Instr) (s : State) : State := acting .A i i s
def carriesA (i : Instr) (s : State) : Ctx := carried .A i i s
def completesA (i : Instr) (s t : State) : Prop := exec i s = .next (raising .A i s t)

/-- The fault of an A word at its ring's head (R300): its word stands in the ring. -/
def faultsA (i : Instr) (s : State) (f : Flt) : Prop :=
  exec i s = .next (raiseFault s.core.ord 1 f (inRing .A i i s).1)

/-- The A word i waits at its home for a state of the full/empty bit at a place: its token is taken, and the pages of its
checks are held (R9, R121). -/
def waitsAtHome (i : Instr) (s : State) (pages : List (Word × Page)) (bit : Nat × Bool) : Prop :=
  exec i s = .next (queueAtHome (some bit) (issueHead .A (inRing .A i i s).2 pages (inRing .A i i s).1))

/-- Every access before place `ord` has been performed, and none waits for a line at which a word waits (R121, R122). -/
def AccessesReleased (s : State) (ord : Nat) : Prop :=
  earlierRuns s.core ord = false ∧ accessesDone s.core = true ∧ drainable s = true

/-- An access is performed as it is issued: none is in flight or queued, the schedule holds none back, and nothing waits at any
line. -/
def AtOnce (s : State) : Prop :=
  s.core.flight = [] ∧ s.core.storeQ = [] ∧ s.core.holdAccess = [] ∧ s.core.holdStore = [] ∧ s.stalled = [] ∧ s.pool = none

/-- The state with `v` in a[d]; a0 discards it (R81). -/
def withA (d : BitVec 5) (v : Word) (s : State) : State :=
  if d = 0 then s else { s with core := { s.core with a := s.core.a.setIfInBounds d.toNat v } }

/-- The full/empty bit of the word at a place (R15). -/
def withFull (b : Bool) (place : Nat) (s : State) : State :=
  { s with mem := { s.mem with full := sset false s.mem.full (place / 8) b } }

/-! ## X words (R134, R148 to R154, R157, R349) -/

/-- The X word as its ring holds it, with physical register numbers. -/
def placedX (i : Instr) (s : State) : Instr := mapRegs (physReg s.core.csr.rrb) i

/-- The X word i at once: the state in which it acts, what it carries, and its completion with `t`. -/
def actsX (i : Instr) (s : State) : State := acting .X i (placedX i s) s
def carriesX (i : Instr) (s : State) : Ctx := carried .X i (placedX i s) s
def completesX (i : Instr) (s t : State) : Prop := exec i s = .next (raising .X (placedX i s) s t)

/-- An X word goes ahead: it is ready, and the splitter has nothing against its bindings and its features. -/
def XReady (i : Instr) (s : State) : Prop :=
  EngineReady .X i (placedX i s) s ∧ xReject i s.core (wordOf i) = none

/-- Flume q takes n more entries, and no sink on it holds a fault (R11, R133). -/
def TakesEntries (x : Ctx) (q n : Nat) (s : State) : Prop :=
  pushFault s.core x.ord q = none ∧ flumeRoom s.core q n 0 = true

/-- vd may be written: its flume takes an entry, or the register is not locked (R12, R151). -/
def Writable (x : Ctx) (d : BitVec 6) (s : State) : Prop :=
  match bindingOf x.bnd d.toNat with
  | some q => TakesEntries x q.toNat 1 s
  | none => (lockedFor s.core x.ord).contains d.toNat = false

/-- The shadows 1 to T of register d set. -/
def withShadows (d : BitVec 6) (ts : List RegBits) (s : State) : State :=
  { s with core := (List.range s.core.csr.tmode.toNat).foldl (fun c t => setShadow (t + 1) d.toNat (ts.getD t 0) c) s.core }

/-- vd and its shadows written, or an entry pushed where vd is bound. -/
def written (x : Ctx) (d : BitVec 6) (r : VReg) (ts : List RegBits) (s : State) : State :=
  match bindingOf x.bnd d.toNat with
  | some q => pushFlume q.toNat [entryFor s.core.csr.tmode.toNat r ts] s
  | none => withShadows d ts { s with core := { s.core with v := s.core.v.setIfInBounds d.toNat r } }

/-- The lanes of a register of format f: `new` in the active lanes, the old lane or zero in the others of the first m,
zero above (R152, R153). -/
def Governed (g : Gov) (f : Nat) (old : Option RegBits) (new : Nat → Nat) (r : RegBits) : Prop :=
  ∀ L < regCount f, laneBits f r L = (if g.active L then new L % 2 ^ elemBits f
    else if L < g.m then (match old with | some o => laneBits f o L | none => 0) else 0)

/-- What an X word computed: its tag, the lanes that its predicate governs, whether a source is SPOILED, whether it newly
spoils, its flags, its lanes, and its tangent lanes by t. -/
structure Result where
  tag : Tag
  gov : Gov
  spoiled : Bool
  spoils : Bool
  flags : Flags
  lane : Nat → Nat
  tangent : Nat → Nat → Nat

/-- The word i, whose sources ns are popped from `u`, writes what it computed: where the old destination may be read and
vd written, it completes with the lanes and the tangents governed, VC SPOILED where an operand was or the word spoils, and
its flags set. -/
def Delivers (i : Instr) (ns : List (BitVec 6)) (d : BitVec 6) (s u : State) (r : Result) : Prop :=
  let x := carriesX i s
  ∀ old osp, oldReg x d r.gov.readsOld r.tag u = .ok (old, osp) → Writable x d (popSources x ns u) →
    ∃ data ts, Governed r.gov (tagFmt r.tag) (old.map (·.reg.data)) r.lane data ∧
      ts.length = u.core.csr.tmode.toNat ∧
      (∀ t < ts.length, Governed r.gov (tangentFmt (tagFmt r.tag)) (old.bind (fun o => o.tans[t]?)) (r.tangent t) (ts.getD t 0)) ∧
      completesX i s (withFlags (r.flags ||| (if r.spoils then 0x20 else 0))
        (written x d ⟨data, spoilTag r.tag (r.spoiled || osp || r.spoils)⟩ ts (popSources x ns u)))

/-- The sources of a word: read, and none INVALID (R34); `spoiled` says that one is SPOILED. -/
def Reads (i : Instr) (ns : List (BitVec 6)) (s : State) (rs : List Src) (spoiled : Bool) : Prop :=
  readAllV (carriesX i s) ns (actsX i s) = .ok rs ∧ consume (actsX i s).core rs = .ok spoiled

/-- The fault of an X word at its ring's head. -/
def faultsX (i : Instr) (s : State) (f : Flt) : Prop :=
  exec i s = .next (raiseFault s.core.ord 2 f (inRing .X i (placedX i s) s).1)

/-- A source of a word, by its place among its operands. -/
def srcOf (rs : List Src) (k : Nat) : Src := rs.getD k ⟨VReg.zero, []⟩

/-- Predicate d and its tag written. -/
def withPred (d : BitVec 4) (v : BitVec 64) (t : Tag) (s : State) : State :=
  { s with core := { s.core with p := s.core.p.setIfInBounds d.toNat v, ptag := s.core.ptag.setIfInBounds d.toNat t } }

/-- The predicate of the lanes for which `f` holds. -/
def Mask (f : Nat → Bool) (v : BitVec 64) : Prop := ∀ L < 64, v.getLsbD L = f L

/-! ## A step -/

/-- Nothing of the core that moves is due before its splitter: a run is on it, no fault waits, its rings hold no word, no
stream steps, no access is in flight, no command is out, no store is queued, and no nest runs. -/
def SplitterMoves (s : State) : Prop :=
  s.core.run ≠ none ∧ s.core.pending = none ∧ (∀ e, ((activeRings s.core).get e).entries = []) ∧
    (∀ st < 16, (runOf s.core st).kind = .none) ∧ s.core.flight = [] ∧ s.core.mcmd = none ∧ s.core.ycmds = [] ∧ s.core.storeQ = [] ∧
    s.core.seq.running = false

/-! ## Commands (R269, R329) -/

/-- RESULT of a command of function fn: SEQ counts one, DONE, STATUS, and D1 to D7, missing ones 0. -/
def withResult (fn : Nat) (done : Bool) (status : Nat) (reply : List Word) (s : State) : State :=
  let h := hostFn s fn
  setHostFn s fn { h with
    seq := h.seq + 1, done := done, status := BitVec.ofNat 8 status, reply := (reply ++ List.replicate 7 0).take 7 }

/-- The command ends at once; a long one raises CMDDONE then. -/
def answered (long : Bool) (fn status : Nat) (reply : List Word) (s : State) : State :=
  if long then raiseIrq (withResult fn true status reply s) fn .cmddone else withResult fn true status reply s

/-- The function has no command in progress, the module is in STATE 1, no INVAL waits, and the operands hold no reserved bit. -/
def Accepts (fn : Nat) (masks : List Word) (o : CmdOps) (s : State) : Prop :=
  s.bootState = 1 ∧ (hostFn s fn).done = true ∧ hostWaits s = false ∧ operandsOk o masks = true

/-- Bits lo to lo + len - 1 of an operand. -/
def operand (w : Word) (lo len : Nat) : Nat := w.toNat / 2 ^ lo % 2 ^ len

end Sys2Proof.Machine
end

