-- ==== Sys2Proof/Certificates/Slice0/Obligations.lean ====
section
/-! DEFINITION. What is claimed of the model. Each statement's docstring says which words of the manual it formalises. -/

open Sys2Proof Sys2Proof.Machine

/-- R87, its words of two operands: each writes the named function of s[a] and s[b], and changes nothing else. R88: the quotient
is truncated toward zero and the remainder takes the dividend's sign; division by zero gives all ones and the dividend and
sets DIVZERO. -/
def Obligations.ArithmeticWordsWriteTheirResult : Prop :=
  (
    ∀ (s : State) (d a b : BitVec 5), Settled s [d, a, b] →
      let x := sreg s.core a
      let y := sreg s.core b
      let writes (i : Instr) (v : Word) : Prop := exec i s = .next (withS d v (passed s))
      let sh := y.toNat % 64
      writes (.add d a b) (BitVec.ofNat 64 (x.toNat + y.toNat)) ∧
      writes (.sub d a b) (BitVec.ofInt 64 (x.toInt - y.toInt)) ∧
      writes (.mul d a b) (BitVec.ofNat 64 (x.toNat * y.toNat)) ∧
      writes (.mulh d a b) (BitVec.ofInt 64 (x.toInt * y.toInt / 2 ^ 64)) ∧
      writes (.mulhu d a b) (BitVec.ofNat 64 (x.toNat * y.toNat / 2 ^ 64)) ∧
      writes (.and d a b) (x &&& y) ∧
      writes (.or d a b) (x ||| y) ∧
      writes (.xor d a b) (x ^^^ y) ∧
      writes (.shl d a b) (BitVec.ofNat 64 (x.toNat * 2 ^ sh)) ∧
      writes (.shrl d a b) (BitVec.ofNat 64 (x.toNat / 2 ^ sh)) ∧
      writes (.shra d a b) (BitVec.ofInt 64 (x.toInt / 2 ^ sh)) ∧
      writes (.slt d a b) (if x.toInt < y.toInt then 1 else 0) ∧
      writes (.sltu d a b) (if x.toNat < y.toNat then 1 else 0) ∧
      writes (.min d a b) (BitVec.ofInt 64 (min x.toInt y.toInt)) ∧
      writes (.max d a b) (BitVec.ofInt 64 (max x.toInt y.toInt)) ∧
      writes (.minu d a b) (BitVec.ofNat 64 (min x.toNat y.toNat)) ∧
      writes (.maxu d a b) (BitVec.ofNat 64 (max x.toNat y.toNat))
  ) ∧ (
    ∀ (s : State) (d a b : BitVec 5), Settled s [d, a, b] →
      let x := sreg s.core a
      let y := sreg s.core b
      let flagged : State :=
        { passed s with core := { (passed s).core with
            csr := { (passed s).core.csr with flags := (passed s).core.csr.flags ||| 0x02#8 } } }
      let writes (i : Instr) (whole onZero : Word) : Prop :=
        exec i s = .next (if y = 0 then withS d onZero flagged else withS d whole (passed s))
      writes (.div d a b) (BitVec.ofInt 64 (x.toInt.tdiv y.toInt)) (BitVec.allOnes 64) ∧
      writes (.divu d a b) (BitVec.ofNat 64 (x.toNat / y.toNat)) (BitVec.allOnes 64) ∧
      writes (.rem d a b) (BitVec.ofInt 64 (x.toInt.tmod y.toInt)) x ∧
      writes (.remu d a b) (BitVec.ofNat 64 (x.toNat % y.toNat)) x
  )

/-- R87, R89: the counts, the funnel shifts and the select; the field words, whose field of l + 1 bits begins at bit p and lies
in the register. R90, R91: the immediate is sign-extended from its field, or from the field with the EXT payload above it. -/
def Obligations.FieldAndImmediateWordsWriteTheirResult : Prop :=
  (
    ∀ (s : State) (d a b c : BitVec 5) (p l : BitVec 6), Settled s [d, a, b, c] → p.toNat + l.toNat ≤ 63 →
      let x := sreg s.core a
      let y := sreg s.core b
      let z := sreg s.core c
      let w := l.toNat + 1
      let writes (i : Instr) (good : Word → Prop) : Prop :=
        ∃ v, exec i s = .next (withS d v (passed s)) ∧ good v
      writes (.clz d a) (fun v => (x = 0 → v = 64) ∧
        (x ≠ 0 → v.toNat < 64 ∧ 2 ^ (63 - v.toNat) ≤ x.toNat ∧ x.toNat < 2 ^ (64 - v.toNat))) ∧
      writes (.ctz d a) (fun v => (x = 0 → v = 64) ∧ (x ≠ 0 → x.getLsbD v.toNat = true ∧ ∀ k < v.toNat, x.getLsbD k = false)) ∧
      writes (.popc d a) (fun v => v = BitVec.ofNat 64 ((List.range 64).countP (fun k => x.getLsbD k))) ∧
      writes (.fshl d a b c) (fun v => v = BitVec.ofNat 64 ((x.toNat * 2 ^ 64 + y.toNat) * 2 ^ (z.toNat % 64) / 2 ^ 64)) ∧
      writes (.fshr d a b c) (fun v => v = BitVec.ofNat 64 ((x.toNat * 2 ^ 64 + y.toNat) / 2 ^ (z.toNat % 64))) ∧
      writes (.sel d a b c) (fun v => v = if z = 0 then y else x) ∧
      writes (.bfx d a p l) (fun v => v = (x.extractLsb' p.toNat w).setWidth 64) ∧
      writes (.bfxs d a p l) (fun v => v = (x.extractLsb' p.toNat w).signExtend 64) ∧
      writes (.bfi d a p l) (fun v => ∀ k < 64, v.getLsbD k =
        if p.toNat ≤ k ∧ k < p.toNat + w then x.getLsbD (k - p.toNat) else (sreg s.core d).getLsbD k)
  ) ∧ (
    ∀ (s : State) (d a : BitVec 5) (i : BitVec 13) (j : BitVec 18) (n : BitVec 6), Settled s [d, a] →
      let x := sreg s.core a
      let v := immediate s i
      let u := immediate s j <<< 13
      let writes (i : Instr) (r : Word) : Prop := exec i s = .next (withS d r (passed s))
      writes (.addi d a i) (x + v) ∧
      writes (.andi d a i) (x &&& v) ∧
      writes (.ori d a i) (x ||| v) ∧
      writes (.xori d a i) (x ^^^ v) ∧
      writes (.slti d a i) (if x.toInt < v.toInt then 1 else 0) ∧
      writes (.shli d a n) (x <<< n.toNat) ∧
      writes (.shrli d a n) (x >>> n.toNat) ∧
      writes (.shrai d a n) (x.sshiftRight n.toNat) ∧
      writes (.lui d j) u ∧
      writes (.auipc d j) (s.core.pc + u)
  )

/-- R92: the six conditional branches, in the BR format; a branch whose comparison holds goes to PC + 4 × offset, any other to the
next word. -/
def Obligations.ConditionalBranchesGoWhereTheyCompare : Prop :=
  ∀ (s : State) (a b : BitVec 5) (o : BitVec 13), Settled s [a, b] →
    let x := sreg s.core a
    let y := sreg s.core b
    let goes (i : Instr) (holds : Prop) : Prop :=
      (holds → exec i s = .next (goingOn (s.core.pc + 4 * immediate s o) s)) ∧ (¬holds → exec i s = .next (passed s))
    goes (.beq a b o) (x = y) ∧ goes (.bne a b o) (x ≠ y) ∧
    goes (.blt a b o) (x.toInt < y.toInt) ∧ goes (.bge a b o) (y.toInt ≤ x.toInt) ∧
    goes (.bltu a b o) (x.toNat < y.toNat) ∧ goes (.bgeu a b o) (y.toNat ≤ x.toNat) ∧
    (let word (op : BitVec 6) : IWord := 0b000#3 ++ op ++ a ++ b ++ o
     decode (word 0x30) = .ok (.beq a b o) ∧ decode (word 0x31) = .ok (.bne a b o) ∧ decode (word 0x32) = .ok (.blt a b o) ∧
     decode (word 0x33) = .ok (.bge a b o) ∧ decode (word 0x34) = .ok (.bltu a b o) ∧ decode (word 0x35) = .ok (.bgeu a b o))

/-- R93, R68: targets and links; JALR reads s[a] before it writes the link; a target that is not a multiple of 4 faults ALIGN at
the transfer, which then changes nothing. R95: BQT and BQF branch as JMP by B, BQPOP delivers the entry; each pops the entry,
and waits, with nothing changed, while BQ is empty. -/
def Obligations.TransfersAndBranchQueueWords : Prop :=
  (
    ∀ (s : State) (d a : BitVec 5) (o : BitVec 23) (j : BitVec 18) (i : BitVec 13), Settled s [d, a, 1] →
      let pc := s.core.pc
      let register (w : Instr) (target : Word) (after : State → State) : Prop :=
        (target.toNat % 4 = 0 → exec w s = .next (after (goingOn target s))) ∧
        (target.toNat % 4 ≠ 0 → exec w s = .next (raiseFault s.core.ord 0 ⟨3, target, false, 0⟩ s))
      exec (.jmp o) s = .next (goingOn (pc + 4 * immediate s o) s) ∧
      exec (.jal d j) s = .next (withS d (pc + 4) (goingOn (pc + 4 * immediate s j) s)) ∧
      register (.jr a) (sreg s.core a) id ∧
      register (.jalr d a i) (sreg s.core a + immediate s i) (withS d (pc + 4)) ∧
      register .ret (sreg s.core 1) id ∧
      exec .nop s = .next (passed s)
  ) ∧ (
    ∀ (s : State) (d : BitVec 5) (o : BitVec 23), Settled s [d] →
      let target := s.core.pc + 4 * immediate s o
      (∀ (e : Word) (rest : List Word), s.core.bq = e :: rest →
        let popped : State := { s with core := { s.core with bq := rest } }
        exec (.bqt o) s = .next (if e.getLsbD 31 then goingOn target popped else passed popped) ∧
        exec (.bqf o) s = .next (if e.getLsbD 31 then passed popped else goingOn target popped) ∧
        exec (.bqpop d) s = .next (withS d e (passed popped))) ∧
      (s.core.bq = [] → exec (.bqt o) s = .next s ∧ exec (.bqf o) s = .next s ∧ exec (.bqpop d) s = .next s)
  )

/-! ## The sequencer -/

/-- R98: SEQLVL and SEQSTR write the shadow set or read the shadow set, the active set or a counter; nothing else changes. R99:
SEQCAP captures the next words with the values of the s registers that they name, and goes on past them. The TVAL of a refused
capture is log 19's. -/
def Obligations.SequencerSetsAndSeqcap : Prop :=
  (
    ∀ (s : State) (l : BitVec 3) (a n : BitVec 5) (r : BitVec 1), Settled s [a] → l.toNat ≤ 5 → n.toNat ≤ 15 →
      let x := sreg s.core a
      let q := s.core.seq
      let shadow (f : SeqSet → SeqSet) : State :=
        { passed s with core := { (passed s).core with seq := { q with shadow := f q.shadow } } }
      let level (k : SeqSet) : Word :=
        BitVec.ofNat 64 ((k.n[l.toNat]?.getD 0).toNat + (if k.rot[l.toNat]?.getD false then 2 ^ 32 else 0))
      let stride (k : SeqSet) : Word := k.stride[16 * l.toNat + n.toNat]?.getD 0
      exec (.seqlvl l a r) s = .next (shadow (fun k =>
        { k with n := k.n.setIfInBounds l.toNat (x.setWidth 32), rot := k.rot.setIfInBounds l.toNat (r == 1) })) ∧
      exec (.seqlvlGetShadow l a) s = .next (withS a (level q.shadow) (passed s)) ∧
      exec (.seqlvlGetActive l a) s = .next (withS a (level q.active) (passed s)) ∧
      exec (.seqlvlGetCounter l a) s = .next (withS a ((q.i[l.toNat]?.getD 0).setWidth 64) (passed s)) ∧
      exec (.seqstr l a n) s = .next (shadow (fun k =>
        { k with stride := k.stride.setIfInBounds (16 * l.toNat + n.toNat) x })) ∧
      exec (.seqstrGetShadow l a n) s = .next (withS a (stride q.shadow) (passed s)) ∧
      exec (.seqstrGetActive l a n) s = .next (withS a (stride q.active) (passed s))
  ) ∧ (
    ∀ (s t : State) (n : BitVec 10) (ws : List IWord), Settled s [] →
      fetchWords n.toNat (s.core.pc + 4) (passed s) = .ok (ws, t) → captureFault ((encode (.seqcap n)).getD 0) ws = none →
      (∀ w ∈ ws, ∀ r ∈ wordCaptures w, pendingS t.core r = false) →
      exec (.seqcap n) s = .next
        { t with core := { t.core with
            pc := s.core.pc + 4 + 4 * BitVec.ofNat 64 n.toNat
            seq := { t.core.seq with shadow := { t.core.seq.shadow with
              block := ws.map (fun w => ⟨w, (wordCaptures w).map (sreg t.core)⟩) } } } }
  )

/-- R101, R104, R105: SEQGO copies the shadow set, which it keeps, and starts at the first iteration; SEQGO, SEQWAIT and RRBSET
wait while a nest is active; SEQBRK marks the current iteration as the last. R103, R104: the advance at the lowest level that
can advance, and the end of the nest where none can or a break was asked for. That a nest stands still in a handler is log 26's.
-/
def Obligations.NestsStartAdvanceAndEnd : Prop :=
  (
    ∀ (s : State) (i : BitVec 10), Settled s [] →
      let q := s.core.seq
      let go (k : Sequencer) : Out := .next { passed s with core := { (passed s).core with seq := k } }
      (q.running = false → q.shadow.block ≠ [] → exec .seqgo s = go
        { shadow := q.shadow, active := q.shadow, i := Vector.replicate 6 0, so := Vector.replicate 16 0, p := 0,
          running := true, brk := false }) ∧
      (q.running = false → q.shadow.block = [] → exec .seqgo s = faultsAtWord s 1 0xA2000000 0) ∧
      exec .seqbrk s = go { q with brk := q.running } ∧
      (q.running = false → exec .seqwait s = .next (passed s)) ∧
      (q.running = false → exec (.rrbset i) s = .next
        { passed s with core := { (passed s).core with csr := { (passed s).core.csr with rrb := i.setWidth 5 } } }) ∧
      (q.running = true → exec .seqgo s = .next s ∧ exec .seqwait s = .next s ∧ exec (.rrbset i) s = .next s)
  ) ∧ (
    ∀ (s : State) (q : Sequencer), s.core.seq = q → q.running = true → q.active.block.length ≤ q.p →
      s.core.csr.status.getLsbD 3 = false →
      let count (l : Nat) : Nat := max 1 (q.active.n[l]?.getD 0).toNat
      let index (k : Sequencer) (l : Nat) : BitVec 32 := k.i[l]?.getD 0
      let more (l : Nat) : Prop := (index q l).toNat + 1 < count l
      (∀ j < 6, q.brk = false → more j → (∀ m < j, ¬more m) →
        ∃ t, exec .seqAdvance s = .next t ∧ t.core.seq.p = 0 ∧ t.core.seq.running = true ∧
          t.core.seq.shadow = q.shadow ∧ t.core.seq.active = q.active ∧
          (∀ m < 6, index t.core.seq m = if m < j then 0 else if m = j then index q j + 1 else index q m) ∧
          (∀ st < 16, t.core.seq.so[st]?.getD 0 =
            ((List.range 6).map (fun m => (index t.core.seq m).setWidth 64 * (q.active.stride[16 * m + st]?.getD 0))).sum) ∧
          t.core.csr = { s.core.csr with rrb :=
            if (∃ m ≤ j, q.active.rot[m]?.getD false = true) then BitVec.ofNat 5 ((s.core.csr.rrb.toNat + 23) % 24)
            else s.core.csr.rrb } ∧
          t = { s with core := { s.core with seq := t.core.seq, csr := t.core.csr } }) ∧
      (q.brk = true ∨ (∀ m < 6, ¬more m) →
        exec .seqAdvance s = .next { s with core := { s.core with seq := { q with running := false, brk := false } } })
  )

/-! ## Scheduling words -/

/-- R107: SPAWN's checks in the order of the manual, each a LAUNCH fault with D0; a full queue gives 1 and pushes nothing;
otherwise the record is written, retagged, at the queue's tail, and s[d] becomes 0. That the revoked slot comes first is log
45's, that the entry is read through the core's copy log 21's. -/
def Obligations.SpawnChecksThenPushes : Prop :=
  ∀ (s s2 : State) (d a b : BitVec 5) (r : RunInfo) (f : FuncEntry), Settled s [d, a, a + 1, a + 2, a + 3, b] →
    Released s → (released s).core.run = some r → slotRevoked (released s) r = false →
    let d0 := sreg s.core a
    let e : Entry := ⟨d0, sreg s.core (a + 1), sreg s.core (a + 2), sreg s.core (a + 3), 1, r.slot, r.job⟩
    let n := (sreg s.core b).toNat
    let launch (detail : BitVec 16) : Prop := exec (.spawn d a b) s = faultsAtWord s 9 d0 detail
    (sfind (released s).queues n = none → launch 5) ∧
    (∀ q : Queue, sfind (released s).queues n = some q →
      (q.job ≠ r.job ∨ 4095 < n → launch 5) ∧
      (q.job = r.job → n ≤ 4095 →
        (r.tabLen ≤ d0.toNat % 2 ^ 20 → launch 1) ∧
        (d0.toNat % 2 ^ 20 < r.tabLen → readFunc (d0.toNat % 2 ^ 20) (released s) = .ok (f, s2) → f.reserved = false →
          (f.gang = false → d0.toNat / 2 ^ 20 % 2 ^ 8 ≠ 0 → launch 3) ∧
          ((f.gang = true ∨ d0.toNat / 2 ^ 20 % 2 ^ 8 = 0) →
            (d0.toNat / 2 ^ 30 % 4 ≠ 0 → launch 4) ∧
            (d0.toNat / 2 ^ 30 % 4 = 0 →
              (2 ^ q.k ≤ q.tail - q.head → exec (.spawn d a b) s = .next (withS d 1 s2)) ∧
              (q.tail - q.head < 2 ^ q.k → ∀ p : Page,
                let va := q.base + BitVec.ofNat 64 (64 * (q.tail % 2 ^ q.k))
                checkedPage s2 .store va 1 = .ok p → bytesStalled s2 (p.place va) 64 = false →
                let line : Line := ⟨0x007F0000#32, patchLine (mergeLine s2 p va).data (p.place va % 128) 64 (entryBits e 0 0 false)⟩
                let t := writeLine (touchPage p va s2) p va line
                exec (.spawn d a b) s = .next (withS d 0
                  { t with queues := sput t.queues n { q with tail := q.tail + 1 } })))))))

/-- R108: the atomic of JOIN on the counter, RANGE where it would fall below 0, the launch at the update to zero, and the wait at
the home while the launch queue is full. R20, R109: once released, EXIT lowers the join block D2 names by one, launching
where that takes it to zero, and frees the core; with D2 = 0 it only frees the core. -/
def Obligations.JoinAndExitLowerTheCounter : Prop :=
  (
    ∀ (s : State) (d a b : BitVec 5) (p : Page) (r : RunInfo), Settled s [d, a, b] → Released s →
      let va := sreg s.core a
      let amount := sreg s.core b
      let s1 := released s
      va.toNat % 64 = 0 → checkedPage s1 .atomic va 1 = .ok p → bytesStalled s1 (p.place va) 8 = false →
      bytesPoisoned s1 (p.place va) 8 = false → tagVc (plainLine s1 p va).tag = 0 →
      (touchPage p va s1).core.run = some r →
      let line := (plainLine s1 p va).data
      let old := lineWord line (p.place va)
      let put (v : Word) : State := writeBytes (touchPage p va s1) p va 8 v.toNat
      let queue := launchQueueOf p (p.place va)
      let word (i : Nat) : Word := lineWord line (p.place va % 128 + 32 + 8 * i)
      (old.toNat < amount.toNat → exec (.join d a b) s = .next (withS d old (unstall (withFlags 0x40#8 (put old))))) ∧
      (amount.toNat ≤ old.toNat → ¬(old ≠ 0 ∧ old = amount) →
        exec (.join d a b) s = .next (withS d old (unstall (put (old - amount))))) ∧
      (old ≠ 0 → old = amount → launchRoom (touchPage p va s1) queue = true →
        exec (.join d a b) s = .next (withS d old (unstall
          (launchPush (put 0) queue ⟨word 0, word 1, word 2, word 3, 2, r.slot, r.job⟩)))) ∧
      (old ≠ 0 → old = amount → launchRoom (touchPage p va s1) queue = false →
        exec (.join d a b) s = .next (stall s .join va p queue))
  ) ∧ (
    ∀ (s : State) (r : RunInfo), Settled s [] → Released s → s.core.run = some r →
      let va := r.d2
      let s1 := released s
      (va = 0 → exec .exit s = .next (endRun s1)) ∧
      (∀ p : Page, va ≠ 0 → va.toNat % 64 = 0 → checkedPage s1 .atomic va 1 = .ok p →
        bytesStalled s1 (p.place va) 8 = false → bytesPoisoned s1 (p.place va) 8 = false →
        tagVc (plainLine s1 p va).tag = 0 → (touchPage p va s1).core.run = some r →
        let line := (plainLine s1 p va).data
        let old := lineWord line (p.place va)
        let put (v : Word) : State := writeBytes (touchPage p va s1) p va 8 v.toNat
        let queue := launchQueueOf p (p.place va)
        let word (i : Nat) : Word := lineWord line (p.place va % 128 + 32 + 8 * i)
        (1 < old.toNat → exec .exit s = .next (endRun (put (old - 1)))) ∧
        (old = 1 → launchRoom (touchPage p va s1) queue = true →
          exec .exit s = .next (endRun (launchPush (put 0) queue ⟨word 0, word 1, word 2, word 3, 2, r.slot, r.job⟩))))
  )

/-- R110: the event words read the bit of event E of the run's job and set, clear or keep it; EVSET releases first, and
releases the records that wait; event 0 reads as set and is not written. -/
def Obligations.EventWordsReadAndWriteOneBit : Prop :=
  ∀ (s : State) (d a : BitVec 5) (i : BitVec 13) (r : RunInfo) (j : Job) (p : Page), Settled s [d, a] → Released s →
    let e : BitVec 16 := (sreg s.core a + immediate s i).setWidth 16
    let va := eventVa j e
    let pl := p.place va
    let k := e.toNat % 8
    let byte (u : State) : Nat := bytesAt u (pageVersion u p) pl 1
    let isSet (u : State) : Bool := (byte u).testBit k
    let was (u : State) : Word := if isSet (ownView u pl) then 1 else 0
    let put (u : State) (b : Bool) : State :=
      let u := drainLine pl u
      let rest := if isSet u then byte u - 2 ^ k else byte u
      writeBytes (touchPage p va u) p va 1 (if b then rest + 2 ^ k else rest)
    let owned (u : State) : Prop := u.core.run = some r ∧ sfind u.jobs r.job = some j
    (owned (released s) → e ≠ 0 → checkedPage (released s) .store va 1 = .ok p → bytesStalled (released s) pl 1 = false →
      exec (.evset d a i) s = .next (withS d (was (released s))
        ((List.range 4).foldl (fun u die => releaseWaiting u die r.job e) (put (released s) true)))) ∧
    (owned (passed s) → e ≠ 0 → checkedPage (passed s) .store va 1 = .ok p → bytesStalled (passed s) pl 1 = false →
      exec (.evclr d a i) s = .next (withS d (was (passed s)) (put (passed s) false))) ∧
    (owned (passed s) → e ≠ 0 → checkedPage (passed s) .load va 1 = .ok p → bytesStalled (passed s) pl 1 = false →
      exec (.evtest d a i) s = .next (withS d (was (passed s)) (touchPage p va (passed s)))) ∧
    (owned (released s) → e = 0 → exec (.evset d a i) s = .next (withS d 1 (released s))) ∧
    (owned (passed s) → e = 0 →
      exec (.evclr d a i) s = .next (withS d 1 (passed s)) ∧ exec (.evtest d a i) s = .next (withS d 1 (passed s)))

/-- R111: the member's share and its start; member j of frequency f_j gets Floor(T × f_j / F), and one more where fewer than X
members have a larger remainder, or an equal one and a lower index. R111: the shares of a gang add up to the tiles: no tile
is given twice or left out. R112: the next chunk of the gang's counter. -/
def Obligations.TileWordsShareTheWork : Prop :=
  (
    ∀ (s : State) (d a c : BitVec 5) (g : Gang) (n : Nat), Settled s [d, a, c] → gangOf (passed s) = some (n, g) →
      let T := (sreg s.core a).toNat % 2 ^ 48
      let f (j : Nat) : Nat := 1850 + 50 * g.classes.getD j 0
      let G := g.classes.length
      let F := ((List.range G).map f).sum
      let floor (j : Nat) : Nat := T * f j / F
      let rest (j : Nat) : Nat := T * f j % F
      let X := T - ((List.range G).map floor).sum
      let before (j : Nat) : Nat :=
        (List.range G).countP (fun m => decide (rest j < rest m ∨ (rest m = rest j ∧ m < j)))
      let share (j : Nat) : Nat := floor j + (if before j < X then 1 else 0)
      let me := s.core.csr.gid.toNat
      me < G → exec (.tile d a c) s = .next
        (withS c (BitVec.ofNat 64 (share me)) (withS d (BitVec.ofNat 64 ((List.range me).map share).sum) (passed s)))
  ) ∧ (
    ∀ (T : Nat) (fs : List Nat), fs ≠ [] → (∀ f ∈ fs, 0 < f) →
      (tileShares T fs).sum = T ∧ (tileShares T fs).length = fs.length ∧
      ∀ j < fs.length, T * fs.getD j 0 / fs.sum ≤ (tileShares T fs).getD j 0 ∧
        (tileShares T fs).getD j 0 ≤ T * fs.getD j 0 / fs.sum + 1
  ) ∧ (
    ∀ (s : State) (d a c : BitVec 5) (g : Gang) (n : Nat), Settled s [d, a, c] → gangOf (passed s) = some (n, g) →
      g.classes ≠ [] →
      let T := (sreg s.core a).toNat % 2 ^ 48
      let f (j : Nat) : Nat := 1850 + 50 * g.classes.getD j 0
      let C := if g.chunk = 0 then 1 else g.chunk
      let old := g.counter.toNat
      ∀ fmin, (∃ j < g.classes.length, f j = fmin) → (∀ j < g.classes.length, fmin ≤ f j) →
        s.core.csr.gid.toNat < g.classes.length →
        let k := max 1 (C * f s.core.csr.gid.toNat / fmin)
        (T ≤ old → exec (.tilenext d a c) s = .next (withS c 0 (withS d (BitVec.ofNat 64 T) (passed s)))) ∧
        (old < T → exec (.tilenext d a c) s = .next
          (withS c (BitVec.ofNat 64 (min k (T - old))) (withS d (BitVec.ofNat 64 old)
            (let later : Gang := { g with counter := BitVec.ofNat 48 (old + min k (T - old)) }
             { passed s with gangs := sput (passed s).gangs n later }))))
  )

/-- R113: GBAR releases and arrives; it completes the barrier where every live member has arrived, and waits otherwise. R113: at
the completion every live member goes on past its GBAR with SLAST, the lowest index among the last arrivals, and SLAG, the
saturated gap from the first arrival to the last; the TILENEXT counter is 0. Stamps within a tick are free (log 9). -/
def Obligations.GbarArrivesAndCompletes : Prop :=
  (
    ∀ (s : State), Unstopped s.core → s.core.arrived = none → Released s →
      let s1 := drainStores s
      (gangOf s1 = none → Unstopped s1.core → exec .gbar s = .next (passed s1)) ∧
      (∀ (n : Nat) (g : Gang), gangOf s1 = some (n, g) →
        let s2 : State := { s1 with core := { s1.core with
          arrived := some (arrivalStamp s1 n g), free := s1.core.free + 1 } }
        (barrierFull s2 n g = true → exec .gbar s = .next (completeBarrier s2 n g)) ∧
        (barrierFull s2 n g = false → exec .gbar s = .next s2))
  ) ∧ (
    ∀ (s : State) (n : Nat) (g : Gang), fullBarrier s = some (n, g) → g.members.Nodup →
      let live := liveMembers s n g
      let stamp (m : Nat × Nat) : Nat := (coreOf s m.2).arrived.getD 0
      ∃ (t : State) (first last who : Nat), exec .gbarComplete s = .next t ∧
        (∀ m ∈ live, first ≤ stamp m ∧ stamp m ≤ last) ∧ (∃ m ∈ live, stamp m = first) ∧
        (∃ m ∈ live, stamp m = last ∧ m.1 = who) ∧ (∀ m ∈ live, stamp m = last → who ≤ m.1) ∧
        (∀ m ∈ live,
          let c := coreOf s m.2
          coreOf t m.2 = { c with
            pc := c.pc + 4, pfx := none, arrived := none, ord := c.ord + 1, waits := c.waits.setIfInBounds 4 Waiting.none
            csr := { c.csr with slast := BitVec.ofNat 8 who, slag := BitVec.ofNat 32 (min (last - first) (2 ^ 32 - 1)) } }) ∧
        (∃ g', sfind t.gangs n = some g' ∧ g'.counter = 0) ∧ t.mem = s.mem
  )

/-! ## Calls through the function table -/

/-- R96: CALLT's checks in the order of the manual, each precise, and the call. That the entry is
read through the core's copy is log 21's. -/
def Obligations.CalltChecksTheEntryAndCalls : Prop :=
  ∀ (s t : State) (a : BitVec 5) (g : BitVec 9) (f : FuncEntry), Settled s [a, 1] →
    let i := sreg s.core a
    let target : Word := f.addr.setWidth 64
    (tableLength (passed s) ≤ i.toNat → exec (.callt a g) s = faultsAtWord s 8 i 0) ∧
    (i.toNat < tableLength (passed s) → readFunc i.toNat (passed s) = .ok (f, t) →
      ((f.reserved = true ∨ f.sig.setWidth 64 ≠ unsignedImmediate s g) → exec (.callt a g) s = faultsAtWord s 8 i 0) ∧
      (f.reserved = false → f.sig.setWidth 64 = unsignedImmediate s g →
        (target.toNat % 4 ≠ 0 → exec (.callt a g) s = faultsAtWord s 3 target 0) ∧
        (target.toNat % 4 = 0 → exec (.callt a g) s = .next
          (withS 1 (s.core.pc + 4) { t with core := { t.core with pc := target } }))))

/-! ## Control and status registers -/

/-- R304, R82: CSRR delivers the register's value; the fixed sizes, the ring pointers and the ring base are as the manual gives
them. R304, R82, R305: CSRW, CSRS and CSRC deliver the old value and write the new one, with the fields that the writer may
change; registers of class 0b01 other than the ring pointers keep their value; a value out of range faults ILLEGAL with that
value, and so, with the word, does a TMODE that would end while a flume or a dual word needs it. That the range of TMODE is
checked first is log 70's. -/
def Obligations.CsrWordsReadAndWriteTheRegister : Prop :=
  (
    ∀ (s : State) (d : BitVec 5) (n : BitVec 12), Settled s [d] →
      let t := csrState n false s
      let gives (m : BitVec 12) (v : Word) : Prop := n = m → exec (.csrr d n) s = .next (withS d v t)
      let ring (r : Ring) : Word := BitVec.ofNat 64 (r.rdp.toNat + 2 ^ 11 * r.wrp.toNat)
      (n = 0xC00 → exec (.csrr d n) s = .next (withS d 0xBC000 t)) ∧
      (CsrAllowed n false s → CsrReady n false s →
        gives 0x000 (t.core.csr.flags.setWidth 64) ∧ gives 0x001 (t.core.csr.rmode.setWidth 64) ∧
        gives 0x002 (t.core.gens.x0.setWidth 64) ∧ gives 0x003 (t.core.csr.tmode.setWidth 64) ∧
        gives 0x004 (t.core.csr.rrb.setWidth 64) ∧ gives 0x005 t.core.csr.latb ∧
        gives 0x006 (t.core.csr.status.setWidth 64) ∧
        gives 0x400 64 ∧ gives 0x401 48 ∧ gives 0x402 64 ∧ gives 0x403 t.hbt ∧
        gives 0x404 (t.core.csr.speed.setWidth 64) ∧ gives 0x405 (t.core.csr.gid.setWidth 64) ∧
        gives 0x406 (t.core.csr.gsize.setWidth 64) ∧ gives 0x407 (t.core.csr.slag.setWidth 64) ∧
        gives 0x408 (t.core.csr.slast.setWidth 64) ∧ gives 0x409 (t.core.csr.features.setWidth 64) ∧
        gives 0x40A (ring t.core.user.a) ∧ gives 0x40B (ring t.core.user.x) ∧ gives 0x40C (ring t.core.user.m) ∧
        gives 0x40D (ring t.core.user.y) ∧
        gives 0x800 (t.core.csr.cause.setWidth 64) ∧ gives 0x801 t.core.csr.epc ∧ gives 0x802 t.core.csr.tval ∧
        gives 0x803 t.core.csr.ptb ∧ gives 0x804 (t.core.csr.age.setWidth 64) ∧
        gives 0x805 (t.core.csr.waitlim.setWidth 64))
  ) ∧ (
    ∀ (s : State) (d a : BitVec 5) (n : BitVec 12) (i : Instr) (v : Word), Settled s [d, a] → CsrAllowed n true s →
      CsrReady n true s →
      let t := csrState n true s
      let old := csrRead t n
      let x := sreg t.core a
      (i = .csrw d a n ∧ v = x ∨ i = .csrs d a n ∧ v = old ||| x ∨ i = .csrc d a n ∧ v = old &&& ~~~x) →
      let gives (u : State) : Prop := exec i s = .next (withS d old u)
      let puts (m : BitVec 12) (top : Nat) (f : Csrs → Csrs) : Prop := n = m → v.toNat < top →
        gives { t with core := { t.core with csr := f t.core.csr } }
      let refuses (p : Prop) : Prop := p → exec i s = faultsAtWord s 1 v 0
      puts 0x000 (2 ^ 8) (fun k => { k with flags := v.setWidth 8 }) ∧
      puts 0x001 (2 ^ 3) (fun k => { k with rmode := v.setWidth 3 }) ∧
      puts 0x004 24 (fun k => { k with rrb := v.setWidth 5 }) ∧
      (n = 0x800 → v.toNat < 2 ^ 32 → v &&& 0x7800 = 0 →
        gives { t with core := { t.core with csr := { t.core.csr with cause := v.setWidth 32 } } }) ∧
      (n = 0x803 → v &&& ~~~0x03FF0FFFFFFFF000#64 = 0 →
        gives { t with core := { t.core with csr := { t.core.csr with ptb := v } } }) ∧
      puts 0x802 (2 ^ 64) (fun k => { k with tval := v }) ∧
      puts 0x804 (2 ^ 20) (fun k => { k with age := v.setWidth 20 }) ∧
      puts 0x805 (2 ^ 32) (fun k => { k with waitlim := v.setWidth 32 }) ∧
      (n = 0x801 → v.toNat % 4 = 0 → v.toNat < 2 ^ 48 →
        gives { t with core := { t.core with csr := { t.core.csr with epc := v } } }) ∧
      (n = 0x006 → v.toNat < 2 ^ 5 → gives { t with core := { t.core with csr := { t.core.csr with
        status := if t.core.csr.status.getLsbD 1 then v.setWidth 5 else (t.core.csr.status &&& 0x1E) ||| (v.setWidth 5 &&& 1) } } }) ∧
      (n = 0x002 → v.toNat < 2 ^ 32 →
        let seed : BitVec 32 := if v = 0 then 1 else v.setWidth 32
        gives { t with core := { t.core with
          gens := ⟨seed, seed.rotateLeft 16, seed.rotateLeft 8, seed.rotateLeft 24⟩ } }) ∧
      (n = 0x003 → v.toNat < 4 → (v = 0 ∨ t.core.csr.features.getLsbD 0 = true) → (∀ q ∈ t.core.flumes, q = []) →
        (∀ f ∈ t.core.flight, f.isLoad = false) → gives { t with core := { t.core with
          t1 := Vector.replicate 64 0, t2 := Vector.replicate 64 0, t3 := Vector.replicate 64 0
          csr := { t.core.csr with tmode := v.setWidth 2 } } }) ∧
      (n = 0x003 → v.toNat < 4 → (v ≠ 0 ∧ t.core.csr.features.getLsbD 0 = false ∨ ∃ q ∈ t.core.flumes, q ≠ []) →
        exec i s = faultsAtWord s 1 ((wordOf i).setWidth 64) 0) ∧
      (n = 0x005 → v.toNat % 1024 = 0 →
        gives (loadLattice { t with core := { t.core with csr := { t.core.csr with latb := v } } })) ∧
      (∀ (m : BitVec 12) (e : Engine), (m, e) ∈ [(0x40A, Engine.A), (0x40B, .X), (0x40C, .M), (0x40D, .Y)] → n = m →
        v.toNat < 2 ^ 22 →
        let ring := t.core.user.get e
        let rdp : BitVec 11 := v.setWidth 11
        let skipped (es : List RingEntry) : State :=
          { t with core := { t.core with user := t.core.user.put e { ring with rdp := rdp, entries := es } } }
        (rdp = ring.wrp → gives (skipped [])) ∧
        (rdp ≠ ring.wrp → ∀ before w after, ring.entries = before ++ w :: after → w.pos = rdp → (∀ u ∈ before, u.pos ≠ rdp) →
          gives (skipped (w :: after))) ∧
        (rdp ≠ ring.wrp → (∀ w ∈ ring.entries, w.pos ≠ rdp) → exec i s = faultsAtWord s 1 v 0)) ∧
      (n.extractLsb' 10 2 = 1 → ¬(0x40A ≤ n.toNat ∧ n.toNat ≤ 0x40D) → gives t) ∧
      refuses (n = 0x000 ∧ 2 ^ 8 ≤ v.toNat) ∧ refuses (n = 0x001 ∧ 2 ^ 3 ≤ v.toNat) ∧ refuses (n = 0x002 ∧ 2 ^ 32 ≤ v.toNat) ∧
      refuses (n = 0x003 ∧ 4 ≤ v.toNat) ∧ refuses (n = 0x004 ∧ 24 ≤ v.toNat) ∧ refuses (n = 0x005 ∧ v.toNat % 1024 ≠ 0) ∧
      refuses (n = 0x006 ∧ 2 ^ 5 ≤ v.toNat) ∧ refuses (n = 0x801 ∧ (v.toNat % 4 ≠ 0 ∨ 2 ^ 48 ≤ v.toNat)) ∧
      refuses (n = 0x800 ∧ (2 ^ 32 ≤ v.toNat ∨ v &&& 0x7800 ≠ 0)) ∧ refuses (n = 0x803 ∧ v &&& ~~~0x03FF0FFFFFFFF000#64 ≠ 0) ∧
      refuses (n = 0x804 ∧ 2 ^ 20 ≤ v.toNat) ∧ refuses (n = 0x805 ∧ 2 ^ 32 ≤ v.toNat)
  )

/-- R79, R82: at user level the privileged words and the CSR accesses that R82 marks privileged fault PRIV with the word in
TVAL and do nothing else. -/
def Obligations.PrivilegedWordsFaultAtUserLevel : Prop :=
  ∀ (s : State) (d a b : BitVec 5) (n : BitVec 12), Unstopped s.core → s.core.csr.status.getLsbD 1 = false →
    let refused (i : Instr) : Prop := exec i s = faultsAtWord s 2 (((encode i).getD 0).setWidth 64) 0
    refused .eret ∧ refused .spill ∧ refused (.fill a) ∧ refused .halt ∧ refused (.tlbi a b) ∧
    (n.extractLsb' 10 2 = 2 → refused (.csrr d n)) ∧
    (n.extractLsb' 10 2 = 1 ∨ n.extractLsb' 10 2 = 2 →
      refused (.csrw d a n) ∧ refused (.csrs d a n) ∧ refused (.csrc d a n))

/-! ## Traps and returning from them -/

/-- R296, R298: what taking a trap saves, what the status and the banks become, where the splitter goes, and what stays. R301,
R313: in handler mode, or without a handler entry, a trap is a double fault: the core is free, its rings and queues are empty,
and its die counts one, once no M command is in progress, no WAPP has a fetch-and-add left and every Y command can be settled
(R142, R203, R313); until then the fault stands before every word. R300: a fault is taken at once where no earlier word is
unstarted; otherwise it waits, and of two the earlier stands; of a PAGE fault the walk has been made (R276). When a job has no
handler entry, and what a double fault ends, is log 20's. -/
def Obligations.TrapsSaveAndEnterOrEndTheRun : Prop :=
  (
    ∀ (s : State) (f : Flt) (ring : BitVec 3) (entry : Word), s.core.csr.status.getLsbD 3 = false →
      handlerEntry s = some entry →
      let c := s.core
      let t := takeTrap f ring s
      let c' := t.core
      let at_ : Word := if f.code = 13 then c.pc + 4 else if c.pfx.isSome then c.pc - 4 else c.pc
      c'.csr.cause = f.detail ++ BitVec.ofBool f.deferred ++ 0#4 ++ ring ++ f.code ∧
      c'.csr.tval = f.tval ∧
      c'.csr.epc = at_ &&& 0x0000FFFFFFFFFFFC#64 ∧
      c'.csr.status.getLsbD 0 = c.csr.status.getLsbD 0 ∧ c'.csr.status.getLsbD 1 = true ∧
      c'.csr.status.getLsbD 2 = c.csr.status.getLsbD 1 ∧ c'.csr.status.getLsbD 3 = true ∧
      c'.csr.status.getLsbD 4 = (if f.code = 12 then false else c.csr.status.getLsbD 4) ∧
      c'.pc = entry ∧ c'.pfx = none ∧ c'.pending = none ∧ BanksExchanged c c' ∧
      c'.user = c.user ∧ c'.trap = Rings.empty ∧ c'.v = c.v ∧ c'.tiles = c.tiles ∧ c'.flumes = c.flumes ∧ c'.p = c.p ∧
      c'.issued = none ∧ (c.issued = none → c'.tokens = c.tokens ∧ c'.csr.flags = c.csr.flags) ∧
      (∀ r, c.issued ≠ none → c.user.a.entries.head? = some r →
        let back := addToken (tokensOf .A r.pfx r.word).1 c
        c'.tokens = back.tokens ∧ c'.csr.flags = back.csr.flags) ∧
      c'.flight = c.flight ∧ c'.storeQ = c.storeQ ∧ c'.seq = c.seq ∧ c'.mcmd = c.mcmd ∧ c'.ycmds = c.ycmds ∧ t.mem = s.mem ∧
      c'.csr = { c.csr with
        cause := c'.csr.cause, tval := c'.csr.tval, epc := c'.csr.epc, status := c'.csr.status, flags := c'.csr.flags }
  ) ∧ (
    ∀ (s : State) (f : Flt) (ring : BitVec 3),
      (s.core.csr.status.getLsbD 3 = true ∨ handlerEntry s = none) →
      let waits : Bool := s.core.mcmd.isSome || s.core.append.isSome || s.core.ycmds.any (fun y => !y.settled)
      let t := takeTrap f ring s
      (waits = true → t = { s with core := { s.core with pending := some ⟨0, ring, f⟩ } }) ∧
      (waits = false → s.core.storeQ = [] → s.core.flight = [] → t.core.run = none ∧ t.core.user = Rings.empty ∧
        t.core.trap = Rings.empty ∧ t.core.bq = [] ∧
      t.core.flumes = Vector.replicate 8 [] ∧ t.core.mcmd = none ∧ t.core.ycmds = [] ∧ t.core.seq.running = false ∧
      t.core.records = [] ∧ t.mem = s.mem ∧
      sget 0 t.fleet.doubleFaults (s.cur / 256) = sget 0 s.fleet.doubleFaults (s.cur / 256) + 1)
  ) ∧ (
    ∀ (s : State) (ord : Nat) (ring : BitVec 3) (f : Flt),
      let done (k : Nat) : Prop := settledBefore s.core k = true ∧ accessesDone s.core = true
      let u := if f.code = 4 then walkFailed f.tval s else s
      (s.core.pending = none → done ord → raiseFault ord ring f s = takeTrap f ring u) ∧
      (s.core.pending = none → ¬done ord →
        raiseFault ord ring f s = { u with core := { u.core with pending := some ⟨ord, ring, f⟩ } }) ∧
      (∀ q, s.core.pending = some q → ¬done (min q.ord ord) →
        raiseFault ord ring f s =
          { u with core := { u.core with pending := some (if q.ord ≤ ord then q else ⟨ord, ring, f⟩) } }) ∧
      (∀ q, s.core.pending = some q → (∀ e, earlierMoves s q.ord ≠ some e) →
        (accessesDone s.core = true → haltWaits s = false → exec .trapTaken s = .next (takeTrap q.flt q.ring s)) ∧
        (accessesDone s.core = false ∨ haltWaits s = true → exec .trapTaken s = .next s))
  )

/-- R302: TRAP, in the LONG format with d zero, takes a trap of CODE 13 and RING 0 with its immediate, read unsigned, in TVAL; EPC is
its address plus 4. -/
def Obligations.TrapTakesItsTrap : Prop :=
  ∀ (s : State) (i : BitVec 18), Settled s [] →
    decode (0b101#3 ++ 0x20#6 ++ 0#5 ++ i) = .ok (.trap i) ∧
    exec (.trap i) s = faultsAtWord s 13 (unsignedImmediate s i) 0 ∧
    (settledBefore s.core s.core.ord = true → accessesDone s.core = true →
      exec (.trap i) s = .next (takeTrap ⟨13, unsignedImmediate s i, false, 0⟩ 0 s) ∧
      ∀ entry, s.core.csr.status.getLsbD 3 = false → handlerEntry s = some entry → ∃ t,
        exec (.trap i) s = .next t ∧ t.core.pc = entry ∧ t.core.csr.cause = 13 ∧ t.core.csr.tval = unsignedImmediate s i ∧
        t.core.csr.epc = (s.core.pc + 4) &&& 0x0000FFFFFFFFFFFC)

/-- R303: once the trap rings are quiet, ERET exchanges the banks, restores PRIV from PPRIV, leaves handler mode and goes to
EPC; with PPEND set it takes PREEMPT instead of starting a user word. -/
def Obligations.EretReturnsFromTheHandler : Prop :=
  ∀ (s : State), Settled s [] → s.core.csr.status.getLsbD 1 = true → s.core.filled = false →
    (∀ e ∈ engines, (s.core.trap.get e).entries = []) → (∀ m, s.core.mcmd = some m → m.trap = false) →
    (∀ y ∈ s.core.ycmds, y.trap = false) → accessesDone s.core = true →
    let c := s.core
    ∃ back : State,
      (c.csr.status.getLsbD 4 = false → exec .eret s = .next back) ∧
      (c.csr.status.getLsbD 4 = true → exec .eret s = .next (takeTrap ⟨12, 0, false, 0⟩ 5 back)) ∧
      back.core.pc = c.csr.epc ∧ back.core.pfx = none ∧ BanksExchanged c back.core ∧
      back.core.csr.status.getLsbD 0 = c.csr.status.getLsbD 0 ∧ back.core.csr.status.getLsbD 1 = c.csr.status.getLsbD 2 ∧
      back.core.csr.status.getLsbD 2 = c.csr.status.getLsbD 2 ∧ back.core.csr.status.getLsbD 3 = false ∧
      back.core.csr.status.getLsbD 4 = c.csr.status.getLsbD 4 ∧ back.core.trap = Rings.empty ∧
      (∀ e ∈ engines, (back.core.user.get e).rdp = (c.user.get e).rdp ∧ (back.core.user.get e).wrp = (c.user.get e).wrp) ∧
      back.core.v = c.v ∧ back.core.tiles = c.tiles ∧ back.core.seq = c.seq ∧ back.core.csr.cause = c.csr.cause ∧
      back.core.csr.tval = c.csr.tval ∧ back.mem = s.mem

/-- R311, R313: SPILL writes the image to the core's own save area and changes no other state of the machine (the note of the
image, which is the model's own, is log 69's); HALT, once no M command is in progress and every Y command can be settled, frees
the core: it has no run, its rings with their captured values, its flumes and BQ are empty, no nest runs and no command is in
progress; memory keeps its contents. That HALT lets a WAPP in progress finish is log 35's. R312: the checks of FILL, and what
the image replaces: here the registers, the flags and the trap registers, with GID and GSIZE kept. Vacant slots are free (log
6); what FILL checks field by field is log 23's, and what an image holds beyond the list of R309 and R310 is log 69's. -/
def Obligations.SpillAndFillMoveTheImage : Prop :=
  (
    ∀ (s : State), Settled s [] → s.core.csr.status.getLsbD 1 = true →
      let s1 := released s
      (spillReady s.core = true → exec .spill s = .next { s1 with
        mem := writeImage s1.mem (placeSave s1.cur 0) (imageChunks s1), notes := s1.notes ++ [spillNote s1.core]
        core := { s1.core with free := s1.core.free + 5000 } }) ∧
      (spillReady s.core = false → exec .spill s = .next s) ∧
      (let ready : Prop := s.core.mcmd = none ∧ s.core.append = none ∧ ∀ y ∈ s.core.ycmds, y.settled = true
       (ready → ∃ t, exec .halt s = .next t ∧ t = haltRun (passed s) ∧ t.core.run = none ∧ t.core.user = Rings.empty ∧
         t.core.trap = Rings.empty ∧ t.core.flumes = Vector.replicate 8 [] ∧ t.core.bq = [] ∧ t.core.seq.running = false ∧
         t.core.mcmd = none ∧ t.core.ycmds = [] ∧ (∀ st < 16, (runOf t.core st).kind = .none) ∧
         (s.core.storeQ = [] → s.core.flight = [] → t.mem = s.mem)) ∧
       (¬ready → exec .halt s = .next s))
  ) ∧ (
    ∀ (s : State) (a : BitVec 5) (r : RunInfo) (sl : Slot), Settled s [a] → s.core.csr.status.getLsbD 1 = true →
      spillReady s.core = true →
      let va := sreg s.core a
      let s1 := released s
      let rd (off n : Nat) : Nat := imageBytes s1 va off n
      (va.toNat % 128 ≠ 0 → exec (.fill a) s = faultsAtWord s 3 va 0) ∧
      (va.toNat % 128 = 0 → imageReadable s1 va = .ok () → s1.core.run = some r →
        imageSlot s1 r.job (rd 0x4CA40 8 / 2 ^ 16 % 2 ^ 6) = some sl →
        (¬(rd 0x4CA40 8 % 2 ^ 10 = r.job ∧ imageInRange rd = true) → exec (.fill a) s = faultsAtWord s 1 va 0) ∧
        (rd 0x4CA40 8 % 2 ^ 10 = r.job → imageInRange rd = true → ∃ t, exec (.fill a) s = .next t ∧
          (∀ i < 24, t.core.s[i]?.getD 0 = BitVec.ofNat 64 (rd (0x4C000 + 8 * i) 8) ∧
            t.core.a[i]?.getD 0 = BitVec.ofNat 64 (rd (0x4C100 + 8 * i) 8)) ∧
          (∀ n < 64, (t.core.v[n]?.getD VReg.zero) =
            ⟨BitVec.ofNat 2048 (rd (256 * n) 256), BitVec.ofNat 32 (rd (0x4C400 + 4 * n) 4)⟩) ∧
          t.core.csr.flags = BitVec.ofNat 8 (rd 0x4C580 8) ∧ t.core.csr.status = BitVec.ofNat 5 (rd 0x4C5A8 8) ∧
          t.core.csr.epc = BitVec.ofNat 64 (rd 0x4C5B0 8) ∧ t.core.csr.cause = BitVec.ofNat 32 (rd 0x4C5B8 8) ∧
          t.core.csr.tval = BitVec.ofNat 64 (rd 0x4C5C0 8) ∧ t.core.csr.gid = s1.core.csr.gid ∧
          t.core.csr.gsize = s1.core.csr.gsize ∧ t.core.records = [] ∧ t.core.barrier = none ∧
          t.core.pc = s.core.pc + 4 ∧ t.mem = s1.mem ∧
          (t.core.run.map (fun q => (q.job, q.d2, q.tabBase, q.tabLen)) =
            some (r.job, BitVec.ofNat 64 (rd 0x4CA48 8), sl.base, sl.len))))
  )

/-- R316 to R318: TLBI drops the job's translations of the range, LATINV reloads the lattice, ISYNC discards the cached words
and table entries; each once its waits are over. What each waits for beyond its stores is log 49's. R43: what each byte of the
lattice cache is loaded with. R277: the leaves and table pointers of one job that map a page of the range leave every core's cache
and every cluster's, and nothing else does. -/
def Obligations.MaintenanceWordsActOnTheCaches : Prop :=
  (
  ∀ (s : State) (a b : BitVec 5) (r : RunInfo), Settled s [a, b] → storesMade s.core = true → drainable s = true →
    (released s).core.run = some r →
    let s1 := released s
    let n := (sreg s.core b).toNat
    (s.core.csr.status.getLsbD 1 = true → n ≤ 2 ^ 20 → rangeBusy s1 r.job (sreg s1.core a) n = false →
      exec (.tlbi a b) s = .next (invalidate s1 r.job (sreg s1.core a) n)) ∧
    (s.core.csr.status.getLsbD 1 = true → 2 ^ 20 < n →
      exec (.tlbi a b) s = faultsAtWord s 1 (((encode (.tlbi a b)).getD 0).setWidth 64) 0) ∧
    (((activeRings s.core).get .X).entries = [] → exec .latinv s = .next (loadLattice s1)) ∧
    exec .isync s = .next { s1 with core := { s1.core with icache := [], fcache := [] } }
  ) ∧ (
    ∀ (s : State) (i : Nat), i < 1024 →
      let t := loadLattice s
      let va := s.core.csr.latb + BitVec.ofNat 64 (128 * (i / 128))
      let byte := t.core.lattice.extractLsb' (8 * i) 8
      t = { s with core := { s.core with lattice := t.core.lattice } } ∧
      (∀ e, checkedPage s .load va 1 = .error e → byte = 0x40) ∧
      (∀ p, checkedPage s .load va 1 = .ok p →
        let l := readLine s p va
        (tagVc l.tag = vcInvalid → byte = 0x40) ∧
        (tagVc l.tag ≠ vcInvalid → byte = l.data.extractLsb' (8 * (i % 128)) 8 ∧
          (isUninit (clearLine s (pageVersion s p) (p.place va)).tag = true → untaggedAt s (p.place va) = false → byte = 0)))
  ) ∧ (
    ∀ (s : State) (job n k : Nat) (va : Word), swf Core.idle s.parked = true → swf [] s.l2 = true → swf [] s.l2ptr = true →
      let t := invalidate s job va n
      let lo := va.toNat / 2 ^ 16 * 2 ^ 16
      let drops (j : Nat) (base : Word) (size : Nat) : Bool :=
        decide (j = job ∧ (n = 0 ∨ lo < base.toNat + size ∧ base.toNat < lo + n * 2 ^ 16))
      let kept (es : List TlbEntry) : List TlbEntry := es.filter (fun e => !drops e.job e.page.base e.page.size)
      coreOf t k = { coreOf s k with tlb := kept (coreOf s k).tlb } ∧ sget [] t.l2 k = kept (sget [] s.l2 k) ∧
      sget [] t.l2ptr k = (sget [] s.l2ptr k).filter (fun e => !drops e.job e.base (levelSize e.level)) ∧
      t = { s with core := t.core, parked := t.parked, l2 := t.l2, l2ptr := t.l2ptr }
  )

/-! ## Prefixes and words that are no instruction -/

/-- R74, R76, R100, R205: a prefix waits for the word after it where that word may follow, and is ILLEGAL, with its own bits in
TVAL, where it may not; SEQF and SEQL are ILLEGAL outside a capture, and within a block they let their word through in the
first, or the last, iteration of their levels. R100: in a block, the word after SEQF l is forwarded where every counter up to l
is 0, and the word after SEQL l where every counter up to l is at its last value; otherwise both words are passed over. R102:
while a nest runs at user level a prefix or such a word stands still. R78: a word that is no instruction is ILLEGAL at the
splitter with its bits in TVAL. That EXT is judged before an undecodable word after it is log 19's, that a failing fetch of that
word comes before the prefix's own ILLEGAL is log 68's. -/
def Obligations.PrefixesAndUndecodableWords : Prop :=
  (
    ∀ (s t : State) (p : Instr) (next : IWord), Unstopped s.core →
      (s.core.seq.running = false ∨ inTrap s.core = true) → fetchWord (s.core.pc + 4) s = .ok (next, t) →
      let w := (encode p).getD 0
      let stands : Prop := exec p s = .next { t with core := { t.core with pc := t.core.pc + 4, pfx := some w } }
      let illegal : Prop := exec p s = faultsAtWord t 1 (w.setWidth 64) 0
      let engine := next.extractLsb' 29 3
      (∀ n : BitVec 2, p = .dual n → n ≠ 0 →
        (engine = 2 → n.toNat ≤ t.core.csr.tmode.toNat → t.core.csr.features.getLsbD 0 = true → stands) ∧
        (engine = 3 → next.extractLsb' 23 6 = 2 → n = 1 → t.core.csr.features.getLsbD 0 = true → stands) ∧
        (engine = 2 → t.core.csr.tmode.toNat < n.toNat → illegal) ∧ (engine ≠ 2 → engine ≠ 3 → illegal)) ∧
      (∀ k r : BitVec 4, p = .tkn k r → (engine = 1 ∨ engine = 2 → stands) ∧ (¬(engine = 1 ∨ engine = 2) → illegal)) ∧
      (∀ e : BitVec 23, p = .ext e → (extendableCode next = true → stands) ∧ (extendableCode next = false → illegal)) ∧
      (∀ l : BitVec 3, p = .seqf l ∨ p = .seql l → illegal)
  ) ∧ (
    ∀ (s : State) (p : Instr), Unstopped s.core →
      (∃ (n : BitVec 2) (k r : BitVec 4) (e : BitVec 23) (l : BitVec 3), p ∈ [.dual n, .tkn k r, .ext e, .seqf l, .seql l]) →
      (s.core.seq.running = true → inTrap s.core = false → exec p s = .next s) ∧
      (∀ f, (s.core.seq.running = false ∨ inTrap s.core = true) → fetchWord (s.core.pc + 4) s = .error (.fault f) →
        exec p s = .next (raiseFault s.core.ord 0 f s))
  ) ∧ (
    ∀ (c : Core) (l : BitVec 3) (w : SeqWord) (rest : List SeqWord) (q : SeqWord), l.toNat ≤ 5 →
      c.seq.active.block.drop c.seq.p = q :: w :: rest →
      let index (m : Nat) : Nat := (c.seq.i[m]?.getD 0).toNat
      let count (m : Nat) : Nat := max 1 (c.seq.active.n[m]?.getD 0).toNat
      let follows (holds : Prop) : Prop :=
        (holds → nextWord c = .forward none w 2) ∧ (¬holds → nextWord c = .skip 2)
      (encode (.seqf l) = some q.word → follows (∀ m ≤ l.toNat, index m = 0)) ∧
      (encode (.seql l) = some q.word → follows (∀ m ≤ l.toNat, index m = count m - 1))
  ) ∧ (
    ∀ (s : State) (w : IWord), Unstopped s.core →
      let engine := w.extractLsb' 29 3
      let held : Prop := s.core.seq.running = true ∧ inTrap s.core = false ∧ engine ≠ 0 ∧ engine ≠ 5 ∧ engine ≠ 7
      (held → exec (.illegalWord w) s = .next s) ∧
      (¬held → exec (.illegalWord w) s = faultsAtWord s 1 (w.setWidth 64) 0)
  )

/-! ## A words -/

/-- R5, R7 to R9, R77: an engine word that nothing holds back passes through its ring in one step. In the state in which it
acts, the splitter stands past it, both pointers of its ring have moved by its slots, its ring is empty, and no register, tile,
flume or queue of the core has changed; of memory at most the ring area's bytes have. That it is one step is the model's choice
of schedule (log 16). -/
def Obligations.EngineWordsPassThroughTheirRing : Prop :=
  ∀ (s : State) (e : Engine) (i placed : Instr), EngineReady e i placed s → s.core.storeQ = [] →
    let t := acting e i placed s
    let slots : BitVec 11 := if s.core.pfx.isSome then 2 else 1
    let q := (activeRings s.core).get e
    let awaited := (tokensOf e s.core.pfx (wordOf placed)).1
    t.core.pc = s.core.pc + 4 ∧ t.core.pfx = none ∧ t.core.ord = s.core.ord + 1 ∧
    (activeRings t.core).get e = ⟨q.wrp + slots, q.rdp + slots, []⟩ ∧
    (∀ e', e' ≠ e → (activeRings t.core).get e' = (activeRings s.core).get e') ∧
    t.core.tokens = (if awaited = 0 then s.core.tokens
      else s.core.tokens.setIfInBounds awaited.toNat (s.core.tokens[awaited.toNat]?.getD 0 - 1)) ∧
    t = { s with
      mem := { s.mem with bytes := t.mem.bytes }
      core := { s.core with
        pc := t.core.pc, pfx := none, ord := t.core.ord, tokens := t.core.tokens, user := t.core.user,
        trap := t.core.trap, waits := s.core.waits.setIfInBounds (engineIndex e) Waiting.none
        reached := if e = .A then none else s.core.reached } } ∧
    (inTrap s.core = true → t.mem = s.mem) ∧
    (swf 0#8 s.mem.bytes = true → ∀ a, byteAt t.mem.bytes a ≠ byteAt s.mem.bytes a →
      placeScratch s.cur 0xBC000 ≤ a ∧ a < placeScratch s.cur 0xC0000)

/-- R119: address arithmetic on the 64-bit registers of the access processor; MOVSA takes the captured s register, MOVAS
delivers an address register. -/
def Obligations.AddressWordsWriteTheirResult : Prop :=
  ∀ (s : State) (d a b : BitVec 5) (i : BitVec 13) (n : BitVec 6),
    let x := areg s.core a
    let y := areg s.core b
    let writes (w : Instr) (v : Word) : Prop := EngineReady .A w w s → completesA w s (withA d v (actsA w s))
    writes (.adda d a b) (x + y) ∧
    writes (.suba d a b) (x - y) ∧
    writes (.addai d a i) (x + immediate s i) ∧
    writes (.shlai d a n) (BitVec.ofNat 64 (x.toNat * 2 ^ n.toNat)) ∧
    writes (.mulai d a i) (BitVec.ofInt 64 (x.toInt * (immediate s i).toInt)) ∧
    writes (.andai d a i) (x &&& immediate s i) ∧
    writes (.movsa d a) (sreg s.core a) ∧
    (EngineReady .A (.movas d a) (.movas d a) s →
      completesA (.movas d a) s (withS d x (actsA (.movas d a) s)))

/-- R120: LDS and LDA deliver the bytes at EA, extended; a line that is INVALID or poisoned faults at the load and changes
nothing else. R120, R116: STS and STA store the low bytes of their register at EA; an address that is not a multiple of the
size faults ALIGN with EA, for loads and stores alike. That a load returns every queued store of its core, and that a store acts at
once where nothing holds it back, are the model's choices (log 17). -/
def Obligations.ScalarLoadsAndStoresMoveTheBytes : Prop :=
  (
    ∀ (s u : State) (d b : BitVec 5) (z : BitVec 2) (zx : BitVec 1) (o : BitVec 10) (p : Page),
      let va := areg s.core b + immediate s o
      let t := settleOwn (p.place va) u
      let at_ (i : Instr) (n : Nat) (good : Prop) (bad : Flt → Prop) : Prop :=
        EngineReady .A i i s → streamReady (carriesA i s) 0 (actsA i s) = .ok () →
        reach (carriesA i s) 0 va .load va n (actsA i s) = .ok (p, u) →
        (loadFault (ownView t (p.place va)) p va n = none → good) ∧
        (∀ f, loadFault (ownView t (p.place va)) p va n = some f → bad f)
      let bytes (n : Nat) : Nat := bytesAt (ownView t (p.place va)) (pageVersion t p) (p.place va) n
      let n := 2 ^ z.toNat
      let v : Word := if zx = 1 then BitVec.ofNat 64 (bytes n) else (BitVec.ofNat (8 * n) (bytes n)).signExtend 64
      at_ (.lds d b z zx o) n (completesA (.lds d b z zx o) s (withS d v t)) (faultsA (.lds d b z zx o) s) ∧
      at_ (.lda d b o) 8 (completesA (.lda d b o) s (withA d (BitVec.ofNat 64 (bytes 8)) t)) (faultsA (.lda d b o) s)
  ) ∧ (
    ∀ (s : State) (d b : BitVec 5) (z : BitVec 2) (zx : BitVec 1) (o : BitVec 10) (p : Page),
      let va := areg s.core b + immediate s o
      let n := 2 ^ z.toNat
      let stores (i : Instr) (n : Nat) (v : Word) : Prop :=
        EngineReady .A i i s → streamReady (carriesA i s) 0 (actsA i s) = .ok () →
        checkLine (carriesA i s) va .store va n (actsA i s) = .ok p →
        let x := carriesA i s
        let u := touchPage p va (actsA i s)
        completesA i s (issueStores x 0 [⟨x.ord, 0, va, p, ptbJob s.core.csr.ptb, .bytes n v⟩] u) ∧
        (u.core.holdAccess = [] → u.core.storeQ = [] → u.core.holdStore = [] → lineHeld u (p.place va) = false →
          accessHeld u.core.flight x.ord x.trap 0 false = false → completesA i s (writeBytes u p va n v.toNat))
      let misaligned (i : Instr) (n : Nat) (k : AccessKind) : Prop :=
        EngineReady .A i i s → streamReady (carriesA i s) 0 (actsA i s) = .ok () →
        checkedPage (actsA i s) k va 1 = .ok p → va.toNat % n ≠ 0 → faultsA i s ⟨3, va, false, 0⟩
      stores (.sts d b z o) n (sreg s.core d) ∧ stores (.sta d b o) 8 (areg s.core d) ∧
      misaligned (.sts d b z o) n .store ∧ misaligned (.sta d b o) 8 .store ∧
      misaligned (.lds d b z zx o) n .load ∧ misaligned (.lda d b o) 8 .load
  )

/-- R121: LDF and LDFT deliver a full word, LDF leaves it empty; STE writes an empty word and leaves it full; each waits in its
ring, with nothing else changed, while the bit is not as it asks. R122: FESET sets the full/empty bits of its words and
nothing else; of no words it has no effect, whatever its address (log 72). -/
def Obligations.FullEmptyWordsActOnTheirBits : Prop :=
  (
    ∀ (s u : State) (d b : BitVec 5) (o : BitVec 10) (p : Page),
      let va := areg s.core b + immediate s o
      let pl := p.place va
      let at_ (i : Instr) (k : AccessKind) (t : State) (good : Prop) : Prop :=
        EngineReady .A i i s → streamReady (carriesA i s) 0 (actsA i s) = .ok () →
        checkLine (carriesA i s) va k va 8 (actsA i s) = .ok p → reach (carriesA i s) 0 va k va 8 t = .ok (p, u) → good
      let isFull : Bool := sget false u.mem.full (pl / 8)
      let t := leaveHome u
      let word : Word := BitVec.ofNat 64 (bytesAt t (pageVersion t p) pl 8)
      let stays (i : Instr) (full : Bool) : Prop := waitsAtHome i s [(va, p)] (pl, full)
      at_ (.ldf d b o) .core (actsA (.ldf d b o) s)
        ((isFull = true → firstAtHome u pl true = true → loadFault t p va 8 = none →
          completesA (.ldf d b o) s (withFull false pl (withS d word t))) ∧
        (isFull = false ∨ firstAtHome u pl true = false → stays (.ldf d b o) true)) ∧
      at_ (.ldft d b o) .core (actsA (.ldft d b o) s)
        ((isFull = true → firstAtHome u pl true = true → loadFault t p va 8 = none →
          completesA (.ldft d b o) s (withS d word t)) ∧
        (isFull = false ∨ firstAtHome u pl true = false → stays (.ldft d b o) true)) ∧
      (AccessesReleased (actsA (.ste d b o) s) s.core.ord →
        at_ (.ste d b o) .coreStore (drainStores (actsA (.ste d b o) s))
          ((isFull = false → firstAtHome u pl false = true → completesA (.ste d b o) s
            (withFull true pl (writeBytes t p va 8 (sreg s.core d).toNat))) ∧
          (isFull = true ∨ firstAtHome u pl false = false → stays (.ste d b o) false)))
  ) ∧ (
    ∀ (s : State) (a b c : BitVec 5) (parts : List (Nat × Nat)), c.toNat ≤ 1 →
      let i : Instr := .feset a b c
      let va := areg s.core a
      let n := (sreg s.core b).toNat
      EngineReady .A i i s → streamReady (carriesA i s) 0 (actsA i s) = .ok () →
      (n = 0 → completesA i s (actsA i s)) ∧
      (n ≠ 0 → va.toNat % 8 ≠ 0 → faultsA i s ⟨3, va, false, 0⟩) ∧
      (n ≠ 0 → va.toNat % 8 = 0 → corePages .core 8 true none (actsA i s) (n / 8192 + 2) va n = .ok parts →
        partsHeld (actsA i s) (carriesA i s) 8 parts = false →
        accessHeld (actsA i s).core.flight s.core.ord (inTrap s.core) 0 false = false →
        (c = 1 → AccessesReleased (actsA i s) s.core.ord) →
        let places := parts.flatMap (fun q => (List.range q.2).map (fun k => q.1 + 8 * k))
        let u := if c = 1 then drainStores (actsA i s) else actsA i s
        completesA i s (places.foldl (fun u at_ => withFull (c == 1) at_ u) u))
  )

/-- R136 to R138: an atomic reads the old value m at its home, delivers it, and writes the new value that its operation
gives. Signed 32-bit results are sign-extended; a 128-bit value takes a pair of registers. -/
def Obligations.AtomicsDeliverTheOldValue : Prop :=
  ∀ (s u : State) (d b c e : BitVec 5) (ty : BitVec 3) (p : Page) (m : Nat), ty.toNat ≤ 6 →
    (ty = 5 → s.core.csr.features.getLsbD 2 = true) →
    let va := areg s.core b
    let n := if ty.toNat < 3 then 4 else if ty = 6 then 16 else 8
    let w := 8 * n
    let operand (r : BitVec 5) : Nat :=
      if ty = 6 then (sreg s.core r).toNat + 2 ^ 64 * (sreg s.core (r + 1)).toNat else (sreg s.core r).toNat % 2 ^ w
    let x := operand c
    let y := operand e
    let delivered (t : State) : State :=
      if ty = 6 then withS (d + 1) (BitVec.ofNat 64 (m / 2 ^ 64)) (withS d (BitVec.ofNat 64 m) t)
      else withS d (if ty = 0 then (BitVec.ofNat 32 m).signExtend 64 else BitVec.ofNat 64 m) t
    let makes (i : Instr) (new : Nat) : Prop :=
      EngineReady .A i i s → streamReady (carriesA i s) 0 (actsA i s) = .ok () →
      reachHome (carriesA i s) 0 va .atomic va n (actsA i s) = .ok (p, u) → atomChecked u p va ty = .ok m →
      completesA i s (delivered (writeBytes u p va n new))
    let isInt := ty = 0 ∨ ty = 1 ∨ ty = 3 ∨ ty = 4
    let signed (v : Nat) : Int := (BitVec.ofNat w v).toInt
    let float (f : FloatFmt) : Prop :=
      makes (.aadd d b c ty) (toFloat f .rne false ((f.decode m).add false (f.decode x))).bits ∧
      makes (.amin d b c ty) (if (f.decode m).isNaN || (f.decode x).isNaN then f.nanCode
        else if numBelow (f.decode m) (f.decode x) then m else x) ∧
      makes (.amax d b c ty) (if (f.decode m).isNaN || (f.decode x).isNaN then f.nanCode
        else if numBelow (f.decode m) (f.decode x) then x else m)
    (isInt → makes (.aadd d b c ty) ((m + x) % 2 ^ w)) ∧
    ((ty = 0 ∨ ty = 3) → makes (.amin d b c ty) (if signed m ≤ signed x then m else x) ∧
      makes (.amax d b c ty) (if signed x ≤ signed m then m else x)) ∧
    ((ty = 1 ∨ ty = 4) → makes (.amin d b c ty) (min m x) ∧ makes (.amax d b c ty) (max m x)) ∧
    (isInt → makes (.aand d b c ty) (m &&& x) ∧ makes (.aor d b c ty) (m ||| x) ∧ makes (.axor d b c ty) (m ^^^ x)) ∧
    makes (.aswap d b c ty) x ∧ makes (.acas d b c e ty) (if m = x then y else m) ∧
    (ty = 2 → float FloatFmt.fp32) ∧ (ty = 5 → float FloatFmt.fp64)

/-- R139, R140: an ACONT whose checks pass compares; where it finds its operand it stores the new value and launches the
template's record with D3 the old value; where it does not, it changes nothing of the word; both deliver the old value. While
the launch queue is full it waits at the word's home, and so while another word waits at the template (log 45). R351: a template
that the slice cannot read stops the job, FCODE MEMORY. -/
def Obligations.AcontComparesAndLaunches : Prop :=
  ∀ (s u1 u2 u : State) (d b c e : BitVec 5) (ty : BitVec 3) (p : Page) (m d0 : Nat) (r : RunInfo),
    ty.toNat ≤ 5 → (ty = 5 → s.core.csr.features.getLsbD 2 = true) → s.core.csr.features.getLsbD 1 = true →
    let i : Instr := .acont d b c e ty
    let va := areg s.core b
    let tp := sreg s.core (e + 1)
    let n := if ty.toNat < 3 then 4 else 8
    let x := (sreg s.core c).toNat % 2 ^ (8 * n)
    let y := (sreg s.core e).toNat % 2 ^ (8 * n)
    let old : Word := if ty = 0 then (BitVec.ofNat 32 m).signExtend 64 else BitVec.ofNat 64 m
    EngineReady .A i i s → streamReady (carriesA i s) 0 (actsA i s) = .ok () → tp.toNat % 32 = 0 →
    consumeBytes (carriesA i s) tp 8 (actsA i s) = .ok (d0, u1) → contChecked (BitVec.ofNat 64 d0) u1 = .ok u2 →
    reachHome (carriesA i s) 0 va .atomic va n u2 = .ok (p, u) → atomChecked u p va ty = .ok m →
    (m ≠ x → completesA i s (withS d old (writeBytes u p va n m))) ∧
    (m = x → u.core.run = some r →
      let q := launchQueueOf p (p.place va)
      let t := unstall (writeBytes u p va n y)
      (launchRoom u q = true → templateHeld u r tp = false →
        (∀ g : Page, templatePage t r tp = some g →
          let v := bytesAt t (pageVersion t g) (g.place tp) 24
          let word (k : Nat) : Word := BitVec.ofNat 64 (v / 2 ^ (64 * k))
          completesA i s (withS d old (launchPush (noteAccess r.job g tp t) q ⟨word 0, word 1, word 2, old, 2, r.slot, r.job⟩))) ∧
        (templatePage t r tp = none → completesA i s (withS d old (memoryFailed t r.job tp (Entry.none r.job))))) ∧
      (launchRoom u q = false ∨ templateHeld u r tp = true →
        exec i s = .next (stall (keepHead .A [(va, p)] (inRing .A i i s).1 u) .acont va p q)))

/-- R135, R143 to R147: what each fence waits for and does; FENCESC stands at its ring's head until a heartbeat tick. R144,
R145: at a heartbeat tick HBT counts one, and a FENCESC at the head of the A ring of the core that runs completes, leaving its
ring, where its earlier accesses are performed. When an access counts as performed, and what a barrier in flight holds back, are
logs 17 and 38's. -/
def Obligations.FencesWaitForEarlierAccesses : Prop :=
  (
    ∀ (s : State) (c : BitVec 3) (a b : BitVec 5) (m : BitVec 2) (parts : List (Nat × Nat)), m.toNat ≤ 2 →
      let ready (i : Instr) (good : Prop) : Prop := EngineReady .A i i s → good
      let t (i : Instr) : State := actsA i s
      let m1 := (sreg s.core a).toNat % 2 ^ 16
      let n := (sreg s.core b).toNat
      let fenced (i : Instr) (b : Barrier) : Prop :=
        completesA i s (issueFlight ⟨s.core.ord, inTrap s.core, 0, 0, .barrier b⟩ (t i)) ∧
        (let u := if b.loadsOnly then t i else drainStores (t i)
         (t i).core.holdAccess = [] → barrierWaits (t i).core.flight s.core.ord (inTrap s.core) b (t i).core = false →
          storesWait s.core.ord b u.core = false → completesA i s u)
      ready (.sbar c a b) (sinkFault (t (.sbar c a b)).core m1 = none →
        (∀ st < 16, m1.testBit st = true → (runOf (t (.sbar c a b)).core st).kind = .sink →
          runHolds (t (.sbar c a b)).core s.core.ord st = false) →
        fenced (.sbar c a b) ⟨BitVec.ofNat 16 m1, false, (sreg s.core b).setWidth 16, false⟩) ∧
      ready (.fence c m) (sinkFault (t (.fence c m)).core 0xFFFF = none →
        (m = 0 ∨ earlierSinks (t (.fence c m)).core s.core.ord = false) →
        fenced (.fence c m) ⟨0xFFFF, m == 0, 0xFFFF, m == 1⟩) ∧
      ready .fencesc (sinkFault (t .fencesc).core 0xFFFF = none → exec .fencesc s = .next (inRing .A .fencesc .fencesc s).1) ∧
      ready .rcfence (earlierSinks (t .rcfence).core s.core.ord = false → storesFly s.core = false →
        drainable (t .rcfence) = true →
        completesA .rcfence s { drainStores (t .rcfence) with core := { (drainStores (t .rcfence)).core with records := [] } }) ∧
      ready (.ownwait a b) (streamReady (carriesA (.ownwait a b) s) 0 (t (.ownwait a b)) = .ok () →
        (n = 0 → completesA (.ownwait a b) s (t (.ownwait a b))) ∧
        (n ≠ 0 → corePages .core 1 false none (t (.ownwait a b)) (n / 65536 + 2) (areg s.core a) n = .ok parts →
          partsHeld (t (.ownwait a b)) (carriesA (.ownwait a b) s) 1 parts = false → completesA (.ownwait a b) s (t (.ownwait a b))))
  ) ∧ (
    ∀ (s : State) (r : RingEntry), s.parked = [] → s.core.run.isSome = true → s.core.storeQ = [] → s.core.pending = none →
      let q := (activeRings s.core).a
      q.entries = [r] → r.pfx = none → encode .fencesc = some r.word → sinkFault s.core 0xFFFF = none →
      earlierRuns s.core r.ord = false → accessesDone s.core = true →
      ∃ t, exec .heartbeatTick s = .next t ∧ t.hbt = s.hbt + 1 ∧ (activeRings t.core).a = ⟨q.wrp, q.rdp + 1, []⟩ ∧
        t.mem = s.mem ∧ t.core.s = s.core.s ∧ t.core.a = s.core.a ∧ t.core.v = s.core.v ∧ t.core.pc = s.core.pc
  ) ∧ (
    ∀ (before : List Flight) (ord st : Nat) (trap load : Bool),
      accessHeld before ord trap st load = true ↔ ∃ g ∈ before,
        (∃ b, g.work = .barrier b ∧ g.ord < ord ∧ g.trap = trap ∧ b.behind.getLsbD st = true ∧
          ¬(b.storesOnly = true ∧ load = true)) ∨
        (g.busy = true ∧ g.st = st)
  )

/-- R134: BIND and UNBIND change the bindings in split order, a BIND of what is bound is ILLEGAL at the splitter, and QSTAT
delivers the status of a flume. -/
def Obligations.BindingWordsAndQstat : Prop :=
  ∀ (s : State) (d : BitVec 5) (q v : BitVec 3),
    let name := 56 + v.toNat
    let bnd := s.core.bnd
    let binds (i : Instr) (new : Bindings) : Prop := EngineReady .A i i s →
      exec i s = .next { raising .A i s (actsA i s) with core := { (raising .A i s (actsA i s)).core with bnd := new } }
    ((∀ e ∈ bnd, e.1 ≠ name ∧ e.2 ≠ q) → binds (.bind q v) (bnd ++ [(name, q)])) ∧
    ((∃ e ∈ bnd, e.1 = name ∨ e.2 = q) → EngineReady .A (.bind q v) (.bind q v) s →
      exec (.bind q v) s = faultsAtWord s 1 ((wordOf (.bind q v)).setWidth 64) 0) ∧
    binds (.unbind v) (bnd.filter (fun e => e.1 ≠ name)) ∧
    (EngineReady .A (.qstat d q) (.qstat d q) s →
      let held := (s.core.flumes[q.toNat]?.getD []).length
      let left := ((List.range 16).map (fun st =>
        let r := s.core.runs[st]?.getD StreamRun.idle
        if r.kind ≠ .none ∧ (s.core.desc[st]?.getD 0).toNat % 8 = q.toNat then r.left.toNat else 0)).sum
      let bound : Nat := match bnd.find? (fun e => e.2 == q) with | some e => 8 + (e.1 - 56) | none => 0
      completesA (.qstat d q) s (withS d
        (BitVec.ofNat 64 (left % 2 ^ 32 * 2 ^ 32 + 16 / (1 + s.core.csr.tmode.toNat) * 2 ^ 16 + held * 2 ^ 8 + bound))
        (actsA (.qstat d q) s)))

/-- R131, R132: STRDEF reads a descriptor, STRGO and STRSINK start a run of s[N] steps, STRSTOP ends the stream's run and
delivers the steps issued; a descriptor that R132 refuses is ILLEGAL. R132, R133: the step of a generator or sink acts at the
step's address and counts; its fault stops the run, deferred; in handler mode none is issued. That STRGO and STRSINK of 0 steps
start nothing is log 36's, with other corners. The order in which accesses are applied is the model's choice of schedule, not R207's:
`pick` names the access among those that may be applied now, and 0 names the store that has waited longest where nothing else can
(logs 16, 17). -/
def Obligations.StreamsAreDefinedAndStep : Prop :=
  (
    ∀ (s u : State) (st : BitVec 4) (b n : BitVec 5) (v : Nat),
      let va := areg s.core b
      let ready (i : Instr) (good : Prop) : Prop := EngineReady .A i i s → good
      let t (i : Instr) : State := actsA i s
      let flume (i : Instr) : Nat := ((t i).core.desc[st.toNat]?.getD 0).toNat % 8
      let idle (i : Instr) : Prop := ((t i).core.runs[st.toNat]?.getD StreamRun.idle).kind = .none
      let runs (i : Instr) (kind : RunKind) : Prop :=
        sinkFault (t i).core (2 ^ st.toNat) = none → idle i →
        let run : StreamRun := ⟨kind, va, 0, sreg s.core n, s.core.ord, none, 0, none⟩
        (sreg s.core n = 0 → completesA i s (t i)) ∧
        (sreg s.core n ≠ 0 → completesA i s
          { t i with core := { (t i).core with runs := (t i).core.runs.setIfInBounds st.toNat run } })
      ready (.strdef st b) (streamReady (carriesA (.strdef st b) s) st.toNat (t (.strdef st b)) = .ok () →
        streamReady (carriesA (.strdef st b) s) 0 (t (.strdef st b)) = .ok () →
        consumeBytes (carriesA (.strdef st b) s) va 32 (t (.strdef st b)) = .ok (v, u) →
        (descRefused (BitVec.ofNat 256 v) = false → completesA (.strdef st b) s
          { u with core := { u.core with desc := u.core.desc.setIfInBounds st.toNat (BitVec.ofNat 256 v) } }) ∧
        (descRefused (BitVec.ofNat 256 v) = true → faultsA (.strdef st b) s ⟨1, areg u.core b, false, 0⟩)) ∧
      ready (.strgo st b n) (flume (.strgo st b n) ≤ 5 → runs (.strgo st b n) .generator) ∧
      ready (.strsink st b n) (6 ≤ flume (.strsink st b n) → runs (.strsink st b n) .sink) ∧
      ready (.strstop st n) (sinkFault (t (.strstop st n)).core (2 ^ st.toNat) = none →
        let r := (t (.strstop st n)).core.runs[st.toNat]?.getD StreamRun.idle
        let ended : StreamRun := { r with kind := .none, left := 0, flt := none }
        completesA (.strstop st n) s (withS n r.issued { t (.strstop st n) with core := { (t (.strstop st n)).core with
          runs := (t (.strstop st n)).core.runs.setIfInBounds st.toNat ended } }))
  ) ∧ (
    ∀ (s u : State) (st : BitVec 4) (f : Flt) (w : QueuedStore) (rest : List QueuedStore),
      let r := s.core.runs[st.toNat]?.getD StreamRun.idle
      let d := s.core.desc[st.toNat]?.getD 0
      let va := stepVa d r.base r.next.toNat
      let later : StreamRun := { r with
        next := r.next + 1, left := r.left - 1, issued := r.issued + 1, reached := none
        kind := if r.left = 1 then .none else r.kind }
      let halted : StreamRun := { r with flt := some { f with deferred := true } }
      let counted (v : State) : State := { v with core := { v.core with runs := v.core.runs.setIfInBounds st.toNat later } }
      let stopped : State := { s with core := { s.core with runs := s.core.runs.setIfInBounds st.toNat halted } }
      (inTrap s.core = false → r.left ≠ 0 → r.flt = none →
        (r.kind = .generator → issueLoad st.toNat (stepCtx r) d va s = .ok u → exec (.generatorStep st) s = .next (counted u)) ∧
        (r.kind = .sink → issueStore st.toNat (stepCtx r) d va s = .ok u → exec (.sinkStep st) s = .next (counted u)) ∧
        (r.kind = .generator → issueLoad st.toNat (stepCtx r) d va s = .error (.fault f) →
          exec (.generatorStep st) s = .next stopped) ∧
        (r.kind = .sink → issueStore st.toNat (stepCtx r) d va s = .error (.fault f) →
          exec (.sinkStep st) s = .next stopped)) ∧
      (inTrap s.core = true → exec (.generatorStep st) s = .next s ∧ exec (.sinkStep st) s = .next s) ∧
      (∀ p, (flyingParts s)[s.pick]? = some p → exec .accessApplied s = .next (performPart p s)) ∧
      (s.pick = 0 → flyingParts s = [] → matrixParts s = [] → copyPartsOf s = [] → s.core.storeQ = w :: rest →
        storeHeld s w = false → exec .accessApplied s = .next (applyWrite { s with core := { s.core with storeQ := rest } } w))
  )

/-! ## X words -/

/-- R159 to R161, R169, R62 to R66, R42, R148, R152 to R158: an arithmetic word computes each active lane exactly from exact
operands and rounds once to the compute format, a transcendental word as R62 to R66 give it; its tangents are the exact tangent
rule of the word (R159), rounded once, with LN2 the tangent format's value nearest ln 2 (R158). A real operand of VCMULJ is log
28's, the clamp of a scale exponent at 5000 log 29's. -/
def Obligations.VectorArithmeticComputesEachLane : Prop :=
  ∀ (s : State) (d a b : BitVec 6) (m e : BitVec 5),
    let r := physReg s.core.csr.rrb
    let computes (i : Instr) (ns : List (BitVec 6)) (ok : Nat → Bool) (val : Lane → Conv) (tan : TanLane → Elt) : Prop :=
      XReady i s → ∀ (rs : List Src) (spoiled lossy : Bool) (f : Nat), Reads i ns s rs spoiled →
      computeFormat (carriesX i s) (actsX i s).core rs = .ok (f, lossy) → ok f = true →
      let c := (actsX i s).core
      let g : Gov := ⟨laneCount f rs, predOf c (m.extractLsb' 0 4).toNat, m.getLsbD 4⟩
      let lane (L : Nat) : Lane :=
        ⟨f, plainMode c, isInt f && rs.all (fun q => isInt q.fmt), !isComplex (srcOf rs 0).fmt, !isComplex (srcOf rs 1).fmt,
          srcElt (srcOf rs 0) L, srcElt (srcOf rs 1) L, srcElt (srcOf rs 2) L⟩
      let out (L : Nat) : Conv := val (lane L)
      let on := (List.range (regCount f)).filter g.active
      let tangent (t L : Nat) : Nat :=
        if isInt f = true ∨ dualCount (carriesX i s) c ≤ t then 0
        else tanBits (tangentFmt f) (tan ⟨lane L, decodeElem f (out L).bits, tanElt (srcOf rs 0) t L, tanElt (srcOf rs 1) t L,
          tanElt (srcOf rs 2) t L⟩)
      Delivers i ns (r d) s (actsX i s) ⟨plainTag f, g, spoiled, lossy || on.any (fun L => (out L).spoiled),
        convFlags (on.map out), fun L => (out L).bits, tangent⟩
    let exact (v : Lane → Elt) (factors addends : Lane → List Elt) (l : Lane) : Conv :=
      l.round (v l) (exactFlags (v l) (factors l) (addends l))
    let neg (p : Bool) (x : Elt) : Elt := if p then eltNeg x else x
    let fused (p q : Bool) : Lane → Conv :=
      exact (fun l => eltAdd l.down (eltMul l.cx l.down (neg p l.a) l.b) (neg q l.c)) (fun l => [l.a, l.b]) (fun l => [l.c])
    let least (big : Bool) (l : Lane) : Conv :=
      let v := l.round (if choosesB big l.a.re l.b.re then l.b else l.a) 0
      ⟨v.bits, 0, v.spoiled⟩
    let lesser (big : Bool) (t : TanLane) : Elt := if choosesB big t.l.a.re t.l.b.re then t.db else t.da
    let conj (l : Lane) : Elt := if l.rb then l.b else eltConj l.b
    let mul := Machine.Num.mul
    let ln2 (t : TanLane) : Machine.Num :=
      if tangentFmt t.l.f = kFP64 then FloatFmt.fp64.decode 0x3FE62E42FEFA39EF else FloatFmt.fp32.decode 0x3F317218
    let other (w : Transc) (t : TanLane) : Machine.Num := (floatOf t.l.f).decode (laneTransc w t.l).bits
    let transc (i : Instr) (w : Transc) (tan : (a r da : Machine.Num) → TanLane → Machine.Num) : Prop :=
      computes i [r a] floatFmtOf (laneTransc w) (fun t => Elt.real (tan t.l.a.re t.r.re t.da.re t))
    computes (.vadd d a b m) [r a, r b] anyFmt (exact (fun l => eltAdd l.down l.a l.b) (fun _ => []) (fun l => [l.a, l.b]))
      (fun t => eltAdd false t.da t.db) ∧
    computes (.vsub d a b m) [r a, r b] anyFmt
      (exact (fun l => eltAdd l.down l.a (eltNeg l.b)) (fun _ => []) (fun l => [l.a, l.b]))
      (fun t => eltAdd false t.da (eltNeg t.db)) ∧
    computes (.vmul d a b m) [r a, r b] anyFmt (exact (fun l => eltMul l.cx l.down l.a l.b) (fun l => [l.a, l.b]) (fun _ => []))
      (fun t => eltAdd false (t.mul t.da t.l.b) (t.mul t.l.a t.db)) ∧
    computes (.vfma d a b m) [r a, r b, r d] anyFmt (fused false false)
      (fun t => eltAdd false (eltAdd false (t.mul t.da t.l.b) (t.mul t.l.a t.db)) t.dc) ∧
    computes (.vfms d a b m) [r a, r b, r d] anyFmt (fused false true)
      (fun t => eltAdd false (eltAdd false (t.mul t.da t.l.b) (t.mul t.l.a t.db)) (eltNeg t.dc)) ∧
    computes (.vfnma d a b m) [r a, r b, r d] anyFmt (fused true false)
      (fun t => eltAdd false t.dc (eltNeg (eltAdd false (t.mul t.da t.l.b) (t.mul t.l.a t.db)))) ∧
    computes (.vmin d a b m) [r a, r b] realFmt (least false) (lesser false) ∧
    computes (.vmax d a b m) [r a, r b] realFmt (least true) (lesser true) ∧
    computes (.vabs d a m) [r a] realFmt (fun l => l.round ⟨l.a.re.abs, Machine.Num.zero⟩ 0)
      (fun t => if t.l.a.re.sign then eltNeg t.da else t.da) ∧
    computes (.vneg d a m) [r a] anyFmt (fun l => l.round (eltNeg l.a) 0) (fun t => eltNeg t.da) ∧
    computes (.vconj d a m) [r a] floatOrComplex (fun l => l.round (if l.ra then l.a else eltConj l.a) 0)
      (fun t => if t.l.ra then t.da else eltConj t.da) ∧
    computes (.vcmulj d a b m) [r a, r b] floatOrComplex
      (exact (fun l => eltMul l.cx l.down l.a (conj l)) (fun l => [l.a, l.b]) (fun _ => []))
      (fun t => eltAdd false (t.mul t.da (conj t.l)) (t.mul t.l.a (if t.l.rb then t.db else eltConj t.db))) ∧
    computes (.vdiv d a b m) [r a, r b] anyFmt laneDiv
      (fun t => eltDiv t.l.cx (eltAdd false t.da (eltNeg (t.mul t.r t.db))) t.l.b) ∧
    computes (.vsqrt d a m) [r a] floatFmtOf (exact (fun l => Elt.real l.a.re.sqrt) (fun _ => []) (fun l => [l.a]))
      (fun t => eltDiv false t.da (eltScaleBy (Machine.Num.ofNat 2) t.r)) ∧
    transc (.vrcp d a m) .rcp (fun _ r da _ => (mul (mul r r) da).neg) ∧
    transc (.vrsq d a m) .rsq (fun _ r da _ => (mul (mul (mul r r) r) da).neg.scale (-1)) ∧
    transc (.vexp2 d a m) .exp2 (fun _ r da t => mul (mul (ln2 t) r) da) ∧
    transc (.vlog2 d a m) .log2 (fun x _ da t => Machine.Num.div da (mul (ln2 t) x)) ∧
    transc (.vsin d a m) .sin (fun _ _ da t => mul (other .cos t) da) ∧
    transc (.vcos d a m) .cos (fun _ _ da t => (mul (other .sin t) da).neg) ∧
    transc (.vtanh d a m) .tanh (fun _ r da _ => mul (Machine.Num.sub false Machine.Num.one (mul r r)) da) ∧
    computes (.vscale d a e m) [r a] (fun f => !isInt f)
      (fun l => l.round (l.a.scale (max (-5000) (min 5000 (sreg s.core e).toInt))) 0)
      (fun t => t.da.scale (max (-5000) (min 5000 (sreg s.core e).toInt)))

/-- R47, R159 to R161: a lane whose operands and compute format are integers is the integer result modulo 2^w, with no flag but
DIVZERO; a quotient is truncated toward zero, and division by zero gives all ones. R45, R46, R48, R58: the exact operations
of finite values are those of the rational numbers, and a rounding answers one of the two integers next to a ratio: the one
that its mode names, with whether it changed the value. R159, R161: a float quotient is the exact one rounded once, a complex
one component by component. R62 to R66: the special lines of the transcendental words with their flags; their results in FP32,
FP16 and BF16 by the reference algorithms, whose every operation is rounded to FP32, and those of VRCP and VRSQ in FP64 as the
exact value rounded. Of VEXP2, VLOG2, VSIN, VCOS and VTANH in FP64 only the special lines are said here. -/
def Obligations.LanesWrapOrRound : Prop :=
  (
    ∀ (l : Lane) (p q c : Nat), isInt l.f = true → l.allInt = true →
      let w := elemBits l.f
      p < 2 ^ w → q < 2 ^ w → c < 2 ^ w →
      l.a = decodeElem l.f p → l.b = decodeElem l.f q → l.c = decodeElem l.f c →
      let value (k : Nat) : Int := if isSignedInt l.f = true ∧ 2 ^ (w - 1) ≤ k then (k : Int) - 2 ^ w else k
      let gives (r : Conv) (v : Int) (fl : Flags) : Prop := (r.bits : Int) = v % 2 ^ w ∧ r.flags = fl ∧ r.spoiled = false
      gives (laneAdd l) (value p + value q) 0 ∧
      gives (laneSub l) (value p - value q) 0 ∧
      gives (laneMul l) (value p * value q) 0 ∧
      gives (laneFma false false l) (value p * value q + value c) 0 ∧
      gives (laneFma false true l) (value p * value q - value c) 0 ∧
      gives (laneFma true false l) (value c - value p * value q) 0 ∧
      gives (laneMinMax false l) (min (value p) (value q)) 0 ∧
      gives (laneMinMax true l) (max (value p) (value q)) 0 ∧
      (q ≠ 0 → gives (laneDiv l) ((value p).tdiv (value q)) 0) ∧
      (q = 0 → gives (laneDiv l) (2 ^ w - 1) 0x02)
  ) ∧ (
    let value (s : Bool) (n d : Nat) : ℚ := (if s then -1 else 1) * n / d
    let is_ (x : Machine.Num) (v : ℚ) : Prop := ∃ s n d, x = .fin s n d ∧ d ≠ 0 ∧ value s n d = v
    (∀ (down s t : Bool) (n1 d1 n2 d2 : Nat), d1 ≠ 0 → d2 ≠ 0 →
      let x : Machine.Num := .fin s n1 d1
      let y : Machine.Num := .fin t n2 d2
      let v := value s n1 d1
      let u := value t n2 d2
      is_ (Machine.Num.add down x y) (v + u) ∧ is_ (Machine.Num.sub down x y) (v - u) ∧ is_ (Machine.Num.mul x y) (v * u) ∧
      (n2 ≠ 0 → is_ (Machine.Num.div x y) (v / u)) ∧ (∀ e : Int, is_ (x.scale e) (v * 2 ^ e)) ∧
      (x.cmp y < 0 ↔ v < u) ∧ (x.cmp y = 0 ↔ v = u)) ∧
    (∀ (s1 s2 t1 t2 : Bool) (n1 d1 n2 d2 m1 e1 m2 e2 : Nat), d1 ≠ 0 → d2 ≠ 0 → e1 ≠ 0 → e2 ≠ 0 → m1 ≠ 0 ∨ m2 ≠ 0 →
      let q := eltDiv true ⟨.fin s1 n1 d1, .fin s2 n2 d2⟩ ⟨.fin t1 m1 e1, .fin t2 m2 e2⟩
      let v1 := value s1 n1 d1
      let v2 := value s2 n2 d2
      let u1 := value t1 m1 e1
      let u2 := value t2 m2 e2
      is_ q.re ((v1 * u1 + v2 * u2) / (u1 ^ 2 + u2 ^ 2)) ∧ is_ q.im ((v2 * u1 - v1 * u2) / (u1 ^ 2 + u2 ^ 2))) ∧
    (∀ (s : Bool) (n d : Nat), n ≠ 0 → d ≠ 0 →
      let (e, m) := split (.fin s n d)
      ∃ v : ℚ, is_ m v ∧ 1 ≤ v ∧ v < 2 ∧ v * 2 ^ e = (n : ℚ) / d) ∧
    (∀ (mode : RMode) (neg : Bool) (n d : Nat) (e : Int), d ≠ 0 →
      let v : ℚ := (n : ℚ) / d * 2 ^ (-e)
      let k := (roundInt mode neg n d e).1
      let low := Nat.floor v
      (k = low ∨ (k = low + 1 ∧ (low : ℚ) ≠ v)) ∧ ((roundInt mode neg n d e).2 = true ↔ (low : ℚ) ≠ v) ∧
      (mode = .rtz → k = low) ∧
      (mode = .rdn → k = if neg then Nat.ceil v else low) ∧
      (mode = .rup → k = if neg then low else Nat.ceil v) ∧
      (mode = .rne → |(k : ℚ) - v| ≤ 1 / 2 ∧ (|(k : ℚ) - v| = 1 / 2 → k % 2 = 0)) ∧
      (∀ w : BitVec 16, mode = .sr w →
        (k = low + 1 ↔ 2 ^ 16 ≤ Nat.floor ((v - low) * 2 ^ 16) + w.toNat)))
  ) ∧ (
    ∀ (l : Lane) (ff : FloatFmt), l.allInt = false →
      let a := l.a.re
      let b := l.b.re
      let v := eltDiv l.cx l.a l.b
      (kindOf l.f = .float ff → v = Elt.real (Machine.Num.div a b) ∧ (laneDiv l).bits = (toFloat ff l.mode false v.re).bits ∧
        ((laneDiv l).flags.getLsbD 1 = true ↔ b.isZero = true ∧ a.isFin = true ∧ a.isZero = false)) ∧
      (kindOf l.f = .complex ff →
        (laneDiv l).bits = (pairConv ff (toFloat ff l.mode false v.re) (toFloat ff l.mode false v.im)).bits)
  ) ∧ (
    ∀ (l : Lane), l.f = 0x09 ∨ l.f = 0x0A ∨ l.f = 0x0B ∨ l.f = 0x0C →
      let x := l.a.re
      let ff := floatOf l.f
      let gives (w : Transc) (v : Machine.Num) : Prop := (laneTransc w l).bits = (toFloat ff .rne false v).bits
      let line (w : Transc) (v : Machine.Num) (fl : Flags) : Prop := gives w v ∧ (laneTransc w l).flags = fl
      let nan : Machine.Num := .nan false
      let zero (s : Bool) : Machine.Num := .fin s 0 1
      let below := x.sign = true ∧ x.isNaN = false ∧ x.isZero = false
      (x.isNaN = true → ∀ w, line w nan 0) ∧
      (x = .inf true → line .exp2 (zero false) 0) ∧ (x = .inf false → line .exp2 (.inf false) 0) ∧
      (below → line .log2 nan 0x01 ∧ line .rsq nan 0x01) ∧
      (x.isZero = true → line .log2 (.inf true) 0x02 ∧ line .rsq (.inf x.sign) 0x02 ∧ line .rcp (.inf x.sign) 0x02 ∧
        line .sin x 0 ∧ line .cos Machine.Num.one 0 ∧ line .tanh x 0) ∧
      (x = .inf false → line .log2 (.inf false) 0 ∧ line .rsq (zero false) 0) ∧
      (x.isInf = true → line .sin nan 0x01 ∧ line .cos nan 0x01 ∧ line .rcp (zero x.sign) 0) ∧
      (l.f = 0x09 → x.isFin = true → x.isZero = false →
        gives .rcp (Machine.Num.div Machine.Num.one x) ∧
        (x.sign = false → gives .rsq (Machine.Num.div Machine.Num.one x).sqrt)) ∧
      (l.f ≠ 0x09 → x.isFin = true → x.isZero = false →
        let rd (v : Machine.Num) : Machine.Num := FloatFmt.fp32.decode (toFloat FloatFmt.fp32 .rne false v).bits
        let dec (n k : Nat) : Machine.Num := rd (.fin false n (10 ^ k))
        let one := Machine.Num.one
        let add (u v : Machine.Num) := rd (Machine.Num.add false u v)
        let sub (u v : Machine.Num) := rd (Machine.Num.sub false u v)
        let mul (u v : Machine.Num) := rd (Machine.Num.mul u v)
        let div (u v : Machine.Num) := rd (Machine.Num.div u v)
        let fma (u v w : Machine.Num) := rd (Machine.Num.add false (Machine.Num.mul u v) w)
        let poly (s p : Machine.Num) (cs : List Machine.Num) := cs.foldl (fun p c => fma p s c) p
        let exp2 (z : Machine.Num) : Machine.Num :=
          let n := nearestInt z
          let f := Machine.Num.sub false z (Machine.Num.ofInt n)
          rd ((poly f (dec 152527338 13) [dec 154035313 12, dec 133335581 11, dec 961812911 11, dec 555041087 10,
            dec 240226507 9, dec 693147182 9, one]).scale n)
        let signed (v : Machine.Num) : Machine.Num := if x.sign then v.neg else v
        let split2 := if 0 < (split x).2.cmp (dec 141421356 8) then ((split x).1 + 1, (split x).2.scale (-1)) else split x
        let odd := if (split x).1 % 2 = 0 then split x else ((split x).1 - 1, (split x).2.scale 1)
        (0 ≤ x.cmp (Machine.Num.ofNat 128) → line .exp2 (.inf false) 0x14) ∧
        (x.cmp (Machine.Num.ofInt (-150)) < 0 → gives .exp2 (zero false) ∧ (laneTransc .exp2 l).flags = 0x18) ∧
        (x.cmp (Machine.Num.ofNat 128) < 0 → 0 ≤ x.cmp (Machine.Num.ofInt (-150)) → gives .exp2 (exp2 x)) ∧
        (x.sign = false →
          (let t := div (sub split2.2 one) (add split2.2 one)
           gives .log2 (add (Machine.Num.ofInt split2.1) (mul (poly (mul t t) (dec 320598898 9)
            [dec 412198583 9, dec 577078016 9, dec 961796694 9, dec 288539008 8]) t))) ∧
          (let step (y : Machine.Num) := fma y (fma (mul (dec 5 1) odd.2).neg (mul y y) (dec 5 1)) y
           gives .rsq (rd ((step (step (step (step (step (sub (dec 125 2) (mul (dec 1875 4) odd.2))))))).scale (-odd.1 / 2))))) ∧
        (let step (y : Machine.Num) := fma y (fma (split x).2.neg y one) y
         gives .rcp (signed (rd ((step (step (step (sub (dec 282352941 8) (mul (dec 188235294 8) (split x).2))))).scale
          (-(split x).1))))) ∧
        (x.abs.cmp (.fin false 1 4) < 0 → gives .tanh (fma (poly (mul x x) (dec 886323552 11).neg
          [dec 218694885 10, (dec 539682540 10).neg, dec 133333333 9, (dec 333333333 9).neg]) (mul (mul x x) x) x)) ∧
        (let z := mul x.abs (dec 288539008 8)
         0 ≤ x.abs.cmp (.fin false 1 4) →
          (0 ≤ z.cmp (Machine.Num.ofNat 128) → line .tanh (signed one) 0x10) ∧
          (z.cmp (Machine.Num.ofNat 128) < 0 → gives .tanh (signed (sub one (div (Machine.Num.ofNat 2) (add (exp2 z) one)))))) ∧
        (let y := mul x (dec 636619772 9)
         y.isInf = false →
          let k := nearestInt y
          let turn (c r : Machine.Num) := fma (Machine.Num.ofInt (-k)) c r
          let r := turn ph3.v (turn ph2.v (turn (dec 15703125 7) x))
          let s := mul r r
          let sn := fma (poly s (dec 275573192 14) [(dec 198412698 12).neg, dec 833333333 11, (dec 166666667 9).neg]) (mul s r) r
          let cn := fma (poly s (dec 275573192 15).neg
            [dec 248015873 13, (dec 138888889 11).neg, dec 416666667 10, (dec 5 1).neg]) s one
          gives .sin ([sn, cn, sn.neg, cn.neg].getD (k % 4).toNat one) ∧
          gives .cos ([cn, sn.neg, cn.neg, sn].getD (k % 4).toNat one)))
  )

/-- R162: the integer and bitwise words compute on the stored bits in va's format; the formats that a word refuses fault TYPE.
That the fault of operands which disagree carries vb's tag is log 19's. -/
def Obligations.BitwiseWordsComputeOnStoredBits : Prop :=
  ∀ (s : State) (d a b : BitVec 6) (m : BitVec 5) (rs : List Src) (spoiled : Bool),
    let r := physReg s.core.csr.rrb
    let va := srcOf rs 0
    let vb := srcOf rs 1
    let f := va.fmt
    let w := elemBits f
    let computes (i : Instr) (ns : List (BitVec 6)) (refused : Option Tag) (op : Nat → Nat → Nat) : Prop :=
      XReady i s → Reads i ns s rs spoiled →
      (∀ t, refused = some t → faultsX i s ⟨5, t.setWidth 64, false, 0⟩) ∧
      (refused = none → Delivers i ns (r d) s (actsX i s)
        ⟨validTag va.tag, ⟨regCount f, predOf (actsX i s).core (m.extractLsb' 0 4).toNat, m.getLsbD 4⟩, spoiled, false, 0,
          fun L => op (laneBits f va.reg.data L) (laneBits vb.fmt vb.reg.data L), fun _ _ => 0⟩)
    let agree : Option Tag :=
      if tagFmt va.tag = tagFmt vb.tag ∧ tagLse va.tag = tagLse vb.tag ∧ tagSub va.tag = tagSub vb.tag then none else some vb.tag
    let shifts : Option Tag :=
      if isInt f = false then some va.tag else if isInt vb.fmt = false ∨ vb.count ≠ va.count then some vb.tag else none
    let counts : Option Tag := if isInt f = true ∨ f = 0 then none else some va.tag
    let arithmetic (x n : Nat) : Nat :=
      if isSignedInt f then ((BitVec.ofNat w x).sshiftRight n).toNat else (BitVec.ofNat w x >>> n).toNat
    computes (.vand d a b m) [r a, r b] agree (fun x y => x &&& y) ∧
    computes (.vor d a b m) [r a, r b] agree (fun x y => x ||| y) ∧
    computes (.vxor d a b m) [r a, r b] agree (fun x y => x ^^^ y) ∧
    computes (.vnot d a m) [r a] none (fun x _ => (~~~ BitVec.ofNat w x).toNat) ∧
    computes (.vshl d a b m) [r a, r b] shifts (fun x n => (BitVec.ofNat w x <<< n).toNat) ∧
    computes (.vshr d a b m) [r a, r b] shifts arithmetic ∧
    computes (.vclz d a m) [r a] counts (fun x _ => (List.range w).countP (fun k => x < 2 ^ (w - 1 - k))) ∧
    computes (.vpopc d a m) [r a] counts (fun x _ => (List.range w).countP (fun k => x.testBit k))

/-- R163 to R165, R155, R171, R179: compares, selects, the words on predicates, and the words that push the branch queue,
which wait while it holds 16 entries. -/
def Obligations.PredicatesAreComparedCombinedAndQueued : Prop :=
  ∀ (s : State) (c : BitVec 3) (d p q k : BitVec 4) (v a b : BitVec 6) (x : BitVec 5) (rs : List Src) (spoiled : Bool),
    let r := physReg s.core.csr.rrb
    let va := srcOf rs 0
    let vb := srcOf rs 1
    let pr (i : Instr) (n : BitVec 4) : BitVec 64 := predOf (actsX i s).core n.toNat
    let from_ (i : Instr) (n : BitVec 4) : Tag := (actsX i s).core.ptag[n.toNat]?.getD 0
    let both (i : Instr) : BitVec 64 := pr i p &&& pr i q
    let ones (w : BitVec 64) : Nat := (List.range 64).countP (fun L => w.getLsbD L)
    let sets (i : Instr) (f : Nat → Bool) (t : Tag) : Prop :=
      XReady i s → ∃ w, Mask f w ∧ completesX i s (withPred d w t (actsX i s))
    let queues (i : Instr) (t : Tag) (f : Bool) (n : Nat) (u : State) : Prop :=
      XReady i s →
      (u.core.bq.length < 16 → completesX i s { u with core := { u.core with
        bq := u.core.bq ++ [BitVec.ofNat 64 (t.toNat * 2 ^ 32 + (if f then 2 ^ 31 else 0) + n)] } }) ∧
      (16 ≤ u.core.bq.length → exec i s = .next (inRing .X i (placedX i s) s).1)
    let cmp : Instr := .vcmp c d a b q
    (∀ f lossy, XReady cmp s → Reads cmp [r a, r b] s rs spoiled →
      computeFormat (carriesX cmp s) (actsX cmp s).core rs = .ok (f, lossy) →
      (isComplex f = true → c = 0 ∨ c = 1 ∨ c = 6 ∨ c = 7) →
      let on (L : Nat) : Bool := decide (L < laneCount f rs) && (pr cmp q).getLsbD L
      let truth (L : Nat) : Bool :=
        let x := srcElt va L
        let y := srcElt vb L
        let cx := isComplex f
        let un := (x.re.isNaN || y.re.isNaN || (cx && (x.im.isNaN || y.im.isNaN))) && !(isInt f && decide (6 ≤ c.toNat))
        let eq := !un && decide (x.re.cmp y.re = 0) && (!cx || decide (x.im.cmp y.im = 0))
        let lt := !un && decide (x.re.cmp y.re < 0)
        let gt := !un && decide (0 < x.re.cmp y.re)
        [eq, !eq, lt, lt || eq, gt, gt || eq, un, !un].getD c.toNat false
      ∃ w, Mask (fun L => on L && truth L) w ∧
        completesX cmp s (withPred d w va.tag (popSources (carriesX cmp s) [r a, r b] (actsX cmp s)))) ∧
    (
      let i : Instr := .vsel v a b q
      XReady i s → Reads i [r a, r b] s rs spoiled → tagsAgree va.tag vb.tag = true →
      let pick (L : Nat) : Src := if (pr i q).getLsbD L then va else vb
      Delivers i [r a, r b] (r v) s (actsX i s) ⟨validTag va.tag, ⟨va.count, BitVec.allOnes 64, false⟩, spoiled, false, 0,
        fun L => laneBits va.fmt (pick L).reg.data L,
        fun t L => if t < dualCount (carriesX i s) (actsX i s).core
          then laneBits (tangentFmt va.fmt) ((pick L).tans.getD t 0) L else 0⟩) ∧
    sets (.pand d p q) (fun L => (both (.pand d p q)).getLsbD L) (from_ (.pand d p q) p) ∧
    sets (.por d p q) (fun L => (pr (.por d p q) p).getLsbD L || (pr (.por d p q) q).getLsbD L) (from_ (.por d p q) p) ∧
    sets (.pxor d p q) (fun L => (pr (.pxor d p q) p).getLsbD L ^^ (pr (.pxor d p q) q).getLsbD L) (from_ (.pxor d p q) p) ∧
    sets (.pnot d p) (fun L => !(pr (.pnot d p) p).getLsbD L) (from_ (.pnot d p) p) ∧
    sets (.ptail d x) (fun L => decide (L < (sreg s.core x).toNat)) 0x007F0000 ∧
    sets (.pcnt d p q) (fun L => decide (L < ones (both (.pcnt d p q)))) (from_ (.pcnt d p q) p) ∧
    sets (.pfirst d p q) (fun L => (both (.pfirst d p q)).getLsbD L &&
      (List.range L).all (fun j => !(both (.pfirst d p q)).getLsbD j)) (from_ (.pfirst d p q) p) ∧
    (readAllV (carriesX (.vtagq a) s) [r a] (actsX (.vtagq a) s) = .ok rs →
      queues (.vtagq a) va.tag (va.tag.extractLsb' 25 2 == 0) va.count
        (popSources (carriesX (.vtagq a) s) [r a] (actsX (.vtagq a) s))) ∧
    (k.toNat ≤ 2 →
      let i : Instr := .vbq k p q
      let n := ones (both i)
      queues i (from_ i p) (if k = 0 then decide (0 < n) else if k = 1 then decide (n = ones (pr i q)) else decide (n = 0)) n
        (actsX i s))

/-- R53 to R58, R166 to R168, R170: VCVT and VQNT convert each active lane with the rounding of the field RM, RMODE where it
is 7; the generators advance once when it is SR, with the random value of an imaginary part that log 28 reads; VQNT chooses the
scale over the active lanes. VCVTH converts half of a
register, or into half of one. VTAG writes va's bits under the tag in s[b]. -/
def Obligations.ConversionWordsConvertEachLane : Prop :=
  ∀ (s : State) (d a : BitVec 6) (f : BitVec 5) (rm : BitVec 3) (n h : BitVec 1) (p : BitVec 2) (m b : BitVec 5) (va : Src)
    (spoiled : Bool),
    let r := physReg s.core.csr.rrb
    let dst := f.toNat
    let nd := regCount dst
    let lanes (t : Nat) : Nat → Nat → Nat := fun u L =>
      if isInt dst = true ∨ t ≤ u then 0 else tanBits (tangentFmt dst) (tanElt va u L)
    let convert (quant : Bool) (i : Instr) : Prop :=
      XReady i s → Reads i [r a] s [va] spoiled →
      (convForbidden va.fmt dst = true → faultsX i s ⟨5, va.tag.setWidth 64, false, 0⟩) ∧
      (convForbidden va.fmt dst = false →
        let c := (actsX i s).core
        let sel := roundSel (if rm = 7 then c.csr.rmode.toNat else rm.toNat)
        let g : Gov := ⟨min va.count nd, predOf c p.toNat, quant⟩
        let x0 := advance c.gens.x0
        let x1 := advance c.gens.x1
        let u : State := if sel = .sr then
          { actsX i s with core := { (actsX i s).core with gens := { (actsX i s).core.gens with x0 := x0, x1 := x1 } } }
          else actsX i s
        let k : Nat × List Nat := if quant = true ∧ isScaled dst = true
          then chooseScale dst 8 ((List.range 64).map (fun L => if g.active L then (srcElt va L).re else Machine.Num.zero))
          else (127, List.replicate 8 0)
        let scale (L : Nat) : Int := if isScaled dst then (k.1 : Int) - 127 - k.2.getD (L / 8) 0 else 0
        let random (e : Nat) : RMode := sel.withBits (srBits (if e < 32 then x0 else x1) e)
        let out (L : Nat) : Conv :=
          convElem dst (random L) (sel.withBits (srBits (if L + nd < 32 then x0 else x1) (L + nd))) (n == 1) (isInt va.fmt)
            (scale L) (srcElt va L)
        let on := (List.range nd).filter g.active
        Delivers i [r a] (r d) s u ⟨mkTag dst 0 false k.1 (mkSub k.2), g, spoiled, on.any (fun L => (out L).spoiled),
          convFlags (on.map out), fun L => (out L).bits, lanes (dualCount (carriesX i s) c)⟩)
    convert false (.vcvt d a f rm n p) ∧ convert true (.vqnt d a f rm n p) ∧
    (
      let i : Instr := .vcvth d a f h m
      let c := (actsX i s).core
      let x := carriesX i s
      let pr := predOf c (m.extractLsb' 0 4).toNat
      let z := m.getLsbD 4
      let mode : RMode := (roundSel c.csr.rmode.toNat).plain
      let out (k : Nat) : Conv := convElem dst mode mode false (isInt va.fmt) 0 (srcElt va k)
      let tan := lanes (dualCount x c)
      XReady i s → Reads i [r a] s [va] spoiled → convForbidden va.fmt dst = false →
      (2 * nd = va.count →
        let from_ (L : Nat) : Nat := va.count / 2 * h.toNat + L
        let g : Gov := ⟨nd, pr, z⟩
        let on := ((List.range nd).filter g.active).map (fun L => out (from_ L))
        Delivers i [r a] (r d) s (actsX i s) ⟨plainTag dst, g, spoiled, convSpoils on, convFlags on,
          fun L => (out (from_ L)).bits, fun t L => tan t (from_ L)⟩) ∧
      (nd = 2 * va.count → ∀ old osp, oldReg x (r d) true (plainTag dst) (actsX i s) = .ok (some old, osp) →
        Writable x (r d) (popSources x [r a] (actsX i s)) →
        let inHalf (L : Nat) : Bool := decide (va.count * h.toNat ≤ L ∧ L < va.count * h.toNat + va.count)
        let on (L : Nat) : Bool := inHalf L && pr.getLsbD L
        let outs := ((List.range nd).filter on).map (fun L => out (L - va.count * h.toNat))
        let merged (fm : Nat) (o : RegBits) (new : Nat → Nat) (v : RegBits) : Prop := ∀ L < nd, laneBits fm v L =
          if on L then new (L - va.count * h.toNat) % 2 ^ elemBits fm else if inHalf L && z then 0 else laneBits fm o L
        ∃ data ts, merged dst old.reg.data (fun k => (out k).bits) data ∧ ts.length = c.csr.tmode.toNat ∧
          (∀ t < ts.length, merged (tangentFmt dst) (old.tans.getD t 0) (tan t) (ts.getD t 0)) ∧
          completesX i s (withFlags (convFlags outs ||| (if convSpoils outs then 0x20 else 0))
            (written x (r d) ⟨data, spoilTag (plainTag dst) (spoiled || osp || convSpoils outs)⟩ ts
              (popSources x [r a] (actsX i s))))) ∧
      (2 * nd ≠ va.count → nd ≠ 2 * va.count → faultsX i s ⟨5, va.tag.setWidth 64, false, 0⟩)) ∧
    (
      let i : Instr := .vtag d a b
      let x := carriesX i s
      let t : Tag := (sreg s.core b).setWidth 32
      let refused : Bool := tagMalformed t || t.getLsbD 24 || decide (tagVc t = 2)
      let keep := regCount (tagFmt t) = va.count ∧ tangentFmt (tagFmt t) = tangentFmt va.fmt
      XReady i s → readAllV x [r a] (actsX i s) = .ok [va] → Writable x (r d) (popSources x [r a] (actsX i s)) →
      (refused = false → ∃ data, (∀ L < regCount (tagFmt t), laneBits (tagFmt t) data L = laneBits (tagFmt t) va.reg.data L) ∧
        completesX i s (written x (r d) ⟨data, t⟩ (if keep then va.tans.take (dualCount x (actsX i s).core) else [])
          (popSources x [r a] (actsX i s)))) ∧
      (refused = true → ∃ ts, completesX i s (written x (r d) ⟨va.reg.data, malformedTag t⟩ ts
        (popSources x [r a] (actsX i s)))))

/-- R172 to R175: reductions and scans, permutes, broadcast, count and move. A lane that no element reaches is zero, an index
past the source sets RANGE. Corners of VRGATH and of a sum with a NaN are logs 30 and 31. -/
def Obligations.ReductionsAndMovesPlaceEachLane : Prop :=
  ∀ (s : State) (d a b k e : BitVec 6) (f m x : BitVec 5) (p : BitVec 4) (rs : List Src) (spoiled : Bool),
    let r := physReg s.core.csr.rrb
    let va := srcOf rs 0
    let ix := srcOf rs 1
    let n := va.count
    let c (i : Instr) : Core := (actsX i s).core
    let gov (i : Instr) (n : Nat) : Gov := ⟨n, predOf (c i) (m.extractLsb' 0 4).toNat, m.getLsbD 4⟩
    let reduce (i : Instr) (scan : Bool) (pr : BitVec 64) (z : Bool) : Prop :=
      XReady i s → Reads i [r a] s rs spoiled → ∀ f lossy, computeFormat (carriesX i s) (c i) rs = .ok (f, lossy) →
      rs = [va] → redAllowed e.toNat f = true →
      let w := regCount f
      let g : Gov := ⟨laneCount f rs, pr, z⟩
      let upTo (L : Nat) : List Nat := (List.range w).filter (fun j => g.active j && decide (j ≤ L))
      let reached (L : Nat) : List Nat := if scan then upTo L else upTo (w - 1)
      let out (L : Nat) : Conv := reduceLanes f e.toNat (plainMode (c i)) (isInt f && isInt va.fmt) (srcElt va) (reached L)
      let where_ := if scan then (List.range w).filter g.active else [0]
      Delivers i [r a] (r d) s (actsX i s)
        ⟨plainTag f, if scan then g else ⟨w, BitVec.allOnes 64, true⟩, spoiled, lossy || where_.any (fun L => (out L).spoiled),
          convFlags (where_.map out), fun L => if scan = true ∨ L = 0 then (out L).bits else 0,
          fun t L => if isInt f = true ∨ dualCount (carriesX i s) (c i) ≤ t ∨ (scan = false ∧ L ≠ 0) then 0
            else tanBits (tangentFmt f) (reduceTan e.toNat (srcElt va) (tanElt va t) (reached L))⟩
    let moves (i : Instr) (ns : List (BitVec 6)) (mixed : Bool) (fmt lse : Nat) (range : Bool)
        (pick : Nat → Option (Src × Nat)) : Prop :=
      let g := gov i n
      let on (L : Nat) : Option (Src × Nat) := if g.active L then pick L else none
      Delivers i ns (r d) s (actsX i s)
        ⟨if mixed then mkInvalid fmt 3 else movedTag fmt lse (regCount fmt) (fun L => (on L).map (fun q => (q.1.tag, q.2))), g,
          spoiled, false, if range then 0x40 else 0,
          fun L => match on L with | some (q, j) => laneBits fmt q.reg.data j | none => 0,
          fun t L => if dualCount (carriesX i s) (c i) ≤ t then 0 else match on L with
            | some (q, j) => laneBits (tangentFmt fmt) (q.tans.getD t 0) j | none => 0⟩
    let index (L : Nat) : Nat := laneBits 6 ix.reg.data L
    let indexed (q : Src) : Prop := q.fmt = 5 ∨ q.fmt = 6
    let reaches (i : Instr) (bound : Nat) : Bool := (List.range n).any (fun L => (gov i n).active L && decide (bound ≤ index L))
    let plain (i : Instr) (fmt : Nat) (g : Gov) (lane : Nat → Nat) : Prop :=
      XReady i s → Delivers i [] (r d) s (actsX i s) ⟨plainTag fmt, g, false, false, 0, lane, fun _ _ => 0⟩
    reduce (.vred d a e p) false (predOf (c (.vred d a e p)) p.toNat) true ∧
    reduce (.vscan d a e m) true (predOf (c (.vscan d a e m)) (m.extractLsb' 0 4).toNat) (m.getLsbD 4) ∧
    (
      let i : Instr := .vperm d a b m
      XReady i s → Reads i [r a, r b] s rs spoiled → indexed ix →
      moves i [r a, r b] false va.fmt (tagLse va.tag) (reaches i n) (fun L => if index L < n then some (va, index L) else none)) ∧
    (
      let i : Instr := .vslide d a k m
      XReady i s → Reads i [r a] s rs spoiled → rs = [va] →
      moves i [r a] false va.fmt (tagLse va.tag) false (fun L => if L + k.toNat < n then some (va, L + k.toNat) else none)) ∧
    (
      let i : Instr := .vrgath d a b m
      let reached := (List.range 8).filter (fun j => (List.range n).any (fun L => (gov i n).active L && decide (index L / n = j)))
      XReady i s → readAllV (carriesX i s) [r a, r b] (actsX i s) = .ok rs → indexed ix →
      ∀ qs : List Src, readAllV (carriesX i s) (reached.map (gatherName (r a))) (actsX i s) = .ok qs →
        consume (c i) (qs ++ [ix]) = .ok spoiled →
        let ref := qs.headD va
        let mixed : Bool := qs.any (fun q => decide (q.fmt ≠ ref.fmt ∨ tagLse q.tag ≠ tagLse ref.tag))
        moves i [r b] mixed ref.fmt (tagLse ref.tag) (reaches i (8 * n)) (fun L => if mixed then none else
          ((reached.zip qs).find? (fun q => q.1 == index L / n)).map (fun q => (q.2, index L % n)))) ∧
    plain (.vbcast d f x m) f.toNat (gov (.vbcast d f x m) (regCount f.toNat)) (fun _ => (sreg s.core x).toNat) ∧
    plain (.viota d p) 5 ⟨64, BitVec.allOnes 64, false⟩
      (fun L => (List.range L).countP (fun j => (predOf (c (.viota d p)) p.toNat).getLsbD j)) ∧
    (
      let i : Instr := .vmov d a m
      XReady i s → readAllV (carriesX i s) [r a] (actsX i s) = .ok [va] →
      Delivers i [r a] (r d) s (actsX i s) ⟨va.tag, gov i n, false, false, 0, fun L => laneBits va.fmt va.reg.data L,
        fun t L => if dualCount (carriesX i s) (c i) ≤ t then 0
          else laneBits (tangentFmt va.fmt) (va.tans.getD t 0) L⟩)

/-- R176, R177: VPART packs the lanes of each key 0 to 3 into four entries, VAPPEND its active lanes into one; both are ILLEGAL
without an output flume. VTGET reads a shadow as a register, VTSET writes one, VTZERO clears one, or all for t = 0; a t above
TMODE is ILLEGAL. Corners are log 31's. -/
def Obligations.PartitionsAndTangentWordsWriteTheirLanes : Prop :=
  ∀ (s : State) (d a b : BitVec 6) (p : BitVec 4) (t : BitVec 2) (m : BitVec 5) (rs : List Src) (spoiled : Bool),
    let r := physReg s.core.csr.rrb
    let va := srcOf rs 0
    let n := va.count
    let c (i : Instr) : Core := (actsX i s).core
    let x (i : Instr) : Ctx := carriesX i s
    let illegal (i : Instr) : Prop := faultsX i s ⟨1, (wordOf (placedX i s)).setWidth 64, false, 0⟩
    let tf := tangentFmt va.fmt
    let packed (i : Instr) (ls : List Nat) (e : FlumeEntry) : Prop :=
      e.count = some ls.length ∧ e.poison = false ∧ e.tag = spoilTag (validTag va.tag) spoiled ∧
      (∀ k < n, laneBits va.fmt e.data k = (ls[k]?.map (laneBits va.fmt va.reg.data)).getD 0) ∧
      e.tangents.length = (c i).csr.tmode.toNat ∧
      (∀ u < e.tangents.length, ∀ k < n,
        laneBits tf (e.tangents.getD u 0) k = (ls[k]?.map (laneBits tf (va.tans.getD u 0))).getD 0)
    let appends (i : Instr) (ns : List (BitVec 6)) (lists : List (List Nat)) (range : Bool) : Prop := ∀ q : BitVec 3,
      bindingOf (x i).bnd (r d).toNat = some q → 6 ≤ q.toNat →
      TakesEntries (x i) q.toNat lists.length (popSources (x i) ns (actsX i s)) →
      ∃ es, List.Forall₂ (packed i) lists es ∧
        completesX i s (withFlags (if range then 0x40 else 0) (pushFlume q.toNat es (popSources (x i) ns (actsX i s))))
    let plain : Prop := isScaled va.fmt = true → tagLse va.tag = 127 ∧ tagSub va.tag = 0
    (
      let i : Instr := .vpart d a b p
      let key (L : Nat) : Nat := laneBits 6 (srcOf rs 1).reg.data L
      let active := (List.range n).filter (fun L => (predOf (c i) p.toNat).getLsbD L)
      XReady i s → (bindingOf (x i).bnd (r d).toNat = none → illegal i) ∧
      (Reads i [r a, r b] s rs spoiled → plain → (srcOf rs 1).fmt = 5 ∨ (srcOf rs 1).fmt = 6 →
        appends i [r a, r b] ((List.range 4).map (fun k => active.filter (fun L => key L == k)))
          (active.any (fun L => decide (3 < key L))))) ∧
    (
      let i : Instr := .vappend d a p
      XReady i s → (bindingOf (x i).bnd (r d).toNat = none → illegal i) ∧
      (Reads i [r a] s rs spoiled → plain →
        appends i [r a] [(List.range n).filter (fun L => (predOf (c i) p.toNat).getLsbD L)] false)) ∧
    (
      let i : Instr := .vtget d a t m
      let g : Gov := ⟨n, predOf (c i) (m.extractLsb' 0 4).toNat, m.getLsbD 4⟩
      XReady i s → t ≠ 0 → ((c i).csr.tmode.toNat < t.toNat → illegal i) ∧
      (t.toNat ≤ (c i).csr.tmode.toNat → Reads i [r a] s rs spoiled → ∀ old osp,
        oldReg (x i) (r d) g.readsOld (tangentTag va.fmt) (actsX i s) = .ok (old, osp) →
        Writable (x i) (r d) (popSources (x i) [r a] (actsX i s)) →
        ∃ data, Governed g tf (old.map (·.reg.data)) (laneBits tf (va.tans.getD (t.toNat - 1) 0)) data ∧
          completesX i s (written (x i) (r d) ⟨data, spoilTag (tangentTag va.fmt) (spoiled || osp)⟩ []
            (popSources (x i) [r a] (actsX i s))))) ∧
    (
      let i : Instr := .vtset d a t m
      let f := tagFmt ((c i).v[(r d).toNat]?.getD VReg.zero).tag
      let on (L : Nat) : Bool := (predOf (c i) (m.extractLsb' 0 4).toNat).getLsbD L
      XReady i s → t ≠ 0 → ((c i).csr.tmode.toNat < t.toNat → illegal i) ∧
      (t.toNat ≤ (c i).csr.tmode.toNat → Reads i [r a] s rs spoiled →
        (va.fmt ≠ tangentFmt f ∨ va.count ≠ regCount f → faultsX i s ⟨5, va.tag.setWidth 64, false, 0⟩) ∧
        (va.fmt = tangentFmt f → va.count = regCount f → (lockedFor (c i) (x i).ord).contains (r d).toNat = false →
        ∃ data, (∀ L < regCount f, laneBits (tangentFmt f) data L = if on L then laneBits va.fmt va.reg.data L
            else if m.getLsbD 4 then 0 else laneBits (tangentFmt f) (shadow (c i) t.toNat (r d).toNat) L) ∧
          completesX i s ((popSources (x i) [r a] (actsX i s)).onCore (setShadow t.toNat (r d).toNat data))))) ∧
    (
      let i : Instr := .vtzero d t p
      let f := tagFmt ((c i).v[(r d).toNat]?.getD VReg.zero).tag
      let ts := if t = 0 then (List.range (c i).csr.tmode.toNat).map (· + 1) else [t.toNat]
      XReady i s → ((c i).csr.tmode.toNat < t.toNat → illegal i) ∧
      (t.toNat ≤ (c i).csr.tmode.toNat → (lockedFor (c i) (x i).ord).contains (r d).toNat = false →
        ∃ data : Nat → RegBits, (∀ u ∈ ts, ∀ L < regCount f, laneBits (tangentFmt f) (data u) L =
            if (predOf (c i) p.toNat).getLsbD L then 0 else laneBits (tangentFmt f) (shadow (c i) u (r d).toNat) L) ∧
          completesX i s ((actsX i s).onCore (fun k => ts.foldl (fun k u => setShadow u (r d).toNat (data u) k) k))))

/-! ## Vector loads and stores -/

/-- R38, R117, R118, R123, R124, R127 to R130: a vector load is issued once its lines have been checked; it reads them, takes 64
elements from element 64 × EG, or fewer from two lines, and pushes the register with its tangents; a pair pushes two; a gather
takes each active lane's element. Where nothing holds it back it pushes them at once. Corners of loads from two lines and of
gathers, and the tag of a gather without an active lane, are log 33's; the lanes of an INVALID gather are log 65's; reading a
line at a time is log 17's. -/
def Obligations.VectorLoadsPushRegisters : Prop :=
  (
    ∀ (s u : State) (q e j : BitVec 3) (b : BitVec 5) (st : BitVec 4) (o : BitVec 8) (es : List FlumeEntry) (past : Bool)
      (ps : List (Word × Page)),
      let va := areg s.core b + 128 * immediate s o
      let base := areg s.core b
      let n := st.toNat
      let ready (i : Instr) (good : Prop) : Prop :=
        EngineReady .A i i s → streamReady (carriesA i s) n (actsA i s) = .ok () → good
      let loads (i : Instr) (r : Reading) (check : State → Word → Word → Chk Page) (t : State) (same : Prop) : Prop :=
        loadOver (checkReader check) (fun a => (rawTag, a)) s.core.csr.tmode.toNat r (t, []) = .ok (es, past, (u, ps)) →
        completesA i s (issueFlight
          ⟨s.core.ord, inTrap s.core, n, 0, .load { r with todo := ps, job := ptbJob s.core.csr.ptb }⟩ u) ∧
        (AtOnce u → same → completesA i s (pushFlume q.toNat es (withFlags (if past then 0x40 else 0) u)))
      let register (i : Instr) (pair : Bool) (check : State → Word → Word → Chk Page) : Prop := ready i (
        flumeRoom (actsA i s).core q.toNat (if pair then 2 else 1) 0 = true →
        loads i (readingOf (actsA i s).core n q.toNat (.reg e.toNat pair) va false) check (actsA i s) True)
      let straight (i : Instr) (ea : Word) (t : State) (start va : Word) : Chk Page :=
        checkFrom (carriesA i s) ea start .load va 128 t
      register (.vld q b st e o) false (straight (.vld q b st e o) va) ∧
      register (.vldp q b st e o) true (straight (.vldp q b st e o) va) ∧
      register (.vldc q b st e o) false (fun t _ va' => chainedLine (carriesA (.vldc q b st e o) s) va va' t) ∧
      (EngineReady .A (.pref j b st o) (.pref j b st o) s → completesA (.pref j b st o) s (actsA (.pref j b st o) s)) ∧
      (
        let i : Instr := .vldx q b st j
        let t := actsA i s
        ready i (∀ (ix : FlumeEntry) (rest : List FlumeEntry),
          gatherBase base = .ok () → flumeOf t.core j.toNat = ix :: rest → indexChecked t.core ix = .ok () →
          flumeRoom t.core q.toNat 1 0 = true →
          let (c, m) := gatherCount t ix base
          loads i (readingOf t.core n q.toNat (.gather ix c m) base false) (straight i base) (t.onCore (setFlume j.toNat rest))
            (targets ix base c m ≠ [])))
  ) ∧ (
    ∀ (s : State) (i j : Nat) (f : Flight) (r : Reading) (va : Word) (p : Page), s.core.flight[i]? = some f → f.work = .load r →
      (r.todo[j]? = some (va, p) →
        let (l, t) := readNow p va s
        let read : Reading := { r with todo := r.todo.eraseIdx j, got := r.got ++ [(va, l)] }
        performPart (.read i j) s =
          { t with core := { t.core with flight := t.core.flight.set i { f with work := .load read } } }) ∧
      (r.todo = [] →
        let t := deliver r s
        performPart (.finish i) s = { t with core := addToken f.raise { t.core with flight := t.core.flight.eraseIdx i } }) ∧
      (∀ es past k, loadOver (gotReader r.got) (fun k => (Config.lateTag k, k + 1)) s.core.csr.tmode.toNat r s.core.free =
          .ok (es, past, k) →
        deliver r s = pushFlume r.flume es (withFlags (if past then 0x40 else 0) { s with core := { s.core with free := k } }))
  ) ∧ (
    ∀ (s u1 u2 u3 u4 : State) (rd : LineReader State) (base va : Word) (eg : Nat) (l m : Line), rd base va s = .ok (l, u1) →
      (64 ≤ tagCount l.tag →
        let f := tagFmt l.tag
        let past := tagCount l.tag ≤ 64 * eg
        ∃ data, loadReg rd base va eg s = .ok (⟨⟨data, if tagVc l.tag = 3 then l.tag else
            formRegTag (mkTag f (tagVc l.tag) false (tagLse l.tag) (mkSub ((List.range 8).map (fun g =>
              let sub := (64 * eg + 8 * g) / (tagCount l.tag / 8)
              if sub < 8 then tagDec l.tag sub else 0))))⟩, gather2 l.tag, va, 64 * eg, decide past⟩, u1) ∧
          (regCount f = 64 → ∀ L < 64, laneBits f data L = if past then 0 else lineElemBits f l.data (64 * eg + L))) ∧
      (tagCount l.tag < 64 → rd base (va + 128) u1 = .ok (m, u2) →
        ∃ tag, loadReg rd base va eg s = .ok (⟨⟨if eg = 0 then m.data ++ l.data else 0, tag⟩, gather2 l.tag, va, 64 * eg,
            decide (eg ≠ 0)⟩, u2) ∧
          (tagVc l.tag ≠ 3 → tagVc m.tag ≠ 3 → tag = if tagFmt l.tag = tagFmt m.tag ∧ tagVc l.tag = tagVc m.tag then l.tag
            else mkInvalid (tagFmt l.tag) 3)) ∧
      (∀ (T : Nat) (r : Reading) (x y : Loaded) (ts ts' : List RegBits), r.va = va → loadReg rd va va eg s = .ok (x, u4) →
        let second : Word × Nat := if 4 ≤ x.g2 then (va, eg + 1) else if x.g2 = 2 then (va + 128, eg) else (va + 256, eg)
        (r.kind = .reg eg false → allTangents rd r.toff [x] r.tangents u4 = .ok ([ts], u3) →
          loadOver rd (fun a => (rawTag, a)) T r s = .ok ([entryFor T x.reg ts], x.past, u3)) ∧
        (r.kind = .reg eg true → loadReg rd va second.1 second.2 u4 = .ok (y, u2) →
          allTangents rd r.toff [x, y] r.tangents u2 = .ok ([ts, ts'], u3) →
          loadOver rd (fun a => (rawTag, a)) T r s =
            .ok ([entryFor T x.reg ts, entryFor T y.reg ts'], x.past || y.past, u3))) ∧
      (∀ (x : Loaded) (toff : Word) (t : Nat),
        let f := tagFmt x.reg.tag
        base = va → va = BitVec.ofNat 64 t * toff + BitVec.ofNat 64 x.g2 * x.la + BitVec.ofNat 64 (256 / regCount f * x.e) →
        rd va (va + 128) u1 = .ok (m, u2) →
        tangentsOf rd toff t [x] s = .ok ([tangentLine f m ++ tangentLine f l], u2))
  ) ∧ (
    ∀ (t0 : Tag) (ix : FlumeEntry) (base : Word) (n m : Nat) (ls : List (Word × Line)),
      let ts := targets ix base n m
      let reg := gatherReg t0 n ls ts
      let f := match ts with | [] => 0 | w :: _ => tagFmt (lineFor ls w.va).tag
      isReserved f = false →
      (∀ w ∈ ts, w.lane < regCount f → laneBits f reg.data w.lane = lineElemBits f (lineFor ls w.va).data w.pos) ∧
      (∀ L < regCount f, (∀ w ∈ ts, w.lane ≠ L) → laneBits f reg.data L = 0)
  )

/-- R39, R40, R117, R118, R123, R125, R129, R130, R141, R142: a vector store pops its entry and, once its lines have been checked,
writes its line, half line or two lines with its tangents; a pair stores two entries as one line; a scatter merges each active
lane; where nothing holds them back the stores are applied at once. WAPP appends to work vectors. Corners are logs 34 and 35. -/
def Obligations.VectorStoresPopAndWrite : Prop :=
  ∀ (s u u2 : State) (q e j v : BitVec 3) (d b : BitVec 5) (st : BitVec 4) (o : BitVec 8) (en en2 : FlumeEntry)
    (rest : List FlumeEntry),
    let va := areg s.core b + 128 * immediate s o
    let base := areg s.core b
    let n := st.toNat
    let t (i : Instr) : State := actsA i s
    let ready (i : Instr) (st : Nat) (good : Prop) : Prop :=
      EngineReady .A i i s → streamReady (carriesA i s) st (t i) = .ok () → good
    let lanes (en : FlumeEntry) : List Nat := (List.range 64).map (laneBits (tagFmt en.tag) en.data)
    let half (f : Nat) : Bool := decide (f = 0 ∨ f = 1 ∨ f = 2)
    let stored (i : Instr) (qs : List QueuedStore) (u : State) : Prop :=
      completesA i s (issueStores (carriesA i s) n qs u) ∧ (AtOnce u → completesA i s (qs.foldl applyWrite u))
    (
      let i : Instr := .vst q b st e o
      let f := tagFmt en.tag
      let popped := (t i).onCore (setFlume q.toNat rest)
      let writes : List (Word × Word × QueuedWrite) :=
        if half f then [(va, va, .half (e == 1) (BitVec.ofNat 512 (joinFields 8 (lanes en))) en.tag)]
        else if 64 ≤ nativeCount f then [(va, va, .line (packLine f (lanes en))
          (if tagVc en.tag = 3 then en.tag
            else mkTag f (tagVc en.tag) (decide (0x0D ≤ f ∧ f ≤ 0x13)) (tagLse en.tag) (tagSub en.tag)))]
        else [(va, va, .line (en.data.extractLsb' 0 1024) en.tag), (va, va + 128, .line (en.data.extractLsb' 1024 1024) en.tag)]
      ready i n (flumeOf (t i).core q.toNat = en :: rest →
        (e.toNat ≤ (if half f then 1 else 0) → ∀ qs,
          checkStores (carriesA i s) n va (writes ++ entryTangents (t i).core n en va (64 * e.toNat)) popped = .ok (qs, u) →
          stored i qs u) ∧
        ((if half f then 1 else 0) < e.toNat → ∀ p, checkLine (carriesA i s) va .store va 128 (t i) = .ok p →
          completesA i s (withFlags 0x40 popped)))) ∧
    (
      let i : Instr := .vstp q b st o
      let f := tagFmt en.tag
      let popped := (t i).onCore (setFlume q.toNat rest)
      ready i n (flumeOf (t i).core q.toNat = en :: en2 :: rest →
        (f = tagFmt en2.tag → pairFmt f = true → ∀ (tag : Tag) (data : LineBits) (fl : Flags) (qs : List QueuedStore),
          pairLine (roundSel (t i).core.csr.rmode.toNat) en en2 = (tag, data, fl) →
          let tangents := (List.range (tangentCount (t i).core n)).flatMap (fun k =>
            [(en, 0), (en2, 64)].flatMap (fun w =>
              let ta := tangentVa (descToff (descOf (t i).core n)) (k + 1) 4 va 4 w.2
              (tangentWrites f (w.1.tangents.getD k 0)).map (fun z => (ta, ta + BitVec.ofNat 64 z.1, z.2))))
          checkStores (carriesA i s) n va ((va, va, .line data tag) :: tangents) popped = .ok (qs, u) →
          stored i qs (withFlags fl u)) ∧
        (f ≠ tagFmt en2.tag ∨ pairFmt f = false → ∀ p, checkLine (carriesA i s) va .store va 128 (t i) = .ok p →
          faultsA i s ⟨5, en.tag.setWidth 64, false, 0⟩) ∧
        (half f = true → f = tagFmt en2.tag → tagVc en.tag = 0 → tagVc en2.tag = 0 → ∀ sel,
          pairLine sel en en2 = (en.tag, packLine f (lanes en ++ lanes en2), 0)))) ∧
    (
      let i : Instr := .vstx q b st j
      let f := tagFmt en.tag
      ready i n (∀ (ix : FlumeEntry) (ixs : List FlumeEntry) (ps qs : List (Word × Page)),
        gatherBase base = .ok () → flumeOf (t i).core q.toNat = en :: rest → flumeOf (t i).core j.toNat = ix :: ixs →
        indexChecked (t i).core ix = .ok () →
        (isScaled f = true → tagVc en.tag ≠ 3 → tagLse en.tag = 127 ∧ tagSub en.tag = 0) →
        let ts := targets ix base (nativeCount f) (regCount f)
        scatterPages (carriesA i s) base (distinctLines (ts.map Target.va)) (t i) = .ok (ps, u) →
        let gOf (a : Word) : Tag := match ps.find? (fun p => p.1 == a) with | some p => targetG u f p.2 a | none => plainTag f
        let tans := (List.range (tangentCount u.core n)).map (fun k =>
          scatterTangents (descToff (descOf u.core n)) (k + 1) en gOf ts)
        scatterPages (carriesA i s) base (tans.flatMap (fun tan => distinctLines (tan.map (fun w => pageBase w.1 128)))) u =
          .ok (qs, u2) →
        (∀ p ∈ ps, scatterRefused u2 f p.2 p.1 = none) →
        let popped := u2.onCore (fun c => setFlume j.toNat ixs (setFlume q.toNat rest c))
        let lines := ps.map (fun p => storeOf (carriesA i s) n p.1 p.2 (.elems en.tag
          ((ts.filter (fun w => w.va == p.1)).map (fun w => (w.pos, laneBits f en.data w.lane)))) popped)
        let tangents := tans.flatten.filterMap (fun w => (qs.find? (fun p => p.1 == pageBase w.1 128)).map (fun p =>
          storeOf (carriesA i s) n (pageBase w.1 128) p.2 (.tangent f (w.1.toNat % 128) (tangentBytes f) w.2) popped))
        stored i (lines ++ tangents) popped)) ∧
    (
      let i : Instr := .wapp d b q v
      let k := if v = 0 then 4 else 1
      let es := flumeOf (t i).core q.toNat
      ready i 0 (k ≤ es.length → s.core.append = none →
        ∀ ps, wappChecked (carriesA i s) base (es.take k) (t i) = .ok (ps, u) →
        appendAll (carriesA i s) ps 9 true u = .ok u2 →
        let a := u2.core.append.getD ⟨[], none, 0, 0⟩
        completesA i s (withA d (BitVec.ofNat 64 (a.dropped * 2 ^ 32 + a.written))
          (u2.onCore (fun c => { setFlume q.toNat (es.drop k) c with seen := [], append := none }))))) ∧
    (∀ (x : Ctx) (g : WappGroup) (gs : List WappGroup) (dropped wrote lost : Nat),
      let field (o : Nat) (s : State) : Nat := bytesAt s (pageVersion s g.page) (g.page.place (g.head + BitVec.ofNat 64 o)) 8
      let drained := drainLine (g.page.place g.head) u
      let (old, cap) := (field 0 drained, field 8 drained)
      let fit := min g.count (cap - old)
      let stores := payloadStores x g old fit (writeBytes drained g.page g.head 8 (old + g.count))
      appendAccess x ⟨g :: gs, none, dropped, wrote⟩ u = (addStores x stores.1 stores.2).onCore (fun c =>
        { c with append := some ⟨gs, if fit = g.count then none else some (g, g.count - fit), dropped + (g.count - fit), wrote + fit⟩ }) ∧
      appendAccess x ⟨gs, some (g, lost), dropped, wrote⟩ u =
        (writeBytes drained g.page (g.head + 16) 8 (field 16 drained + lost)).onCore (fun c =>
          { c with append := some ⟨gs, none, dropped, wrote⟩ }))

/-! ## M and Y words -/

/-- R184 to R188, R190 to R193, R181: each M word that its checks pass starts, reads its lines one by one (MXV before it
starts), and writes its result; MCFG takes its fields, MMA and MXV add their sums to a tile, MZERO clears one, MLDC loads one,
MDRAIN writes one out line by line. A line at which a word waits is read or written after it; a command with nothing left
completes. A tile whose own operands turn out INVALID becomes INVALID. When an M command reads its lines is log 39's; drained
lines of an INVALID tile are log 40's. -/
def Obligations.MatrixWordsActOnTiles : Prop :=
  ∀ (s : State) (w r : BitVec 4) (e f g : BitVec 5) (spoiled : Bool),
    let F := sreg s.core f
    let G := sreg s.core g
    let t (i : Instr) : State := acting .M i i s
    let x (i : Instr) : Ctx := carried .M i i s
    let starts (i : Instr) (tiles : List Nat) (good : Prop) : Prop :=
      EngineReady .M i i s → matrixFree (x i) tiles (t i) = .ok () → good
    let ends (i : Instr) (u : State) : Prop := exec i s = .next u
    let fits (o : Nat) : Prop := o % 128 = 0
    let inside (ls : List Nat) : Prop := ∀ q ∈ ls, q < scratchEnd
    let config (i : Instr) : MatrixConfig := (t i).core.mcfg
    let lineTags (i : Instr) (o : List (List Nat)) : List Tag := o.flatten.map (fun q => (scratchLine (t i) q).tag)
    (
      let i : Instr := .mcfg f g
      starts i [] (
        (mcfgRefused F G = false → ends i ((t i).onCore (fun c => { c with mcfg :=
          ⟨F.extractLsb' 0 8, F.extractLsb' 8 8, F.extractLsb' 24 16, F.extractLsb' 40 8, F.extractLsb' 48 8, G.extractLsb' 0 20⟩ }))) ∧
        (mcfgRefused F G = true → exec i s = .next (raiseFault s.core.ord 3 ⟨1, (wordOf i).setWidth 64, false, 0⟩
          (inRing .M i i s).1)))) ∧
    (
      let i : Instr := .mma w r e f g
      let m := config i
      let c := (t i).core
      let dual := (x i).dual ≠ 0
      let tile := tileOf c e.toNat
      let e2 := e.toNat + (if tile.af = 0 then 2 else 1)
      let tile2 := tileOf c e2
      let counts := [F.toNat, G.toNat, dualOff m F, dualOff m G].map (operandCount (t i))
      let ops := mmaOperands m (decide dual) F G counts
      let tags (k : Nat) : List Tag := lineTags i (ops.getD k [])
      starts i (tilesOf (matrixLines (t i) settledLines m (x i).dual (x i).caps (.mma 0 0 e 0 0)))
        (fits F.toNat → fits G.toNat → (∀ o ∈ ops, inside o.flatten) → tileAbsent c e.toNat = false →
          (dual → tileAbsent c e2 = false ∧ tile2.af = tile.af ∧ uniformTags aFormat (tags 2) = .ok () ∧
            uniformTags bFormat (tags 3) = .ok ()) →
          uniformTags aFormat (tags 0) = .ok () → uniformTags bFormat (tags 1) = .ok () → bankRule ops = true →
          consumeTags c ((ops.map (lineTags i)).flatten ++ [tileTag tile] ++ (if dual then [tileTag tile2] else [])) = .ok spoiled →
          ends i (matrixStarted (x i) (tilesOf ops.flatten.flatten) [] counts [] [] ops.flatten.flatten.eraseDups [] 0 (t i)))) ∧
    (
      let i : Instr := .mxv w r e f g
      let m := config i
      let c := (t i).core
      let B : Word := s.core.csr.rrb ++ G.extractLsb' 0 59
      let count := (G.extractLsb' 6 3).toNat + 1
      let k0 := 64 * (G.extractLsb' 9 3).toNat
      let column (j : Nat) : Word := F + BitVec.ofNat 64 (128 * m.bpitch.toNat * j)
      starts i [] (batchPending c (x i).ord (batchRegs B) = false → G.toNat / 2 ^ 12 = 0 →
        (G.extractLsb' 0 6).toNat + count ≤ 64 →
        (∀ k < count, bindingOf (x i).bnd ((G.extractLsb' 0 6).toNat + k) = none) → tileAbsent c e.toNat = false →
        fits F.toNat → ∀ (p0 ps : List (Nat × Page)) (u1 u2 : State), enginePages (t i) [column 0] = .ok p0 →
        gatherLines p0 false (t i) = .ok u1 →
        let n := tagCount (gatheredLine u1.core (column 0)).tag
        enginePages u1 ((List.range m.nc.toNat).map (fun j => (List.range ((k0 + 63) / n + 1 - k0 / n)).map (fun q =>
          column j + BitVec.ofNat 64 (128 * (k0 / n + q))))).flatten = .ok ps →
        gatherLines ps (decide (((t i).core.gathered.getD []).length < (u1.core.gathered.getD []).length)) u1 = .ok u2 →
        let got := ps.map (fun p => (p.1, gatheredLine u2.core (BitVec.ofNat 64 p.1)))
        let ls := got.map (fun q => q.2.tag)
        let batch := (batchRegs B).map (fun q => u2.core.v[q]?.getD VReg.zero)
        consumeTags c (batch.map (·.tag) ++ ls ++ [tileTag (tileOf c e.toNat)]) = .ok spoiled →
        (∀ q ∈ batch, aFormat (tagFmt q.tag) = true ∧ tagFmt q.tag = tagFmt (batch.headD VReg.zero).tag) →
        uniformTags bFormat ls = .ok () →
        ends i (matrixStarted (x i) [] (batchRegs B) [n] ps got [] [] 0 (u2.onCore (fun c => { c with gathered := none }))))) ∧
    (
      let i : Instr := .mzero w r e f
      let af : BitVec 2 := F.extractLsb' 0 2
      starts i [] (F.toNat < 4 → reformatRefused e.toNat af = false →
        ends i (matrixStarted (x i) [] [] [] [] [] [] [] 0
          ((t i).onCore (fun c => setTile e.toNat ⟨af, 0, 0, []⟩ (reformat c e.toNat af)))))) ∧
    (
      let i : Instr := .mldc w r e f g
      let m := config i
      let first := (scratchLine (t i) F.toNat).tag
      let lines := rowLines F.toNat (tagFmt first) m.mr.toNat
      let tags := (List.range m.mr.toNat).map (fun k => rowTag (t i) (F.toNat + rowPitch (tagFmt first) * k))
      starts i (tilesOf lines) (G.toNat < 4 → reformatRefused e.toNat (G.extractLsb' 0 2) = false → fits F.toNat → inside lines →
        consumeTags (t i).core tags = .ok spoiled →
        (∀ q ∈ tags, rowFormat (tagFmt q) = true ∧ tagFmt q = tagFmt (tags.headD 0)) →
        ends i (matrixStarted (x i) (tilesOf lines) [] [tagCount first] [] [] lines [] 0 (t i)))) ∧
    (
      let i : Instr := .mdrain w r e f g
      let m := config i
      let c := (t i).core
      let tile := tileOf c e.toNat
      let o := (G.extractLsb' 0 5).toNat
      let rm := (G.extractLsb' 5 3).toNat
      let second := (G.extractLsb' 44 20).toNat
      let two := G.getLsbD 9
      let d : Drain := ⟨o, roundSel (if rm = 7 then c.csr.rmode.toNat else rm),
        if G.getLsbD 10 then some (G.extractLsb' 16 8).toNat else none, G.getLsbD 8, tile.vc.toNat, tile.detail.toNat⟩
      let rows := (List.range m.mr.toNat).map (fun k => (F.toNat + drainPitch o * k, (List.range m.nc.toNat).map (tileElem tile k)))
      let cols := if two then (List.range m.nc.toNat).map (fun j =>
        (second + drainPitch o * j, (List.range m.mr.toNat).map (fun k => tileElem tile k j))) else []
      let lines := drainLines F.toNat o m.mr.toNat ++ (if two then drainLines second o m.nc.toNat else [])
      starts i (tilesOf lines) (tileAbsent c e.toNat = false → G.extractLsb' 24 20 = 0 → G.extractLsb' 12 4 = 0 →
        rm ≠ 5 → rm ≠ 6 → fits F.toNat → (two = true → fits second) → inside lines → rowFormat o = true →
        ∀ (w1 w2 : List MWrite) (u1 u2 : State) (f1 f2 : Flags),
        drainGroups d rows (fun _ => false) (t i) = (w1, u1, f1) →
        drainGroups d cols (fun k => decide (48 ≤ k)) u1 = (w2, u2, f2) →
        let u := if G.getLsbD 11 then u2.onCore (setTile e.toNat ⟨tile.af, 0, 0, []⟩) else u2
        ends i (matrixStarted (x i) (tilesOf lines) [] [] [] [] [] (w1 ++ w2) (f1 ||| f2) u))) ∧
    (∀ (x : Ctx) (tiles locks counts todo : List Nat) (pages : List (Nat × Page)) (got : List (Nat × Line)) (writes : List MWrite)
        (fl : Flags) (u : State),
      let m : MCommand :=
        { ord := x.ord, trap := x.trap, word := x.word, caps := x.caps, dual := x.dual, counts := counts, pages := pages,
          job := (u.core.csr.ptb.extractLsb' 48 10).toNat, todo := todo, got := got, writes := writes, flags := fl,
          raise := x.raise, claims := tiles, locks := locks }
      let begun (s : State) : State := if got = [] then s else matrixCompute m s
      (u.core.holdCommand = [] → matrixStarted x tiles locks counts pages got todo writes fl u =
        matrixAdvance (begun (u.onCore (fun c => { c with mcmd := some m })))) ∧
      (∀ rest, u.core.holdCommand = true :: rest → matrixStarted x tiles locks counts pages got todo writes fl u =
        begun (u.onCore (fun c => { c with holdCommand := rest, mcmd := some m })))) ∧
    (∀ m : MCommand, s.core.mcmd = some m → m.todo = [] → m.writes = [] → matrixAdvance s = s.onCore (fun c =>
      addToken m.raise { c with mcmd := none, csr := { c.csr with flags := c.csr.flags ||| m.flags } })) ∧
    (∀ m : MCommand, placedInstr m.word = some (.mxv w r e f g) →
      let c := s.core
      let cfg := c.mcfg
      let a := m.caps.getD 0 0
      let b := m.caps.getD 1 0
      let n := m.counts.headD 64
      let k0 := 64 * (b.extractLsb' 9 3).toNat
      let per := (k0 + 63) / n + 1 - k0 / n
      let cols := (List.range cfg.nc.toNat).map (fun j => (List.range per).map (fun q =>
        m.line (a + BitVec.ofNat 64 (128 * cfg.bpitch.toNat * j) + BitVec.ofNat 64 (128 * (k0 / n + q))).toNat))
      let batch := (batchRegs b).map (fun q => c.v[q]?.getD VReg.zero)
      let tile := tileOf c e.toNat
      let sum := accumulate tile
        (kStep (tagFmt (batch.headD VReg.zero).tag) (tagFmt (cols.flatten.headD ⟨rawTag, 0⟩).tag) tile.af)
        ((batch.map (·.tag) ++ cols.flatten.map (·.tag) ++ [tileTag tile]).any (fun t => decide (tagVc t = 1)))
        (batch.zipIdx.flatMap (fun p => cols.zipIdx.map (fun j => (64 * p.2 + j.2,
          List.zipWith (fun u v => [(u, v)]) ((List.range 64).map (fun L => (regElem p.1 L).re))
            (((rowElems n (j.1.length * n) j.1).drop (k0 % n)).take 64)))))
      matrixCompute m s = s.onCore (fun _ => { tileOutcome (metInvalid cols.flatten) e.toNat sum.1 c with
        mcmd := some { m with todo := [], flags := m.flags ||| sum.2 } })) ∧
    (∀ (va : Word) (p : Page) (ps : List (Nat × Page)) (moved : Bool) (l : Line) (u : State),
      (∀ q ∈ s.core.gathered.getD [], q.1 ≠ va.toNat) → lineHeld s (p.place va) = false →
      readNow p va (touchPage p va s) = (l, u) → u.core.holdCommand = [] →
      gatherLines ((va.toNat, p) :: ps) moved s =
        gatherLines ps true (u.onCore (fun c => { c with gathered := some (c.gathered.getD [] ++ [(va.toNat, l)]) }))) ∧
    (∀ (m : MCommand) (q k : Nat) (l : Line) (u : State), s.core.mcmd = some m → m.todo[q]? = some k →
      (lineHeld s (m.place s k) = true → matrixRead q s = s) ∧
      (lineHeld s (m.place s k) = false → readMatrixLine m k s = (l, u) →
        let m' : MCommand := { m with todo := m.todo.eraseIdx q, got := (k, l) :: m.got }
        let c := u.core
        let cfg := c.mcfg
        let a := m.caps.getD 0 0
        let b := m.caps.getD 1 0
        let pair (p q : List Machine.Num) := List.zipWith (fun u v => [(u, v)]) p q
        let spoils (ls : List Line) (t : Tile) : Bool := (ls.map Line.tag ++ [tileTag t]).any (fun t => decide (tagVc t = 1))
        let computed (n : Core × Flags) : Prop :=
          matrixRead q s = u.onCore (fun _ => { n.1 with mcmd := some { m' with flags := m.flags ||| n.2 } })
        (m.pages = [] → (l, u) = (scratchLine s k, s)) ∧
        (m'.todo ≠ [] → matrixRead q s = u.onCore (fun c => { c with mcmd := some m' })) ∧
        (m'.todo = [] → placedInstr m.word = some (.mma w r e f g) →
          let lines := (mmaOperands cfg (decide (m.dual ≠ 0)) a b m.counts).map (fun o => o.map (fun row => row.map m'.line))
          let flat (o : Nat) : List Line := (lines.getD o []).flatten
          let row (o n : Nat) : List Machine.Num := ((lines.getD o []).map (rowElems (m.counts.getD o 64) cfg.k.toNat)).getD n []
          let cells (terms : Nat → Nat → List (List (Machine.Num × Machine.Num))) :=
            (List.range cfg.mr.toNat).flatMap (fun p => (List.range cfg.nc.toNat).map (fun j => (64 * p + j, terms p j)))
          let tile := tileOf c e.toNat
          let e2 := e.toNat + (if tile.af = 0 then 2 else 1)
          let tile2 := tileOf c e2
          let step := kStep (tagFmt ((flat 0).headD ⟨rawTag, 0⟩).tag) (tagFmt ((flat 1).headD ⟨rawTag, 0⟩).tag) tile.af
          let sum := accumulate tile step (spoils (flat 0 ++ flat 1) tile) (cells (fun p j => pair (row 0 p) (row 1 j)))
          let sum2 := accumulate tile2 step (spoils lines.flatten.flatten tile2) (cells (fun p j =>
            List.zipWith (fun u v => u ++ v) (pair (row 2 p) (row 1 j)) (pair (row 0 p) (row 3 j))))
          let one := tileOutcome (metInvalid (flat 0 ++ flat 1)) e.toNat sum.1 c
          (m.dual = 0 → computed (one, sum.2)) ∧
          (m.dual ≠ 0 → computed (tileOutcome (metInvalid lines.flatten.flatten) e2 sum2.1 one, sum.2 ||| sum2.2))) ∧
        (m'.todo = [] → placedInstr m.word = some (.mldc w r e f g) →
          let af : BitVec 2 := b.extractLsb' 0 2
          let two := decide (m.counts.headD 64 < 64)
          let rows := (List.range cfg.mr.toNat).map (fun p =>
            let o := a.toNat + (if two then 256 else 128) * p
            loadRow two (m'.line o) (m'.line (o + 128)))
          let cells := rows.zipIdx.flatMap (fun p => (List.range cfg.nc.toNat).map (fun j =>
            (64 * p.2 + j, flushRound (afFloat af) (regElem p.1 j).re)))
          (decide ((tileOf c e.toNat).af = 0) = decide (af = 0) →
            let c1 := reformat c e.toNat af
            computed (tileOutcome (metInvalid (rows.map (fun p => ⟨p.tag, 0⟩))) e.toNat
              ⟨af, if (rows.map VReg.tag).any (fun t => decide (tagVc t = 1)) then 1 else 0, 0,
                cells.foldl (fun d q => sset 0 d q.1 (accBits af q.2.1)) (tileOf c1 e.toNat).data⟩ c1,
              cells.foldl (fun a q => a ||| q.2.2) 0))))) ∧
    (∀ (m : MCommand) (q : Nat) (v : MWrite), s.core.mcmd = some m → m.writes[q]? = some v →
      let place := placeScratch s.cur v.off
      (lineHeld s place = true → matrixWrite q s = s) ∧
      (lineHeld s place = false → matrixWrite q s =
        (putMatrixLine v s).onCore (fun c => { c with mcmd := some { m with writes := m.writes.eraseIdx q } })) ∧
      (v.whole = none →
        let n := lineCount v.fmt (tagFill v.tag)
        let old := (scratchStored s v.off).data
        let kept := packLine v.fmt ((List.range n).map (fun p =>
          match v.sets.find? (fun q => q.1 == p) with | some q => q.2 | none => lineElemBits v.fmt old p))
        let put := putScratch s v.off ⟨v.tag, kept⟩
        putMatrixLine v s = { put with mem := { put.mem with
          poison := clearWords s.mem.poison place (writtenWords v.fmt n (v.sets.map Prod.fst)) } })) ∧
    (∀ (d p : Nat) (t : Tile) (c : Core), p < 32 →
      let c' := tileOutcome (some d) p t c
      (tileOf c' p).vc = 3 ∧ (tileOf c' p).detail = BitVec.ofNat 8 d ∧ (tileOf c' p).af = t.af)

/-- R194 to R204, R181, R221: CPY reads its record and starts, CPYZ starts a fill, CPYB arms a barrier or leaves none, CPYQ
stops every command and reports it, CPYCAN stops those of a tag. A line of a load is read and written to the scratchpad as it stands
or converted, one of a store to memory, each at its own instant, and each that lands is counted at the barrier that was current at
the start; a command whose lines have landed completes; an evicted record is gone. Readings of copies are logs 41 to 44, 69 and 75. -/
def Obligations.CopyWordsStartLandAndComplete : Prop :=
  ∀ (s u : State) (w r : BitVec 4) (e f g : BitVec 5) (k : Nat),
    let E := sreg s.core e
    let F := sreg s.core f
    let G := sreg s.core g
    let t (i : Instr) : State := acting .Y i i s
    let x (i : Instr) : Ctx := carried .Y i i s
    let ready (i : Instr) (good : Prop) : Prop := EngineReady .Y i i s → good
    let ends (i : Instr) (u : State) : Prop := exec i s = .next u
    let tiles (i : Instr) : Prop := threadHolds (t i) (x i).ord (copyTiles (t i) (x i).caps i) = false
    let raised (i : Instr) (c : Core) : Core := addToken (x i).raise c
    (
      let i : Instr := .cpy w r e f g
      let off := (F.extractLsb' 0 20).toNat
      let start := (G.extractLsb' 0 48).toNat
      let stores := F.getLsbD 20
      ready i ((t i).core.ycmds.length < 8 → rcfenceBefore (t i).core (x i).ord = false → tiles i → F.toNat < 2 ^ 21 →
        spansHeld (t i) ((recordRead (t i) E).map (fun q => (q.2.2.place E, q.2.2.place E + 64))) [] = false →
        ∀ ds0 : List Word, readRecord E (t i) = .ok (ds0, u) → shapeFault E (shapeOf ds0) = none →
        let ds := fixRounding u.core.csr.rmode.toNat ds0
        let h := shapeOf ds
        (netQueueOf h.base ≠ none → h.cvt = false) → off % 128 = 0 → start % 128 = 0 → rangeFault (off + start) (off + h.size) = none →
        (h.size ≤ start → ends i (u.onCore (raised i))) ∧
        (start < h.size → ∀ tags rows ps u2, memorySide h (netQueueOf h.base) stores start u = .ok (tags, rows, ps, u2) →
          let y : YCommand :=
            { kind := .cpy, ord := (x i).ord, trap := (x i).trap, se := E, sf := F, sg := G, shape := ds, rowTags := tags,
              pages := ps, extra := recordRead (t i) E ++ rows, job := (u2.core.csr.ptb.extractLsb' 48 10).toNat, landed := start,
              above := [], issued := start, got := [], written := [], size := h.size, gen := u2.core.gens.copy, drawn := 0,
              barrier := u2.core.barrier, flags := 0,
              raise := (x i).raise, claims := tilesBetween (off + start) (off + h.size), pos := (x i).pos,
              qp := netQueueOf h.base, ticket := queueTicket u2 (netQueueOf h.base) }
          spansHeld u2 (copySpans u2.cur y).1 (copySpans u2.cur y).2 = false →
          ends i (copyStarted y (onQueue (netQueueOf h.base) u2))))) ∧
    (
      let i : Instr := .cpyz w r e f g
      let lo := E.toNat
      let hi := E.toNat + F.toNat
      let tag : Tag := G.setWidth 32
      ready i ((t i).core.ycmds.length < 8 → tiles i → G.toNat < 2 ^ 32 → lo % 128 = 0 → F.toNat % 128 = 0 →
        rangeFault lo hi = none → tagMalformed tag = false → tagVc tag ≠ 3 →
        (F = 0 → ends i ((t i).onCore (raised i))) ∧
        (F ≠ 0 → spansHeld (t i) [] [(placeScratch s.cur lo, placeScratch s.cur hi)] = false →
          ends i (copyStarted
            { kind := .cpyz, ord := (x i).ord, trap := (x i).trap, se := E, sf := F, sg := G, shape := [], rowTags := [],
              pages := [], extra := [], job := 0, landed := 0, above := [], issued := 0, got := [], written := [], size := F.toNat,
              gen := 0, drawn := 0, barrier := (t i).core.barrier, flags := 0, raise := (x i).raise, claims := tilesBetween lo hi,
              pos := (x i).pos, qp := none, ticket := 0 } (t i))))) ∧
    (
      let i : Instr := .cpyb w r e f
      let off := (E.extractLsb' 0 20).toNat
      ready i ((E.getLsbD 63 = true → ends i ((t i).onCore (fun c => raised i { c with barrier := none }))) ∧
        (E.toNat < 2 ^ 20 → off % 16 = 0 → rangeFault off (off + 16) = none →
          spansHeld (t i) [] [(placeScratch s.cur off, placeScratch s.cur off + 16)] = false →
          ends i ((withFull (decide (F = 0)) (placeScratch s.cur off)
            (scratchPut (off + 8) 8 0 (scratchPut off 8 F.toNat (t i)))).onCore (fun c =>
              raised i { c with barrier := some off }))))) ∧
    (
      let i : Instr := .cpyq w r e
      let c := (t i).core
      let ws : List Word := ([c.ycmds.length, c.barrier.getD (2 ^ 63), 0, 0] ++ c.ycmds.flatMap (fun y =>
        [y.landed % 2 ^ 32 * 2 ^ 32 + (if y.kind = .cpyz then 2 ^ 27 else 0) + y.pos.toNat * 2 ^ 16 + copyTag y, y.se.toNat, y.sf.toNat,
          y.sg.toNat])).map (BitVec.ofNat 64)
      let size := 128 * ((32 + 32 * c.ycmds.length + 127) / 128)
      ready i (tiles i → (∀ y ∈ c.ycmds, y.kind ≠ .report ∧ y.issued ≤ y.landed ∧ y.above = []) → E.toNat % 128 = 0 →
        rangeFault E.toNat (E.toNat + size) = none →
        ends i (copyStarted
          { kind := .report, ord := (x i).ord, trap := (x i).trap, se := E, sf := 0, sg := 0, shape := ws, rowTags := [], pages := [],
            extra := [], job := 0, landed := 0, above := [], issued := size, got := [], written := [], size := size, gen := 0, drawn := 0,
            barrier := none, flags := 0, raise := (x i).raise, claims := tilesBetween E.toNat (E.toNat + size), pos := (x i).pos,
            qp := none, ticket := 0 } ((t i).onCore (settleCopies (fun _ => true)))))) ∧
    (
      let i : Instr := .cpycan w r e
      let named (y : YCommand) : Bool :=
        decide (y.kind ≠ .report) && (E.getLsbD 16 || decide (copyTag y = (E.extractLsb' 0 16).toNat))
      ready i (E.toNat < 2 ^ 17 → (∀ y ∈ (t i).core.ycmds, named y = true → y.issued ≤ y.landed ∧ y.above = []) →
        ends i ((t i).onCore (fun c => raised i (settleCopies named c))))) ∧
    (∀ (pick : YCommand → Bool) (c : Core), settleCopies pick c = { c with
      ycmds := c.ycmds.filter (fun y => !pick y),
      csr := { c.csr with flags := (c.ycmds.filter pick).foldl (fun fl y => fl ||| y.flags) c.csr.flags } }) ∧
    (∀ y : YCommand,
      (u.core.holdCommand = [] → y.qp = none → copyStarted y u =
        (let p := landAll ((y.size - y.landed) / 128) y u
         if y.size ≤ p.1.landed then p.2.onCore (fun c => addToken y.raise { c with csr := { c.csr with flags := c.csr.flags ||| p.1.flags } })
         else p.2.onCore (fun c => { c with ycmds := c.ycmds ++ [p.1] }))) ∧
      (∀ rest, u.core.holdCommand = true :: rest → copyStarted y u =
        u.onCore (fun c => { c with holdCommand := rest, ycmds := c.ycmds ++ [y] })) ∧
      (u.core.holdCommand = [] → y.qp ≠ none → copyStarted y u = u.onCore (fun c => { c with ycmds := c.ycmds ++ [y] }))) ∧
    (∀ y : YCommand, s.core.ycmds[k]? = some y → landReady y s = false → exec (.copyLineLanded k) s = .next s) ∧
    (∀ y : YCommand, s.core.ycmds[k]? = some y → y.qp = none → landReady y s = true →
      let b := y.landed
      let done (ps : List YPart) (a : YCommand × State) : YCommand × State := ps.foldl (fun a p => copyPart p a.1 a.2) a
      let read := done ((readsLeft (y.issue b) b).filter (fun p => !partHeld (y.issue b) s p)) (y.issue b, s)
      let wrote := done ((writesLeft read.1 b).filter (fun p => partReady read.1 p && !partHeld read.1 read.2 p)) read
      exec (.copyLineLanded k) s = .next (wrote.2.onCore (fun c => { c with ycmds := c.ycmds.set k wrote.1 }))) ∧
    (∀ (y : YCommand) (p : YPart), s.core.ycmds[k]? = some y → flyingParts s = [] → matrixParts s = [] →
      (copyPartsOf s)[s.pick]? = some (k, p) →
      let a := copyPart p (y.issue (partLine y p)) s
      exec .accessApplied s = .next (a.2.onCore (fun c => { c with ycmds := c.ycmds.set k a.1 }))) ∧
    (∀ (y : YCommand) (b : Nat), y.qp = none →
      let h := shapeOf y.shape
      let off := (y.sf.extractLsb' 0 20).toNat
      let start := (y.sg.extractLsb' 0 48).toNat
      let stores := y.sf.getLsbD 20
      let wrote (off : Nat) (y' : YCommand) (l : Line) (fl : Flags) (v : State) : Prop := copyPart (.write b) y s =
        landLine b ({ y' with flags := y.flags ||| fl, got := y.got.filter (fun g => g.1 != b) },
          { v with mem := putLine v.mem (placeScratch v.cur (off + b)) 0 l })
      (stores = false → ∀ (va : Word) (p : Nat × Page) (l : Line) (v : State), y.pages.find? (fun p => p.1 == va.toNat) = some p →
        readNow p.2 va s = (l, v) → copyPart (.read b va.toNat) y s = ({ y with got := y.got ++ [(b, va.toNat, l)] }, v)) ∧
      (y.kind = .cpy → stores = true → copyPart (.read b 0) y s =
        landSent [b] { y with got := y.got ++ [(b, 0, scratchLine s (off + b))] } s) ∧
      (y.kind = .cpyz → wrote y.se.toNat y ⟨y.sg.setWidth 32, 0⟩ 0 s) ∧
      (y.kind = .report →
        let n := min 128 (8 * y.shape.length - b)
        wrote y.se.toNat y ⟨rawTag, patchLine (drawLine s).1 0 n (joinFields 64 (((y.shape.drop (b / 8)).take 16).map BitVec.toNat))⟩ 0
          (drawLine s).2) ∧
      (y.kind = .cpy → h.cvt = false →
        ((h.sources b).headD none = none → wrote off y ⟨rawTag, 0⟩ 0 s) ∧
        (∀ R x0, (h.sources b).headD none = some (R, x0) →
          let l := y.line b (h.lineVa 1 R x0).toNat
          wrote off y ⟨l.tag, padLine l.tag l.data⟩ 0 s)) ∧
      (y.kind = .cpy → h.cvt = true → ∀ rnd y' v1 l fl v, drawCopy h ((b - start) / 128) y s = (rnd, y', v1) →
        formCopied h rnd ((h.sources b).map (Option.map (fun q =>
          let t := y.rowTags.getD q.1 0
          ⟨y.line b (h.lineVa (tagCount t) q.1 q.2).toNat, q.2 % tagCount t, t⟩))) v1 = (l, fl, v) →
        wrote off y' l fl v) ∧
      (∀ (R m : Nat) (p : Nat × Page),
        let va := h.rowBase R + BitVec.ofNat 64 (128 * m)
        let feeds := feeders h start R m
        let l := y.line (feeds.headD 0) 0
        let sent (fl : Flags) (y' : YCommand) (v : State) : Prop := copyPart (.send R m) y s =
          landSent feeds { y' with flags := y.flags ||| fl, written := y.written ++ [(R, m)] } v
        y.pages.find? (fun p => p.1 == va.toNat) = some p →
        (h.cvt = false → sent 0 y (writeLine (drainLine (p.2.place va) s) p.2 va ⟨l.tag, padLine l.tag l.data⟩)) ∧
        (h.cvt = true → ∀ fl y' v, storeLine y R m p.2 s = (fl, y', v) → sent fl y' v)) ∧
      landSent [b] y s = (if y.has b 0 = true ∧ y.hasLanded b = false ∧ (fedLines h b).all y.written.contains = true
        then landLine b (y, s) else (y, s)) ∧
      (y.above = [] → b % 128 = 0 → y.landed % 128 = 0 →
        landLine b (y, s) = (if b = y.landed then { y with landed := b + 128 } else { y with above := [b / 128] },
          countLanded y.barrier s))) ∧
    (∀ (h : Shape) (n : Nat) (y : YCommand),
      let sr : Bool := h.cvt && decide (roundSel h.rm = .sr)
      (sr = false → drawCopy h n y s = (0, y, s)) ∧
      (sr = true → y.drawn = n →
        let g := advance s.core.gens.copy
        drawCopy h n y s = (g, { y with drawn := n + 1 }, s.onCore (fun c => { c with gens := { c.gens with copy := g } })))) ∧
    (∀ (h : Shape) (rnd : BitVec 32) (xs : List (Option Feed)),
      (∀ d, feedsDetail h.ofmt (xs.filterMap id) = some d →
        formCopied h rnd xs s =
          (⟨mkInvalid h.ofmt d, padLine (mkInvalid h.ofmt d) (drawLine s).1⟩, 0, (drawLine s).2)) ∧
      (feedsDetail h.ofmt (xs.filterMap id) = none →
        let r := formMixed h.ofmt false (roundSel h.rm) rnd h.ns (if h.smode = 1 then some (h.flse, List.replicate 8 0) else none)
          (xs.map (fun x => match x with
            | none => (Elt.zero, false)
            | some f =>
              let v := lineElem f.line.tag f.line.data f.e
              (if h.conj && isComplex (tagFmt f.line.tag) then ⟨v.re, v.im.neg⟩ else v, isInt (tagFmt f.line.tag))))
        formCopied h rnd xs s =
          (⟨r.tag h.ofmt false ((xs.filterMap id).any (fun f => tagVc f.line.tag == 1)), r.data⟩, r.flags, s))) ∧
    (∀ (y : YCommand) (R m : Nat) (p : Page),
      let h := shapeOf y.shape
      let va := h.rowBase R + BitVec.ofNat 64 (128 * m)
      let ps := piecesOf h (y.sg.extractLsb' 0 48).toNat R m
      let below := (y.pages.filter (fun p => decide (p.1 < va.toNat))).length
      ∀ rnd y' u1 l fl u2, drawCopy h below y (drainLine (p.place va) s) = (rnd, y', u1) →
        (ps.length = nativeCount h.ofmt →
          formCopied h rnd (ps.map (fun q => some (pieceFeed y' h u1 q)))
            (u1.onCore (fun c => { c with free := c.free + 512 })) = (l, fl, u2) →
          storeLine y R m p s = (fl, y', writeLine u2 p va l)) ∧
        (ps.length ≠ nativeCount h.ofmt → mergePartial y' h rnd p va ps u1 = (l, fl, u2) →
          storeLine y R m p s = (fl, y', mergeInto p va l (mergedWords l.tag h.ofmt (ps.map (·.pos))) u2))) ∧
    (∀ y : YCommand, s.core.ycmds[k]? = some y → y.size ≤ y.landed →
      exec (.commandComplete (k + 1)) s = .next (s.onCore (fun c =>
        addToken y.raise { c with ycmds := c.ycmds.eraseIdx k, csr := { c.csr with flags := c.csr.flags ||| y.flags } }))) ∧
    exec (.commandComplete 0) s = .next (matrixAdvance s) ∧
    (∀ off, let pl := placeScratch s.cur off
      let old := bytesAt s 0 (pl + 8) 8
      let put := scratchPut (off + 8) 8 ((old + 128) % 2 ^ 64) s
      countLanded (some off) s = if old < bytesAt s 0 pl 8 ∧ bytesAt s 0 pl 8 ≤ (old + 128) % 2 ^ 64 then withFull true pl put
        else put) ∧
    exec (.shapeRecordCacheEviction k) s = .next
      { s with core := { s.core with records := s.core.records.eraseIdx k } }

/-! ## Commands -/

/-- R269, R329, R337: outside STATE 1 a command is discarded; while the command before is not done it is only counted; a command
of the PF is DENIED to a VF; a reserved bit is BADARG. A refused long command raises CMDDONE. That DENIED is found before
BADARG, and that a refused long command raises CMDDONE, are readings (log 48); that a command waits behind an INVAL that waits is
log 49's. -/
def Obligations.CommandsAreRefusedByTheirFrame : Prop :=
  ∀ (s : State) (fn : Nat) (o : CmdOps),
    let all := BitVec.allOnes 64
    let frame (i : Instr) (pfOnly long : Bool) (masks : List Word) : Prop :=
      (s.bootState ≠ 1 → exec i s = .next s) ∧
      (s.bootState = 1 → (hostFn s fn).done = false →
        exec i s = .next (setHostFn s fn { hostFn s fn with busy := (hostFn s fn).busy + 1 })) ∧
      (s.bootState = 1 → (hostFn s fn).done = true → hostWaits s = true → exec i s = .next s) ∧
      (s.bootState = 1 → (hostFn s fn).done = true → hostWaits s = false →
        (pfOnly = true → fn ≠ 0 → exec i s = .next (answered long fn 6 [] s)) ∧
        ((pfOnly = true → fn = 0) → operandsOk o masks = false → exec i s = .next (answered long fn 1 [] s)))
    frame (.jobcreate fn o) false false [0xFF03FF, all, all, all, all, 0x00000F00000FFFFF, 0xFFFFFFFF] ∧
    frame (.jobstop fn o) false false [0x3FF] ∧ frame (.jobdestroy fn o) false false [0x3FF] ∧
    frame (.qcreate fn o) false false [0x000F030703FF0FFF, all] ∧ frame (.qdestroy fn o) false false [0xFFF] ∧
    frame (.qpush fn o) false false [0x3F0FFF, all, all, all, all] ∧ frame (.spilladd fn o) false false [0x3FF, all] ∧
    frame (.evhostSet fn o) false false [0x1FFFF03FF] ∧ frame (.evhostClear fn o) false false [0x1FFFF03FF] ∧
    frame (.rqset fn o) true false [0x0000001F00000003, all] ∧ frame (.vfslice fn o) true false [0x1F, all] ∧
    frame (.speedset fn o) true false [0x10F03FF] ∧ frame (.ptecas fn o) true false [all, all, all] ∧
    frame (.inval fn o) false false [0x80000000000003FF, all, all] ∧ frame (.clean fn o) false true [0xFFFF03FF, all, all] ∧
    frame (.migcfg fn o) true false [0x0000FFFFFFFF0001, all] ∧ frame (.migfree fn o) true false [1, all] ∧
    frame (.compset fn o) true true [0x1FFFF03FF, all, all, all] ∧ frame (.ovfset fn o) true false [all, all, all] ∧
    frame (.ovfadd fn o) true false [all] ∧ frame (.norset fn o) true false [0xF0003, all] ∧
    frame (.norpush fn o) false false [3, 0x000000FFFFFF03FF, all, all, all] ∧ frame (.srslice fn o) true false [0x81FF, 0xFFFFFFFF] ∧
    frame (.keyjob fn o) true false [0x3F03FF] ∧ frame (.cxlrange fn o) true false [0x301, all, all] ∧
    frame (.load fn o) false true [0x3F03FF, all, all] ∧ frame (.preempt fn o) false true [0x80000000000003FF, 0x3FF] ∧
    frame (.tagset fn o) false false [0x3FF, all, 0xFFFFFFFF] ∧ frame (.tagget fn o) false false [0x3FF, all] ∧
    frame (.featset fn o) true false [0x1F, 0x11F] ∧
    frame (.keysetStage fn o) true false [0x13F, all, all, all, all] ∧
    frame (.keysetInstall fn o) true false [0x13F, all, all, all, all] ∧
    frame (.vkeysetStage fn o) true false [0x107, all, all, all, all, all, all] ∧
    frame (.vkeysetInstall fn o) true false [0x107, all, all, all, all, all, all] ∧
    frame (.svninc fn o) true true [0xFFFFFFFF] ∧ frame (.intmap fn o) false false [0x3F03FF00FF] ∧
    frame (.netqpCreate fn o) false false [0x13FFF03FF, all, 0xFFFFFFFF00FFFFFF, all, all, all, 0xFFFFFFFF] ∧
    frame (.netqpDestroy fn o) false false [0x13FFF03FF, all, 0xFFFFFFFF00FFFFFF, all, all, all, 0xFFFFFFFF] ∧
    frame (.telread fn o) true false [0x3FFFF] ∧ frame (.pwrcap fn o) true false [0xFFF]

/-- R254, R258, R259, R269: what the commands on jobs, queues, the spillway and events change, and the statuses of those that
cannot be done. The order of two refusals that hold at once (BADARG, NOTFOUND, EXISTS, FULL) is the model's (log 48). -/
def Obligations.JobAndQueueCommandsAct : Prop :=
  ∀ (s u : State) (fn : Nat) (o : CmdOps),
    let all := BitVec.allOnes 64
    let ok (masks : List Word) (good : Prop) : Prop := Accepts fn masks o s → good
    let ends (i : Instr) (status : Nat) (t : State) : Prop := exec i s = .next (withResult fn true status [] t)
    let job := operand o.o1 0 10
    let n := operand o.o1 0 12
    (
      let i : Instr := .jobcreate fn o
      let badArg : Prop := operand o.o1 16 8 = 0 ∨ o.o3.toNat % 1024 ≠ 0 ∨ o.o4.toNat % 8192 ≠ 0 ∨ o.o5.toNat % 4096 ≠ 0 ∨
        10 < operand o.o6 40 4
      let j : Job := { owner := fn, weight := o.o1.extractLsb' 16 8, deficit := 0, ptb := o.o2, latb := o.o3, evbase := o.o4,
                       fqbase := o.o5, age := o.o6.extractLsb' 0 20, q := 6 + operand o.o6 40 4, waitlim := o.o7.extractLsb' 0 32,
                       stopped := false, slots := [], freeBlocks := 0, chainHead := 0, chainTail := 0, kid := 0, blocks := 0,
                       spillDie := [] }
      ok [0xFF03FF, all, all, all, all, 0x00000F00000FFFFF, 0xFFFFFFFF] (
        (badArg → ends i 1 s) ∧ (¬badArg → sfind s.jobs job ≠ none → ends i 2 s) ∧
        (¬badArg → sfind s.jobs job = none → ends i 0 (noteTables { s with jobs := sput s.jobs job j })))) ∧
    ok [0x3FF] ((ownJob s fn job = none → ends (.jobstop fn o) 3 s ∧ ends (.jobdestroy fn o) 3 s) ∧
      (∀ j, ownJob s fn job = some j → ends (.jobstop fn o) 0 (stopJob s job) ∧
        (let busy : Prop := j.stopped = false ∨ jobRuns s job = true ∨ jobRecords s job = true
         (busy → ends (.jobdestroy fn o) 5 s) ∧ (¬busy → ends (.jobdestroy fn o) 0
           { s with jobs := sdel s.jobs job, queues := s.queues.filter (fun q => q.2.job ≠ job) })))) ∧
    (
      let i : Instr := .qcreate fn o
      let k := 4 + operand o.o1 48 4
      let owner := operand o.o1 16 10
      let prio := operand o.o1 32 3
      ok [0x000F030703FF0FFF, all] (
        (16 < k ∨ o.o2.toNat % 4096 ≠ 0 → ends i 1 s) ∧
        (k ≤ 16 → o.o2.toNat % 4096 = 0 →
          (ownJob s fn owner = none → ends i 3 s) ∧
          (ownJob s fn owner ≠ none → sfind s.queues n ≠ none → ends i 2 s) ∧
          (ownJob s fn owner ≠ none → sfind s.queues n = none →
            let q : Queue := ⟨owner, operand o.o1 40 2, prio, k, o.o2, 0, 0, prio⟩
            ends i 0 { s with queues := sput s.queues n q })))) ∧
    ok [0xFFF] ((ownQueue s fn n = none → ends (.qdestroy fn o) 3 s) ∧
      (∀ q, ownQueue s fn n = some q → (q.head ≠ q.tail → ends (.qdestroy fn o) 5 s) ∧
        (q.head = q.tail → ends (.qdestroy fn o) 0 { s with queues := sdel s.queues n }))) ∧
    (
      let i : Instr := .qpush fn o
      let slot : BitVec 6 := o.o1.extractLsb' 16 6
      ok [0x3F0FFF, all, all, all, all] (
        (ownQueue s fn n = none → ends i 3 s) ∧
        (∀ q, ownQueue s fn n = some q →
          let badArg : Prop := operand o.o2 30 2 ≠ 0 ∨ (slot = 63 ∧ fn ≠ 0)
          (badArg → ends i 1 s) ∧
          (¬badArg → 2 ^ q.k ≤ q.tail - q.head → ends i 4 s) ∧
          (¬badArg → q.tail - q.head < 2 ^ q.k →
            let at_ := q.base + BitVec.ofNat 64 (64 * (q.tail % 2 ^ q.k))
            let e : Entry := ⟨o.o2, o.o3, o.o4, o.o5, 0, slot, q.job⟩
            (jobWrite s q.job at_ 64 (entryBits e 0 0 false) true = none → ends i 1 s) ∧
            (jobWrite s q.job at_ 64 (entryBits e 0 0 false) true = some u → ends i 0 (queuePush u n q)))))) ∧
    ok [0x3FF, all] ((ownJob s fn job = none → ends (.spilladd fn o) 3 s) ∧
      (∀ j, ownJob s fn job = some j → (o.o2.toNat % 4096 ≠ 0 → ends (.spilladd fn o) 1 s) ∧
        (o.o2.toNat % 4096 = 0 → jobWrite s job o.o2 24 (joinFields 64 [j.freeBlocks.toNat, 0, 0]) true = some u →
          ends (.spilladd fn o) 0 { u with jobs := sput u.jobs job { j with freeBlocks := o.o2, blocks := j.blocks + 1 } }))) ∧
    (
      let ev : BitVec 16 := o.o1.extractLsb' 16 16
      ∀ i ∈ [Instr.evhostSet fn o, Instr.evhostClear fn o],
      ok [0x1FFFF03FF] ((ownJob s fn job = none → ends i 3 s) ∧
        (∀ j, ownJob s fn job = some j →
          (o.o1.getLsbD 32 = false → ends i 0 (completeEvent s job ev)) ∧
          (o.o1.getLsbD 32 = true → ev = 0 → ends i 0 s) ∧
          (o.o1.getLsbD 32 = true → ev ≠ 0 → putEventBit s job j ev false = some u → ends i 0 u) ∧
          (o.o1.getLsbD 32 = true → ev ≠ 0 → putEventBit s job j ev false = none →
            ends i 0 (memoryFailed s job (j.evbase + BitVec.ofNat 64 (ev.toNat / 8)) ⟨0, 0, 0, 0, 0, 0, job⟩)))))

/-- R260, R263, R266, R271, R277, R279, R285, R289, R291 to R293, R319, R330, R331, R343: what the commands that set the
distributor, the memory system and the module change. The order of two refusals that hold at once is the model's (log 48); that
RQSET moves the entries of the old queue, that INVAL checks its count with ALL too, and that an INVAL that waits is held with DONE 0
are logs 49 and 48, and what CXLRANGE leaves of older ranges is log 76. -/
def Obligations.SettingCommandsAct : Prop :=
  ∀ (s : State) (o : CmdOps), let all := BitVec.allOnes 64
    let ok (fn : Nat) (masks : List Word) (good : Prop) : Prop := Accepts fn masks o s → good
    let ends (i : Instr) (reply : List Word) (t : State) : Prop := exec i s = .next (withResult 0 true 0 reply t)
    let refused (i : Instr) (status : Nat) : Prop := exec i s = .next (withResult 0 true status [] s)
    let a := o.o1.toNat
    let b := o.o2.toNat
    let die := operand o.o1 0 2
    (
      let k := operand o.o1 32 5
      let bad : Prop := k < 10 ∨ 20 < k ∨ b % 4096 ≠ 0 ∨ 2 ^ 44 < b + 64 * 2 ^ k
      ok 0 [0x0000001F00000003, all] ((bad → refused (.rqset 0 o) 1) ∧
        (¬bad → sget false s.dispatched die = true → refused (.rqset 0 o) 5) ∧
        (¬bad → sget false s.dispatched die = false → ends (.rqset 0 o) [] ((readyEntries s die).foldl
          (fun t e => readyPush t die e) (setDie s die { dieOf s die with ready := some ⟨k, b, 0, 0⟩ }))))) ∧
    ok 0 [0x1F, all] ((256000 < b → refused (.vfslice 0 o) 1) ∧ (b ≤ 256000 →
      ends (.vfslice 0 o) [] { s with nextQuotas := sset 8000 s.nextQuotas (operand o.o1 0 5 + 1) b })) ∧
    (
      let n := operand o.o1 0 10
      let c : BitVec 4 := o.o1.extractLsb' 16 4
      let f := o.o1.getLsbD 24
      let raises : Prop := (classOf s n).toNat < c.toNat ∨ (isFenced s n = true ∧ f = false)
      let lowered : State := { s with classes := sset 5 s.classes n c }
      ok 0 [0x10F03FF] ((raises → refused (.speedset 0 o) 6) ∧
        (¬raises → ends (.speedset 0 o) [] (if f then setFence lowered n else lowered)))) ∧
    ok 0 [all, all, all] ((a % 8 ≠ 0 ∨ 2 ^ 44 ≤ a → refused (.ptecas 0 o) 1) ∧ (a % 8 = 0 → a < 2 ^ 44 →
      let t := meetHeld a 8 s
      let put := physStore t a 8 o.o3.toNat
      ends (.ptecas 0 o) [tableEntry s a] (if tableEntry s a = o.o2 then
        { put with compMapped := put.compMapped || (leafV o.o3 && decide (leafTier o.o3 ≠ 3) && leafComp o.o3) } else t))) ∧
    (∀ fn, let i : Instr := .inval fn o
      let job := operand o.o1 0 10
      let n := if o.o1.getLsbD 63 then 0 else o.o3.toNat
      ok fn [0x80000000000003FF, all, all] (ownJob s fn job ≠ none → 1 ≤ o.o3.toNat → o.o3.toNat ≤ 2 ^ 20 →
        (rangeBusy s job o.o2 n = false → exec i s = .next (withResult fn true 0 [] (invalidate s job o.o2 n))) ∧
        (rangeBusy s job o.o2 n = true → exec i s = .next (
          let t := withResult fn false 0 [] s
          setHostFn t fn { hostFn t fn with pending := some (0x202, o) })))) ∧
    ok 0 [0x0000FFFFFFFF0001, all] ((b < 100 ∨ 1000000 < b → refused (.migcfg 0 o) 1) ∧ (100 ≤ b → b ≤ 1000000 →
      ends (.migcfg 0 o) [] { s with mig := { s.mig with
        enabled := o.o1.getLsbD 0, hot := operand o.o1 16 16, cold := operand o.o1 32 16, epoch := b } })) ∧
    ok 0 [1, all] (b % 2 ^ 16 = 0 → b < 2 ^ 44 →
      (o.o1.getLsbD 0 = true → s.mig.freeT1.length < 4096 →
        ends (.migfree 0 o) [] { s with mig := { s.mig with freeT1 := s.mig.freeT1 ++ [b] } }) ∧
      (o.o1.getLsbD 0 = false → s.mig.freeT0.length < 4096 →
        ends (.migfree 0 o) [] { s with mig := { s.mig with freeT0 := s.mig.freeT0 ++ [b] } })) ∧
    ok 0 [all, all, all] (a % 2 ^ 16 = 0 → a < 2 ^ 44 → b % 4096 = 0 → o.o3.toNat ≤ 2 ^ 24 → b + 4 * o.o3.toNat ≤ 2 ^ 44 →
      let mapped : Bool := s.compMapped || someLeaf s (fun e => leafComp e.leaf)
      (mapped = false → ends (.ovfset 0 o) [] { s with pool := some ⟨a, b, o.o3.toNat, 0, [], false, []⟩ }) ∧
      (mapped = true → refused (.ovfset 0 o) 5)) ∧
    (∀ p, s.pool = some p → ok 0 [all] (a % 2 ^ 16 = 0 → p.base ≤ a → a + 2 ^ 16 ≤ p.base + 512 * 2 ^ 24 → a + 2 ^ 16 ≤ 2 ^ 44 →
      (p.capacity < p.depth + 128 → refused (.ovfadd 0 o) 4) ∧
      (p.depth + 128 ≤ p.capacity →
        ends (.ovfadd 0 o) [] (pushIndices s ((List.range 128).map (fun k => (a - p.base) / 512 + k)))) ∧
      (∀ k, 0 < p.depth → poolPush s p k =
        { physStore s (p.stackAt + 4 * p.depth) 4 k with pool := some { p with depth := p.depth + 1 } }))) ∧
    (
      let k := 4 + operand o.o1 16 4
      ok 0 [0xF0003, all] (k ≤ 12 → b % 4096 = 0 → b + 32 * 2 ^ k ≤ 2 ^ 44 →
        ((dieOf s die).noriaQ ≠ [] → refused (.norset 0 o) 5) ∧
        ((dieOf s die).noriaQ = [] → ends (.norset 0 o) []
          (setDie s die { dieOf s die with noria := some (k, b), noriaTail := 0, noriaAt := 0, noriaDone := [] })))) ∧
    (∀ fn k base, let i : Instr := .norpush fn o
      let d := dieOf s die
      ok fn [3, 0x000000FFFFFF03FF, all, all, all] (operand o.o2 21 3 = 0 ∨ operand o.o2 21 3 = 4 →
        narrowFmt (operand o.o2 16 5) = true → operand o.o2 24 16 ≠ 0 → 1 ≤ o.o4.toNat → o.o4.toNat ≤ 2 ^ 32 →
        o.o3.toNat % 128 = 0 → d.noria = some (k, base) → ownJob s fn (operand o.o2 0 10) ≠ none → d.noriaQ.length < 2 ^ k →
        exec i s = .next (withResult fn true 0 [] (setDie (physWrite s (base + 32 * (d.noriaTail % 2 ^ k)) 32
          (joinFields 64 [o.o2.toNat, o.o3.toNat, o.o4.toNat, o.o5.toNat])) die
          { d with noriaQ := d.noriaQ ++ [[o.o2, o.o3, o.o4, o.o5]], noriaTail := d.noriaTail + 1 })))) ∧
    (
      let v : BitVec 32 := if o.o2.extractLsb' 0 32 = 0 then 1 else o.o2.extractLsb' 0 32
      let every := (List.range 512).foldl (fun g k => sset 0 g k (v.rotateLeft (k % 32))) s.sliceGen
      let gens := if o.o1.getLsbD 15 then every else sset 0 s.sliceGen (operand o.o1 0 9) v
      ok 0 [0x81FF, 0xFFFFFFFF] (ends (.srslice 0 o) [] { s with sliceGen := gens })) ∧
    (
      let job := operand o.o1 0 10
      let kid : BitVec 6 := o.o1.extractLsb' 16 6
      let taken : Prop := kid ≠ 0 ∧ ∃ e ∈ s.jobs, e.1 ≠ job ∧ e.2.kid = kid
      ok 0 [0x3F03FF] ((sfind s.jobs job = none → refused (.keyjob 0 o) 3) ∧ (∀ j, sfind s.jobs job = some j →
        (taken → refused (.keyjob 0 o) 2) ∧
        (¬taken → ends (.keyjob 0 o) [] { s with jobs := sput s.jobs job { j with kid := kid } })))) ∧
    (
      let size := o.o3.toNat
      let kind := operand o.o1 8 2
      let meets (lo n : Nat) : Bool := decide (lo < b + size) && decide (b < lo + n)
      let used : Bool := someLeaf s (fun e => leafTier e.leaf == 1 && meets (leafFrame e.leaf) (leafSize e.level))
      ok 0 [0x301, all, all] (kind ≠ 3 → b % 2 ^ 30 = 0 → size % 2 ^ 30 = 0 → size ≠ 0 → b + size ≤ 2 ^ 44 →
        (used = true → refused (.cxlrange 0 o) 5) ∧
        (used = false → ends (.cxlrange 0 o) [] { s with mem := { s.mem with
          ranges := s.mem.ranges.flatMap (fun r =>
              let stop := r.base + r.size
              if meets r.base r.size = false then [r]
              else (if r.base < b then [{ r with size := b - r.base }] else []) ++
                (if b + size < stop then [{ r with base := b + size, size := stop - (b + size) }] else [])) ++
            [⟨operand o.o1 0 1, if kind = 0 then .tagged else if kind = 1 then .shadow else .untagged, b, size⟩] } }))) ∧
    ok 0 [0x1F, 0x11F] (ends (.featset 0 o) [] { s with
      featMask := sset 0x1F s.featMask (operand o.o1 0 5 + 1) (o.o2.extractLsb' 0 5)
      sigReq := sset false s.sigReq (operand o.o1 0 5 + 1) (o.o2.getLsbD 8) }) ∧
    (∀ fn, let src := operand o.o1 0 8
      let job := operand o.o1 16 10
      let v := operand o.o1 32 6
      let put (t : State) : Prop := exec (.intmap fn o) s = .next (withResult fn true 0 [] t)
      ok fn [0x3F03FF00FF] ((src = 1 → ownJob s fn job ≠ none → put { s with faultMap := sput s.faultMap job v }) ∧
        (src ≤ 4 → src ≠ 1 → job = 0 → put { s with intmap := sput s.intmap (8 * fn + src) v }))) ∧
    (
      let w := operand o.o1 0 12
      ok 0 [0xFFF] ((w < 1200 ∨ 2400 < w → refused (.pwrcap 0 o) 1) ∧ (1200 ≤ w → w ≤ 2400 →
        ends (.pwrcap 0 o) [BitVec.ofNat 64 s.fleet.nextBudget] { s with fleet := { s.fleet with nextBudget := w } })))

/-- R216, R287, R288, R293, R306, R320, R330, R335 to R337, R343: the commands that load code, pre-empt, read and write tags,
install keys, raise the anti-rollback counter, bind network queues, clean, recode and stage firmware. A long command is answered
with DONE 0, and is done, with CMDDONE, at a later move; one that must wait is held with DONE 0 and applied then, INVAL without
CMDDONE; a long command that is refused, or has nothing to do, is done at once, with CMDDONE: these are the model's readings (log 48).
The digests fused into the module and the layout of a firmware image are uninterpreted (log 10); readings of single commands are logs
49 and 50. -/
def Obligations.SystemCommandsAct : Prop :=
  ∀ (s u : State) (fn : Nat) (o : CmdOps),
    let all := BitVec.allOnes 64
    let ok (fn : Nat) (masks : List Word) (good : Prop) : Prop := Accepts fn masks o s → good
    let ends (fn : Nat) (i : Instr) (status : Nat) (reply : List Word) (t : State) : Prop :=
      exec i s = .next (withResult fn true status reply t)
    let goesOn (fn : Nat) (i : Instr) (reply : List Word) (t : State) : Prop := exec i s = .next (withResult fn false 0 reply t)
    let job := operand o.o1 0 10
    let ev : BitVec 16 := o.o1.extractLsb' 16 16
    ((hostFn s fn).pending = none → (hostFn s fn).done = false → exec (.longCommandDone fn) s =
      .next (raiseIrq (setHostFn s fn { hostFn s fn with done := true }) fn .cmddone)) ∧
    (∀ opc a reply, (hostFn s fn).pending = some (opc, a) →
      (opc = 0x202 → invalBody fn a s = .done reply u → exec (.longCommandDone fn) s = .next (setHostFn u fn { hostFn u fn with
        done := true, pending := none, status := 0, reply := (reply ++ List.replicate 7 0).take 7 })) ∧
      (opc = 0x203 → cleanBody fn a s = .finishLater reply u → exec (.longCommandDone fn) s =
        .next (raiseIrq (setHostFn u fn { hostFn u fn with
          done := true, pending := none, status := 0, reply := (reply ++ List.replicate 7 0).take 7 }) fn .cmddone)) ∧
      (opc = 0x202 → invalBody fn a s = .later 0x202 u → exec (.longCommandDone fn) s = .next u)) ∧
    (
      let i : Instr := .load fn o
      let slot := operand o.o1 16 6
      let m : Image := ⟨job, o.o2, o.o3.toNat⟩
      let ob := readObject s m
      let key := (job, BitVec.ofNat 6 slot)
      let kept := s.verified.filter (fun e => e != key)
      ok fn [0x3F03FF, all, all] ((slot = 63 → fn ≠ 0 → exec i s = .next (answered true fn 6 [] s)) ∧
        (∀ j, ¬(slot = 63 ∧ fn ≠ 0) → ownJob s fn job = some j → o.o2.toNat % 128 = 0 → m.readable s = true →
          (slotRuns s job slot = true → exec i s = .next (answered true fn 5 [] s)) ∧
          (slotRuns s job slot = false → loadStatus s j.owner m ≠ 0 →
            exec i s = .next (answered true fn 1 [BitVec.ofNat 64 (loadStatus s j.owner m)] s)) ∧
          (slotRuns s job slot = false → loadStatus s j.owner m = 0 →
            let t := writeSections s m ob (noteReads job 128 m.lines s)
            goesOn fn i [0] { t with
              jobs := sput t.jobs job { j with slots := sput j.slots slot (slotOfObject ob) }
              verified := if ob.head.signed then kept ++ [key] else kept })))) ∧
    (
      let i : Instr := .preempt fn o
      let gs := (jobGangs s job).filter (fun g =>
        o.o1.getLsbD 63 || (liveMembers s g.1 g.2).any (fun k => k.2 == operand o.o2 0 10))
      ok fn [0x80000000000003FF, 0x3FF] (ownJob s fn job ≠ none →
        (gs = [] → exec i s = .next (answered true fn 0 [0] s)) ∧
        (gs ≠ [] → goesOn fn i [BitVec.ofNat 64 gs.length] (gs.foldl (fun t g => preemptGang t g.1 g.2) s)))) ∧
    (∀ p, ownJob s fn job ≠ none → o.o2.toNat % 128 = 0 →
      (ok fn [0x3FF, all, 0xFFFFFFFF] (jobPage s job .store o.o2 = some p → ends fn (.tagset fn o) 0 []
        (noteAccess job p o.o2 (writeLine (meetHeld (p.place o.o2) 128 s) p o.o2
          ⟨o.o3.extractLsb' 0 32, (mergeLine s p o.o2).data⟩)))) ∧
      (ok fn [0x3FF, all] (jobPage s job .load o.o2 = some p → ends fn (.tagget fn o) 0
        [(clearLine s (pageVersion s p) (p.place o.o2)).tag.setWidth 64, (readLine s p o.o2).tag.setWidth 64]
        (noteAccess job p o.o2 (meetHeld (p.place o.o2) 128 s))))) ∧
    (
      let kid := operand o.o1 0 6
      let bits : BitVec 256 := o.o5 ++ o.o4 ++ o.o3 ++ o.o2
      let part := o.o1.getLsbD 8
      ∀ i ∈ [Instr.keysetStage 0 o, .keysetInstall 0 o], ok 0 [0x13F, all, all, all, all] (
        (kid = 0 → ends 0 i 1 [] s) ∧
        (kid ≠ 0 → part = false → ends 0 i 0 []
          { s with keys := sput s.keys kid { keySlotOf s kid with staged := some bits } }) ∧
        (kid ≠ 0 → part = true →
          ((keySlotOf s kid).staged = none → ends 0 i 1 [] s) ∧
          (∀ d, (keySlotOf s kid).staged = some d → ends 0 i 0 [] { s with keys := sput s.keys kid ⟨d, bits, none⟩ })))) ∧
    (
      let id := operand o.o1 0 3
      let y := bigEndian48 o
      let part := o.o1.getLsbD 8
      ∀ i ∈ [Instr.vkeysetStage 0 o, .vkeysetInstall 0 o], ok 0 [0x107, all, all, all, all, all, all] (
        (part = false → ends 0 i 0 [] { s with vkeyX := sput s.vkeyX id y }) ∧
        (part = true → sfind s.vkeyX id = none → ends 0 i 1 [] s) ∧
        (∀ x, part = true → sfind s.vkeyX id = some x →
          let good : Prop := sha384 (4#8 :: beBytes 48 x.toNat ++ beBytes 48 y.toNat) = Config.fusedDigest id
          (good → ends 0 i 0 [] { s with vkeys := sput s.vkeys id (x ++ y : BitVec 768), vkeyX := sdel s.vkeyX id }) ∧
          (¬good → ends 0 i 1 [] s)))) ∧
    (
      let n : BitVec 32 := o.o1.extractLsb' 0 32
      ok 0 [0xFFFFFFFF] ((n.toNat ≤ s.svnCount.toNat → exec (.svninc 0 o) s = .next (answered true 0 1 [] s)) ∧
        (s.svnCount.toNat < n.toNat → ∃ t, exec (.svninc 0 o) s = .next t ∧ t.svnCount = n ∧
          (hostFn t 0).done = false ∧ (hostFn t 0).reply.headD 0 = n.setWidth 64 ∧ t.mem = s.mem ∧ t.core = s.core ∧
          (∀ e ∈ t.jobs, ∀ k ∈ e.2.slots, k.2.signed = true → k.2.svn.toNat < n.toNat → k.2.revoked = true) ∧
          (∀ e ∈ t.verified, e ∈ s.verified)))) ∧
    (
      let qp := operand o.o1 0 10
      let owner := operand o.o1 20 10
      let masks : List Word := [0x13FFF03FF, all, 0xFFFFFFFF00FFFFFF, all, all, all, 0xFFFFFFFF]
      let op := o.o1.getLsbD 32
      ∀ i ∈ [Instr.netqpCreate fn o, .netqpDestroy fn o], ok fn masks (
        (op = false → ownJob s fn owner = none → ends fn i 3 [] s) ∧
        (op = false → ownJob s fn owner ≠ none → sfind s.netqs qp ≠ none → ends fn i 2 [] s) ∧
        (op = false → ownJob s fn owner ≠ none → sfind s.netqs qp = none → o.o2.toNat % 8 = 0 →
          jobWrite s owner o.o2 8 0 false = some u →
          let q : NetQueue :=
            ⟨operand o.o1 16 4, owner, o.o2, [o.o3, o.o4, o.o5, o.o6], o.o7.extractLsb' 0 32, true, false, 0, 0⟩
          ends fn i 0 [] { u with netqs := sput u.netqs qp q }) ∧
        (op = true → sfind s.netqs qp = none → ends fn i 3 [] s) ∧
        (∀ q, op = true → sfind s.netqs qp = some q → ownJob s fn q.job ≠ none →
          let busy : Bool := (allCores s).any (fun c => c.2.ycmds.any (fun y => y.qp == some qp))
          (busy = true → ends fn i 5 [] s) ∧
          (busy = false → ends fn i 0 [] { s with netqs := sdel s.netqs qp })))) ∧
    (
      let i : Instr := .clean fn o
      ok fn [0xFFFF03FF, all, all] (ownJob s fn job ≠ none → o.o2.toNat % 128 = 0 →
        (cleanLines s job o.o2 o.o3.toNat = .ok u → goesOn fn i [] (completeEvent u job ev)) ∧
        (cleanLines s job o.o2 o.o3.toNat = .error u → exec i s = .next (
          let t := withResult fn false 0 [] u
          setHostFn t fn { hostFn t fn with pending := some (0x203, o) })))) ∧
    (
      let i : Instr := .compset 0 o
      let comp := o.o1.getLsbD 32
      let old := o.o4
      let new := withComp (withFrame old o.o3.toNat) comp
      ok 0 [0x1FFFF03FF, all, all, all] (∀ j, sfind s.jobs job = some j → o.o2.toNat % 2 ^ 16 = 0 → o.o3.toNat < 2 ^ 44 →
        o.o3.toNat % (if comp then 2 ^ 15 else 2 ^ 16) = 0 → leafComp old ≠ comp → leafV old = true →
        leafMalformed 0 old = false → leafMalformed 0 new = false → rangeBusy s job o.o2 1 = false →
        (walkFrom s job o.o2 3 (ptbBase j.ptb) = none → goesOn 0 i [0] (completeEvent s job ev)) ∧
        (∀ p q, walkFrom s job o.o2 3 (ptbBase j.ptb) = some (p, q) →
          (p.leaf ≠ old ∨ p.size ≠ 2 ^ 16 → goesOn 0 i [0] (completeEvent s job ev)) ∧
          (p.leaf = old → p.size = 2 ^ 16 →
            let copied (v : State) := moveLines v (keyVersion v (leafKid old)) (leafPlace old) (leafPlace new) 512
            let commits (v : State) : State :=
              let t := physStore v p.entryAt 8 new.toNat
              invalidate { t with compMapped := t.compMapped || (leafV new && decide (leafTier new ≠ 3) && leafComp new) } job o.o2 1
            (comp = true → storeBlocks (copied s) true (leafPlace new) = .ok u → goesOn 0 i [1] (completeEvent (commits u) job ev)) ∧
            (comp = false → storeBlocks s false (leafPlace old) = .ok u →
              goesOn 0 i [1] (completeEvent (freeOverflow (commits (copied u)) (leafPlace old)) job ev)))))) ∧
    (
      let i : Instr := .fwstage 0 o
      let n := o.o2.toNat
      let img := (List.range n).map (fun k => BitVec.ofNat 8 (bytesAt s 0 (o.o1.toNat + k) 1))
      (hostFn s 0).done = true → hostWaits s = false → operandsOk o [all, all] = true → n ≤ 2 ^ 24 → o.o1.toNat + n ≤ 2 ^ 44 →
        (firmwareSigned img = false → goesOn 0 i [1] s) ∧
        (firmwareSigned img = true → (Config.firmwareSvn img).toNat < s.svnCount.toNat → goesOn 0 i [2] s) ∧
        (firmwareSigned img = true → s.svnCount.toNat ≤ (Config.firmwareSvn img).toNat →
          goesOn 0 i [0] { s with
            flash := s.flash.setIfInBounds (if s.bootBank then 0 else 1) (some img), fwFirst := !s.bootBank })) ∧
    ok 0 [0x3FFFF] (
      let found := telemetry s (operand o.o1 0 8) (operand o.o1 8 10)
      (found = none → ends 0 (.telread 0 o) 1 [] s) ∧
      (∀ ws, found = some ws → ends 0 (.telread 0 o) 0 ws { s with core := { s.core with free := s.core.free + 1 } }))

/-- R260 to R263: which record is admitted. The function is the first in order, among those within their quota where there is
one; its job is the one with the largest deficit, after a refill where none is above 0; the job's queue is the one of the lowest
level, in turn. Spilled READY records come first, and a record is admitted only where cores are idle for it. R255, R256, R258,
R263: a record readied goes to the ready queue, to the wait list of its event, or to its job's spillway; the moves that ready
records, and those that release or re-enter them. The place of the physical function in the order is log 46's; the order of
spilled records of several jobs is log 45's. -/
def Obligations.RecordsAreAdmittedAndReadied : Prop :=
  (
    ∀ (s : State) (die : Nat),
      let d := dieOf s die
      let es := eligible s die
      let within (v : Nat) : Prop := sget 0 d.usage v < sget 8000 s.quotas v
      let turn (v : Nat) : Nat := (v + 32 - d.lastVf) % 33
      let ofVf (v : Nat) (l : List (Nat × Queue × Job)) : List (Nat × Queue × Job) := l.filter (fun e => e.2.2.owner == v)
      (∀ v, (∀ e ∈ es, e.2.2.owner < 33) → d.lastVf < 33 → chooseVf s d es = some v →
        (∃ e ∈ es, e.2.2.owner = v) ∧ (∀ e ∈ es, (within e.2.2.owner → within v) ∧
          ((within e.2.2.owner ↔ within v) → turn v ≤ turn e.2.2.owner))) ∧
      (∀ v l job j, sfind s.jobs job = some j → sfind (refill s v l).jobs job = some (
        let q : Int := ((j.weight.toNat * 65536 : Nat) : Int)
        if j.owner = v ∧ (∀ e ∈ l, e.2.2.deficit.toInt ≤ 0) then
          { j with deficit := BitVec.ofInt 64 (min (j.deficit.toInt + q) q) } else j)) ∧
      (∀ l job, chooseJob l = some job → ∃ e ∈ l, e.2.1.job = job ∧ ∀ f ∈ l, f.2.2.deficit.toInt ≤ e.2.2.deficit.toInt ∧
        (f.2.2.deficit = e.2.2.deficit → job ≤ f.2.1.job)) ∧
      (∀ l job n q, List.Pairwise (fun e f => e.1 < f.1) l → chooseQueue d job l = some (n, q) →
        let last := sget 0 d.lastQueue (8 * job + q.level)
        (∃ e ∈ l, e.1 = n ∧ e.2.1 = q) ∧ (∀ e ∈ l, q.level ≤ e.2.1.level ∧
          (e.2.1.level = q.level → q.level < 8 → (last ≤ n → e.1 < n → e.1 < last) ∧ (n < last → e.1 < last ∧ n ≤ e.1)))) ∧
      (d.ready = none → exec (.admitJob die) s = .next s) ∧
      (∀ job, d.ready ≠ none → spillingJob s die = some job → exec (.admitJob die) s = exec (.spillwayReenter die job) s) ∧
      (spillingJob s die = none → (readyRoom d = false ∨ (freeCores s (dieCores die)).length ≤ readyCount d) →
        exec (.admitJob die) s = .next s) ∧
      (∀ v job n q, readyRoom d = true → spillingJob s die = none → readyCount d < (freeCores s (dieCores die)).length →
        chooseVf s d es = some v →
        let t := refill s v (ofVf v es)
        let mine := ofVf v (eligible t die)
        chooseJob mine = some job → chooseQueue d job (mine.filter (fun e => e.2.1.job == job)) = some (n, q) →
        let at_ := q.base + BitVec.ofNat 64 (64 * (q.head % 2 ^ q.k))
        let u := setDie { t with queues := sput t.queues n { q with head := q.head + 1, level := q.prio } } die
          { d with lastVf := v, lastQueue := sset 0 d.lastQueue (8 * job + q.level) (n + 1) }
        exec (.admitJob die) s = .next (match jobRead u job at_ 64 with
          | some b => readyRecord (noteRead job at_ 64 u) die { entryOf b with job := job }
          | none => memoryFailed u job at_ (Entry.none job)))
  ) ∧ (
    ∀ (s u : State) (die job : Nat) (e : Entry) (j : Job),
      let d := dieOf s die
      let ev := entryEvw e
      let set (b : Bool) : Prop := eventBit s e.job j ev = some b
      (sfind s.jobs e.job = some j →
        (j.stopped = true → readyRecord s die e = faultEntry s e.job e 6 e.d0) ∧
        (let read := noteEvent e.job j ev s
         (j.stopped = false → (ev = 0 ∨ set true) →
          let t := reenterAll read die
          ((∀ k, spilledReady s die k = []) → t = read) ∧
          (jobStopped t e.job = true → readyRecord s die e = faultEntry t e.job e 6 e.d0) ∧
          (jobStopped t e.job = false → readyRoom (dieOf t die) = true → readyRecord s die e = readyPush t die e) ∧
          (jobStopped t e.job = false → readyRoom (dieOf t die) = false → readyRecord s die e = spill t die e true)) ∧
         (j.stopped = false → set false →
          (d.waiting.length < 8192 → readyRecord s die e = setDie read die { d with waiting := d.waiting ++ [(e.job, ev, e)] }) ∧
          (8192 ≤ d.waiting.length → readyRecord s die e = spill read die e false)))) ∧
      (∀ r, d.ready = some r → readyPush s die e =
        setDie (physWrite s (r.base + 64 * (r.tail % 2 ^ r.k)) 64 (entryBits e 0 0 false)) die
          { d with ready := some { r with tail := r.tail + 1 } }) ∧
      (∀ slice es, launchQueue s slice = e :: es → exec (.launchQueueDrain slice) s =
        .next (readyRecord { s with launch := sset [] s.launch slice es } (slice / 128) e)) ∧
      (∀ slice, launchQueue s slice = [] → exec (.launchQueueDrain slice) s = .next s) ∧
      (∀ w, exec (.eventRelease die job w) s = .next (match sfind s.jobs job with
        | none => s
        | some k =>
          let read := noteEvent job k w s
          if eventBit s job k w = some true then releaseWaiting read die job w else read)) ∧
      (readyRoom d = false ∨ jobStopped s job = true → exec (.spillwayReenter die job) s = .next s) ∧
      (readyRoom d = true → jobStopped s job = false →
        (∀ va, (spillWalk s job).2 = some va →
          exec (.spillwayReenter die job) s = .next (memoryFailed (noteChain job s) job va ⟨0, 0, 0, 0, 0, 0, job⟩)) ∧
        ((spillWalk s job).2 = none → spilledReady s die job = [] → exec (.spillwayReenter die job) s = .next s) ∧
        (∀ x rest k, (spillWalk s job).2 = none → spilledReady s die job = x :: rest →
          spillRelease (noteChain job s) job x = .ok u → sfind u.jobs job = some k →
          let w := entryEvw x.entry
          (eventBit u job k w = some true → exec (.spillwayReenter die job) s = .next (readyPush (noteEvent job k w u) die x.entry)) ∧
          (eventBit u job k w = some false → exec (.spillwayReenter die job) s = .next (waitRecord (noteEvent job k w u) die x.entry))))
  )

/-- R264: the checks of a popped entry in their order, each with its report; an entry that passes them starts its run. R19,
R264, R295: the state that a run starts with, on the core that moves, as member gid of size members. A table entry with a
nonzero reserved bit faults CFI before the first word. Which registers R19 leaves as they were is log 46's; that a run of SLOT
63 finds the save window in its live a24 is log 24's reading of R295; the CFI at dispatch, and the ALIGN of an ADDR that is no
multiple of 4, are log 73's. -/
def Obligations.PoppedEntriesAreCheckedAndStart : Prop :=
  (
    ∀ (s : State) (e : Entry),
      let die := s.cur / 256
      let t := notePopped e (readyPop s die)
      coreFree s s.cur = true → reservationFor s s.cur = none →
      (readyHead s die = none → exec .dispatch s = .next s) ∧
      (readyHead s die = some e → entryGsz e = 0 →
        let reports (code : Nat) (info : Word) : Prop := exec .dispatch s = .next (faultEntry t e.job e code info)
        (sfind s.jobs e.job = none → exec .dispatch s = .next t) ∧
        (∀ j, sfind s.jobs e.job = some j →
          (j.stopped = true → reports 6 e.d0) ∧
          (j.stopped = false → sfind j.slots e.slot.toNat = none → reports 9 (e.slot.setWidth 64)) ∧
          (∀ sl, j.stopped = false → sfind j.slots e.slot.toNat = some sl →
            let fti := operand e.d0 0 20
            let at_ := sl.base + BitVec.ofNat 64 (16 * fti)
            (sl.revoked = true → reports 8 (sl.svn.setWidth 64)) ∧
            (sl.revoked = false → sl.len ≤ fti → reports 1 e.d0) ∧
            (sl.revoked = false → fti < sl.len →
              (jobRead t e.job at_ 16 = none → exec .dispatch s = .next (memoryFailed t e.job at_ e)) ∧
              (∀ b, jobRead t e.job at_ 16 = some b →
                let dual : Prop := operand e.d0 28 2 = 0 ∨ (featuresOf s j.owner).getLsbD 0 = true
                let f := funcEntry (BitVec.ofNat 128 b)
                (¬dual → reports 3 e.d0) ∧
                (dual → exec .dispatch s = .next (startMembers t die [s.cur] e j sl f)) ∧ f.addr = BitVec.ofNat 48 b)))))
  ) ∧ (
    ∀ (s : State) (e : Entry) (j : Job) (sl : Slot) (f0 : FuncEntry) (gid size g : Nat), gid < 256 → size ≤ 256 →
      let f : FuncEntry := { f0 with reserved := false, addr := f0.addr &&& ~~~3#48 }
      let t := startRun s s.cur e j sl f gid size g
      let c := t.core
      startRun s s.cur e j sl { f0 with reserved := true } gid size g =
        takeTrap ⟨8, BitVec.ofNat 64 (operand e.d0 0 20), false, 0⟩ 0 t ∧
      (f0.addr.toNat % 4 ≠ 0 → startRun s s.cur e j sl { f0 with reserved := false } gid size g =
        takeTrap ⟨3, f0.addr.setWidth 64, false, 0⟩ 0 t) ∧
      let window : Word := BitVec.ofNat 64 (0xFFFFFF0000000000 + 0x50000 * s.cur)
      let handler : Prop := e.slot = 63
      c.run = some ⟨e.job, e.slot, e.d0, e.d2, sl.base, sl.len, some g⟩ ∧
      c.pc = (f0.addr &&& ~~~3#48).setWidth 64 ∧ c.records = [] ∧
      (∀ i < 32, c.s[i]?.getD 0 = if i = 3 then e.d1 else if i = 4 then e.d3 else if i = 5 then e.d2 else 0) ∧
      (handler → (∀ i < 32, c.a[i]?.getD 0 = if i = 24 then window else 0) ∧ c.trapA = Vector.replicate 8 0 ∧
        c.csr.status = 0b01010#5 ∧ c.csr.epc = 0) ∧
      (¬handler → c.a = Vector.replicate 32 0 ∧ (∀ i < 8, c.trapA[i]?.getD 0 = if i = 0 then window else 0) ∧
        c.csr.status = 0) ∧
      c.trapS = Vector.replicate 8 0 ∧
      c.csr.tmode.toNat = operand e.d0 28 2 ∧ c.csr.gid.toNat = gid ∧ c.csr.gsize.toNat = size ∧
      c.v = Vector.replicate 64 ⟨0, 0x507F0000⟩ ∧
      c.t1 = Vector.replicate 64 0 ∧ c.t2 = Vector.replicate 64 0 ∧ c.t3 = Vector.replicate 64 0 ∧
      c.p = Vector.replicate 16 (BitVec.allOnes 64) ∧ c.tiles = Vector.replicate 32 ⟨0, 0, 0, []⟩ ∧
      c.user = Rings.empty ∧ c.trap = Rings.empty ∧ c.flumes = Vector.replicate 8 [] ∧ c.bq = [] ∧
      c.tokens = Vector.replicate 16 0 ∧ c.csr.flags = 0 ∧ c.csr.rmode = 0 ∧ c.csr.rrb = 0 ∧
      c.gens = ⟨1, 0x00010000, 0x00000100, 0x01000000⟩ ∧ c.seq = Sequencer.zero ∧ c.desc = Vector.replicate 16 0 ∧
      c.csr.latb = j.latb ∧ c.csr.age = j.age ∧ c.csr.waitlim = j.waitlim ∧
      ptbJob c.csr.ptb = e.job % 1024 ∧ ptbBase c.csr.ptb = ptbBase j.ptb ∧
      c.csr.features = featuresOf s j.owner ∧ c.csr.speed = classOf s s.cur ∧
      t.mem = s.mem ∧ t.jobs = s.jobs
  )

/-- R265: an entry of a gang takes the die's reservation register, or waits for it; the cluster of a small gang; cores are
reserved as they fall idle, and when all are there and none has a test to run (R340) the gang starts, its members numbered by
ascending core number; an idle core of the pool goes to the reservation first. -/
def Obligations.GangsReserveTheirCores : Prop :=
  ∀ (s : State) (die : Nat) (e : Entry),
    let d := dieOf s die
    let n := operand e.d0 20 8 + 1
    let goes (t : State) : Prop := exec (.gangReserve die) s = .next t
    let register (t : State) (k : Option Nat) (cores : List Nat) : State :=
      setDie t die { dieOf t die with reservation := some e, reserveCluster := k, reserved := cores }
    (∀ k, pickCluster s die n = some k → 32 * die ≤ k ∧ k < 32 * die + 32 ∧ n ≤ unfenced s (clusterCores k) ∧
      (∀ m, 32 * die ≤ m → m < 32 * die + 32 → n ≤ unfenced s (clusterCores m) →
        let idle (x : Nat) := (freeCores s (clusterCores x)).length
        idle m < idle k ∨ (idle m = idle k ∧ k ≤ m))) ∧
    (d.reservation = none →
      (readyHead s die = none → goes s) ∧
      (readyHead s die = some e → n = 1 → goes s) ∧
      (readyHead s die = some e → n ≠ 1 →
        let t := notePopped e (readyPop s die)
        (∀ code info, checkEntry t e = .fault code info → goes (faultEntry t e.job e code info)) ∧
        (∀ j sl f, checkEntry t e = .run j sl f →
          f.gang = true ∧
          (n ≤ 8 → pickCluster t die n = none → goes (faultEntry t e.job e 4 e.d0)) ∧
          (∀ k, n ≤ 8 → pickCluster t die n = some k → die < 4 → exec (.gangReserve die) s = exec (.gangReserve die) (register t (some k) [])) ∧
          (8 < n → unfenced t (dieCores die) < n → goes (faultEntry t e.job e 4 e.d0)) ∧
          (8 < n → n ≤ unfenced t (dieCores die) → die < 4 →
            exec (.gangReserve die) s = exec (.gangReserve die) (register t none []))))) ∧
    (d.reservation = some e →
      let pool := match d.reserveCluster with | some k => clusterCores k | none => dieCores die
      let held := d.reserved.filter (fun m => !isFenced s m)
      let t := setDie s die { d with reserved := held }
      let members := held ++ (freeCores t pool).take (n - held.length)
      let freed (t : State) : State :=
        setDie t die { dieOf t die with reservation := none, reserveCluster := none, reserved := [] }
      (unfenced s pool < n → goes (faultEntry (freed s) e.job e 4 e.d0)) ∧
      (n ≤ unfenced s pool →
        (members.length < n ∨ (∃ m ∈ members, testPending t m = true) →
          goes (setDie t die { dieOf t die with reserved := members })) ∧
        (n ≤ members.length → (∀ m ∈ members, testPending t m = false) →
          let u := notePopped e (freed t)
          (∀ j sl f, checkEntry u e = .run j sl f → goes (startMembers u die (pool.filter members.contains) e j sl f)) ∧
          (∀ code info, checkEntry u e = .fault code info → goes (faultEntry u e.job e code info)))) ∧
      (die = s.cur / 256 → pool.contains s.cur = true → coreFree s s.cur = true → exec .dispatch s = exec (.gangReserve die) s))

/-- R260, R262, R108, R140, R306: the end of an accounting period; the ageing of a queue that waits; a launch applied once its
queue has room; a pre-emption reaches every member of the gang at once, and a member in its handler takes it later, as one whose WAPP
has accesses left does (log 35). -/
def Obligations.PeriodsAgeingAndPreemption : Prop :=
  ∀ (s : State),
    exec .vfPeriodEnd s = .next { s with quotas := s.nextQuotas, dies := s.dies.map (fun d => { d with usage := [] }) } ∧
    (∀ n, sfind s.queues n = none → exec (.queueAge n) s = .next s) ∧
    (∀ n q j, sfind s.queues n = some q → sfind s.jobs q.job = some j →
      (j.age = 0 ∨ q.tail ≤ q.head → exec (.queueAge n) s = .next s) ∧
      (j.age ≠ 0 → q.head < q.tail →
        exec (.queueAge n) s = .next { s with queues := sput s.queues n { q with level := q.level - 1 } })) ∧
    ((∀ w ∈ s.stalled, launchRoom s w.queue = false) → exec .deferredLaunchApply s = .next s) ∧
    (∀ w rest, s.stalled = w :: rest → launchRoom s w.queue = true →
      exec .deferredLaunchApply s = .next (asCore s w.core (applyStalled w.kind))) ∧
    (gangOf s = none → exec .gangPreemptEvent s = .next s) ∧
    (∀ n g, gangOf s = some (n, g) → exec .gangPreemptEvent s =
      .next ((liveMembers s n g).foldl (fun t m => asCore t m.2 preemptMember) s)) ∧
    (s.core.run ≠ none →
      (s.core.csr.status.getLsbD 3 = true ∨ s.core.pending ≠ none ∨ s.core.append ≠ none →
        (preemptMember s).core.csr.status = (1#5 <<< 4) ||| s.core.csr.status ∧ (preemptMember s).mem = s.mem ∧
        (preemptMember s).core.pc = s.core.pc ∧ (preemptMember s).core.s = s.core.s) ∧
      (s.core.csr.status.getLsbD 3 = false → s.core.pending = none → s.core.append = none →
        preemptMember s = takeTrap ⟨12, 0, false, 0⟩ 5 s))

/-- R279, R280, R283, R285: the end of a migration epoch takes its candidates; a move begins, and commits by compare-and-swap of
the leaf; a held block is coded and written back, or waits for an overflow block and raises OVFLOW. R216, R290, R291: the
noria's lines reach their homes in any order; it recodes one that qualifies, after every word that waits there, and skips or
passes over the others; each is counted, and after the last the counts are reported and the event is set. Order among equals and
steps of one line are logs 54, 56 and 57. -/
def Obligations.MemoryMoversActAtTheHomes : Prop :=
  (
    ∀ (s t : State),
      let desc (l : List MigCount) : Prop := List.Pairwise (fun x y => y.count ≤ x.count) l
      let page (tier : Nat) (c : MigCount) : Prop := ∃ job j e, (job, j) ∈ s.jobs ∧ e ∈ jobLeaves s j ∧ movable s e = true ∧
        leafTier e.leaf = tier ∧ c = ⟨e.entryAt, job, e.va, pageCount s e.entryAt⟩
      let moves (u : State) : Prop := exec .migratePage s = .next u
      (s.mig.enabled = false → exec .migrationEpoch s = .next s) ∧
      (s.mig.enabled = true → ∃ up down,
        exec .migrationEpoch s = .next { s with mig := { s.mig with counts := [], candidates := up ++ down } } ∧
        desc up ∧ desc down ∧
        (∀ c, c ∈ up ↔ page 1 c ∧ s.mig.hot ≤ c.count) ∧ (∀ c, c ∈ down ↔ page 0 c ∧ c.count ≤ s.mig.cold)) ∧
      (s.mig.moving = none → s.mig.enabled = false → moves s) ∧
      (∀ c rest l f fs, s.mig.moving = none → s.mig.enabled = true → s.mig.candidates = c :: rest → moveLeaf s c = some l →
        (leafTier l = 1 → s.mig.freeT0 = f :: fs → moves { s with mig := { s.mig with
          candidates := rest.filter (fun x => x ≠ c), moving := some ⟨c, l, f⟩, freeT0 := fs } }) ∧
        (leafTier l = 0 → s.mig.freeT1.find? (carriesTags s) = some f → moves { s with mig := { s.mig with
          candidates := rest.filter (fun x => x ≠ c), moving := some ⟨c, l, f⟩, freeT1 := s.mig.freeT1.erase f } })) ∧
      (∀ m, s.mig.moving = some m →
        let dst := if leafTier m.leaf = 1 then 0 else 1
        let new := withTier (withFrame m.leaf m.dest) dst
        let rest := { s.mig with moving := none }
        let fits : Prop := dst = 1 → carriesTags s m.dest = true
        (tableEntry s m.page.entryAt ≠ m.leaf ∨ ¬fits →
          moves (raiseDeverr { s with mig := { returnFrame rest dst m.dest with failed := s.mig.failed + 1 } })) ∧
        (tableEntry s m.page.entryAt = m.leaf → fits → accessesHeld s m.page.job m.page.va 1 = true → moves s) ∧
        (tableEntry s m.page.entryAt = m.leaf → fits → accessesHeld s m.page.job m.page.va 1 = false →
          let copied := moveLines s (keyVersion s (leafKid m.leaf)) (leafPlace m.leaf) (leafPlace new) 512
          let u := invalidate (physStore copied m.page.entryAt 8 new.toNat) m.page.job m.page.va 1
          moves { u with mig := returnFrame rest (leafTier m.leaf) (leafFrame m.leaf) })) ∧
      (∀ line, let i : Instr := .blockWriteback line
        let p := 128 * line
        (isAperture p = false ∨ blockHeld s p = false → exec i s = .next s) ∧
        (isAperture p = true → blockHeld s p = true → storeBlock s false p = some t → exec i s = .next t) ∧
        (∀ q, isAperture p = true → blockHeld s p = true → storeBlock s false p = none → s.pool = some q →
          let u : State := { s with pool := some { q with
            waiting := if q.waiting.contains (line / 4) then q.waiting else q.waiting ++ [line / 4], raised := true } }
          exec i s = .next (if q.raised then u else raiseIrq u 0 .ovflow)))
  ) ∧ (
    ∀ (s : State) (die : Nat) (e : List Word) (rest : List (List Word)),
      let d := dieOf s die
      let w (k : Nat) : Word := e.getD k 0
      let job := operand (w 0) 0 10
      let fmt := operand (w 0) 16 5
      let sr : Prop := operand (w 0) 21 3 = 4
      let n := unappliedLine d.noriaAt s.pick d.noriaDone
      let marks := markApplied n d.noriaAt d.noriaDone
      let va := w 1 + BitVec.ofNat 64 (128 * n)
      let stands : Prop := exec (.noriaRecodeLine die) s = .next s
      let d' : Die := { d with noriaAt := marks.1, noriaDone := marks.2 }
      let goes (t : State) : Prop := exec (.noriaRecodeLine die) s =
        .next (if (w 2).toNat ≤ marks.1 then noriaEnd t die job (w 3) ((w 0).extractLsb' 24 16) else t)
      let counted (f : Sparse Nat) : Sparse Nat := sset 0 f die (sget 0 f die + 1)
      let lost (u : State) : State := { u with fleet := { u.fleet with unrecoded := counted u.fleet.unrecoded } }
      (d.noriaDone = [] → n = d.noriaAt + s.pick ∧ marks = if s.pick = 0 then (d.noriaAt + 1, []) else (d.noriaAt, [n])) ∧
      (d.noriaQ = [] → stands) ∧
      (d.noriaQ = e :: rest → (w 2).toNat ≤ n → stands) ∧
      (d.noriaQ = e :: rest → n < (w 2).toNat →
        ((sfind s.jobs job = none ∨ ∃ j, sfind s.jobs job = some j ∧ (j.stopped = true ∨ jobPage s job .store va = none)) →
          goes (setDie (lost s) die { d' with unmapped := d.unmapped + 1 })) ∧
        (∀ j p, sfind s.jobs job = some j → j.stopped = false → jobPage s job .store va = some p →
          let place := p.place va
          let l := clearLine s (pageVersion s p) place
          let tag := if untaggedAt s place then dfmtTag p.dfmt else l.tag
          let takes : Prop := linePoisoned s.mem place = false ∧ tagVc tag = 0 ∧ tagMalformed tag = false ∧
            (if tagFill tag then elemBits fmt < elemBits (tagFmt tag) else tagFmt tag = 0x0B ∨ tagFmt tag = 0x0C)
          (lineHeld s place = true → stands) ∧
          (lineHeld s place = false → ¬takes →
            goes (setDie (lost (noteAccess job p va s)) die { d' with skipped := d.skipped + 1 })) ∧
          (lineHeld s place = false → takes → let k := homeSliceOf p place
            let g := advance (sliceState s k)
            let r := recodeLine fmt (if sr then .sr else .rne) (if sr then g else 0) tag l.data
            let u := noteAccess job p va
              (writeLine (if sr then { s with sliceGen := sset 0 s.sliceGen k g } else s) p va ⟨r.1, r.2⟩)
            goes (setDie { u with fleet := { u.fleet with recoded := counted u.fleet.recoded } } die
              { d' with recoded := d.recoded + 1 })))) ∧
      (∀ (report : Word) (ev : BitVec 16) (u1 u2 u3 : State),
        let ended : State := setDie s die { d with
          noriaQ := d.noriaQ.drop 1, noriaAt := 0, noriaDone := [], recoded := 0, skipped := 0, unmapped := 0 }
        (report = 0 → noriaEnd s die job report ev = completeEvent ended job ev) ∧
        (report ≠ 0 → report.toNat % 8 = 0 → jobWrite ended job report 8 d.recoded true = some u1 →
          jobWrite u1 job (report + 8) 8 d.skipped true = some u2 → jobWrite u2 job (report + 16) 8 d.unmapped true = some u3 →
          noriaEnd s die job report ev = completeEvent u3 job ev)) ∧
      (∀ (va : Word) (n v : Nat), let k := 128 - va.toNat % 128
        linePieces va n v = if n ≤ k then [(va, n, v)] else [(va, k, v % 256 ^ k), (va + BitVec.ofNat 64 k, n - k, v / 256 ^ k)])
  )

/-- R337, R339 to R342: the weir's grants change counters alone; an error is counted, schedules one test of its unit, and
poisons what it did not correct; a test classes its errors, and repairs or fences; a core whose test is pending takes no run; a
culvert lane takes a spare; a module reset keeps fuses and flash, and boots the bank to be tried first, or the other. Grants,
lasting faults and spare rows are free (log 11); the boot is logs 4 and 74's. -/
def Obligations.ErrorsTestsGrantsAndReset : Prop :=
  ∀ (s : State),
    let k := s.core.free
    let drawn : State := { s with core := { s.core with free := k + 1 } }
    let zero : CoreTel := ⟨0, 0, 0, 0, 0, 0, 0, false⟩
    let coreTel (u : State) (n : Nat) (f : CoreTel → CoreTel) : State :=
      { u with fleet := { u.fleet with cores := sset zero u.fleet.cores n (f (sget zero u.fleet.cores n)) } }
    (∃ thr heat, exec .weirGrant s = .next { drawn with
      fleet := { s.fleet with budget := s.fleet.nextBudget, throttled := thr, heat := heat } }) ∧
    (∀ core off, let site : ErrorSite := .scratchpad core off
      let pending (t : SelfTest) : Bool := !t.due && sameUnit t.site site
      let counted (t : SelfTest) : SelfTest := if pending t then { t with errors := t.errors + 1 } else t
      let scheduled : List SelfTest := if s.fleet.tests.any pending then s.fleet.tests.map counted
        else s.fleet.tests ++ [⟨site, 1, false⟩]
      let tests (u : State) : State := { u with fleet := { u.fleet with tests := scheduled } }
      exec (.errorDetected ⟨site, false⟩) s =
        .next (raiseIrq (tests (coreTel s core (fun t => { t with corrected := t.corrected + 1 }))) 0 .deverr) ∧
      exec (.errorDetected ⟨site, true⟩) s =
        .next (raiseIrq (poisonWord (tests (coreTel s core (fun t => { t with uncorrected := t.uncorrected + 1 })))
          (placeScratch core (off % scratchSize))) 0 .deverr)) ∧
    (∀ core core' a b, sameUnit (.scratchpad core a) (.scratchpad core' b) = true ↔
      core = core' ∧ 8 * (a / 196608) + a / 128 % 8 = 8 * (b / 196608) + b / 128 % 8) ∧
    (∀ core core' a b, sameUnit (.culvert core a) (.culvert core' b) = true ↔ core = core' ∧ a = b) ∧
    (∀ core bank errors due, ⟨.registerFile core bank, errors, due⟩ ∈ s.fleet.tests → core = s.cur → exec .dispatch s = .next s) ∧
    (∀ line, exec (.errorDetected ⟨.hbm line, false⟩) s =
        .next (raiseIrq { s with fleet := { s.fleet with hbmCorrected := s.fleet.hbmCorrected + 1 } } 0 .deverr) ∧
      exec (.errorDetected ⟨.hbm line, true⟩) s = .next (raiseIrq
        (poisonLine { s with fleet := { s.fleet with hbmUncorrected := s.fleet.hbmUncorrected + 1 } } line) 0 .deverr)) ∧
    (∀ n, s.fleet.tests[n]? = none → exec (.selfTest n) s = .next s) ∧
    (∀ n core bank errors, s.fleet.tests[n]? = some ⟨.registerFile core bank, errors, false⟩ →
      ((coreOf s core).run ≠ none → exec (.selfTest n) s = .next s) ∧
      ((coreOf s core).run = none →
        let lasting := Config.lastingFault k
        let u : State := raiseIrq (coreTel drawn core (fun t =>
          if lasting then { t with lasting := t.lasting + 1 } else { t with soft := t.soft + errors })) 0 .deverr
        let done : State := { u with fleet := { u.fleet with tests := s.fleet.tests.eraseIdx n } }
        let spare : Prop := (sget zero done.fleet.cores core).spareRows < Config.spareRows core
        exec (.selfTest n) s = .next (
          if lasting = false then done
          else if spare then coreTel done core (fun t => { t with spareRows := t.spareRows + 1 })
          else setFence (coreTel done core (fun t => { t with selfFenced := true })) core))) ∧
    (∀ core lane t, let due (t : SelfTest) : Bool := t.due && (match t.site with | .culvert c _ => c == core | _ => false)
      let done : State := { drawn with fleet := { s.fleet with
        tests := s.fleet.tests.filter (fun t => !(t.due && sameUnit t.site (.culvert core lane)))
        resent := s.fleet.resent + Config.freeNat k } }
      (s.fleet.tests.any due = false → exec (.culvertRemap core) s = .next s) ∧
      (s.fleet.tests.find? due = some t → t.site = .culvert core lane → exec (.culvertRemap core) s = .next (
        if (sget zero s.fleet.cores core).spareLanes < 4 then
          raiseIrq (coreTel done core (fun t => { t with spareLanes := t.spareLanes + 1 })) 0 .deverr
        else raiseIrq (setFence (coreTel done core (fun t => { t with selfFenced := true })) core) 0 .deverr))) ∧
    (let fresh : State := { State.reset with
       classes := s.classes, fenced := s.fenced, svnCount := s.svnCount, fwSvn := s.fwSvn, bootBank := s.bootBank
       flash := s.flash, fwFirst := s.fwFirst, fleet := { State.reset.fleet with cores := keptFences s.fleet.cores } }
     let boots (b : Bool) : Bool :=
       firmwareSigned (flashImage s b) && decide (s.svnCount.toNat ≤ (Config.firmwareSvn (flashImage s b)).toNat)
     let booted (b : Bool) : State := { fresh with bootBank := b, fwSvn := Config.firmwareSvn (flashImage s b) }
     (boots s.fwFirst = true → exec .moduleReset s = .next (booted s.fwFirst)) ∧
     (boots s.fwFirst = false → boots (!s.fwFirst) = true → exec .moduleReset s = .next (booted (!s.fwFirst))) ∧
     (boots s.fwFirst = false → boots (!s.fwFirst) = false → exec .moduleReset s = .next { fresh with bootState := 2 }))

/-- R21, R115, R335, R336: a line of a network copy goes out or returns in the order of its queue's commands, is written, and is
counted at its barrier; a queue that fails leaves READY, its commands complete, their unacknowledged lines are added to DROPPED,
and its status is written before NETQ is raised; a wait of more than WAITLIM ticks faults at the word that waits, of several the
one whose limit expired first. How waits are counted is log 27's; answers of the link are free (log 13). -/
def Obligations.NetworkAnswersAndTimeouts : Prop :=
  ∀ (s u : State),
    (∀ k, (s.core.ycmds[k]? = none → exec (.netAck k) s = .next s) ∧
      (∀ y, s.core.ycmds[k]? = some y →
        let b := y.landed
        let h := shapeOf y.shape
        let off := (y.sf.extractLsb' 0 20).toNat
        let first : Prop := ∀ c ∈ s.core :: s.parked.map Prod.snd, ∀ z ∈ c.ycmds, z.qp = y.qp → z.landed < z.size →
          y.ticket ≤ z.ticket
        let lands (y' : YCommand) (v : State) : Prop := exec (.netAck k) s = .next ((countLanded y.barrier v).onCore
          (fun c => { c with ycmds := c.ycmds.set k { y' with landed := b + 128 } }))
        let put (v : State) (l : Line) : State := { v with mem := putLine v.mem (placeScratch v.cur (off + b)) 0 l }
        (y.qp = none ∨ y.size ≤ y.landed ∨ ¬first ∨ landReady y s = false → exec (.netAck k) s = .next s) ∧
        (∀ q n R x0, y.qp = some q → y.landed < y.size → first → y.kind = .cpy → h.cvt = false → y.pages = [] → y.above = [] →
          y.got = [] → y.written = [] → b % 128 = 0 → quiesced s y = false → lineHeld s (placeScratch s.cur (off + b)) = false →
          sfind s.netqs q = some n → (h.sources b).headD none = some (R, x0) →
          let va := h.lineVa 1 R x0
          let remote : Word := n.remote.getD 1 0 + BitVec.ofNat 64 ((va.toNat - netBase) % 2 ^ 30)
          (y.sf.getLsbD 20 = true → feeders h (y.sg.extractLsb' 0 48).toNat R x0 = [b] →
            let l := scratchLine s (off + b)
            lands { y with got := [(b, 0, l)], written := [(R, x0)] } { s with sent := s.sent ++ [⟨q, remote, true, l.tag, padLine l.tag l.data⟩] }) ∧
          (y.sf.getLsbD 20 = false →
            let x := s.core.free
            let l : Line := if Config.tagsTravel q then yieldLine false false 0 ⟨Config.linkTag x, Config.linkData x⟩
              else ⟨dfmtTag (Config.freeNat x % 32), Config.linkData x⟩
            lands y (put { s with core := { s.core with free := x + 1 }, sent := s.sent ++ [⟨q, remote, false, l.tag, l.data⟩] }
              ⟨l.tag, padLine l.tag l.data⟩))))) ∧
    (∀ qp refused, let i : Instr := .netqFail qp refused
      let gone (c : Core) : List YCommand := c.ycmds.filter (fun y => y.qp == some qp)
      let left (c : Core) : Nat := ((gone c).map (fun y => (y.size - y.landed) / 128)).sum
      let fails (c : Core) : Core := (gone c).foldl
        (fun c y => addToken y.raise { c with csr := { c.csr with flags := c.csr.flags ||| y.flags } })
        { c with ycmds := c.ycmds.filter (fun y => y.qp != some qp) }
      (sfind s.netqs qp = none → exec i s = .next s) ∧
      (∀ q, sfind s.netqs qp = some q →
        let dropped := q.dropped + BitVec.ofNat 32 ((s.core :: s.parked.map Prod.snd).map left).sum
        let t : State := { s with
          core := fails s.core
          parked := s.parked.foldl (fun l e => sset Core.idle l e.1 (fails e.2)) s.parked
          netqs := sput s.netqs qp { q with ready := false, refused := refused, dropped := dropped } }
        (q.ready = false → exec i s = .next s) ∧
        (∀ j, q.ready = true →
          jobWrite t q.job q.statusVa 8 ((if refused then 2 else 1) + dropped.toNat * 2 ^ 32) false = some u →
          sfind u.jobs q.job = some j → exec i s = .next (raiseIrq u j.owner .netq)))) ∧
    (s.core.run = none → exec .waittimeout s = .next s) ∧
    (s.core.run ≠ none → s.core.csr.waitlim = 0 → exec .waittimeout s = .next s) ∧
    (∀ (e : Engine) (r : RingEntry) (w : WaitOn), headOf s.core e = some r → startHead e r s = .error (.wait w) → w.detail ≠ 0 →
      (e = .A → s.core.issued = none) → headWait s e = some w) ∧
    (∀ (e : Engine) (r : RingEntry) (w : WaitOn),
      let q := s.core.waits[engineIndex e]?.getD Waiting.none
      let mine : Late := ⟨q.ticks, r.ord, BitVec.ofNat 3 (engineIndex e + 1), w⟩
      s.core.run ≠ none → s.core.csr.waitlim ≠ 0 → headOf s.core e = some r → headWait s e = some w → w.detail ≤ 8 →
      q.detail = w.detail → q.tval = w.tval → s.core.csr.waitlim.toNat < q.ticks →
      (∀ l ∈ lateWaits s, l = mine ∨ l.ticks < q.ticks ∨ (l.ticks = q.ticks ∧ r.ord < l.ord)) →
      exec .waittimeout s =
        .next (raiseFault r.ord (BitVec.ofNat 3 (engineIndex e + 1)) ⟨11, w.tval, false, BitVec.ofNat 16 w.detail⟩ s)) ∧
    (let q := s.core.waits[4]?.getD Waiting.none
     let faults (d : Nat) : Prop := q.detail = d → q.tval = 0 →
       exec .waittimeout s = .next (raiseFault s.core.ord 0 ⟨11, 0, false, BitVec.ofNat 16 d⟩ s)
     s.core.run ≠ none → s.core.csr.waitlim ≠ 0 → s.core.csr.waitlim.toNat < q.ticks →
     (∀ l ∈ lateWaits s, l.ring = 0 ∨ l.ticks < q.ticks ∨ (l.ticks = q.ticks ∧ s.core.ord < l.ord)) →
     (s.core.arrived ≠ none → faults 7) ∧ (s.core.arrived = none → waitsOnBq s = true → faults 6))

/-- R325 to R328: host writes and reads through DATA reach memory through the job's tables or, with PHYS, untranslated; what
fails is counted and reads all ones; WINCTL keeps its fields, the MSI-X table is written and sends what was pending, a 64-byte
write of CMD issues the command that its OPC names, and the registers read as they stand; outside STATE 1 only BOOTSTAT is read.
R333, R336: a peer's request is served at the line, its tag travelling with it; an access that carries the queue's key is
translated through the queue's job and applied, and any other is refused. Accesses of other sizes, and a line at which a word
waits, are log 51's; that host accesses wait behind an INVAL that waits is log 49's; physical addresses beyond 44 bits log 52's;
that a peer reads and writes without a key, and that a PHYS write keeps the standing keys, is the model's choice (log 55), as
the masked default of a vector with its pending message is (log 14); a remote write of a whole line without a tag, and accesses
that pass a line's end, log 59's. -/
def Obligations.WindowPeersAndRemotesReachMemory : Prop :=
  (
    ∀ (s : State) (fn off : Nat) (v : Word),
      let h := hostFn s fn
      let w := h.winctl
      let failed : State := setHostFn s fn { h with fail := h.fail + 1 }
      let readsAs (t : State) (n x : Nat) : State := setHostFn t fn { hostFn t fn with
        readback := (List.range n).map (fun i => BitVec.ofNat 8 (x / 256 ^ i)) }
      let job := operand w 54 10
      let va : Word := ((w.extractLsb' 15 33).signExtend 49).signExtend 64 <<< 15 ||| BitVec.ofNat 64 off
      let pa := operand w 15 33 * 2 ^ 15 + off
      let wr : Instr := .dataWrite fn off (.dword v)
      let rd (n : Nat) : Instr := .dataRead fn off n
      let register (a : Nat) (x : Word) : Prop := exec (.dataRead fn a 8) s = .next (readsAs s 8 x.toNat)
      (hostWaits s = true → (∀ x, exec (.dataWrite fn off x) s = .next s ∧
        (off ≠ 0x8000 → exec (.registerWrite fn off x) s = .next s)) ∧ (∀ n, exec (rd n) s = .next s)) ∧
      (s.bootState ≠ 1 → hostWaits s = false → (∀ x, exec (.dataWrite fn off x) s = .next s) ∧
        (∀ n, off ≠ 0x8090 ∨ n ≠ 8 → exec (rd n) s = .next (readsAs s n (256 ^ n - 1))) ∧
        (∀ x, off ≠ 0x8000 → exec (.registerWrite fn off x) s = .next s)) ∧
      (hostWaits s = false → register 0x8090 ((s.fwSvn ++ 0#23 ++ BitVec.ofBool s.bootBank ++ s.bootState : Word))) ∧
      (s.bootState = 1 → hostWaits s = false →
        (off % 8 ≠ 0 → exec wr s = .next failed) ∧ exec (.dataWrite fn off .other) s = .next failed ∧
        (∀ n, ¬((n = 8 ∨ n = 64) ∧ off % n = 0) → exec (rd n) s = .next (readsAs s n (256 ^ n - 1))) ∧
        (∀ (n x : Nat) (hw : HostWrite), ((∃ d, hw = .dword d ∧ n = 8 ∧ x = d.toNat) ∨ (∃ d, hw = .line d ∧ n = 64 ∧ x = d.toNat)) →
          off % n = 0 → off < 0x8000 →
          let stores (t : State) : Prop := exec (.dataWrite fn off hw) s = .next t
          let reads (t : State) (y : Nat) : Prop := exec (rd n) s = .next (readsAs t n y)
          (w.getLsbD 53 = true →
            (2 ^ 44 ≤ pa → stores failed ∧ reads failed (256 ^ n - 1)) ∧
            (pa < 2 ^ 44 → lineHeld s pa = true → stores s ∧ exec (rd n) s = .next s) ∧
            (pa < 2 ^ 44 → lineHeld s pa = false →
              let keys := sget 0 s.mem.keyed (pa / 128)
              stores (storeUnder keys s pa n x) ∧ reads s (bytesAt s keys pa n))) ∧
          (w.getLsbD 53 = false →
            (ownJob s fn job = none → stores failed ∧ reads failed (256 ^ n - 1)) ∧
            (ownJob s fn job ≠ none →
              (jobPage s job .store va = none → stores failed) ∧ (jobPage s job .load va = none → reads failed (256 ^ n - 1)) ∧
              (∀ p, (jobPage s job .store va = some p → p.home = 2 ∨ leafTier p.leaf = 2 → stores failed) ∧
                (jobPage s job .load va = some p → p.home = 2 ∨ leafTier p.leaf = 2 → reads failed (256 ^ n - 1)) ∧
                (jobPage s job .store va = some p → p.home ≠ 2 → leafTier p.leaf ≠ 2 → lineHeld s (p.place va) = false →
                  stores (noteAccess job p va (writeBytes s p va n x))) ∧
                (jobPage s job .load va = some p → p.home ≠ 2 → leafTier p.leaf ≠ 2 → lineHeld s (p.place va) = false →
                  exec (rd n) s =
                    .next (noteAccess job p va (readsAs s n (bytesAt s (pageVersion s p) (p.place va) n)))))))) ∧
        (let kept : Word := v &&& (if fn = 0 then 0xFFE0FFFFFFFF8000 else 0xFFC0FFFFFFFF8000)
         exec (.registerWrite fn 0x8080 (.dword v)) s = .next (setHostFn s fn { h with winctl := kept })) ∧
        (off % 8 = 0 → ¬(off = 0x8080 ∨ (0xC000 ≤ off ∧ off < 0xC400)) → exec (.registerWrite fn off (.dword v)) s = .next s) ∧
        (off % 8 ≠ 0 → exec (.registerWrite fn off (.dword v)) s = .next failed) ∧
        (∀ n < 128,
          let a := 0xC000 + 8 * n
          let dflt : Word := if n % 2 = 1 then 0x0000000100000000 else 0
          let h' : HostFn := { h with msix := if v = dflt then sdel h.msix n else sput h.msix n v }
          let sends : Prop := n % 2 = 1 ∧ v.getLsbD 32 = false ∧ h.msixPending.getLsbD (n / 2) = true
          (sends → exec (.registerWrite fn a (.dword v)) s = .next
            { setHostFn s fn { h' with msixPending := h.msixPending &&& ~~~(1#64 <<< (n / 2)) } with
              msgs := s.msgs ++ [⟨fn, n / 2⟩] }) ∧
          (¬sends → exec (.registerWrite fn a (.dword v)) s = .next (setHostFn s fn h')) ∧
          register a (if n % 2 = 1 then msixControl h (n / 2) else sget 0 h.msix n)) ∧
        (∀ x : BitVec 512, off % 64 = 0 → off ≠ 0x8000 → exec (.registerWrite fn off (.line x)) s =
          .next ((List.range 8).foldl (fun t n => writeRegister t fn (off + 8 * n) (x.extractLsb' (64 * n) 64)) s)) ∧
        register 0x8040 ((h.seq ++ BitVec.ofBool h.done ++ 0#23 ++ h.status : Word)) ∧
        (∀ n < 7, register (0x8048 + 8 * n) (h.reply.getD n 0)) ∧
        register 0x8080 w ∧ register 0x8088 ((h.busy ++ h.fail : Word)) ∧ register 0xD000 h.msixPending) ∧
      (∀ x : BitVec 512,
        let d (n : Nat) : Word := x.extractLsb' (64 * n) 64
        let o : CmdOps := ⟨x.extractLsb' 16 48, d 1, d 2, d 3, d 4, d 5, d 6, d 7⟩
        let issues (opc : BitVec 16) (i : Instr) : Prop :=
          x.extractLsb' 0 16 = opc → exec (.registerWrite fn 0x8000 (.line x)) s = exec i s
        issues 0x0101 (.jobcreate fn o) ∧ issues 0x0102 (.jobstop fn o) ∧ issues 0x0103 (.jobdestroy fn o) ∧
        issues 0x0104 (.qcreate fn o) ∧ issues 0x0105 (.qdestroy fn o) ∧ issues 0x0106 (.qpush fn o) ∧
        issues 0x0107 (.spilladd fn o) ∧ issues 0x0108 (.evhostSet fn o) ∧ issues 0x0180 (.rqset fn o) ∧
        issues 0x0181 (.vfslice fn o) ∧ issues 0x0182 (.speedset fn o) ∧
        issues 0x0201 (.ptecas fn o) ∧ issues 0x0202 (.inval fn o) ∧ issues 0x0203 (.clean fn o) ∧ issues 0x0204 (.migcfg fn o) ∧
        issues 0x0205 (.migfree fn o) ∧ issues 0x0206 (.compset fn o) ∧ issues 0x0207 (.ovfset fn o) ∧
        issues 0x0208 (.ovfadd fn o) ∧ issues 0x0209 (.norset fn o) ∧ issues 0x020A (.norpush fn o) ∧
        issues 0x020B (.srslice fn o) ∧ issues 0x020C (.keyjob fn o) ∧ issues 0x020D (.cxlrange fn o) ∧
        issues 0x0301 (.load fn o) ∧ issues 0x0302 (.preempt fn o) ∧ issues 0x0303 (.tagset fn o) ∧ issues 0x0304 (.tagget fn o) ∧
        issues 0x0305 (.featset fn o) ∧ issues 0x0306 (.keysetStage fn o) ∧ issues 0x0307 (.vkeysetStage fn o) ∧
        issues 0x0308 (.svninc fn o) ∧ issues 0x0309 (.intmap fn o) ∧ issues 0x030A (.netqpCreate fn o) ∧
        issues 0x030B (.fwstage fn o) ∧ issues 0x0401 (.telread fn o) ∧ issues 0x0402 (.pwrcap fn o))
  ) ∧ (
    ∀ (s : State),
      (∀ (r : PeerAccess), let i : Instr := .cxlMemRequest r
        (2 ^ 44 ≤ r.pa ∨ lineHeld s r.pa = true → exec i s = .next s) ∧
        (r.pa < 2 ^ 44 → lineHeld s r.pa = false →
          (r.write = false → let l := clearLine s 0 r.pa
            exec i s = .next { s with replies := s.replies ++ [⟨none, r.pa, some l.tag, 128, l.data⟩] }) ∧
          (r.write = true → exec i s =
            .next (noteStored (r.pa / 128 * 128) 128 { s with mem := putLine s.mem r.pa 0 ⟨r.tag, r.data⟩ })))) ∧
      (∀ (qp : Nat) (key : BitVec 32) (va : Word) (work : RemoteWork),
        let i : Instr := .incomingRdma ⟨qp, key, va, work⟩
        let k : AccessKind := match work with | .read _ => .load | _ => .store
        (sfind s.netqs qp = none → exec i s = .next s) ∧
        (∀ q, sfind s.netqs qp = some q →
          (q.localKey ≠ key → exec i s = .next s) ∧
          (q.localKey = key →
            (jobPage s q.job k va = none → exec i s = .next s) ∧
            (∀ p, jobPage s q.job k va = some p →
              let goes (t : State) : Prop := exec i s = .next (noteAccess q.job p va t)
              let room := 128 - va.toNat % 128
              (lineHeld s (p.place va) = true → exec i s = .next s) ∧
              (lineHeld s (p.place va) = false →
                (∀ n, work = .read n → goes { s with replies := s.replies ++ [⟨some qp, va.toNat,
                  if Config.tagsTravel qp then some (readLine s p va).tag else none, min n room,
                  BitVec.ofNat 1024 (bytesAt s (pageVersion s p) (p.place va) (min n room))⟩] }) ∧
                (∀ n d, work = .write n d → min n room ≠ 128 →
                  goes (writeBytes s p va (min n room) (d.toNat % 2 ^ (8 * min n room)))) ∧
                (∀ n d, work = .write n d → min n room = 128 → goes (writeLine s p va ⟨dfmtTag p.dfmt, padLine (dfmtTag p.dfmt) d⟩)) ∧
                (∀ t d, work = .line t d → goes (writeLine s p va ⟨t, padLine t d⟩)))))))
  )

/-- R5, R68, R77, R215: a step whose splitter moves fetches the word at the program counter, from the instruction cache or the
four bytes in memory, and runs the instruction it decodes to; an event of the agenda is run as its instruction. That an agenda
names the next move is the model's choice (log 16), as is that a move whose access meets bytes at which something waits leaves the
machine as it was (heldBack; log 51); the size of the instruction cache and its victim are log 8's, and that the
word is fetched as its bytes are stored is log 21's. -/
def Obligations.AStepRunsTheWordAtTheProgramCounter : Prop :=
  ∀ (s u : State) (w : IWord) (k : Nat) (i : Instr) (rest : List Move),
    let later : State := { s with agenda := rest }
    (s.agenda = [] → SplitterMoves s → fetchWord s.core.pc s = .ok (w, u) → decode w = .ok i →
      step s = heldBack s (exec i u)) ∧
    (s.agenda = .split :: rest → fetchWord s.core.pc later = .ok (w, u) → decode w = .ok i →
      step s = heldBack later (exec i u)) ∧
    (s.agenda = .event i :: rest → step s = heldBack later (exec i later)) ∧
    (s.agenda = .chosen k i :: rest → step s = heldBack later (exec i { later with pick := k })) ∧
    (∀ t, heldBack s (.next t) = if t.blocked = true ∧ s.blocked = false then .next s else .next t) ∧
    (∀ pc, s.core.icache.find? (fun e => e.1 == pc) = some (pc, w) → fetchWord pc s = .ok (w, s)) ∧
    (∀ pc p, s.core.icache.find? (fun e => e.1 == pc) = none → checkedPage s .fetch pc 4 = .ok p →
      let x := BitVec.ofNat 32 (bytesAt s (pageVersion s p) (p.place pc) 4)
      let cached (c : Core) : Core := { c with icache := cachePush 16384 (Config.victim c.free) c.icache (pc, x) }
      fetchWord pc s = .ok (x, (touchPage p pc s).onCore cached)) ∧
    (∀ pc f, s.core.icache.find? (fun e => e.1 == pc) = none → checkedPage s .fetch pc 4 = .error (.fault f) →
      s.agenda = [] → SplitterMoves s → s.core.pc = pc → step s = heldBack s (.next (raiseFault s.core.ord 0 f s)))

/-- R68 to R74: words written out field by field from the formats decode to the instructions that they stand for. -/
def Obligations.WordsOfEveryFamilyDecode : Prop :=
  decode (0b000#3 ++ 0x02#6 ++ 7#5 ++ 8#5 ++ 9#5 ++ 0#8) = .ok (.sub 7 8 9) ∧
  decode (0b000#3 ++ 0x26#6 ++ 1#5 ++ 2#5 ++ 0#7 ++ 63#6) = .ok (.shrai 1 2 63) ∧
  decode (0b000#3 ++ 0x19#6 ++ 1#5 ++ 2#5 ++ 60#6 ++ 3#6 ++ 0#1) = .ok (.bfx 1 2 60 3) ∧
  decode (0b000#3 ++ 0x30#6 ++ 3#5 ++ 4#5 ++ 0x1FFF#13) = .ok (.beq 3 4 0x1FFF) ∧
  decode 0x1F800000 = .ok .nop ∧
  decode (0b101#3 ++ 0x02#6 ++ 5#3 ++ 6#5 ++ 15#5 ++ 0#10) = .ok (.seqstr 5 6 15) ∧
  decode (0b101#3 ++ 0x08#6 ++ 4#5 ++ 8#5 ++ 12#5 ++ 0#8) = .ok (.spawn 4 8 12) ∧
  decode (0b101#3 ++ 0x18#6 ++ 9#5 ++ 0#5 ++ 0#1 ++ 0x401#12) = .ok (.csrr 9 0x401) ∧
  decode (0b101#3 ++ 0x20#6 ++ 0#5 ++ 0x3FFFF#18) = .ok (.trap 0x3FFFF) ∧
  decode (0b001#3 ++ 0x01#6 ++ 5#5 ++ 6#5 ++ 0b10#2 ++ 1#1 ++ 0x3FC#10) = .ok (.lds 5 6 2 1 0x3FC) ∧
  decode (0b001#3 ++ 0x13#6 ++ 6#3 ++ 9#5 ++ 14#4 ++ 7#3 ++ 0x80#8) = .ok (.vst 6 9 14 7 0x80) ∧
  decode (0b001#3 ++ 0x28#6 ++ 2#5 ++ 3#5 ++ 4#5 ++ 6#5 ++ 0b011#3) = .ok (.acas 2 3 4 6 3) ∧
  decode (0b001#3 ++ 0x2B#6 ++ 4#3 ++ 0b10#2 ++ 0#5 ++ 0#5 ++ 0#8) = .ok (.fence 4 2) ∧
  decode (0b010#3 ++ 0x04#6 ++ 63#6 ++ 32#6 ++ 1#6 ++ 0b10011#5) = .ok (.vfma 63 32 1 0x13) ∧
  decode (0b010#3 ++ 0x27#6 ++ 10#6 ++ 11#6 ++ 0x0D#5 ++ 0b100#3 ++ 1#1 ++ 2#2) = .ok (.vcvt 10 11 0x0D 4 1 2) ∧
  decode (0b011#3 ++ 0x02#6 ++ 3#4 ++ 4#4 ++ 31#5 ++ 7#5 ++ 8#5) = .ok (.mma 3 4 31 7 8) ∧
  decode (0b100#3 ++ 0x01#6 ++ 0#4 ++ 15#4 ++ 1#5 ++ 2#5 ++ 3#5) = .ok (.cpy 0 15 1 2 3) ∧
  decode (0b110#3 ++ 0x03#6 ++ 0x7FFFFF#23) = .ok (.ext 0x7FFFFF) ∧
  decode 0 = .error .opcode ∧
  (∀ f : BitVec 29, decode (0b111#3 ++ f) = .error .engine)

/-- R68 to R74, R78: every well-formed instruction that has a word, whatever the values of its operands, is decoded from
that word. -/
def Obligations.DecodingReadsBackEveryEncoding : Prop :=
  ∀ (i : Instr), i.wellFormed = true → ∀ w, encode i = some w → decode w = .ok i

/-- R68 to R74, R78: a word that decodes is the word of the instruction it decodes to, which is well-formed: no two words
mean one instruction, and no reserved bit is passed over. -/
def Obligations.EveryDecodedWordIsItsInstructions : Prop :=
  ∀ (w : IWord) (i : Instr), decode w = .ok i → encode i = some w ∧ i.wellFormed = true

/-- R15, R22, R260, R325 to R331, R337, R339: the machine after reset, as the manual says it. That bytes outside the
scratchpads read 0 is the model's choice (log 3); that there is no run, no job and no queue, that migration is off, and that no VF
needs signatures is the model's choice too (logs 1 and 15). -/
def Obligations.ResetLeavesWhatTheManualSays : Prop :=
  let r := State.reset
  (∀ a, byteAt r.mem.bytes a = 0 ∧ storedTag r.mem a = 0x04000000 ∧ linePoisoned r.mem a = false ∧
    sget false r.mem.full a = false) ∧
  r.core.run = none ∧ (∀ n, (coreOf r n).run = none) ∧
  r.jobs = [] ∧ r.queues = [] ∧ r.netqs = [] ∧ r.mem.ranges = [] ∧ r.mig.enabled = false ∧
  (∀ die < 4, (dieOf r die).ready = none ∧ (dieOf r die).reservation = none ∧ (dieOf r die).noria = none) ∧
  (∀ fn < 33, let h := hostFn r fn
    h.winctl = 0 ∧ h.fail = 0 ∧ h.busy = 0 ∧ h.seq = 0 ∧ h.done = true ∧ h.status = 0 ∧ h.reply = [0, 0, 0, 0, 0, 0, 0]) ∧
  (∀ fn v, vectorOf r fn .cmddone = 0 ∧ vectorOf r fn .faultq = 1 ∧ vectorOf r fn .ovflow = 2 ∧ vectorOf r fn .deverr = 3 ∧
    vectorOf r fn .netq = 4 ∧ sget 8000 r.quotas v = 8000) ∧
  r.fleet.budget = 2400 ∧
  (∀ fn, featuresOf r fn = 0x1F ∧ sget false r.sigReq fn = false)

/-- R81: s0 and a0 read zero and discard writes; any other register reads what was last written to it. R25: bytes written to
memory in its canonical form read back little-endian; every other byte stays as it was, and the form is kept. -/
def Obligations.RegistersAndMemoryReadBack : Prop :=
  (
    ∀ (c : Core) (d r : BitVec 5) (v : Word),
      sreg c 0 = 0 ∧ areg c 0 = 0 ∧ setS c 0 v = c ∧ setA c 0 v = c ∧
      sreg (setS c d v) r = (if r = 0 then 0 else if r = d then v else sreg c r) ∧
      areg (setA c d v) r = (if r = 0 then 0 else if r = d then v else areg c r) ∧
      areg (setS c d v) r = areg c r ∧ sreg (setA c d v) r = sreg c r ∧ (setS c d v).csr = c.csr ∧ (setA c d v).csr = c.csr
  ) ∧ (
    ∀ (m : List Host.Cell) (a n v : Nat), swf 0#8 m = true →
      let m' := storeBytes m a n v
      swf 0#8 m' = true ∧ loadBytes m' a n = v % 256 ^ n ∧
      (∀ k < n, byteAt m' (a + k) = BitVec.ofNat 8 (v / 256 ^ k)) ∧
      (∀ b, b < a ∨ a + n ≤ b → byteAt m' b = byteAt m b)
  )

/-- The memory after reset is in its canonical form (the model's own form). Log 61. -/
def Obligations.ResetMemoryIsCanonical : Prop := State.reset.mem.wf = true

/-- Every step keeps every part of memory in its canonical form: keys rising, and no entry equal to what an unlisted place reads
as (the model's own form). Log 61. -/
def Obligations.EveryStepKeepsMemoryCanonical : Prop :=
  ∀ (s t : State), s.mem.wf = true → step s = .next t → t.mem.wf = true
end

