-- ==== Sys2Proof/Laws/Control.lean ====
section
/-! SUPPORT. What a control word does that is not held back, said once for all of them. -/

namespace Sys2Proof.Laws

open Sys2Proof.Machine

theorem settled_mono {s : State} {xs ys : List (BitVec 5)} (h : Settled s ys) (hsub : ∀ r ∈ xs, r ∈ ys) :
    Settled s xs := ⟨h.1, fun r hr => h.2 r (hsub r hr)⟩

theorem settled_any {s : State} {regs : List (BitVec 5)} (h : Settled s regs) : regs.any (pendingS s.core) = false :=
  List.any_eq_false.mpr fun r hr => by simp [h.2 r hr]

theorem splitter_free {s : State} {regs : List (BitVec 5)} (h : Settled s regs) : splitterStops s.core false = false := by
  simp [splitterStops, h.1.1, h.1.2]

/-- A settled control word: its body's answer on the state past the word. -/
theorem control_settled {i : Instr} {regs : List (BitVec 5)} {body : CCtx → State → Chk State} {s : State}
    (h : Settled s regs) :
    Machine.control i regs body s =
      (match body ⟨s.core.pc, (encode i).getD 0, s.core.ord, extOf s.core.pfx⟩ (passed s) with
        | .ok t => .next t
        | .error (.fault f) => .next (raiseFault s.core.ord 0 f s)
        | .error _ => .next s) := by
  unfold Machine.control
  rw [splitter_free h, settled_any h]
  rfl

theorem control_ok {i : Instr} {regs : List (BitVec 5)} {body : CCtx → State → Chk State} {s t : State}
    (h : Settled s regs)
    (hb : body ⟨s.core.pc, (encode i).getD 0, s.core.ord, extOf s.core.pfx⟩ (passed s) = .ok t) :
    Machine.control i regs body s = .next t := by
  rw [control_settled h, hb]

theorem control_fault {i : Instr} {regs : List (BitVec 5)} {body : CCtx → State → Chk State} {s : State} {f : Flt}
    (h : Settled s regs)
    (hb : body ⟨s.core.pc, (encode i).getD 0, s.core.ord, extOf s.core.pfx⟩ (passed s) = .error (.fault f)) :
    Machine.control i regs body s = .next (raiseFault s.core.ord 0 f s) := by
  rw [control_settled h, hb]

theorem control_wait {i : Instr} {regs : List (BitVec 5)} {body : CCtx → State → Chk State} {s : State} {w : WaitOn}
    (h : Settled s regs)
    (hb : body ⟨s.core.pc, (encode i).getD 0, s.core.ord, extOf s.core.pfx⟩ (passed s) = .error (.wait w)) :
    Machine.control i regs body s = .next s := by
  rw [control_settled h, hb]

/-- s[d] written, as the operation of the model writes it. -/
theorem ws_eq (d : BitVec 5) (v : Word) (s : State) : ws d v s = withS d v s := by
  unfold ws withS State.onCore setS vput
  split <;> rfl

theorem sreg_passed (s : State) (r : BitVec 5) : sreg (passed s).core r = sreg s.core r := rfl

/-- A pending EXT's payload, as the operation of the model reads it. -/
theorem ext_of (s : State) : extOf s.core.pfx = extPayload s := by
  unfold extOf extPayload fld
  cases s.core.pfx <;> rfl

theorem ext_signed {n : Nat} (s : State) (f : BitVec n) : extSigned (extOf s.core.pfx) f = immediate s f := by
  rw [ext_of]; rfl

end Sys2Proof.Laws
end

