-- ==== Sys2Proof/Laws/State.lean ====
section
/-! SUPPORT. What each small update of the state leaves as it was, and what it writes, so that no proof unfolds a record
update. -/

namespace Sys2Proof.Laws

open Sys2Proof.Machine

/-! ## The core that moves -/

@[simp] theorem onCore_core (s : State) (f : Core → Core) : (s.onCore f).core = f s.core := rfl
@[simp] theorem onCore_cur (s : State) (f : Core → Core) : (s.onCore f).cur = s.cur := rfl
@[simp] theorem onCore_parked (s : State) (f : Core → Core) : (s.onCore f).parked = s.parked := rfl
@[simp] theorem onCore_mem (s : State) (f : Core → Core) : (s.onCore f).mem = s.mem := rfl
@[simp] theorem onCore_agenda (s : State) (f : Core → Core) : (s.onCore f).agenda = s.agenda := rfl
@[simp] theorem onCore_pick (s : State) (f : Core → Core) : (s.onCore f).pick = s.pick := rfl
@[simp] theorem onCore_hbt (s : State) (f : Core → Core) : (s.onCore f).hbt = s.hbt := rfl
@[simp] theorem onCore_l2 (s : State) (f : Core → Core) : (s.onCore f).l2 = s.l2 := rfl
@[simp] theorem onCore_l2ptr (s : State) (f : Core → Core) : (s.onCore f).l2ptr = s.l2ptr := rfl
@[simp] theorem onCore_classes (s : State) (f : Core → Core) : (s.onCore f).classes = s.classes := rfl
@[simp] theorem onCore_fenced (s : State) (f : Core → Core) : (s.onCore f).fenced = s.fenced := rfl
@[simp] theorem onCore_jobs (s : State) (f : Core → Core) : (s.onCore f).jobs = s.jobs := rfl
@[simp] theorem onCore_queues (s : State) (f : Core → Core) : (s.onCore f).queues = s.queues := rfl
@[simp] theorem onCore_dies (s : State) (f : Core → Core) : (s.onCore f).dies = s.dies := rfl
@[simp] theorem onCore_launch (s : State) (f : Core → Core) : (s.onCore f).launch = s.launch := rfl
@[simp] theorem onCore_stalled (s : State) (f : Core → Core) : (s.onCore f).stalled = s.stalled := rfl
@[simp] theorem onCore_fullWaiters (s : State) (f : Core → Core) : (s.onCore f).fullWaiters = s.fullWaiters := rfl
@[simp] theorem onCore_gangs (s : State) (f : Core → Core) : (s.onCore f).gangs = s.gangs := rfl
@[simp] theorem onCore_nextGang (s : State) (f : Core → Core) : (s.onCore f).nextGang = s.nextGang := rfl
@[simp] theorem onCore_quotas (s : State) (f : Core → Core) : (s.onCore f).quotas = s.quotas := rfl
@[simp] theorem onCore_nextQuotas (s : State) (f : Core → Core) : (s.onCore f).nextQuotas = s.nextQuotas := rfl
@[simp] theorem onCore_sliceGen (s : State) (f : Core → Core) : (s.onCore f).sliceGen = s.sliceGen := rfl
@[simp] theorem onCore_keys (s : State) (f : Core → Core) : (s.onCore f).keys = s.keys := rfl
@[simp] theorem onCore_mig (s : State) (f : Core → Core) : (s.onCore f).mig = s.mig := rfl
@[simp] theorem onCore_pool (s : State) (f : Core → Core) : (s.onCore f).pool = s.pool := rfl
@[simp] theorem onCore_compMapped (s : State) (f : Core → Core) : (s.onCore f).compMapped = s.compMapped := rfl
@[simp] theorem onCore_walkWait (s : State) (f : Core → Core) : (s.onCore f).walkWait = s.walkWait := rfl
@[simp] theorem onCore_hostFns (s : State) (f : Core → Core) : (s.onCore f).hostFns = s.hostFns := rfl
@[simp] theorem onCore_intmap (s : State) (f : Core → Core) : (s.onCore f).intmap = s.intmap := rfl
@[simp] theorem onCore_faultMap (s : State) (f : Core → Core) : (s.onCore f).faultMap = s.faultMap := rfl
@[simp] theorem onCore_featMask (s : State) (f : Core → Core) : (s.onCore f).featMask = s.featMask := rfl
@[simp] theorem onCore_sigReq (s : State) (f : Core → Core) : (s.onCore f).sigReq = s.sigReq := rfl
@[simp] theorem onCore_vkeyX (s : State) (f : Core → Core) : (s.onCore f).vkeyX = s.vkeyX := rfl
@[simp] theorem onCore_vkeys (s : State) (f : Core → Core) : (s.onCore f).vkeys = s.vkeys := rfl
@[simp] theorem onCore_svnCount (s : State) (f : Core → Core) : (s.onCore f).svnCount = s.svnCount := rfl
@[simp] theorem onCore_verified (s : State) (f : Core → Core) : (s.onCore f).verified = s.verified := rfl
@[simp] theorem onCore_netqs (s : State) (f : Core → Core) : (s.onCore f).netqs = s.netqs := rfl
@[simp] theorem onCore_sent (s : State) (f : Core → Core) : (s.onCore f).sent = s.sent := rfl
@[simp] theorem onCore_replies (s : State) (f : Core → Core) : (s.onCore f).replies = s.replies := rfl
@[simp] theorem onCore_bootState (s : State) (f : Core → Core) : (s.onCore f).bootState = s.bootState := rfl
@[simp] theorem onCore_bootBank (s : State) (f : Core → Core) : (s.onCore f).bootBank = s.bootBank := rfl
@[simp] theorem onCore_fwSvn (s : State) (f : Core → Core) : (s.onCore f).fwSvn = s.fwSvn := rfl
@[simp] theorem onCore_flash (s : State) (f : Core → Core) : (s.onCore f).flash = s.flash := rfl
@[simp] theorem onCore_fwFirst (s : State) (f : Core → Core) : (s.onCore f).fwFirst = s.fwFirst := rfl
@[simp] theorem onCore_msgs (s : State) (f : Core → Core) : (s.onCore f).msgs = s.msgs := rfl
@[simp] theorem onCore_fleet (s : State) (f : Core → Core) : (s.onCore f).fleet = s.fleet := rfl
@[simp] theorem onCore_dispatched (s : State) (f : Core → Core) : (s.onCore f).dispatched = s.dispatched := rfl
@[simp] theorem onCore_notes (s : State) (f : Core → Core) : (s.onCore f).notes = s.notes := rfl
@[simp] theorem onCore_blocked (s : State) (f : Core → Core) : (s.onCore f).blocked = s.blocked := rfl

/-! ## Dies and windows -/

@[simp] theorem setDie_cur (s : State) (n : Nat) (d : Die) : (setDie s n d).cur = s.cur := rfl
@[simp] theorem setDie_core (s : State) (n : Nat) (d : Die) : (setDie s n d).core = s.core := rfl
@[simp] theorem setDie_parked (s : State) (n : Nat) (d : Die) : (setDie s n d).parked = s.parked := rfl
@[simp] theorem setDie_mem (s : State) (n : Nat) (d : Die) : (setDie s n d).mem = s.mem := rfl
@[simp] theorem setDie_agenda (s : State) (n : Nat) (d : Die) : (setDie s n d).agenda = s.agenda := rfl
@[simp] theorem setDie_pick (s : State) (n : Nat) (d : Die) : (setDie s n d).pick = s.pick := rfl
@[simp] theorem setDie_hbt (s : State) (n : Nat) (d : Die) : (setDie s n d).hbt = s.hbt := rfl
@[simp] theorem setDie_l2 (s : State) (n : Nat) (d : Die) : (setDie s n d).l2 = s.l2 := rfl
@[simp] theorem setDie_l2ptr (s : State) (n : Nat) (d : Die) : (setDie s n d).l2ptr = s.l2ptr := rfl
@[simp] theorem setDie_classes (s : State) (n : Nat) (d : Die) : (setDie s n d).classes = s.classes := rfl
@[simp] theorem setDie_fenced (s : State) (n : Nat) (d : Die) : (setDie s n d).fenced = s.fenced := rfl
@[simp] theorem setDie_jobs (s : State) (n : Nat) (d : Die) : (setDie s n d).jobs = s.jobs := rfl
@[simp] theorem setDie_queues (s : State) (n : Nat) (d : Die) : (setDie s n d).queues = s.queues := rfl
@[simp] theorem setDie_launch (s : State) (n : Nat) (d : Die) : (setDie s n d).launch = s.launch := rfl
@[simp] theorem setDie_stalled (s : State) (n : Nat) (d : Die) : (setDie s n d).stalled = s.stalled := rfl
@[simp] theorem setDie_fullWaiters (s : State) (n : Nat) (d : Die) : (setDie s n d).fullWaiters = s.fullWaiters := rfl
@[simp] theorem setDie_gangs (s : State) (n : Nat) (d : Die) : (setDie s n d).gangs = s.gangs := rfl
@[simp] theorem setDie_nextGang (s : State) (n : Nat) (d : Die) : (setDie s n d).nextGang = s.nextGang := rfl
@[simp] theorem setDie_quotas (s : State) (n : Nat) (d : Die) : (setDie s n d).quotas = s.quotas := rfl
@[simp] theorem setDie_nextQuotas (s : State) (n : Nat) (d : Die) : (setDie s n d).nextQuotas = s.nextQuotas := rfl
@[simp] theorem setDie_sliceGen (s : State) (n : Nat) (d : Die) : (setDie s n d).sliceGen = s.sliceGen := rfl
@[simp] theorem setDie_keys (s : State) (n : Nat) (d : Die) : (setDie s n d).keys = s.keys := rfl
@[simp] theorem setDie_mig (s : State) (n : Nat) (d : Die) : (setDie s n d).mig = s.mig := rfl
@[simp] theorem setDie_pool (s : State) (n : Nat) (d : Die) : (setDie s n d).pool = s.pool := rfl
@[simp] theorem setDie_compMapped (s : State) (n : Nat) (d : Die) : (setDie s n d).compMapped = s.compMapped := rfl
@[simp] theorem setDie_walkWait (s : State) (n : Nat) (d : Die) : (setDie s n d).walkWait = s.walkWait := rfl
@[simp] theorem setDie_hostFns (s : State) (n : Nat) (d : Die) : (setDie s n d).hostFns = s.hostFns := rfl
@[simp] theorem setDie_intmap (s : State) (n : Nat) (d : Die) : (setDie s n d).intmap = s.intmap := rfl
@[simp] theorem setDie_faultMap (s : State) (n : Nat) (d : Die) : (setDie s n d).faultMap = s.faultMap := rfl
@[simp] theorem setDie_featMask (s : State) (n : Nat) (d : Die) : (setDie s n d).featMask = s.featMask := rfl
@[simp] theorem setDie_sigReq (s : State) (n : Nat) (d : Die) : (setDie s n d).sigReq = s.sigReq := rfl
@[simp] theorem setDie_vkeyX (s : State) (n : Nat) (d : Die) : (setDie s n d).vkeyX = s.vkeyX := rfl
@[simp] theorem setDie_vkeys (s : State) (n : Nat) (d : Die) : (setDie s n d).vkeys = s.vkeys := rfl
@[simp] theorem setDie_svnCount (s : State) (n : Nat) (d : Die) : (setDie s n d).svnCount = s.svnCount := rfl
@[simp] theorem setDie_verified (s : State) (n : Nat) (d : Die) : (setDie s n d).verified = s.verified := rfl
@[simp] theorem setDie_netqs (s : State) (n : Nat) (d : Die) : (setDie s n d).netqs = s.netqs := rfl
@[simp] theorem setDie_sent (s : State) (n : Nat) (d : Die) : (setDie s n d).sent = s.sent := rfl
@[simp] theorem setDie_replies (s : State) (n : Nat) (d : Die) : (setDie s n d).replies = s.replies := rfl
@[simp] theorem setDie_bootState (s : State) (n : Nat) (d : Die) : (setDie s n d).bootState = s.bootState := rfl
@[simp] theorem setDie_bootBank (s : State) (n : Nat) (d : Die) : (setDie s n d).bootBank = s.bootBank := rfl
@[simp] theorem setDie_fwSvn (s : State) (n : Nat) (d : Die) : (setDie s n d).fwSvn = s.fwSvn := rfl
@[simp] theorem setDie_flash (s : State) (n : Nat) (d : Die) : (setDie s n d).flash = s.flash := rfl
@[simp] theorem setDie_fwFirst (s : State) (n : Nat) (d : Die) : (setDie s n d).fwFirst = s.fwFirst := rfl
@[simp] theorem setDie_msgs (s : State) (n : Nat) (d : Die) : (setDie s n d).msgs = s.msgs := rfl
@[simp] theorem setDie_fleet (s : State) (n : Nat) (d : Die) : (setDie s n d).fleet = s.fleet := rfl
@[simp] theorem setDie_dispatched (s : State) (n : Nat) (d : Die) : (setDie s n d).dispatched = s.dispatched := rfl
@[simp] theorem setDie_notes (s : State) (n : Nat) (d : Die) : (setDie s n d).notes = s.notes := rfl
@[simp] theorem setDie_blocked (s : State) (n : Nat) (d : Die) : (setDie s n d).blocked = s.blocked := rfl

@[simp] theorem setHostFn_cur (s : State) (n : Nat) (h : HostFn) : (setHostFn s n h).cur = s.cur := rfl
@[simp] theorem setHostFn_core (s : State) (n : Nat) (h : HostFn) : (setHostFn s n h).core = s.core := rfl
@[simp] theorem setHostFn_parked (s : State) (n : Nat) (h : HostFn) : (setHostFn s n h).parked = s.parked := rfl
@[simp] theorem setHostFn_mem (s : State) (n : Nat) (h : HostFn) : (setHostFn s n h).mem = s.mem := rfl
@[simp] theorem setHostFn_agenda (s : State) (n : Nat) (h : HostFn) : (setHostFn s n h).agenda = s.agenda := rfl
@[simp] theorem setHostFn_pick (s : State) (n : Nat) (h : HostFn) : (setHostFn s n h).pick = s.pick := rfl
@[simp] theorem setHostFn_hbt (s : State) (n : Nat) (h : HostFn) : (setHostFn s n h).hbt = s.hbt := rfl
@[simp] theorem setHostFn_l2 (s : State) (n : Nat) (h : HostFn) : (setHostFn s n h).l2 = s.l2 := rfl
@[simp] theorem setHostFn_l2ptr (s : State) (n : Nat) (h : HostFn) : (setHostFn s n h).l2ptr = s.l2ptr := rfl
@[simp] theorem setHostFn_classes (s : State) (n : Nat) (h : HostFn) : (setHostFn s n h).classes = s.classes := rfl
@[simp] theorem setHostFn_fenced (s : State) (n : Nat) (h : HostFn) : (setHostFn s n h).fenced = s.fenced := rfl
@[simp] theorem setHostFn_jobs (s : State) (n : Nat) (h : HostFn) : (setHostFn s n h).jobs = s.jobs := rfl
@[simp] theorem setHostFn_queues (s : State) (n : Nat) (h : HostFn) : (setHostFn s n h).queues = s.queues := rfl
@[simp] theorem setHostFn_dies (s : State) (n : Nat) (h : HostFn) : (setHostFn s n h).dies = s.dies := rfl
@[simp] theorem setHostFn_launch (s : State) (n : Nat) (h : HostFn) : (setHostFn s n h).launch = s.launch := rfl
@[simp] theorem setHostFn_stalled (s : State) (n : Nat) (h : HostFn) : (setHostFn s n h).stalled = s.stalled := rfl
@[simp] theorem setHostFn_fullWaiters (s : State) (n : Nat) (h : HostFn) : (setHostFn s n h).fullWaiters = s.fullWaiters := rfl
@[simp] theorem setHostFn_gangs (s : State) (n : Nat) (h : HostFn) : (setHostFn s n h).gangs = s.gangs := rfl
@[simp] theorem setHostFn_nextGang (s : State) (n : Nat) (h : HostFn) : (setHostFn s n h).nextGang = s.nextGang := rfl
@[simp] theorem setHostFn_quotas (s : State) (n : Nat) (h : HostFn) : (setHostFn s n h).quotas = s.quotas := rfl
@[simp] theorem setHostFn_nextQuotas (s : State) (n : Nat) (h : HostFn) : (setHostFn s n h).nextQuotas = s.nextQuotas := rfl
@[simp] theorem setHostFn_sliceGen (s : State) (n : Nat) (h : HostFn) : (setHostFn s n h).sliceGen = s.sliceGen := rfl
@[simp] theorem setHostFn_keys (s : State) (n : Nat) (h : HostFn) : (setHostFn s n h).keys = s.keys := rfl
@[simp] theorem setHostFn_mig (s : State) (n : Nat) (h : HostFn) : (setHostFn s n h).mig = s.mig := rfl
@[simp] theorem setHostFn_pool (s : State) (n : Nat) (h : HostFn) : (setHostFn s n h).pool = s.pool := rfl
@[simp] theorem setHostFn_compMapped (s : State) (n : Nat) (h : HostFn) : (setHostFn s n h).compMapped = s.compMapped := rfl
@[simp] theorem setHostFn_walkWait (s : State) (n : Nat) (h : HostFn) : (setHostFn s n h).walkWait = s.walkWait := rfl
@[simp] theorem setHostFn_intmap (s : State) (n : Nat) (h : HostFn) : (setHostFn s n h).intmap = s.intmap := rfl
@[simp] theorem setHostFn_faultMap (s : State) (n : Nat) (h : HostFn) : (setHostFn s n h).faultMap = s.faultMap := rfl
@[simp] theorem setHostFn_featMask (s : State) (n : Nat) (h : HostFn) : (setHostFn s n h).featMask = s.featMask := rfl
@[simp] theorem setHostFn_sigReq (s : State) (n : Nat) (h : HostFn) : (setHostFn s n h).sigReq = s.sigReq := rfl
@[simp] theorem setHostFn_vkeyX (s : State) (n : Nat) (h : HostFn) : (setHostFn s n h).vkeyX = s.vkeyX := rfl
@[simp] theorem setHostFn_vkeys (s : State) (n : Nat) (h : HostFn) : (setHostFn s n h).vkeys = s.vkeys := rfl
@[simp] theorem setHostFn_svnCount (s : State) (n : Nat) (h : HostFn) : (setHostFn s n h).svnCount = s.svnCount := rfl
@[simp] theorem setHostFn_verified (s : State) (n : Nat) (h : HostFn) : (setHostFn s n h).verified = s.verified := rfl
@[simp] theorem setHostFn_netqs (s : State) (n : Nat) (h : HostFn) : (setHostFn s n h).netqs = s.netqs := rfl
@[simp] theorem setHostFn_sent (s : State) (n : Nat) (h : HostFn) : (setHostFn s n h).sent = s.sent := rfl
@[simp] theorem setHostFn_replies (s : State) (n : Nat) (h : HostFn) : (setHostFn s n h).replies = s.replies := rfl
@[simp] theorem setHostFn_bootState (s : State) (n : Nat) (h : HostFn) : (setHostFn s n h).bootState = s.bootState := rfl
@[simp] theorem setHostFn_bootBank (s : State) (n : Nat) (h : HostFn) : (setHostFn s n h).bootBank = s.bootBank := rfl
@[simp] theorem setHostFn_fwSvn (s : State) (n : Nat) (h : HostFn) : (setHostFn s n h).fwSvn = s.fwSvn := rfl
@[simp] theorem setHostFn_flash (s : State) (n : Nat) (h : HostFn) : (setHostFn s n h).flash = s.flash := rfl
@[simp] theorem setHostFn_fwFirst (s : State) (n : Nat) (h : HostFn) : (setHostFn s n h).fwFirst = s.fwFirst := rfl
@[simp] theorem setHostFn_msgs (s : State) (n : Nat) (h : HostFn) : (setHostFn s n h).msgs = s.msgs := rfl
@[simp] theorem setHostFn_fleet (s : State) (n : Nat) (h : HostFn) : (setHostFn s n h).fleet = s.fleet := rfl
@[simp] theorem setHostFn_dispatched (s : State) (n : Nat) (h : HostFn) : (setHostFn s n h).dispatched = s.dispatched := rfl
@[simp] theorem setHostFn_notes (s : State) (n : Nat) (h : HostFn) : (setHostFn s n h).notes = s.notes := rfl
@[simp] theorem setHostFn_blocked (s : State) (n : Nat) (h : HostFn) : (setHostFn s n h).blocked = s.blocked := rfl

/-! ## Registers -/

@[simp] theorem setS_run (c : Core) (i : BitVec 5) (v : Word) : (setS c i v).run = c.run := by unfold setS; split <;> rfl
@[simp] theorem setS_pc (c : Core) (i : BitVec 5) (v : Word) : (setS c i v).pc = c.pc := by unfold setS; split <;> rfl
@[simp] theorem setS_pfx (c : Core) (i : BitVec 5) (v : Word) : (setS c i v).pfx = c.pfx := by unfold setS; split <;> rfl
@[simp] theorem setS_a (c : Core) (i : BitVec 5) (v : Word) : (setS c i v).a = c.a := by unfold setS; split <;> rfl
@[simp] theorem setS_trapS (c : Core) (i : BitVec 5) (v : Word) : (setS c i v).trapS = c.trapS := by unfold setS; split <;> rfl
@[simp] theorem setS_trapA (c : Core) (i : BitVec 5) (v : Word) : (setS c i v).trapA = c.trapA := by unfold setS; split <;> rfl
@[simp] theorem setS_v (c : Core) (i : BitVec 5) (v : Word) : (setS c i v).v = c.v := by unfold setS; split <;> rfl
@[simp] theorem setS_t1 (c : Core) (i : BitVec 5) (v : Word) : (setS c i v).t1 = c.t1 := by unfold setS; split <;> rfl
@[simp] theorem setS_t2 (c : Core) (i : BitVec 5) (v : Word) : (setS c i v).t2 = c.t2 := by unfold setS; split <;> rfl
@[simp] theorem setS_t3 (c : Core) (i : BitVec 5) (v : Word) : (setS c i v).t3 = c.t3 := by unfold setS; split <;> rfl
@[simp] theorem setS_p (c : Core) (i : BitVec 5) (v : Word) : (setS c i v).p = c.p := by unfold setS; split <;> rfl
@[simp] theorem setS_ptag (c : Core) (i : BitVec 5) (v : Word) : (setS c i v).ptag = c.ptag := by unfold setS; split <;> rfl
@[simp] theorem setS_tokens (c : Core) (i : BitVec 5) (v : Word) : (setS c i v).tokens = c.tokens := by unfold setS; split <;> rfl
@[simp] theorem setS_flumes (c : Core) (i : BitVec 5) (v : Word) : (setS c i v).flumes = c.flumes := by unfold setS; split <;> rfl
@[simp] theorem setS_bnd (c : Core) (i : BitVec 5) (v : Word) : (setS c i v).bnd = c.bnd := by unfold setS; split <;> rfl
@[simp] theorem setS_bq (c : Core) (i : BitVec 5) (v : Word) : (setS c i v).bq = c.bq := by unfold setS; split <;> rfl
@[simp] theorem setS_tiles (c : Core) (i : BitVec 5) (v : Word) : (setS c i v).tiles = c.tiles := by unfold setS; split <;> rfl
@[simp] theorem setS_mcfg (c : Core) (i : BitVec 5) (v : Word) : (setS c i v).mcfg = c.mcfg := by unfold setS; split <;> rfl
@[simp] theorem setS_user (c : Core) (i : BitVec 5) (v : Word) : (setS c i v).user = c.user := by unfold setS; split <;> rfl
@[simp] theorem setS_trap (c : Core) (i : BitVec 5) (v : Word) : (setS c i v).trap = c.trap := by unfold setS; split <;> rfl
@[simp] theorem setS_mcmd (c : Core) (i : BitVec 5) (v : Word) : (setS c i v).mcmd = c.mcmd := by unfold setS; split <;> rfl
@[simp] theorem setS_ycmds (c : Core) (i : BitVec 5) (v : Word) : (setS c i v).ycmds = c.ycmds := by unfold setS; split <;> rfl
@[simp] theorem setS_barrier (c : Core) (i : BitVec 5) (v : Word) : (setS c i v).barrier = c.barrier := by unfold setS; split <;> rfl
@[simp] theorem setS_records (c : Core) (i : BitVec 5) (v : Word) : (setS c i v).records = c.records := by unfold setS; split <;> rfl
@[simp] theorem setS_lattice (c : Core) (i : BitVec 5) (v : Word) : (setS c i v).lattice = c.lattice := by unfold setS; split <;> rfl
@[simp] theorem setS_gens (c : Core) (i : BitVec 5) (v : Word) : (setS c i v).gens = c.gens := by unfold setS; split <;> rfl
@[simp] theorem setS_seq (c : Core) (i : BitVec 5) (v : Word) : (setS c i v).seq = c.seq := by unfold setS; split <;> rfl
@[simp] theorem setS_desc (c : Core) (i : BitVec 5) (v : Word) : (setS c i v).desc = c.desc := by unfold setS; split <;> rfl
@[simp] theorem setS_runs (c : Core) (i : BitVec 5) (v : Word) : (setS c i v).runs = c.runs := by unfold setS; split <;> rfl
@[simp] theorem setS_storeQ (c : Core) (i : BitVec 5) (v : Word) : (setS c i v).storeQ = c.storeQ := by unfold setS; split <;> rfl
@[simp] theorem setS_flight (c : Core) (i : BitVec 5) (v : Word) : (setS c i v).flight = c.flight := by unfold setS; split <;> rfl
@[simp] theorem setS_issued (c : Core) (i : BitVec 5) (v : Word) : (setS c i v).issued = c.issued := by unfold setS; split <;> rfl
@[simp] theorem setS_reached (c : Core) (i : BitVec 5) (v : Word) : (setS c i v).reached = c.reached := by unfold setS; split <;> rfl
@[simp] theorem setS_seen (c : Core) (i : BitVec 5) (v : Word) : (setS c i v).seen = c.seen := by unfold setS; split <;> rfl
@[simp] theorem setS_append (c : Core) (i : BitVec 5) (v : Word) : (setS c i v).append = c.append := by unfold setS; split <;> rfl
@[simp] theorem setS_gathered (c : Core) (i : BitVec 5) (v : Word) : (setS c i v).gathered = c.gathered := by unfold setS; split <;> rfl
@[simp] theorem setS_yielded (c : Core) (i : BitVec 5) (v : Word) : (setS c i v).yielded = c.yielded := by unfold setS; split <;> rfl
@[simp] theorem setS_csr (c : Core) (i : BitVec 5) (v : Word) : (setS c i v).csr = c.csr := by unfold setS; split <;> rfl
@[simp] theorem setS_icache (c : Core) (i : BitVec 5) (v : Word) : (setS c i v).icache = c.icache := by unfold setS; split <;> rfl
@[simp] theorem setS_fcache (c : Core) (i : BitVec 5) (v : Word) : (setS c i v).fcache = c.fcache := by unfold setS; split <;> rfl
@[simp] theorem setS_tlb (c : Core) (i : BitVec 5) (v : Word) : (setS c i v).tlb = c.tlb := by unfold setS; split <;> rfl
@[simp] theorem setS_pending (c : Core) (i : BitVec 5) (v : Word) : (setS c i v).pending = c.pending := by unfold setS; split <;> rfl
@[simp] theorem setS_waits (c : Core) (i : BitVec 5) (v : Word) : (setS c i v).waits = c.waits := by unfold setS; split <;> rfl
@[simp] theorem setS_arrived (c : Core) (i : BitVec 5) (v : Word) : (setS c i v).arrived = c.arrived := by unfold setS; split <;> rfl
@[simp] theorem setS_filled (c : Core) (i : BitVec 5) (v : Word) : (setS c i v).filled = c.filled := by unfold setS; split <;> rfl
@[simp] theorem setS_ord (c : Core) (i : BitVec 5) (v : Word) : (setS c i v).ord = c.ord := by unfold setS; split <;> rfl
@[simp] theorem setS_holdWord (c : Core) (i : BitVec 5) (v : Word) : (setS c i v).holdWord = c.holdWord := by unfold setS; split <;> rfl
@[simp] theorem setS_holdAccess (c : Core) (i : BitVec 5) (v : Word) : (setS c i v).holdAccess = c.holdAccess := by unfold setS; split <;> rfl
@[simp] theorem setS_holdStore (c : Core) (i : BitVec 5) (v : Word) : (setS c i v).holdStore = c.holdStore := by unfold setS; split <;> rfl
@[simp] theorem setS_holdCommand (c : Core) (i : BitVec 5) (v : Word) : (setS c i v).holdCommand = c.holdCommand := by unfold setS; split <;> rfl
@[simp] theorem setS_free (c : Core) (i : BitVec 5) (v : Word) : (setS c i v).free = c.free := by unfold setS; split <;> rfl

@[simp] theorem setA_run (c : Core) (i : BitVec 5) (v : Word) : (setA c i v).run = c.run := by unfold setA; split <;> rfl
@[simp] theorem setA_pc (c : Core) (i : BitVec 5) (v : Word) : (setA c i v).pc = c.pc := by unfold setA; split <;> rfl
@[simp] theorem setA_pfx (c : Core) (i : BitVec 5) (v : Word) : (setA c i v).pfx = c.pfx := by unfold setA; split <;> rfl
@[simp] theorem setA_s (c : Core) (i : BitVec 5) (v : Word) : (setA c i v).s = c.s := by unfold setA; split <;> rfl
@[simp] theorem setA_trapS (c : Core) (i : BitVec 5) (v : Word) : (setA c i v).trapS = c.trapS := by unfold setA; split <;> rfl
@[simp] theorem setA_trapA (c : Core) (i : BitVec 5) (v : Word) : (setA c i v).trapA = c.trapA := by unfold setA; split <;> rfl
@[simp] theorem setA_v (c : Core) (i : BitVec 5) (v : Word) : (setA c i v).v = c.v := by unfold setA; split <;> rfl
@[simp] theorem setA_t1 (c : Core) (i : BitVec 5) (v : Word) : (setA c i v).t1 = c.t1 := by unfold setA; split <;> rfl
@[simp] theorem setA_t2 (c : Core) (i : BitVec 5) (v : Word) : (setA c i v).t2 = c.t2 := by unfold setA; split <;> rfl
@[simp] theorem setA_t3 (c : Core) (i : BitVec 5) (v : Word) : (setA c i v).t3 = c.t3 := by unfold setA; split <;> rfl
@[simp] theorem setA_p (c : Core) (i : BitVec 5) (v : Word) : (setA c i v).p = c.p := by unfold setA; split <;> rfl
@[simp] theorem setA_ptag (c : Core) (i : BitVec 5) (v : Word) : (setA c i v).ptag = c.ptag := by unfold setA; split <;> rfl
@[simp] theorem setA_tokens (c : Core) (i : BitVec 5) (v : Word) : (setA c i v).tokens = c.tokens := by unfold setA; split <;> rfl
@[simp] theorem setA_flumes (c : Core) (i : BitVec 5) (v : Word) : (setA c i v).flumes = c.flumes := by unfold setA; split <;> rfl
@[simp] theorem setA_bnd (c : Core) (i : BitVec 5) (v : Word) : (setA c i v).bnd = c.bnd := by unfold setA; split <;> rfl
@[simp] theorem setA_bq (c : Core) (i : BitVec 5) (v : Word) : (setA c i v).bq = c.bq := by unfold setA; split <;> rfl
@[simp] theorem setA_tiles (c : Core) (i : BitVec 5) (v : Word) : (setA c i v).tiles = c.tiles := by unfold setA; split <;> rfl
@[simp] theorem setA_mcfg (c : Core) (i : BitVec 5) (v : Word) : (setA c i v).mcfg = c.mcfg := by unfold setA; split <;> rfl
@[simp] theorem setA_user (c : Core) (i : BitVec 5) (v : Word) : (setA c i v).user = c.user := by unfold setA; split <;> rfl
@[simp] theorem setA_trap (c : Core) (i : BitVec 5) (v : Word) : (setA c i v).trap = c.trap := by unfold setA; split <;> rfl
@[simp] theorem setA_mcmd (c : Core) (i : BitVec 5) (v : Word) : (setA c i v).mcmd = c.mcmd := by unfold setA; split <;> rfl
@[simp] theorem setA_ycmds (c : Core) (i : BitVec 5) (v : Word) : (setA c i v).ycmds = c.ycmds := by unfold setA; split <;> rfl
@[simp] theorem setA_barrier (c : Core) (i : BitVec 5) (v : Word) : (setA c i v).barrier = c.barrier := by unfold setA; split <;> rfl
@[simp] theorem setA_records (c : Core) (i : BitVec 5) (v : Word) : (setA c i v).records = c.records := by unfold setA; split <;> rfl
@[simp] theorem setA_lattice (c : Core) (i : BitVec 5) (v : Word) : (setA c i v).lattice = c.lattice := by unfold setA; split <;> rfl
@[simp] theorem setA_gens (c : Core) (i : BitVec 5) (v : Word) : (setA c i v).gens = c.gens := by unfold setA; split <;> rfl
@[simp] theorem setA_seq (c : Core) (i : BitVec 5) (v : Word) : (setA c i v).seq = c.seq := by unfold setA; split <;> rfl
@[simp] theorem setA_desc (c : Core) (i : BitVec 5) (v : Word) : (setA c i v).desc = c.desc := by unfold setA; split <;> rfl
@[simp] theorem setA_runs (c : Core) (i : BitVec 5) (v : Word) : (setA c i v).runs = c.runs := by unfold setA; split <;> rfl
@[simp] theorem setA_storeQ (c : Core) (i : BitVec 5) (v : Word) : (setA c i v).storeQ = c.storeQ := by unfold setA; split <;> rfl
@[simp] theorem setA_flight (c : Core) (i : BitVec 5) (v : Word) : (setA c i v).flight = c.flight := by unfold setA; split <;> rfl
@[simp] theorem setA_issued (c : Core) (i : BitVec 5) (v : Word) : (setA c i v).issued = c.issued := by unfold setA; split <;> rfl
@[simp] theorem setA_reached (c : Core) (i : BitVec 5) (v : Word) : (setA c i v).reached = c.reached := by unfold setA; split <;> rfl
@[simp] theorem setA_seen (c : Core) (i : BitVec 5) (v : Word) : (setA c i v).seen = c.seen := by unfold setA; split <;> rfl
@[simp] theorem setA_append (c : Core) (i : BitVec 5) (v : Word) : (setA c i v).append = c.append := by unfold setA; split <;> rfl
@[simp] theorem setA_gathered (c : Core) (i : BitVec 5) (v : Word) : (setA c i v).gathered = c.gathered := by unfold setA; split <;> rfl
@[simp] theorem setA_yielded (c : Core) (i : BitVec 5) (v : Word) : (setA c i v).yielded = c.yielded := by unfold setA; split <;> rfl
@[simp] theorem setA_csr (c : Core) (i : BitVec 5) (v : Word) : (setA c i v).csr = c.csr := by unfold setA; split <;> rfl
@[simp] theorem setA_icache (c : Core) (i : BitVec 5) (v : Word) : (setA c i v).icache = c.icache := by unfold setA; split <;> rfl
@[simp] theorem setA_fcache (c : Core) (i : BitVec 5) (v : Word) : (setA c i v).fcache = c.fcache := by unfold setA; split <;> rfl
@[simp] theorem setA_tlb (c : Core) (i : BitVec 5) (v : Word) : (setA c i v).tlb = c.tlb := by unfold setA; split <;> rfl
@[simp] theorem setA_pending (c : Core) (i : BitVec 5) (v : Word) : (setA c i v).pending = c.pending := by unfold setA; split <;> rfl
@[simp] theorem setA_waits (c : Core) (i : BitVec 5) (v : Word) : (setA c i v).waits = c.waits := by unfold setA; split <;> rfl
@[simp] theorem setA_arrived (c : Core) (i : BitVec 5) (v : Word) : (setA c i v).arrived = c.arrived := by unfold setA; split <;> rfl
@[simp] theorem setA_filled (c : Core) (i : BitVec 5) (v : Word) : (setA c i v).filled = c.filled := by unfold setA; split <;> rfl
@[simp] theorem setA_ord (c : Core) (i : BitVec 5) (v : Word) : (setA c i v).ord = c.ord := by unfold setA; split <;> rfl
@[simp] theorem setA_holdWord (c : Core) (i : BitVec 5) (v : Word) : (setA c i v).holdWord = c.holdWord := by unfold setA; split <;> rfl
@[simp] theorem setA_holdAccess (c : Core) (i : BitVec 5) (v : Word) : (setA c i v).holdAccess = c.holdAccess := by unfold setA; split <;> rfl
@[simp] theorem setA_holdStore (c : Core) (i : BitVec 5) (v : Word) : (setA c i v).holdStore = c.holdStore := by unfold setA; split <;> rfl
@[simp] theorem setA_holdCommand (c : Core) (i : BitVec 5) (v : Word) : (setA c i v).holdCommand = c.holdCommand := by unfold setA; split <;> rfl
@[simp] theorem setA_free (c : Core) (i : BitVec 5) (v : Word) : (setA c i v).free = c.free := by unfold setA; split <;> rfl

/-! ## Flags, PPEND, banks -/

@[simp] theorem orFlags_flags (f : Flags) (c : Core) : (orFlags f c).csr.flags = c.csr.flags ||| f := rfl
@[simp] theorem orFlags_run (f : Flags) (c : Core) : (orFlags f c).run = c.run := rfl
@[simp] theorem orFlags_pc (f : Flags) (c : Core) : (orFlags f c).pc = c.pc := rfl
@[simp] theorem orFlags_pfx (f : Flags) (c : Core) : (orFlags f c).pfx = c.pfx := rfl
@[simp] theorem orFlags_s (f : Flags) (c : Core) : (orFlags f c).s = c.s := rfl
@[simp] theorem orFlags_a (f : Flags) (c : Core) : (orFlags f c).a = c.a := rfl
@[simp] theorem orFlags_trapS (f : Flags) (c : Core) : (orFlags f c).trapS = c.trapS := rfl
@[simp] theorem orFlags_trapA (f : Flags) (c : Core) : (orFlags f c).trapA = c.trapA := rfl
@[simp] theorem orFlags_v (f : Flags) (c : Core) : (orFlags f c).v = c.v := rfl
@[simp] theorem orFlags_t1 (f : Flags) (c : Core) : (orFlags f c).t1 = c.t1 := rfl
@[simp] theorem orFlags_t2 (f : Flags) (c : Core) : (orFlags f c).t2 = c.t2 := rfl
@[simp] theorem orFlags_t3 (f : Flags) (c : Core) : (orFlags f c).t3 = c.t3 := rfl
@[simp] theorem orFlags_p (f : Flags) (c : Core) : (orFlags f c).p = c.p := rfl
@[simp] theorem orFlags_ptag (f : Flags) (c : Core) : (orFlags f c).ptag = c.ptag := rfl
@[simp] theorem orFlags_tokens (f : Flags) (c : Core) : (orFlags f c).tokens = c.tokens := rfl
@[simp] theorem orFlags_flumes (f : Flags) (c : Core) : (orFlags f c).flumes = c.flumes := rfl
@[simp] theorem orFlags_bnd (f : Flags) (c : Core) : (orFlags f c).bnd = c.bnd := rfl
@[simp] theorem orFlags_bq (f : Flags) (c : Core) : (orFlags f c).bq = c.bq := rfl
@[simp] theorem orFlags_tiles (f : Flags) (c : Core) : (orFlags f c).tiles = c.tiles := rfl
@[simp] theorem orFlags_mcfg (f : Flags) (c : Core) : (orFlags f c).mcfg = c.mcfg := rfl
@[simp] theorem orFlags_user (f : Flags) (c : Core) : (orFlags f c).user = c.user := rfl
@[simp] theorem orFlags_trap (f : Flags) (c : Core) : (orFlags f c).trap = c.trap := rfl
@[simp] theorem orFlags_mcmd (f : Flags) (c : Core) : (orFlags f c).mcmd = c.mcmd := rfl
@[simp] theorem orFlags_ycmds (f : Flags) (c : Core) : (orFlags f c).ycmds = c.ycmds := rfl
@[simp] theorem orFlags_barrier (f : Flags) (c : Core) : (orFlags f c).barrier = c.barrier := rfl
@[simp] theorem orFlags_records (f : Flags) (c : Core) : (orFlags f c).records = c.records := rfl
@[simp] theorem orFlags_lattice (f : Flags) (c : Core) : (orFlags f c).lattice = c.lattice := rfl
@[simp] theorem orFlags_gens (f : Flags) (c : Core) : (orFlags f c).gens = c.gens := rfl
@[simp] theorem orFlags_seq (f : Flags) (c : Core) : (orFlags f c).seq = c.seq := rfl
@[simp] theorem orFlags_desc (f : Flags) (c : Core) : (orFlags f c).desc = c.desc := rfl
@[simp] theorem orFlags_runs (f : Flags) (c : Core) : (orFlags f c).runs = c.runs := rfl
@[simp] theorem orFlags_storeQ (f : Flags) (c : Core) : (orFlags f c).storeQ = c.storeQ := rfl
@[simp] theorem orFlags_flight (f : Flags) (c : Core) : (orFlags f c).flight = c.flight := rfl
@[simp] theorem orFlags_issued (f : Flags) (c : Core) : (orFlags f c).issued = c.issued := rfl
@[simp] theorem orFlags_reached (f : Flags) (c : Core) : (orFlags f c).reached = c.reached := rfl
@[simp] theorem orFlags_seen (f : Flags) (c : Core) : (orFlags f c).seen = c.seen := rfl
@[simp] theorem orFlags_append (f : Flags) (c : Core) : (orFlags f c).append = c.append := rfl
@[simp] theorem orFlags_gathered (f : Flags) (c : Core) : (orFlags f c).gathered = c.gathered := rfl
@[simp] theorem orFlags_yielded (f : Flags) (c : Core) : (orFlags f c).yielded = c.yielded := rfl
@[simp] theorem orFlags_icache (f : Flags) (c : Core) : (orFlags f c).icache = c.icache := rfl
@[simp] theorem orFlags_fcache (f : Flags) (c : Core) : (orFlags f c).fcache = c.fcache := rfl
@[simp] theorem orFlags_tlb (f : Flags) (c : Core) : (orFlags f c).tlb = c.tlb := rfl
@[simp] theorem orFlags_pending (f : Flags) (c : Core) : (orFlags f c).pending = c.pending := rfl
@[simp] theorem orFlags_waits (f : Flags) (c : Core) : (orFlags f c).waits = c.waits := rfl
@[simp] theorem orFlags_arrived (f : Flags) (c : Core) : (orFlags f c).arrived = c.arrived := rfl
@[simp] theorem orFlags_filled (f : Flags) (c : Core) : (orFlags f c).filled = c.filled := rfl
@[simp] theorem orFlags_ord (f : Flags) (c : Core) : (orFlags f c).ord = c.ord := rfl
@[simp] theorem orFlags_holdWord (f : Flags) (c : Core) : (orFlags f c).holdWord = c.holdWord := rfl
@[simp] theorem orFlags_holdAccess (f : Flags) (c : Core) : (orFlags f c).holdAccess = c.holdAccess := rfl
@[simp] theorem orFlags_holdStore (f : Flags) (c : Core) : (orFlags f c).holdStore = c.holdStore := rfl
@[simp] theorem orFlags_holdCommand (f : Flags) (c : Core) : (orFlags f c).holdCommand = c.holdCommand := rfl
@[simp] theorem orFlags_free (f : Flags) (c : Core) : (orFlags f c).free = c.free := rfl

@[simp] theorem setPpend_run (b : Bool) (c : Core) : (setPpend b c).run = c.run := rfl
@[simp] theorem setPpend_pc (b : Bool) (c : Core) : (setPpend b c).pc = c.pc := rfl
@[simp] theorem setPpend_pfx (b : Bool) (c : Core) : (setPpend b c).pfx = c.pfx := rfl
@[simp] theorem setPpend_s (b : Bool) (c : Core) : (setPpend b c).s = c.s := rfl
@[simp] theorem setPpend_a (b : Bool) (c : Core) : (setPpend b c).a = c.a := rfl
@[simp] theorem setPpend_trapS (b : Bool) (c : Core) : (setPpend b c).trapS = c.trapS := rfl
@[simp] theorem setPpend_trapA (b : Bool) (c : Core) : (setPpend b c).trapA = c.trapA := rfl
@[simp] theorem setPpend_v (b : Bool) (c : Core) : (setPpend b c).v = c.v := rfl
@[simp] theorem setPpend_t1 (b : Bool) (c : Core) : (setPpend b c).t1 = c.t1 := rfl
@[simp] theorem setPpend_t2 (b : Bool) (c : Core) : (setPpend b c).t2 = c.t2 := rfl
@[simp] theorem setPpend_t3 (b : Bool) (c : Core) : (setPpend b c).t3 = c.t3 := rfl
@[simp] theorem setPpend_p (b : Bool) (c : Core) : (setPpend b c).p = c.p := rfl
@[simp] theorem setPpend_ptag (b : Bool) (c : Core) : (setPpend b c).ptag = c.ptag := rfl
@[simp] theorem setPpend_tokens (b : Bool) (c : Core) : (setPpend b c).tokens = c.tokens := rfl
@[simp] theorem setPpend_flumes (b : Bool) (c : Core) : (setPpend b c).flumes = c.flumes := rfl
@[simp] theorem setPpend_bnd (b : Bool) (c : Core) : (setPpend b c).bnd = c.bnd := rfl
@[simp] theorem setPpend_bq (b : Bool) (c : Core) : (setPpend b c).bq = c.bq := rfl
@[simp] theorem setPpend_tiles (b : Bool) (c : Core) : (setPpend b c).tiles = c.tiles := rfl
@[simp] theorem setPpend_mcfg (b : Bool) (c : Core) : (setPpend b c).mcfg = c.mcfg := rfl
@[simp] theorem setPpend_user (b : Bool) (c : Core) : (setPpend b c).user = c.user := rfl
@[simp] theorem setPpend_trap (b : Bool) (c : Core) : (setPpend b c).trap = c.trap := rfl
@[simp] theorem setPpend_mcmd (b : Bool) (c : Core) : (setPpend b c).mcmd = c.mcmd := rfl
@[simp] theorem setPpend_ycmds (b : Bool) (c : Core) : (setPpend b c).ycmds = c.ycmds := rfl
@[simp] theorem setPpend_barrier (b : Bool) (c : Core) : (setPpend b c).barrier = c.barrier := rfl
@[simp] theorem setPpend_records (b : Bool) (c : Core) : (setPpend b c).records = c.records := rfl
@[simp] theorem setPpend_lattice (b : Bool) (c : Core) : (setPpend b c).lattice = c.lattice := rfl
@[simp] theorem setPpend_gens (b : Bool) (c : Core) : (setPpend b c).gens = c.gens := rfl
@[simp] theorem setPpend_seq (b : Bool) (c : Core) : (setPpend b c).seq = c.seq := rfl
@[simp] theorem setPpend_desc (b : Bool) (c : Core) : (setPpend b c).desc = c.desc := rfl
@[simp] theorem setPpend_runs (b : Bool) (c : Core) : (setPpend b c).runs = c.runs := rfl
@[simp] theorem setPpend_storeQ (b : Bool) (c : Core) : (setPpend b c).storeQ = c.storeQ := rfl
@[simp] theorem setPpend_flight (b : Bool) (c : Core) : (setPpend b c).flight = c.flight := rfl
@[simp] theorem setPpend_issued (b : Bool) (c : Core) : (setPpend b c).issued = c.issued := rfl
@[simp] theorem setPpend_reached (b : Bool) (c : Core) : (setPpend b c).reached = c.reached := rfl
@[simp] theorem setPpend_seen (b : Bool) (c : Core) : (setPpend b c).seen = c.seen := rfl
@[simp] theorem setPpend_append (b : Bool) (c : Core) : (setPpend b c).append = c.append := rfl
@[simp] theorem setPpend_gathered (b : Bool) (c : Core) : (setPpend b c).gathered = c.gathered := rfl
@[simp] theorem setPpend_yielded (b : Bool) (c : Core) : (setPpend b c).yielded = c.yielded := rfl
@[simp] theorem setPpend_icache (b : Bool) (c : Core) : (setPpend b c).icache = c.icache := rfl
@[simp] theorem setPpend_fcache (b : Bool) (c : Core) : (setPpend b c).fcache = c.fcache := rfl
@[simp] theorem setPpend_tlb (b : Bool) (c : Core) : (setPpend b c).tlb = c.tlb := rfl
@[simp] theorem setPpend_pending (b : Bool) (c : Core) : (setPpend b c).pending = c.pending := rfl
@[simp] theorem setPpend_waits (b : Bool) (c : Core) : (setPpend b c).waits = c.waits := rfl
@[simp] theorem setPpend_arrived (b : Bool) (c : Core) : (setPpend b c).arrived = c.arrived := rfl
@[simp] theorem setPpend_filled (b : Bool) (c : Core) : (setPpend b c).filled = c.filled := rfl
@[simp] theorem setPpend_ord (b : Bool) (c : Core) : (setPpend b c).ord = c.ord := rfl
@[simp] theorem setPpend_holdWord (b : Bool) (c : Core) : (setPpend b c).holdWord = c.holdWord := rfl
@[simp] theorem setPpend_holdAccess (b : Bool) (c : Core) : (setPpend b c).holdAccess = c.holdAccess := rfl
@[simp] theorem setPpend_holdStore (b : Bool) (c : Core) : (setPpend b c).holdStore = c.holdStore := rfl
@[simp] theorem setPpend_holdCommand (b : Bool) (c : Core) : (setPpend b c).holdCommand = c.holdCommand := rfl
@[simp] theorem setPpend_free (b : Bool) (c : Core) : (setPpend b c).free = c.free := rfl

@[simp] theorem exchangeBanks_run (c : Core) : (exchangeBanks c).run = c.run := by simp only [exchangeBanks]
@[simp] theorem exchangeBanks_pc (c : Core) : (exchangeBanks c).pc = c.pc := by simp only [exchangeBanks]
@[simp] theorem exchangeBanks_pfx (c : Core) : (exchangeBanks c).pfx = c.pfx := by simp only [exchangeBanks]
@[simp] theorem exchangeBanks_v (c : Core) : (exchangeBanks c).v = c.v := by simp only [exchangeBanks]
@[simp] theorem exchangeBanks_t1 (c : Core) : (exchangeBanks c).t1 = c.t1 := by simp only [exchangeBanks]
@[simp] theorem exchangeBanks_t2 (c : Core) : (exchangeBanks c).t2 = c.t2 := by simp only [exchangeBanks]
@[simp] theorem exchangeBanks_t3 (c : Core) : (exchangeBanks c).t3 = c.t3 := by simp only [exchangeBanks]
@[simp] theorem exchangeBanks_p (c : Core) : (exchangeBanks c).p = c.p := by simp only [exchangeBanks]
@[simp] theorem exchangeBanks_ptag (c : Core) : (exchangeBanks c).ptag = c.ptag := by simp only [exchangeBanks]
@[simp] theorem exchangeBanks_tokens (c : Core) : (exchangeBanks c).tokens = c.tokens := by simp only [exchangeBanks]
@[simp] theorem exchangeBanks_flumes (c : Core) : (exchangeBanks c).flumes = c.flumes := by simp only [exchangeBanks]
@[simp] theorem exchangeBanks_bnd (c : Core) : (exchangeBanks c).bnd = c.bnd := by simp only [exchangeBanks]
@[simp] theorem exchangeBanks_bq (c : Core) : (exchangeBanks c).bq = c.bq := by simp only [exchangeBanks]
@[simp] theorem exchangeBanks_tiles (c : Core) : (exchangeBanks c).tiles = c.tiles := by simp only [exchangeBanks]
@[simp] theorem exchangeBanks_mcfg (c : Core) : (exchangeBanks c).mcfg = c.mcfg := by simp only [exchangeBanks]
@[simp] theorem exchangeBanks_user (c : Core) : (exchangeBanks c).user = c.user := by simp only [exchangeBanks]
@[simp] theorem exchangeBanks_trap (c : Core) : (exchangeBanks c).trap = c.trap := by simp only [exchangeBanks]
@[simp] theorem exchangeBanks_mcmd (c : Core) : (exchangeBanks c).mcmd = c.mcmd := by simp only [exchangeBanks]
@[simp] theorem exchangeBanks_ycmds (c : Core) : (exchangeBanks c).ycmds = c.ycmds := by simp only [exchangeBanks]
@[simp] theorem exchangeBanks_barrier (c : Core) : (exchangeBanks c).barrier = c.barrier := by simp only [exchangeBanks]
@[simp] theorem exchangeBanks_records (c : Core) : (exchangeBanks c).records = c.records := by simp only [exchangeBanks]
@[simp] theorem exchangeBanks_lattice (c : Core) : (exchangeBanks c).lattice = c.lattice := by simp only [exchangeBanks]
@[simp] theorem exchangeBanks_gens (c : Core) : (exchangeBanks c).gens = c.gens := by simp only [exchangeBanks]
@[simp] theorem exchangeBanks_seq (c : Core) : (exchangeBanks c).seq = c.seq := by simp only [exchangeBanks]
@[simp] theorem exchangeBanks_desc (c : Core) : (exchangeBanks c).desc = c.desc := by simp only [exchangeBanks]
@[simp] theorem exchangeBanks_runs (c : Core) : (exchangeBanks c).runs = c.runs := by simp only [exchangeBanks]
@[simp] theorem exchangeBanks_storeQ (c : Core) : (exchangeBanks c).storeQ = c.storeQ := by simp only [exchangeBanks]
@[simp] theorem exchangeBanks_flight (c : Core) : (exchangeBanks c).flight = c.flight := by simp only [exchangeBanks]
@[simp] theorem exchangeBanks_issued (c : Core) : (exchangeBanks c).issued = c.issued := by simp only [exchangeBanks]
@[simp] theorem exchangeBanks_reached (c : Core) : (exchangeBanks c).reached = c.reached := by simp only [exchangeBanks]
@[simp] theorem exchangeBanks_seen (c : Core) : (exchangeBanks c).seen = c.seen := by simp only [exchangeBanks]
@[simp] theorem exchangeBanks_append (c : Core) : (exchangeBanks c).append = c.append := by simp only [exchangeBanks]
@[simp] theorem exchangeBanks_gathered (c : Core) : (exchangeBanks c).gathered = c.gathered := by simp only [exchangeBanks]
@[simp] theorem exchangeBanks_yielded (c : Core) : (exchangeBanks c).yielded = c.yielded := by simp only [exchangeBanks]
@[simp] theorem exchangeBanks_csr (c : Core) : (exchangeBanks c).csr = c.csr := by simp only [exchangeBanks]
@[simp] theorem exchangeBanks_icache (c : Core) : (exchangeBanks c).icache = c.icache := by simp only [exchangeBanks]
@[simp] theorem exchangeBanks_fcache (c : Core) : (exchangeBanks c).fcache = c.fcache := by simp only [exchangeBanks]
@[simp] theorem exchangeBanks_tlb (c : Core) : (exchangeBanks c).tlb = c.tlb := by simp only [exchangeBanks]
@[simp] theorem exchangeBanks_pending (c : Core) : (exchangeBanks c).pending = c.pending := by simp only [exchangeBanks]
@[simp] theorem exchangeBanks_waits (c : Core) : (exchangeBanks c).waits = c.waits := by simp only [exchangeBanks]
@[simp] theorem exchangeBanks_arrived (c : Core) : (exchangeBanks c).arrived = c.arrived := by simp only [exchangeBanks]
@[simp] theorem exchangeBanks_filled (c : Core) : (exchangeBanks c).filled = c.filled := by simp only [exchangeBanks]
@[simp] theorem exchangeBanks_ord (c : Core) : (exchangeBanks c).ord = c.ord := by simp only [exchangeBanks]
@[simp] theorem exchangeBanks_holdWord (c : Core) : (exchangeBanks c).holdWord = c.holdWord := by simp only [exchangeBanks]
@[simp] theorem exchangeBanks_holdAccess (c : Core) : (exchangeBanks c).holdAccess = c.holdAccess := by simp only [exchangeBanks]
@[simp] theorem exchangeBanks_holdStore (c : Core) : (exchangeBanks c).holdStore = c.holdStore := by simp only [exchangeBanks]
@[simp] theorem exchangeBanks_holdCommand (c : Core) : (exchangeBanks c).holdCommand = c.holdCommand := by simp only [exchangeBanks]
@[simp] theorem exchangeBanks_free (c : Core) : (exchangeBanks c).free = c.free := by simp only [exchangeBanks]

/-! ## Rings -/

@[simp] theorem get_put_A (r : Rings) (q : Ring) : (r.put .A q).get .A = q := rfl
@[simp] theorem get_put_X (r : Rings) (q : Ring) : (r.put .X q).get .X = q := rfl
@[simp] theorem get_put_M (r : Rings) (q : Ring) : (r.put .M q).get .M = q := rfl
@[simp] theorem get_put_Y (r : Rings) (q : Ring) : (r.put .Y q).get .Y = q := rfl

@[simp] theorem setActiveRings_run (c : Core) (r : Rings) : (setActiveRings c r).run = c.run := by unfold setActiveRings; split <;> rfl
@[simp] theorem setActiveRings_pc (c : Core) (r : Rings) : (setActiveRings c r).pc = c.pc := by unfold setActiveRings; split <;> rfl
@[simp] theorem setActiveRings_pfx (c : Core) (r : Rings) : (setActiveRings c r).pfx = c.pfx := by unfold setActiveRings; split <;> rfl
@[simp] theorem setActiveRings_s (c : Core) (r : Rings) : (setActiveRings c r).s = c.s := by unfold setActiveRings; split <;> rfl
@[simp] theorem setActiveRings_a (c : Core) (r : Rings) : (setActiveRings c r).a = c.a := by unfold setActiveRings; split <;> rfl
@[simp] theorem setActiveRings_trapS (c : Core) (r : Rings) : (setActiveRings c r).trapS = c.trapS := by unfold setActiveRings; split <;> rfl
@[simp] theorem setActiveRings_trapA (c : Core) (r : Rings) : (setActiveRings c r).trapA = c.trapA := by unfold setActiveRings; split <;> rfl
@[simp] theorem setActiveRings_v (c : Core) (r : Rings) : (setActiveRings c r).v = c.v := by unfold setActiveRings; split <;> rfl
@[simp] theorem setActiveRings_t1 (c : Core) (r : Rings) : (setActiveRings c r).t1 = c.t1 := by unfold setActiveRings; split <;> rfl
@[simp] theorem setActiveRings_t2 (c : Core) (r : Rings) : (setActiveRings c r).t2 = c.t2 := by unfold setActiveRings; split <;> rfl
@[simp] theorem setActiveRings_t3 (c : Core) (r : Rings) : (setActiveRings c r).t3 = c.t3 := by unfold setActiveRings; split <;> rfl
@[simp] theorem setActiveRings_p (c : Core) (r : Rings) : (setActiveRings c r).p = c.p := by unfold setActiveRings; split <;> rfl
@[simp] theorem setActiveRings_ptag (c : Core) (r : Rings) : (setActiveRings c r).ptag = c.ptag := by unfold setActiveRings; split <;> rfl
@[simp] theorem setActiveRings_tokens (c : Core) (r : Rings) : (setActiveRings c r).tokens = c.tokens := by unfold setActiveRings; split <;> rfl
@[simp] theorem setActiveRings_flumes (c : Core) (r : Rings) : (setActiveRings c r).flumes = c.flumes := by unfold setActiveRings; split <;> rfl
@[simp] theorem setActiveRings_bnd (c : Core) (r : Rings) : (setActiveRings c r).bnd = c.bnd := by unfold setActiveRings; split <;> rfl
@[simp] theorem setActiveRings_bq (c : Core) (r : Rings) : (setActiveRings c r).bq = c.bq := by unfold setActiveRings; split <;> rfl
@[simp] theorem setActiveRings_tiles (c : Core) (r : Rings) : (setActiveRings c r).tiles = c.tiles := by unfold setActiveRings; split <;> rfl
@[simp] theorem setActiveRings_mcfg (c : Core) (r : Rings) : (setActiveRings c r).mcfg = c.mcfg := by unfold setActiveRings; split <;> rfl
@[simp] theorem setActiveRings_mcmd (c : Core) (r : Rings) : (setActiveRings c r).mcmd = c.mcmd := by unfold setActiveRings; split <;> rfl
@[simp] theorem setActiveRings_ycmds (c : Core) (r : Rings) : (setActiveRings c r).ycmds = c.ycmds := by unfold setActiveRings; split <;> rfl
@[simp] theorem setActiveRings_barrier (c : Core) (r : Rings) : (setActiveRings c r).barrier = c.barrier := by unfold setActiveRings; split <;> rfl
@[simp] theorem setActiveRings_records (c : Core) (r : Rings) : (setActiveRings c r).records = c.records := by unfold setActiveRings; split <;> rfl
@[simp] theorem setActiveRings_lattice (c : Core) (r : Rings) : (setActiveRings c r).lattice = c.lattice := by unfold setActiveRings; split <;> rfl
@[simp] theorem setActiveRings_gens (c : Core) (r : Rings) : (setActiveRings c r).gens = c.gens := by unfold setActiveRings; split <;> rfl
@[simp] theorem setActiveRings_seq (c : Core) (r : Rings) : (setActiveRings c r).seq = c.seq := by unfold setActiveRings; split <;> rfl
@[simp] theorem setActiveRings_desc (c : Core) (r : Rings) : (setActiveRings c r).desc = c.desc := by unfold setActiveRings; split <;> rfl
@[simp] theorem setActiveRings_runs (c : Core) (r : Rings) : (setActiveRings c r).runs = c.runs := by unfold setActiveRings; split <;> rfl
@[simp] theorem setActiveRings_storeQ (c : Core) (r : Rings) : (setActiveRings c r).storeQ = c.storeQ := by unfold setActiveRings; split <;> rfl
@[simp] theorem setActiveRings_flight (c : Core) (r : Rings) : (setActiveRings c r).flight = c.flight := by unfold setActiveRings; split <;> rfl
@[simp] theorem setActiveRings_issued (c : Core) (r : Rings) : (setActiveRings c r).issued = c.issued := by unfold setActiveRings; split <;> rfl
@[simp] theorem setActiveRings_reached (c : Core) (r : Rings) : (setActiveRings c r).reached = c.reached := by unfold setActiveRings; split <;> rfl
@[simp] theorem setActiveRings_seen (c : Core) (r : Rings) : (setActiveRings c r).seen = c.seen := by unfold setActiveRings; split <;> rfl
@[simp] theorem setActiveRings_append (c : Core) (r : Rings) : (setActiveRings c r).append = c.append := by unfold setActiveRings; split <;> rfl
@[simp] theorem setActiveRings_gathered (c : Core) (r : Rings) : (setActiveRings c r).gathered = c.gathered := by unfold setActiveRings; split <;> rfl
@[simp] theorem setActiveRings_yielded (c : Core) (r : Rings) : (setActiveRings c r).yielded = c.yielded := by unfold setActiveRings; split <;> rfl
@[simp] theorem setActiveRings_csr (c : Core) (r : Rings) : (setActiveRings c r).csr = c.csr := by unfold setActiveRings; split <;> rfl
@[simp] theorem setActiveRings_icache (c : Core) (r : Rings) : (setActiveRings c r).icache = c.icache := by unfold setActiveRings; split <;> rfl
@[simp] theorem setActiveRings_fcache (c : Core) (r : Rings) : (setActiveRings c r).fcache = c.fcache := by unfold setActiveRings; split <;> rfl
@[simp] theorem setActiveRings_tlb (c : Core) (r : Rings) : (setActiveRings c r).tlb = c.tlb := by unfold setActiveRings; split <;> rfl
@[simp] theorem setActiveRings_pending (c : Core) (r : Rings) : (setActiveRings c r).pending = c.pending := by unfold setActiveRings; split <;> rfl
@[simp] theorem setActiveRings_waits (c : Core) (r : Rings) : (setActiveRings c r).waits = c.waits := by unfold setActiveRings; split <;> rfl
@[simp] theorem setActiveRings_arrived (c : Core) (r : Rings) : (setActiveRings c r).arrived = c.arrived := by unfold setActiveRings; split <;> rfl
@[simp] theorem setActiveRings_filled (c : Core) (r : Rings) : (setActiveRings c r).filled = c.filled := by unfold setActiveRings; split <;> rfl
@[simp] theorem setActiveRings_ord (c : Core) (r : Rings) : (setActiveRings c r).ord = c.ord := by unfold setActiveRings; split <;> rfl
@[simp] theorem setActiveRings_holdWord (c : Core) (r : Rings) : (setActiveRings c r).holdWord = c.holdWord := by unfold setActiveRings; split <;> rfl
@[simp] theorem setActiveRings_holdAccess (c : Core) (r : Rings) : (setActiveRings c r).holdAccess = c.holdAccess := by unfold setActiveRings; split <;> rfl
@[simp] theorem setActiveRings_holdStore (c : Core) (r : Rings) : (setActiveRings c r).holdStore = c.holdStore := by unfold setActiveRings; split <;> rfl
@[simp] theorem setActiveRings_holdCommand (c : Core) (r : Rings) : (setActiveRings c r).holdCommand = c.holdCommand := by unfold setActiveRings; split <;> rfl
@[simp] theorem setActiveRings_free (c : Core) (r : Rings) : (setActiveRings c r).free = c.free := by unfold setActiveRings; split <;> rfl

@[simp] theorem activeRings_set (c : Core) (r : Rings) : activeRings (setActiveRings c r) = r := by
  unfold activeRings setActiveRings inTrap
  split <;> simp_all

/-! ## The state past a word -/

@[simp] theorem passed_cur (s : State) : (passed s).cur = s.cur := rfl
@[simp] theorem passed_parked (s : State) : (passed s).parked = s.parked := rfl
@[simp] theorem passed_mem (s : State) : (passed s).mem = s.mem := rfl
@[simp] theorem passed_agenda (s : State) : (passed s).agenda = s.agenda := rfl
@[simp] theorem passed_pick (s : State) : (passed s).pick = s.pick := rfl
@[simp] theorem passed_hbt (s : State) : (passed s).hbt = s.hbt := rfl
@[simp] theorem passed_l2 (s : State) : (passed s).l2 = s.l2 := rfl
@[simp] theorem passed_l2ptr (s : State) : (passed s).l2ptr = s.l2ptr := rfl
@[simp] theorem passed_classes (s : State) : (passed s).classes = s.classes := rfl
@[simp] theorem passed_fenced (s : State) : (passed s).fenced = s.fenced := rfl
@[simp] theorem passed_jobs (s : State) : (passed s).jobs = s.jobs := rfl
@[simp] theorem passed_queues (s : State) : (passed s).queues = s.queues := rfl
@[simp] theorem passed_dies (s : State) : (passed s).dies = s.dies := rfl
@[simp] theorem passed_launch (s : State) : (passed s).launch = s.launch := rfl
@[simp] theorem passed_stalled (s : State) : (passed s).stalled = s.stalled := rfl
@[simp] theorem passed_fullWaiters (s : State) : (passed s).fullWaiters = s.fullWaiters := rfl
@[simp] theorem passed_gangs (s : State) : (passed s).gangs = s.gangs := rfl
@[simp] theorem passed_nextGang (s : State) : (passed s).nextGang = s.nextGang := rfl
@[simp] theorem passed_quotas (s : State) : (passed s).quotas = s.quotas := rfl
@[simp] theorem passed_nextQuotas (s : State) : (passed s).nextQuotas = s.nextQuotas := rfl
@[simp] theorem passed_sliceGen (s : State) : (passed s).sliceGen = s.sliceGen := rfl
@[simp] theorem passed_keys (s : State) : (passed s).keys = s.keys := rfl
@[simp] theorem passed_mig (s : State) : (passed s).mig = s.mig := rfl
@[simp] theorem passed_pool (s : State) : (passed s).pool = s.pool := rfl
@[simp] theorem passed_compMapped (s : State) : (passed s).compMapped = s.compMapped := rfl
@[simp] theorem passed_walkWait (s : State) : (passed s).walkWait = s.walkWait := rfl
@[simp] theorem passed_hostFns (s : State) : (passed s).hostFns = s.hostFns := rfl
@[simp] theorem passed_intmap (s : State) : (passed s).intmap = s.intmap := rfl
@[simp] theorem passed_faultMap (s : State) : (passed s).faultMap = s.faultMap := rfl
@[simp] theorem passed_featMask (s : State) : (passed s).featMask = s.featMask := rfl
@[simp] theorem passed_sigReq (s : State) : (passed s).sigReq = s.sigReq := rfl
@[simp] theorem passed_vkeyX (s : State) : (passed s).vkeyX = s.vkeyX := rfl
@[simp] theorem passed_vkeys (s : State) : (passed s).vkeys = s.vkeys := rfl
@[simp] theorem passed_svnCount (s : State) : (passed s).svnCount = s.svnCount := rfl
@[simp] theorem passed_verified (s : State) : (passed s).verified = s.verified := rfl
@[simp] theorem passed_netqs (s : State) : (passed s).netqs = s.netqs := rfl
@[simp] theorem passed_sent (s : State) : (passed s).sent = s.sent := rfl
@[simp] theorem passed_replies (s : State) : (passed s).replies = s.replies := rfl
@[simp] theorem passed_bootState (s : State) : (passed s).bootState = s.bootState := rfl
@[simp] theorem passed_bootBank (s : State) : (passed s).bootBank = s.bootBank := rfl
@[simp] theorem passed_fwSvn (s : State) : (passed s).fwSvn = s.fwSvn := rfl
@[simp] theorem passed_flash (s : State) : (passed s).flash = s.flash := rfl
@[simp] theorem passed_fwFirst (s : State) : (passed s).fwFirst = s.fwFirst := rfl
@[simp] theorem passed_msgs (s : State) : (passed s).msgs = s.msgs := rfl
@[simp] theorem passed_fleet (s : State) : (passed s).fleet = s.fleet := rfl
@[simp] theorem passed_dispatched (s : State) : (passed s).dispatched = s.dispatched := rfl
@[simp] theorem passed_notes (s : State) : (passed s).notes = s.notes := rfl
@[simp] theorem passed_blocked (s : State) : (passed s).blocked = s.blocked := rfl

@[simp] theorem passed_pc (s : State) : (passed s).core.pc = s.core.pc + 4 := rfl
@[simp] theorem passed_pfx (s : State) : (passed s).core.pfx = none := rfl
@[simp] theorem passed_core_run (s : State) : (passed s).core.run = s.core.run := rfl
@[simp] theorem passed_core_s (s : State) : (passed s).core.s = s.core.s := rfl
@[simp] theorem passed_core_a (s : State) : (passed s).core.a = s.core.a := rfl
@[simp] theorem passed_core_trapS (s : State) : (passed s).core.trapS = s.core.trapS := rfl
@[simp] theorem passed_core_trapA (s : State) : (passed s).core.trapA = s.core.trapA := rfl
@[simp] theorem passed_core_v (s : State) : (passed s).core.v = s.core.v := rfl
@[simp] theorem passed_core_t1 (s : State) : (passed s).core.t1 = s.core.t1 := rfl
@[simp] theorem passed_core_t2 (s : State) : (passed s).core.t2 = s.core.t2 := rfl
@[simp] theorem passed_core_t3 (s : State) : (passed s).core.t3 = s.core.t3 := rfl
@[simp] theorem passed_core_p (s : State) : (passed s).core.p = s.core.p := rfl
@[simp] theorem passed_core_ptag (s : State) : (passed s).core.ptag = s.core.ptag := rfl
@[simp] theorem passed_core_tokens (s : State) : (passed s).core.tokens = s.core.tokens := rfl
@[simp] theorem passed_core_flumes (s : State) : (passed s).core.flumes = s.core.flumes := rfl
@[simp] theorem passed_core_bnd (s : State) : (passed s).core.bnd = s.core.bnd := rfl
@[simp] theorem passed_core_bq (s : State) : (passed s).core.bq = s.core.bq := rfl
@[simp] theorem passed_core_tiles (s : State) : (passed s).core.tiles = s.core.tiles := rfl
@[simp] theorem passed_core_mcfg (s : State) : (passed s).core.mcfg = s.core.mcfg := rfl
@[simp] theorem passed_core_user (s : State) : (passed s).core.user = s.core.user := rfl
@[simp] theorem passed_core_trap (s : State) : (passed s).core.trap = s.core.trap := rfl
@[simp] theorem passed_core_mcmd (s : State) : (passed s).core.mcmd = s.core.mcmd := rfl
@[simp] theorem passed_core_ycmds (s : State) : (passed s).core.ycmds = s.core.ycmds := rfl
@[simp] theorem passed_core_barrier (s : State) : (passed s).core.barrier = s.core.barrier := rfl
@[simp] theorem passed_core_records (s : State) : (passed s).core.records = s.core.records := rfl
@[simp] theorem passed_core_lattice (s : State) : (passed s).core.lattice = s.core.lattice := rfl
@[simp] theorem passed_core_gens (s : State) : (passed s).core.gens = s.core.gens := rfl
@[simp] theorem passed_core_seq (s : State) : (passed s).core.seq = s.core.seq := rfl
@[simp] theorem passed_core_desc (s : State) : (passed s).core.desc = s.core.desc := rfl
@[simp] theorem passed_core_runs (s : State) : (passed s).core.runs = s.core.runs := rfl
@[simp] theorem passed_core_storeQ (s : State) : (passed s).core.storeQ = s.core.storeQ := rfl
@[simp] theorem passed_core_flight (s : State) : (passed s).core.flight = s.core.flight := rfl
@[simp] theorem passed_core_issued (s : State) : (passed s).core.issued = s.core.issued := rfl
@[simp] theorem passed_core_reached (s : State) : (passed s).core.reached = s.core.reached := rfl
@[simp] theorem passed_core_seen (s : State) : (passed s).core.seen = s.core.seen := rfl
@[simp] theorem passed_core_append (s : State) : (passed s).core.append = s.core.append := rfl
@[simp] theorem passed_core_gathered (s : State) : (passed s).core.gathered = s.core.gathered := rfl
@[simp] theorem passed_core_yielded (s : State) : (passed s).core.yielded = s.core.yielded := rfl
@[simp] theorem passed_core_csr (s : State) : (passed s).core.csr = s.core.csr := rfl
@[simp] theorem passed_core_icache (s : State) : (passed s).core.icache = s.core.icache := rfl
@[simp] theorem passed_core_fcache (s : State) : (passed s).core.fcache = s.core.fcache := rfl
@[simp] theorem passed_core_tlb (s : State) : (passed s).core.tlb = s.core.tlb := rfl
@[simp] theorem passed_core_pending (s : State) : (passed s).core.pending = s.core.pending := rfl
@[simp] theorem passed_core_arrived (s : State) : (passed s).core.arrived = s.core.arrived := rfl
@[simp] theorem passed_core_filled (s : State) : (passed s).core.filled = s.core.filled := rfl
@[simp] theorem passed_core_holdWord (s : State) : (passed s).core.holdWord = s.core.holdWord := rfl
@[simp] theorem passed_core_holdAccess (s : State) : (passed s).core.holdAccess = s.core.holdAccess := rfl
@[simp] theorem passed_core_holdStore (s : State) : (passed s).core.holdStore = s.core.holdStore := rfl
@[simp] theorem passed_core_holdCommand (s : State) : (passed s).core.holdCommand = s.core.holdCommand := rfl
@[simp] theorem passed_core_free (s : State) : (passed s).core.free = s.core.free := rfl

@[simp] theorem goingOn_cur (t : Word) (s : State) : (goingOn t s).cur = s.cur := rfl
@[simp] theorem goingOn_parked (t : Word) (s : State) : (goingOn t s).parked = s.parked := rfl
@[simp] theorem goingOn_mem (t : Word) (s : State) : (goingOn t s).mem = s.mem := rfl
@[simp] theorem goingOn_agenda (t : Word) (s : State) : (goingOn t s).agenda = s.agenda := rfl
@[simp] theorem goingOn_pick (t : Word) (s : State) : (goingOn t s).pick = s.pick := rfl
@[simp] theorem goingOn_hbt (t : Word) (s : State) : (goingOn t s).hbt = s.hbt := rfl
@[simp] theorem goingOn_l2 (t : Word) (s : State) : (goingOn t s).l2 = s.l2 := rfl
@[simp] theorem goingOn_l2ptr (t : Word) (s : State) : (goingOn t s).l2ptr = s.l2ptr := rfl
@[simp] theorem goingOn_classes (t : Word) (s : State) : (goingOn t s).classes = s.classes := rfl
@[simp] theorem goingOn_fenced (t : Word) (s : State) : (goingOn t s).fenced = s.fenced := rfl
@[simp] theorem goingOn_jobs (t : Word) (s : State) : (goingOn t s).jobs = s.jobs := rfl
@[simp] theorem goingOn_queues (t : Word) (s : State) : (goingOn t s).queues = s.queues := rfl
@[simp] theorem goingOn_dies (t : Word) (s : State) : (goingOn t s).dies = s.dies := rfl
@[simp] theorem goingOn_launch (t : Word) (s : State) : (goingOn t s).launch = s.launch := rfl
@[simp] theorem goingOn_stalled (t : Word) (s : State) : (goingOn t s).stalled = s.stalled := rfl
@[simp] theorem goingOn_fullWaiters (t : Word) (s : State) : (goingOn t s).fullWaiters = s.fullWaiters := rfl
@[simp] theorem goingOn_gangs (t : Word) (s : State) : (goingOn t s).gangs = s.gangs := rfl
@[simp] theorem goingOn_nextGang (t : Word) (s : State) : (goingOn t s).nextGang = s.nextGang := rfl
@[simp] theorem goingOn_quotas (t : Word) (s : State) : (goingOn t s).quotas = s.quotas := rfl
@[simp] theorem goingOn_nextQuotas (t : Word) (s : State) : (goingOn t s).nextQuotas = s.nextQuotas := rfl
@[simp] theorem goingOn_sliceGen (t : Word) (s : State) : (goingOn t s).sliceGen = s.sliceGen := rfl
@[simp] theorem goingOn_keys (t : Word) (s : State) : (goingOn t s).keys = s.keys := rfl
@[simp] theorem goingOn_mig (t : Word) (s : State) : (goingOn t s).mig = s.mig := rfl
@[simp] theorem goingOn_pool (t : Word) (s : State) : (goingOn t s).pool = s.pool := rfl
@[simp] theorem goingOn_compMapped (t : Word) (s : State) : (goingOn t s).compMapped = s.compMapped := rfl
@[simp] theorem goingOn_walkWait (t : Word) (s : State) : (goingOn t s).walkWait = s.walkWait := rfl
@[simp] theorem goingOn_hostFns (t : Word) (s : State) : (goingOn t s).hostFns = s.hostFns := rfl
@[simp] theorem goingOn_intmap (t : Word) (s : State) : (goingOn t s).intmap = s.intmap := rfl
@[simp] theorem goingOn_faultMap (t : Word) (s : State) : (goingOn t s).faultMap = s.faultMap := rfl
@[simp] theorem goingOn_featMask (t : Word) (s : State) : (goingOn t s).featMask = s.featMask := rfl
@[simp] theorem goingOn_sigReq (t : Word) (s : State) : (goingOn t s).sigReq = s.sigReq := rfl
@[simp] theorem goingOn_vkeyX (t : Word) (s : State) : (goingOn t s).vkeyX = s.vkeyX := rfl
@[simp] theorem goingOn_vkeys (t : Word) (s : State) : (goingOn t s).vkeys = s.vkeys := rfl
@[simp] theorem goingOn_svnCount (t : Word) (s : State) : (goingOn t s).svnCount = s.svnCount := rfl
@[simp] theorem goingOn_verified (t : Word) (s : State) : (goingOn t s).verified = s.verified := rfl
@[simp] theorem goingOn_netqs (t : Word) (s : State) : (goingOn t s).netqs = s.netqs := rfl
@[simp] theorem goingOn_sent (t : Word) (s : State) : (goingOn t s).sent = s.sent := rfl
@[simp] theorem goingOn_replies (t : Word) (s : State) : (goingOn t s).replies = s.replies := rfl
@[simp] theorem goingOn_bootState (t : Word) (s : State) : (goingOn t s).bootState = s.bootState := rfl
@[simp] theorem goingOn_bootBank (t : Word) (s : State) : (goingOn t s).bootBank = s.bootBank := rfl
@[simp] theorem goingOn_fwSvn (t : Word) (s : State) : (goingOn t s).fwSvn = s.fwSvn := rfl
@[simp] theorem goingOn_flash (t : Word) (s : State) : (goingOn t s).flash = s.flash := rfl
@[simp] theorem goingOn_fwFirst (t : Word) (s : State) : (goingOn t s).fwFirst = s.fwFirst := rfl
@[simp] theorem goingOn_msgs (t : Word) (s : State) : (goingOn t s).msgs = s.msgs := rfl
@[simp] theorem goingOn_fleet (t : Word) (s : State) : (goingOn t s).fleet = s.fleet := rfl
@[simp] theorem goingOn_dispatched (t : Word) (s : State) : (goingOn t s).dispatched = s.dispatched := rfl
@[simp] theorem goingOn_notes (t : Word) (s : State) : (goingOn t s).notes = s.notes := rfl
@[simp] theorem goingOn_blocked (t : Word) (s : State) : (goingOn t s).blocked = s.blocked := rfl

@[simp] theorem withS_cur (d : BitVec 5) (v : Word) (s : State) : (withS d v s).cur = s.cur := by unfold withS; split <;> rfl
@[simp] theorem withS_parked (d : BitVec 5) (v : Word) (s : State) : (withS d v s).parked = s.parked := by unfold withS; split <;> rfl
@[simp] theorem withS_mem (d : BitVec 5) (v : Word) (s : State) : (withS d v s).mem = s.mem := by unfold withS; split <;> rfl
@[simp] theorem withS_agenda (d : BitVec 5) (v : Word) (s : State) : (withS d v s).agenda = s.agenda := by unfold withS; split <;> rfl
@[simp] theorem withS_pick (d : BitVec 5) (v : Word) (s : State) : (withS d v s).pick = s.pick := by unfold withS; split <;> rfl
@[simp] theorem withS_hbt (d : BitVec 5) (v : Word) (s : State) : (withS d v s).hbt = s.hbt := by unfold withS; split <;> rfl
@[simp] theorem withS_l2 (d : BitVec 5) (v : Word) (s : State) : (withS d v s).l2 = s.l2 := by unfold withS; split <;> rfl
@[simp] theorem withS_l2ptr (d : BitVec 5) (v : Word) (s : State) : (withS d v s).l2ptr = s.l2ptr := by unfold withS; split <;> rfl
@[simp] theorem withS_classes (d : BitVec 5) (v : Word) (s : State) : (withS d v s).classes = s.classes := by unfold withS; split <;> rfl
@[simp] theorem withS_fenced (d : BitVec 5) (v : Word) (s : State) : (withS d v s).fenced = s.fenced := by unfold withS; split <;> rfl
@[simp] theorem withS_jobs (d : BitVec 5) (v : Word) (s : State) : (withS d v s).jobs = s.jobs := by unfold withS; split <;> rfl
@[simp] theorem withS_queues (d : BitVec 5) (v : Word) (s : State) : (withS d v s).queues = s.queues := by unfold withS; split <;> rfl
@[simp] theorem withS_dies (d : BitVec 5) (v : Word) (s : State) : (withS d v s).dies = s.dies := by unfold withS; split <;> rfl
@[simp] theorem withS_launch (d : BitVec 5) (v : Word) (s : State) : (withS d v s).launch = s.launch := by unfold withS; split <;> rfl
@[simp] theorem withS_stalled (d : BitVec 5) (v : Word) (s : State) : (withS d v s).stalled = s.stalled := by unfold withS; split <;> rfl
@[simp] theorem withS_fullWaiters (d : BitVec 5) (v : Word) (s : State) : (withS d v s).fullWaiters = s.fullWaiters := by unfold withS; split <;> rfl
@[simp] theorem withS_gangs (d : BitVec 5) (v : Word) (s : State) : (withS d v s).gangs = s.gangs := by unfold withS; split <;> rfl
@[simp] theorem withS_nextGang (d : BitVec 5) (v : Word) (s : State) : (withS d v s).nextGang = s.nextGang := by unfold withS; split <;> rfl
@[simp] theorem withS_quotas (d : BitVec 5) (v : Word) (s : State) : (withS d v s).quotas = s.quotas := by unfold withS; split <;> rfl
@[simp] theorem withS_nextQuotas (d : BitVec 5) (v : Word) (s : State) : (withS d v s).nextQuotas = s.nextQuotas := by unfold withS; split <;> rfl
@[simp] theorem withS_sliceGen (d : BitVec 5) (v : Word) (s : State) : (withS d v s).sliceGen = s.sliceGen := by unfold withS; split <;> rfl
@[simp] theorem withS_keys (d : BitVec 5) (v : Word) (s : State) : (withS d v s).keys = s.keys := by unfold withS; split <;> rfl
@[simp] theorem withS_mig (d : BitVec 5) (v : Word) (s : State) : (withS d v s).mig = s.mig := by unfold withS; split <;> rfl
@[simp] theorem withS_pool (d : BitVec 5) (v : Word) (s : State) : (withS d v s).pool = s.pool := by unfold withS; split <;> rfl
@[simp] theorem withS_compMapped (d : BitVec 5) (v : Word) (s : State) : (withS d v s).compMapped = s.compMapped := by unfold withS; split <;> rfl
@[simp] theorem withS_walkWait (d : BitVec 5) (v : Word) (s : State) : (withS d v s).walkWait = s.walkWait := by unfold withS; split <;> rfl
@[simp] theorem withS_hostFns (d : BitVec 5) (v : Word) (s : State) : (withS d v s).hostFns = s.hostFns := by unfold withS; split <;> rfl
@[simp] theorem withS_intmap (d : BitVec 5) (v : Word) (s : State) : (withS d v s).intmap = s.intmap := by unfold withS; split <;> rfl
@[simp] theorem withS_faultMap (d : BitVec 5) (v : Word) (s : State) : (withS d v s).faultMap = s.faultMap := by unfold withS; split <;> rfl
@[simp] theorem withS_featMask (d : BitVec 5) (v : Word) (s : State) : (withS d v s).featMask = s.featMask := by unfold withS; split <;> rfl
@[simp] theorem withS_sigReq (d : BitVec 5) (v : Word) (s : State) : (withS d v s).sigReq = s.sigReq := by unfold withS; split <;> rfl
@[simp] theorem withS_vkeyX (d : BitVec 5) (v : Word) (s : State) : (withS d v s).vkeyX = s.vkeyX := by unfold withS; split <;> rfl
@[simp] theorem withS_vkeys (d : BitVec 5) (v : Word) (s : State) : (withS d v s).vkeys = s.vkeys := by unfold withS; split <;> rfl
@[simp] theorem withS_svnCount (d : BitVec 5) (v : Word) (s : State) : (withS d v s).svnCount = s.svnCount := by unfold withS; split <;> rfl
@[simp] theorem withS_verified (d : BitVec 5) (v : Word) (s : State) : (withS d v s).verified = s.verified := by unfold withS; split <;> rfl
@[simp] theorem withS_netqs (d : BitVec 5) (v : Word) (s : State) : (withS d v s).netqs = s.netqs := by unfold withS; split <;> rfl
@[simp] theorem withS_sent (d : BitVec 5) (v : Word) (s : State) : (withS d v s).sent = s.sent := by unfold withS; split <;> rfl
@[simp] theorem withS_replies (d : BitVec 5) (v : Word) (s : State) : (withS d v s).replies = s.replies := by unfold withS; split <;> rfl
@[simp] theorem withS_bootState (d : BitVec 5) (v : Word) (s : State) : (withS d v s).bootState = s.bootState := by unfold withS; split <;> rfl
@[simp] theorem withS_bootBank (d : BitVec 5) (v : Word) (s : State) : (withS d v s).bootBank = s.bootBank := by unfold withS; split <;> rfl
@[simp] theorem withS_fwSvn (d : BitVec 5) (v : Word) (s : State) : (withS d v s).fwSvn = s.fwSvn := by unfold withS; split <;> rfl
@[simp] theorem withS_flash (d : BitVec 5) (v : Word) (s : State) : (withS d v s).flash = s.flash := by unfold withS; split <;> rfl
@[simp] theorem withS_fwFirst (d : BitVec 5) (v : Word) (s : State) : (withS d v s).fwFirst = s.fwFirst := by unfold withS; split <;> rfl
@[simp] theorem withS_msgs (d : BitVec 5) (v : Word) (s : State) : (withS d v s).msgs = s.msgs := by unfold withS; split <;> rfl
@[simp] theorem withS_fleet (d : BitVec 5) (v : Word) (s : State) : (withS d v s).fleet = s.fleet := by unfold withS; split <;> rfl
@[simp] theorem withS_dispatched (d : BitVec 5) (v : Word) (s : State) : (withS d v s).dispatched = s.dispatched := by unfold withS; split <;> rfl
@[simp] theorem withS_notes (d : BitVec 5) (v : Word) (s : State) : (withS d v s).notes = s.notes := by unfold withS; split <;> rfl
@[simp] theorem withS_blocked (d : BitVec 5) (v : Word) (s : State) : (withS d v s).blocked = s.blocked := by unfold withS; split <;> rfl

@[simp] theorem withA_cur (d : BitVec 5) (v : Word) (s : State) : (withA d v s).cur = s.cur := by unfold withA; split <;> rfl
@[simp] theorem withA_parked (d : BitVec 5) (v : Word) (s : State) : (withA d v s).parked = s.parked := by unfold withA; split <;> rfl
@[simp] theorem withA_mem (d : BitVec 5) (v : Word) (s : State) : (withA d v s).mem = s.mem := by unfold withA; split <;> rfl
@[simp] theorem withA_agenda (d : BitVec 5) (v : Word) (s : State) : (withA d v s).agenda = s.agenda := by unfold withA; split <;> rfl
@[simp] theorem withA_pick (d : BitVec 5) (v : Word) (s : State) : (withA d v s).pick = s.pick := by unfold withA; split <;> rfl
@[simp] theorem withA_hbt (d : BitVec 5) (v : Word) (s : State) : (withA d v s).hbt = s.hbt := by unfold withA; split <;> rfl
@[simp] theorem withA_l2 (d : BitVec 5) (v : Word) (s : State) : (withA d v s).l2 = s.l2 := by unfold withA; split <;> rfl
@[simp] theorem withA_l2ptr (d : BitVec 5) (v : Word) (s : State) : (withA d v s).l2ptr = s.l2ptr := by unfold withA; split <;> rfl
@[simp] theorem withA_classes (d : BitVec 5) (v : Word) (s : State) : (withA d v s).classes = s.classes := by unfold withA; split <;> rfl
@[simp] theorem withA_fenced (d : BitVec 5) (v : Word) (s : State) : (withA d v s).fenced = s.fenced := by unfold withA; split <;> rfl
@[simp] theorem withA_jobs (d : BitVec 5) (v : Word) (s : State) : (withA d v s).jobs = s.jobs := by unfold withA; split <;> rfl
@[simp] theorem withA_queues (d : BitVec 5) (v : Word) (s : State) : (withA d v s).queues = s.queues := by unfold withA; split <;> rfl
@[simp] theorem withA_dies (d : BitVec 5) (v : Word) (s : State) : (withA d v s).dies = s.dies := by unfold withA; split <;> rfl
@[simp] theorem withA_launch (d : BitVec 5) (v : Word) (s : State) : (withA d v s).launch = s.launch := by unfold withA; split <;> rfl
@[simp] theorem withA_stalled (d : BitVec 5) (v : Word) (s : State) : (withA d v s).stalled = s.stalled := by unfold withA; split <;> rfl
@[simp] theorem withA_fullWaiters (d : BitVec 5) (v : Word) (s : State) : (withA d v s).fullWaiters = s.fullWaiters := by unfold withA; split <;> rfl
@[simp] theorem withA_gangs (d : BitVec 5) (v : Word) (s : State) : (withA d v s).gangs = s.gangs := by unfold withA; split <;> rfl
@[simp] theorem withA_nextGang (d : BitVec 5) (v : Word) (s : State) : (withA d v s).nextGang = s.nextGang := by unfold withA; split <;> rfl
@[simp] theorem withA_quotas (d : BitVec 5) (v : Word) (s : State) : (withA d v s).quotas = s.quotas := by unfold withA; split <;> rfl
@[simp] theorem withA_nextQuotas (d : BitVec 5) (v : Word) (s : State) : (withA d v s).nextQuotas = s.nextQuotas := by unfold withA; split <;> rfl
@[simp] theorem withA_sliceGen (d : BitVec 5) (v : Word) (s : State) : (withA d v s).sliceGen = s.sliceGen := by unfold withA; split <;> rfl
@[simp] theorem withA_keys (d : BitVec 5) (v : Word) (s : State) : (withA d v s).keys = s.keys := by unfold withA; split <;> rfl
@[simp] theorem withA_mig (d : BitVec 5) (v : Word) (s : State) : (withA d v s).mig = s.mig := by unfold withA; split <;> rfl
@[simp] theorem withA_pool (d : BitVec 5) (v : Word) (s : State) : (withA d v s).pool = s.pool := by unfold withA; split <;> rfl
@[simp] theorem withA_compMapped (d : BitVec 5) (v : Word) (s : State) : (withA d v s).compMapped = s.compMapped := by unfold withA; split <;> rfl
@[simp] theorem withA_walkWait (d : BitVec 5) (v : Word) (s : State) : (withA d v s).walkWait = s.walkWait := by unfold withA; split <;> rfl
@[simp] theorem withA_hostFns (d : BitVec 5) (v : Word) (s : State) : (withA d v s).hostFns = s.hostFns := by unfold withA; split <;> rfl
@[simp] theorem withA_intmap (d : BitVec 5) (v : Word) (s : State) : (withA d v s).intmap = s.intmap := by unfold withA; split <;> rfl
@[simp] theorem withA_faultMap (d : BitVec 5) (v : Word) (s : State) : (withA d v s).faultMap = s.faultMap := by unfold withA; split <;> rfl
@[simp] theorem withA_featMask (d : BitVec 5) (v : Word) (s : State) : (withA d v s).featMask = s.featMask := by unfold withA; split <;> rfl
@[simp] theorem withA_sigReq (d : BitVec 5) (v : Word) (s : State) : (withA d v s).sigReq = s.sigReq := by unfold withA; split <;> rfl
@[simp] theorem withA_vkeyX (d : BitVec 5) (v : Word) (s : State) : (withA d v s).vkeyX = s.vkeyX := by unfold withA; split <;> rfl
@[simp] theorem withA_vkeys (d : BitVec 5) (v : Word) (s : State) : (withA d v s).vkeys = s.vkeys := by unfold withA; split <;> rfl
@[simp] theorem withA_svnCount (d : BitVec 5) (v : Word) (s : State) : (withA d v s).svnCount = s.svnCount := by unfold withA; split <;> rfl
@[simp] theorem withA_verified (d : BitVec 5) (v : Word) (s : State) : (withA d v s).verified = s.verified := by unfold withA; split <;> rfl
@[simp] theorem withA_netqs (d : BitVec 5) (v : Word) (s : State) : (withA d v s).netqs = s.netqs := by unfold withA; split <;> rfl
@[simp] theorem withA_sent (d : BitVec 5) (v : Word) (s : State) : (withA d v s).sent = s.sent := by unfold withA; split <;> rfl
@[simp] theorem withA_replies (d : BitVec 5) (v : Word) (s : State) : (withA d v s).replies = s.replies := by unfold withA; split <;> rfl
@[simp] theorem withA_bootState (d : BitVec 5) (v : Word) (s : State) : (withA d v s).bootState = s.bootState := by unfold withA; split <;> rfl
@[simp] theorem withA_bootBank (d : BitVec 5) (v : Word) (s : State) : (withA d v s).bootBank = s.bootBank := by unfold withA; split <;> rfl
@[simp] theorem withA_fwSvn (d : BitVec 5) (v : Word) (s : State) : (withA d v s).fwSvn = s.fwSvn := by unfold withA; split <;> rfl
@[simp] theorem withA_flash (d : BitVec 5) (v : Word) (s : State) : (withA d v s).flash = s.flash := by unfold withA; split <;> rfl
@[simp] theorem withA_fwFirst (d : BitVec 5) (v : Word) (s : State) : (withA d v s).fwFirst = s.fwFirst := by unfold withA; split <;> rfl
@[simp] theorem withA_msgs (d : BitVec 5) (v : Word) (s : State) : (withA d v s).msgs = s.msgs := by unfold withA; split <;> rfl
@[simp] theorem withA_fleet (d : BitVec 5) (v : Word) (s : State) : (withA d v s).fleet = s.fleet := by unfold withA; split <;> rfl
@[simp] theorem withA_dispatched (d : BitVec 5) (v : Word) (s : State) : (withA d v s).dispatched = s.dispatched := by unfold withA; split <;> rfl
@[simp] theorem withA_notes (d : BitVec 5) (v : Word) (s : State) : (withA d v s).notes = s.notes := by unfold withA; split <;> rfl
@[simp] theorem withA_blocked (d : BitVec 5) (v : Word) (s : State) : (withA d v s).blocked = s.blocked := by unfold withA; split <;> rfl

@[simp] theorem withS_core_run (d : BitVec 5) (v : Word) (s : State) : (withS d v s).core.run = s.core.run := by
  unfold withS; split <;> rfl
@[simp] theorem withS_core_pc (d : BitVec 5) (v : Word) (s : State) : (withS d v s).core.pc = s.core.pc := by
  unfold withS; split <;> rfl
@[simp] theorem withS_core_pfx (d : BitVec 5) (v : Word) (s : State) : (withS d v s).core.pfx = s.core.pfx := by
  unfold withS; split <;> rfl
@[simp] theorem withS_core_a (d : BitVec 5) (v : Word) (s : State) : (withS d v s).core.a = s.core.a := by
  unfold withS; split <;> rfl
@[simp] theorem withS_core_trapS (d : BitVec 5) (v : Word) (s : State) : (withS d v s).core.trapS = s.core.trapS := by
  unfold withS; split <;> rfl
@[simp] theorem withS_core_trapA (d : BitVec 5) (v : Word) (s : State) : (withS d v s).core.trapA = s.core.trapA := by
  unfold withS; split <;> rfl
@[simp] theorem withS_core_v (d : BitVec 5) (v : Word) (s : State) : (withS d v s).core.v = s.core.v := by
  unfold withS; split <;> rfl
@[simp] theorem withS_core_t1 (d : BitVec 5) (v : Word) (s : State) : (withS d v s).core.t1 = s.core.t1 := by
  unfold withS; split <;> rfl
@[simp] theorem withS_core_t2 (d : BitVec 5) (v : Word) (s : State) : (withS d v s).core.t2 = s.core.t2 := by
  unfold withS; split <;> rfl
@[simp] theorem withS_core_t3 (d : BitVec 5) (v : Word) (s : State) : (withS d v s).core.t3 = s.core.t3 := by
  unfold withS; split <;> rfl
@[simp] theorem withS_core_p (d : BitVec 5) (v : Word) (s : State) : (withS d v s).core.p = s.core.p := by
  unfold withS; split <;> rfl
@[simp] theorem withS_core_ptag (d : BitVec 5) (v : Word) (s : State) : (withS d v s).core.ptag = s.core.ptag := by
  unfold withS; split <;> rfl
@[simp] theorem withS_core_tokens (d : BitVec 5) (v : Word) (s : State) : (withS d v s).core.tokens = s.core.tokens := by
  unfold withS; split <;> rfl
@[simp] theorem withS_core_flumes (d : BitVec 5) (v : Word) (s : State) : (withS d v s).core.flumes = s.core.flumes := by
  unfold withS; split <;> rfl
@[simp] theorem withS_core_bnd (d : BitVec 5) (v : Word) (s : State) : (withS d v s).core.bnd = s.core.bnd := by
  unfold withS; split <;> rfl
@[simp] theorem withS_core_bq (d : BitVec 5) (v : Word) (s : State) : (withS d v s).core.bq = s.core.bq := by
  unfold withS; split <;> rfl
@[simp] theorem withS_core_tiles (d : BitVec 5) (v : Word) (s : State) : (withS d v s).core.tiles = s.core.tiles := by
  unfold withS; split <;> rfl
@[simp] theorem withS_core_mcfg (d : BitVec 5) (v : Word) (s : State) : (withS d v s).core.mcfg = s.core.mcfg := by
  unfold withS; split <;> rfl
@[simp] theorem withS_core_user (d : BitVec 5) (v : Word) (s : State) : (withS d v s).core.user = s.core.user := by
  unfold withS; split <;> rfl
@[simp] theorem withS_core_trap (d : BitVec 5) (v : Word) (s : State) : (withS d v s).core.trap = s.core.trap := by
  unfold withS; split <;> rfl
@[simp] theorem withS_core_mcmd (d : BitVec 5) (v : Word) (s : State) : (withS d v s).core.mcmd = s.core.mcmd := by
  unfold withS; split <;> rfl
@[simp] theorem withS_core_ycmds (d : BitVec 5) (v : Word) (s : State) : (withS d v s).core.ycmds = s.core.ycmds := by
  unfold withS; split <;> rfl
@[simp] theorem withS_core_barrier (d : BitVec 5) (v : Word) (s : State) : (withS d v s).core.barrier = s.core.barrier := by
  unfold withS; split <;> rfl
@[simp] theorem withS_core_records (d : BitVec 5) (v : Word) (s : State) : (withS d v s).core.records = s.core.records := by
  unfold withS; split <;> rfl
@[simp] theorem withS_core_lattice (d : BitVec 5) (v : Word) (s : State) : (withS d v s).core.lattice = s.core.lattice := by
  unfold withS; split <;> rfl
@[simp] theorem withS_core_gens (d : BitVec 5) (v : Word) (s : State) : (withS d v s).core.gens = s.core.gens := by
  unfold withS; split <;> rfl
@[simp] theorem withS_core_seq (d : BitVec 5) (v : Word) (s : State) : (withS d v s).core.seq = s.core.seq := by
  unfold withS; split <;> rfl
@[simp] theorem withS_core_desc (d : BitVec 5) (v : Word) (s : State) : (withS d v s).core.desc = s.core.desc := by
  unfold withS; split <;> rfl
@[simp] theorem withS_core_runs (d : BitVec 5) (v : Word) (s : State) : (withS d v s).core.runs = s.core.runs := by
  unfold withS; split <;> rfl
@[simp] theorem withS_core_storeQ (d : BitVec 5) (v : Word) (s : State) : (withS d v s).core.storeQ = s.core.storeQ := by
  unfold withS; split <;> rfl
@[simp] theorem withS_core_flight (d : BitVec 5) (v : Word) (s : State) : (withS d v s).core.flight = s.core.flight := by
  unfold withS; split <;> rfl
@[simp] theorem withS_core_issued (d : BitVec 5) (v : Word) (s : State) : (withS d v s).core.issued = s.core.issued := by
  unfold withS; split <;> rfl
@[simp] theorem withS_core_reached (d : BitVec 5) (v : Word) (s : State) : (withS d v s).core.reached = s.core.reached := by
  unfold withS; split <;> rfl
@[simp] theorem withS_core_seen (d : BitVec 5) (v : Word) (s : State) : (withS d v s).core.seen = s.core.seen := by
  unfold withS; split <;> rfl
@[simp] theorem withS_core_append (d : BitVec 5) (v : Word) (s : State) : (withS d v s).core.append = s.core.append := by
  unfold withS; split <;> rfl
@[simp] theorem withS_core_gathered (d : BitVec 5) (v : Word) (s : State) : (withS d v s).core.gathered = s.core.gathered := by
  unfold withS; split <;> rfl
@[simp] theorem withS_core_yielded (d : BitVec 5) (v : Word) (s : State) : (withS d v s).core.yielded = s.core.yielded := by
  unfold withS; split <;> rfl
@[simp] theorem withS_core_csr (d : BitVec 5) (v : Word) (s : State) : (withS d v s).core.csr = s.core.csr := by
  unfold withS; split <;> rfl
@[simp] theorem withS_core_icache (d : BitVec 5) (v : Word) (s : State) : (withS d v s).core.icache = s.core.icache := by
  unfold withS; split <;> rfl
@[simp] theorem withS_core_fcache (d : BitVec 5) (v : Word) (s : State) : (withS d v s).core.fcache = s.core.fcache := by
  unfold withS; split <;> rfl
@[simp] theorem withS_core_tlb (d : BitVec 5) (v : Word) (s : State) : (withS d v s).core.tlb = s.core.tlb := by
  unfold withS; split <;> rfl
@[simp] theorem withS_core_pending (d : BitVec 5) (v : Word) (s : State) : (withS d v s).core.pending = s.core.pending := by
  unfold withS; split <;> rfl
@[simp] theorem withS_core_waits (d : BitVec 5) (v : Word) (s : State) : (withS d v s).core.waits = s.core.waits := by
  unfold withS; split <;> rfl
@[simp] theorem withS_core_arrived (d : BitVec 5) (v : Word) (s : State) : (withS d v s).core.arrived = s.core.arrived := by
  unfold withS; split <;> rfl
@[simp] theorem withS_core_filled (d : BitVec 5) (v : Word) (s : State) : (withS d v s).core.filled = s.core.filled := by
  unfold withS; split <;> rfl
@[simp] theorem withS_core_ord (d : BitVec 5) (v : Word) (s : State) : (withS d v s).core.ord = s.core.ord := by
  unfold withS; split <;> rfl
@[simp] theorem withS_core_holdWord (d : BitVec 5) (v : Word) (s : State) : (withS d v s).core.holdWord = s.core.holdWord := by
  unfold withS; split <;> rfl
@[simp] theorem withS_core_holdAccess (d : BitVec 5) (v : Word) (s : State) : (withS d v s).core.holdAccess = s.core.holdAccess := by
  unfold withS; split <;> rfl
@[simp] theorem withS_core_holdStore (d : BitVec 5) (v : Word) (s : State) : (withS d v s).core.holdStore = s.core.holdStore := by
  unfold withS; split <;> rfl
@[simp] theorem withS_core_holdCommand (d : BitVec 5) (v : Word) (s : State) : (withS d v s).core.holdCommand = s.core.holdCommand := by
  unfold withS; split <;> rfl
@[simp] theorem withS_core_free (d : BitVec 5) (v : Word) (s : State) : (withS d v s).core.free = s.core.free := by
  unfold withS; split <;> rfl

@[simp] theorem withA_core_run (d : BitVec 5) (v : Word) (s : State) : (withA d v s).core.run = s.core.run := by
  unfold withA; split <;> rfl
@[simp] theorem withA_core_pc (d : BitVec 5) (v : Word) (s : State) : (withA d v s).core.pc = s.core.pc := by
  unfold withA; split <;> rfl
@[simp] theorem withA_core_pfx (d : BitVec 5) (v : Word) (s : State) : (withA d v s).core.pfx = s.core.pfx := by
  unfold withA; split <;> rfl
@[simp] theorem withA_core_s (d : BitVec 5) (v : Word) (s : State) : (withA d v s).core.s = s.core.s := by
  unfold withA; split <;> rfl
@[simp] theorem withA_core_trapS (d : BitVec 5) (v : Word) (s : State) : (withA d v s).core.trapS = s.core.trapS := by
  unfold withA; split <;> rfl
@[simp] theorem withA_core_trapA (d : BitVec 5) (v : Word) (s : State) : (withA d v s).core.trapA = s.core.trapA := by
  unfold withA; split <;> rfl
@[simp] theorem withA_core_v (d : BitVec 5) (v : Word) (s : State) : (withA d v s).core.v = s.core.v := by
  unfold withA; split <;> rfl
@[simp] theorem withA_core_t1 (d : BitVec 5) (v : Word) (s : State) : (withA d v s).core.t1 = s.core.t1 := by
  unfold withA; split <;> rfl
@[simp] theorem withA_core_t2 (d : BitVec 5) (v : Word) (s : State) : (withA d v s).core.t2 = s.core.t2 := by
  unfold withA; split <;> rfl
@[simp] theorem withA_core_t3 (d : BitVec 5) (v : Word) (s : State) : (withA d v s).core.t3 = s.core.t3 := by
  unfold withA; split <;> rfl
@[simp] theorem withA_core_p (d : BitVec 5) (v : Word) (s : State) : (withA d v s).core.p = s.core.p := by
  unfold withA; split <;> rfl
@[simp] theorem withA_core_ptag (d : BitVec 5) (v : Word) (s : State) : (withA d v s).core.ptag = s.core.ptag := by
  unfold withA; split <;> rfl
@[simp] theorem withA_core_tokens (d : BitVec 5) (v : Word) (s : State) : (withA d v s).core.tokens = s.core.tokens := by
  unfold withA; split <;> rfl
@[simp] theorem withA_core_flumes (d : BitVec 5) (v : Word) (s : State) : (withA d v s).core.flumes = s.core.flumes := by
  unfold withA; split <;> rfl
@[simp] theorem withA_core_bnd (d : BitVec 5) (v : Word) (s : State) : (withA d v s).core.bnd = s.core.bnd := by
  unfold withA; split <;> rfl
@[simp] theorem withA_core_bq (d : BitVec 5) (v : Word) (s : State) : (withA d v s).core.bq = s.core.bq := by
  unfold withA; split <;> rfl
@[simp] theorem withA_core_tiles (d : BitVec 5) (v : Word) (s : State) : (withA d v s).core.tiles = s.core.tiles := by
  unfold withA; split <;> rfl
@[simp] theorem withA_core_mcfg (d : BitVec 5) (v : Word) (s : State) : (withA d v s).core.mcfg = s.core.mcfg := by
  unfold withA; split <;> rfl
@[simp] theorem withA_core_user (d : BitVec 5) (v : Word) (s : State) : (withA d v s).core.user = s.core.user := by
  unfold withA; split <;> rfl
@[simp] theorem withA_core_trap (d : BitVec 5) (v : Word) (s : State) : (withA d v s).core.trap = s.core.trap := by
  unfold withA; split <;> rfl
@[simp] theorem withA_core_mcmd (d : BitVec 5) (v : Word) (s : State) : (withA d v s).core.mcmd = s.core.mcmd := by
  unfold withA; split <;> rfl
@[simp] theorem withA_core_ycmds (d : BitVec 5) (v : Word) (s : State) : (withA d v s).core.ycmds = s.core.ycmds := by
  unfold withA; split <;> rfl
@[simp] theorem withA_core_barrier (d : BitVec 5) (v : Word) (s : State) : (withA d v s).core.barrier = s.core.barrier := by
  unfold withA; split <;> rfl
@[simp] theorem withA_core_records (d : BitVec 5) (v : Word) (s : State) : (withA d v s).core.records = s.core.records := by
  unfold withA; split <;> rfl
@[simp] theorem withA_core_lattice (d : BitVec 5) (v : Word) (s : State) : (withA d v s).core.lattice = s.core.lattice := by
  unfold withA; split <;> rfl
@[simp] theorem withA_core_gens (d : BitVec 5) (v : Word) (s : State) : (withA d v s).core.gens = s.core.gens := by
  unfold withA; split <;> rfl
@[simp] theorem withA_core_seq (d : BitVec 5) (v : Word) (s : State) : (withA d v s).core.seq = s.core.seq := by
  unfold withA; split <;> rfl
@[simp] theorem withA_core_desc (d : BitVec 5) (v : Word) (s : State) : (withA d v s).core.desc = s.core.desc := by
  unfold withA; split <;> rfl
@[simp] theorem withA_core_runs (d : BitVec 5) (v : Word) (s : State) : (withA d v s).core.runs = s.core.runs := by
  unfold withA; split <;> rfl
@[simp] theorem withA_core_storeQ (d : BitVec 5) (v : Word) (s : State) : (withA d v s).core.storeQ = s.core.storeQ := by
  unfold withA; split <;> rfl
@[simp] theorem withA_core_flight (d : BitVec 5) (v : Word) (s : State) : (withA d v s).core.flight = s.core.flight := by
  unfold withA; split <;> rfl
@[simp] theorem withA_core_issued (d : BitVec 5) (v : Word) (s : State) : (withA d v s).core.issued = s.core.issued := by
  unfold withA; split <;> rfl
@[simp] theorem withA_core_reached (d : BitVec 5) (v : Word) (s : State) : (withA d v s).core.reached = s.core.reached := by
  unfold withA; split <;> rfl
@[simp] theorem withA_core_seen (d : BitVec 5) (v : Word) (s : State) : (withA d v s).core.seen = s.core.seen := by
  unfold withA; split <;> rfl
@[simp] theorem withA_core_append (d : BitVec 5) (v : Word) (s : State) : (withA d v s).core.append = s.core.append := by
  unfold withA; split <;> rfl
@[simp] theorem withA_core_gathered (d : BitVec 5) (v : Word) (s : State) : (withA d v s).core.gathered = s.core.gathered := by
  unfold withA; split <;> rfl
@[simp] theorem withA_core_yielded (d : BitVec 5) (v : Word) (s : State) : (withA d v s).core.yielded = s.core.yielded := by
  unfold withA; split <;> rfl
@[simp] theorem withA_core_csr (d : BitVec 5) (v : Word) (s : State) : (withA d v s).core.csr = s.core.csr := by
  unfold withA; split <;> rfl
@[simp] theorem withA_core_icache (d : BitVec 5) (v : Word) (s : State) : (withA d v s).core.icache = s.core.icache := by
  unfold withA; split <;> rfl
@[simp] theorem withA_core_fcache (d : BitVec 5) (v : Word) (s : State) : (withA d v s).core.fcache = s.core.fcache := by
  unfold withA; split <;> rfl
@[simp] theorem withA_core_tlb (d : BitVec 5) (v : Word) (s : State) : (withA d v s).core.tlb = s.core.tlb := by
  unfold withA; split <;> rfl
@[simp] theorem withA_core_pending (d : BitVec 5) (v : Word) (s : State) : (withA d v s).core.pending = s.core.pending := by
  unfold withA; split <;> rfl
@[simp] theorem withA_core_waits (d : BitVec 5) (v : Word) (s : State) : (withA d v s).core.waits = s.core.waits := by
  unfold withA; split <;> rfl
@[simp] theorem withA_core_arrived (d : BitVec 5) (v : Word) (s : State) : (withA d v s).core.arrived = s.core.arrived := by
  unfold withA; split <;> rfl
@[simp] theorem withA_core_filled (d : BitVec 5) (v : Word) (s : State) : (withA d v s).core.filled = s.core.filled := by
  unfold withA; split <;> rfl
@[simp] theorem withA_core_ord (d : BitVec 5) (v : Word) (s : State) : (withA d v s).core.ord = s.core.ord := by
  unfold withA; split <;> rfl
@[simp] theorem withA_core_holdWord (d : BitVec 5) (v : Word) (s : State) : (withA d v s).core.holdWord = s.core.holdWord := by
  unfold withA; split <;> rfl
@[simp] theorem withA_core_holdAccess (d : BitVec 5) (v : Word) (s : State) : (withA d v s).core.holdAccess = s.core.holdAccess := by
  unfold withA; split <;> rfl
@[simp] theorem withA_core_holdStore (d : BitVec 5) (v : Word) (s : State) : (withA d v s).core.holdStore = s.core.holdStore := by
  unfold withA; split <;> rfl
@[simp] theorem withA_core_holdCommand (d : BitVec 5) (v : Word) (s : State) : (withA d v s).core.holdCommand = s.core.holdCommand := by
  unfold withA; split <;> rfl
@[simp] theorem withA_core_free (d : BitVec 5) (v : Word) (s : State) : (withA d v s).core.free = s.core.free := by
  unfold withA; split <;> rfl

end Sys2Proof.Laws
end

