-- ==== Sys2Proof/Laws/Engine.lean ====
section
/-! SUPPORT. What an engine word, a system word and a host command do once nothing holds them back, said once for all of
them. -/

namespace Sys2Proof.Laws

open Sys2Proof.Machine

/-! ## Engine words (R5 to R9, R77) -/

theorem ready_splitter {e : Engine} {i placed : Instr} {s : State} (h : EngineReady e i placed s) :
    splitterStops s.core true = false := by
  obtain ⟨⟨hp, hy⟩, hq, -⟩ := h
  rcases hq with hq | hq <;> simp [splitterStops, hp, hy, hq]

theorem ready_captures {e : Engine} {i placed : Instr} {s : State} (h : EngineReady e i placed s) :
    (capturesOf i).any (pendingS s.core) = false :=
  List.any_eq_false.mpr fun r hr => by simp [h.2.2.1 r hr]

/-- The ring of a ready word before it and after it: the word alone stands there. -/
theorem inRing_core_hold {e : Engine} {i placed : Instr} {s : State} (h : EngineReady e i placed s) :
    (inRing e i placed s).1.core.holdWord = [] := by
  have hh := h.2.2.2.2.2.1
  unfold inRing placeWord
  simp only [onCore_core, setActiveRings_holdWord]
  split
  · exact hh
  · split <;> exact hh

/-- The word in its ring changes nothing of what a pre-emption waits for. -/
theorem yields_after {e : Engine} {i placed : Instr} {s : State} :
    yields (inRing e i placed s).1.core = yields s.core := by
  unfold inRing placeWord
  simp only [onCore_core]
  by_cases ht : inTrap s.core
  · simp_all [activeRings, setActiveRings, inTrap, yields, ppend]
  · cases hp : s.core.pfx <;> simp_all [activeRings, setActiveRings, inTrap, yields, ppend, writeRingWord]

theorem tokens_after {e : Engine} {i placed : Instr} {s : State} :
    (inRing e i placed s).1.core.tokens = s.core.tokens := by
  unfold inRing placeWord
  simp only [onCore_core, setActiveRings_tokens]
  split
  · rfl
  · split <;> rfl

theorem entry_of {e : Engine} {i placed : Instr} {s : State} :
    (inRing e i placed s).2.pfx = s.core.pfx ∧ (inRing e i placed s).2.word = wordOf placed ∧
    (inRing e i placed s).2.ord = s.core.ord := ⟨rfl, rfl, rfl⟩

/-- The state with one unit of token k taken. -/
def tokenTaken (k : BitVec 4) (s : State) : State :=
  s.onCore (fun c => { c with tokens := vput c.tokens k.toNat (vat 0 s.core.tokens k.toNat - 1) })

/-- The heads of the rings before ring e stand as they stood. -/
theorem granted_after {e : Engine} {i placed : Instr} {s : State} (k : BitVec 4) :
    grantedBefore (inRing e i placed s).1.core e k = grantedBefore s.core e k := by
  have ha : ∀ e' : Engine, engineIndex e' < engineIndex e →
      awaits (inRing e i placed s).1.core e' = awaits s.core e' := by
    intro e' hlt
    have hr : ((activeRings (inRing e i placed s).1.core).get e') = ((activeRings s.core).get e') := by
      unfold inRing placeWord
      have hne : e' ≠ e := fun h => by subst h; omega
      cases e <;> cases e' <;>
        first
        | exact absurd rfl hne
        | (by_cases ht : inTrap s.core
           · simp_all [activeRings, setActiveRings, inTrap, State.onCore, Rings.get, Rings.put]
           · cases hp : s.core.pfx <;>
               simp_all [activeRings, setActiveRings, inTrap, State.onCore, Rings.get, Rings.put, writeRingWord])
    have hi : (inRing e i placed s).1.core.issued = s.core.issued := by
      unfold inRing placeWord
      simp only [onCore_core, setActiveRings_issued]
      split
      · rfl
      · split <;> rfl
    unfold awaits
    rw [hr, hi]
  unfold grantedBefore
  congr 1
  apply List.filter_congr
  intro e' _
  by_cases hlt : engineIndex e' < engineIndex e
  · simp [hlt, ha e' hlt]
  · simp [hlt]

/-- A started head whose access has not been issued, and that awaits no token. -/
theorem startWord_plain {e : Engine} {r : RingEntry} {run : Ctx → State → Chk State} {s : State}
    (hi : (ctxOf s.core e r).issued = none) (hz : (tokensOf e r.pfx r.word).1 = 0) :
    startWord e r run s = (match run (ctxOf s.core e r) (s.onCore (popHead e r)) with
      | .ok t => .ok (if raisesAtStart e then t.onCore (raiseAt r.ord (tokensOf e r.pfx r.word).2) else t)
      | .error x => .error x) := by
  unfold startWord
  simp only [takeToken, hz, hi, if_true]
  simp only [bind, Except.bind, pure, Except.pure]
  cases run (ctxOf s.core e r) (s.onCore (popHead e r)) <;> rfl

/-- A started head whose access has not been issued, and that awaits a token which is there. -/
theorem startWord_token {e : Engine} {r : RingEntry} {run : Ctx → State → Chk State} {s : State}
    (hi : (ctxOf s.core e r).issued = none) (hz : (tokensOf e r.pfx r.word).1 ≠ 0)
    (hv : grantedBefore s.core e (tokensOf e r.pfx r.word).1 < (vat 0 s.core.tokens (tokensOf e r.pfx r.word).1.toNat).toNat) :
    startWord e r run s =
      (match run (ctxOf s.core e r) ((tokenTaken (tokensOf e r.pfx r.word).1 s).onCore (popHead e r)) with
      | .ok t => .ok (if raisesAtStart e then t.onCore (raiseAt r.ord (tokensOf e r.pfx r.word).2) else t)
      | .error x => .error x) := by
  unfold startWord
  simp only [takeToken, hz, hi, Nat.not_le.mpr hv, if_false]
  simp only [bind, Except.bind, pure, Except.pure]
  simp only [tokenTaken, Option.isSome_none, Bool.false_eq_true, if_false]
  generalize run (ctxOf s.core e r) _ = res
  cases res <;> rfl

theorem acting_plain {e : Engine} {i placed : Instr} {s : State} (hz : (tokensOf e s.core.pfx (wordOf placed)).1 = 0) :
    acting e i placed s = (inRing e i placed s).1.onCore (popHead e (inRing e i placed s).2) := by
  unfold acting
  simp only [hz, if_true]
  rfl

theorem acting_token {e : Engine} {i placed : Instr} {s : State} (hz : (tokensOf e s.core.pfx (wordOf placed)).1 ≠ 0) :
    acting e i placed s = (tokenTaken (tokensOf e s.core.pfx (wordOf placed)).1
      (inRing e i placed s).1).onCore (popHead e (inRing e i placed s).2) := by
  unfold acting
  simp only [hz, if_false]
  rfl

/-- No access of a ready word has been issued. -/
theorem ready_issued {e : Engine} {i placed : Instr} {s : State} (h : EngineReady e i placed s) :
    (carried e i placed s).issued = none := by
  have hi := h.2.2.2.2.2.2.1
  unfold carried ctxOf
  simp only
  split
  · rename_i he
    have hs : (inRing e i placed s).1.core.issued = s.core.issued := by
      unfold inRing placeWord
      simp only [onCore_core, setActiveRings_issued]
      split
      · rfl
      · split <;> rfl
    rw [hs, hi he]
  · rfl

/-- The head of a ready word is started: it takes its token and its run begins where `acting` says. -/
theorem start_ready {e : Engine} {i placed : Instr} {run : Ctx → State → Chk State} {s : State}
    (h : EngineReady e i placed s) :
    startWord e (inRing e i placed s).2 run (inRing e i placed s).1 =
      (match run (carried e i placed s) (acting e i placed s) with
        | .ok t => .ok (if raisesAtStart e then raising e placed s t else t)
        | .error x => .error x) := by
  have hi : (ctxOf (inRing e i placed s).1.core e (inRing e i placed s).2).issued = none := ready_issued h
  by_cases hz : (tokensOf e s.core.pfx (wordOf placed)).1 = 0
  · rw [startWord_plain (r := (inRing e i placed s).2) hi hz, acting_plain hz]
    rfl
  · have hv := h.2.2.2.2.2.2.2.resolve_left hz
    rw [startWord_token (r := (inRing e i placed s).2) hi hz (by rw [granted_after, tokens_after]; exact hv), acting_token hz]
    rfl

/-- What becomes of a ready word that stands in its ring: it waits there, comes to wait at its home, or its fault is raised. -/
def standing (e : Engine) (i placed : Instr) (s : State) : Stop → State
  | .wait _ => (inRing e i placed s).1
  | .sluice _ cs => (inRing e i placed s).1.onCore (fun c => { c with reached := some (c.reached.getD cs) })
  | .fault f => raiseFault s.core.ord (ringField e) f (inRing e i placed s).1
  | .home _ ps bit => queueAtHome bit (issueHead e (inRing e i placed s).2 ps (inRing e i placed s).1)
  | .launchFull t q va p => stall (keepHead e [(va, p)] (inRing e i placed s).1 t) .acont va p q
  | .paused t ps => keepHead e ps (inRing e i placed s).1 t

/-- A ready engine word: it completes, or stands in its ring. -/
theorem issue_ready {e : Engine} {i placed : Instr} {reject : Core → IWord → Option Flt}
    {run : Ctx → State → Chk State} {s : State}
    (h : EngineReady e i placed s) (hr : reject s.core (wordOf i) = none) :
    issue e i placed reject run s =
      .next (match run (carried e i placed s) (acting e i placed s) with
        | .ok t => if raisesAtStart e then raising e placed s t else t
        | .error x => standing e i placed s x) := by
  have hs := start_ready (run := run) h
  have hhold := inRing_core_hold h
  have hring : ((activeRings s.core).get e).entries.isEmpty = true := by rw [h.2.2.2.1]; rfl
  have hiss : ((inRing e i placed s).1.core.issued.isSome && decide (e = .A)) = false := by
    by_cases he : e = .A
    · have hn := ready_issued h
      unfold carried ctxOf at hn
      simp only [he, if_true] at hn
      simp [he, hn]
    · simp [he]
  unfold issue
  rw [ready_splitter h]
  have hr' : reject s.core ((encode i).getD 0) = none := hr
  simp only [Bool.false_eq_true, if_false, hr', ready_captures h, h.2.2.2.2.1, hring]
  change Host.Outcome.next (settlePlaced e (inRing e i placed s).2 true run (inRing e i placed s).1) = _
  unfold settlePlaced takeHold
  simp only [hhold, Bool.not_false, Bool.and_self, if_true]
  unfold tryHead
  rw [hs, yields_after, h.1.2]
  cases run (carried e i placed s) (acting e i placed s) with
  | ok t => rfl
  | error x =>
    cases x with
    | fault f =>
      simp only [hiss]
      rfl
    | _ => rfl

/-- A ready A word whose run answers. -/
theorem completes_A {i : Instr} {run : Ctx → State → Chk State} {s t : State} (h : EngineReady .A i i s)
    (hi : exec i s = issueA i run s) (hrun : run (carriesA i s) (actsA i s) = .ok t) : completesA i s t := by
  unfold completesA
  rw [hi]
  unfold issueA
  have hx := issue_ready (run := run) (reject := noReject) h rfl
  rw [show run (carried .A i i s) (acting .A i i s) = .ok t from hrun] at hx
  exact hx

/-- A ready A word whose run faults. -/
theorem faults_A {i : Instr} {run : Ctx → State → Chk State} {s : State} {f : Flt} (h : EngineReady .A i i s)
    (hi : exec i s = issueA i run s) (hrun : run (carriesA i s) (actsA i s) = .error (.fault f)) : faultsA i s f := by
  unfold faultsA
  rw [hi]
  unfold issueA
  have hx := issue_ready (run := run) (reject := noReject) h rfl
  rw [show run (carried .A i i s) (acting .A i i s) = .error (.fault f) from hrun] at hx
  exact hx

/-- A ready X word whose run answers. -/
theorem completes_X {i : Instr} {run : Ctx → State → Chk State} {s t : State} (h : XReady i s)
    (hi : exec i s = issueX i run s) (hrun : run (carriesX i s) (actsX i s) = .ok t) : completesX i s t := by
  unfold completesX
  rw [hi]
  unfold issueX
  have hx := issue_ready (run := run) (reject := xReject i) h.1 h.2
  rw [show run (carried .X i (placedX i s) s) (acting .X i (placedX i s) s) = .ok t from hrun] at hx
  exact hx

/-- A ready X word whose run faults. -/
theorem faults_X {i : Instr} {run : Ctx → State → Chk State} {s : State} {f : Flt} (h : XReady i s)
    (hi : exec i s = issueX i run s) (hrun : run (carriesX i s) (actsX i s) = .error (.fault f)) : faultsX i s f := by
  unfold faultsX
  rw [hi]
  unfold issueX
  have hx := issue_ready (run := run) (reject := xReject i) h.1 h.2
  rw [show run (carried .X i (placedX i s) s) (acting .X i (placedX i s) s) = .error (.fault f) from hrun] at hx
  exact hx

/-! ## System words (R79, R80) -/

/-- A system word in a privileged mode is a control word. -/
theorem sysWord_privileged {i : Instr} {regs : List (BitVec 5)} {needs : Bool} {body : CCtx → State → Chk State} {s : State}
    (h : privileged s.core = true) : sysWord i regs needs body s = Machine.control i regs body s := by
  unfold sysWord
  simp [h]

/-- A system word that needs privilege, at user level: PRIV. -/
theorem sysWord_user {i : Instr} {regs : List (BitVec 5)} {body : CCtx → State → Chk State} {s : State}
    (h : privileged s.core = false) (hp : Unstopped s.core) :
    sysWord i regs true body s = .next (raiseFault s.core.ord 0 (flt cPRIV ((wordOf i).setWidth 64)) s) := by
  unfold sysWord rejectWord
  simp [h, splitterStops, hp.1, hp.2, wordOf]

/-! ## Commands (R269, R329) -/

theorem withResult_eq (s : State) (fn : Nat) (done : Bool) (status : Nat) (reply : List Word) :
    setResult s fn done status reply = withResult fn done status reply s := rfl

/-- A command that its frame accepts: its body's answer, with RESULT written and, for a long one that ends, CMDDONE. -/
theorem command_accepted {fn : Nat} {pfOnly long boot : Bool} {masks : List Word} {o : CmdOps} {body : State → CmdResult}
    {s : State} (h : Accepts fn masks o s) (hf : pfOnly = false ∨ fn = 0) :
    Machine.command fn pfOnly long boot masks o body s = .next (match body s with
      | .refused st reply => answered long fn st reply s
      | .done reply t => answered long fn 0 reply t
      | .finishLater reply t => withResult fn false 0 reply t
      | .later opc t => holdCommand t fn opc o) := by
  obtain ⟨hb, hd, hw, hm⟩ := h
  have hpf : (pfOnly && decide (fn ≠ 0)) = false := by rcases hf with h | h <;> simp [h]
  unfold Machine.command
  simp only [hb, hd, hw, hm, hpf, ne_eq, not_true_eq_false, decide_false, Bool.false_and, Bool.false_eq_true, if_false,
    Bool.not_true]
  cases body s <;> rfl

end Sys2Proof.Laws
end

