-- ==== Sys2Proof/Laws/Memory.lean ====
section
/-! SUPPORT. Sparse lists in their canonical form: reading after a write, and that every operation which writes memory keeps
the form of each of its parts. -/

namespace Sys2Proof.Laws

open Sys2Proof.Machine

variable {α : Type} [DecidableEq α]

/-! ## Sparse lists -/

theorem swfFrom_mono {d : α} {lo lo' : Nat} {l : Sparse α} (h : swfFrom d lo' l = true) (hle : lo ≤ lo') :
    swfFrom d lo l = true := by
  cases l with
  | nil => rfl
  | cons e t =>
    obtain ⟨k, v⟩ := e
    simp only [swfFrom, Bool.and_eq_true, decide_eq_true_eq] at h ⊢
    exact ⟨⟨by omega, h.1.2⟩, h.2⟩

theorem swfFrom_sset {d : α} {lo : Nat} {l : Sparse α} (h : swfFrom d lo l = true) (i : Nat) (hi : lo ≤ i) (v : α) :
    swfFrom d lo (sset d l i v) = true := by
  induction l generalizing lo with
  | nil =>
    unfold sset
    split
    · rfl
    · simp_all [swfFrom]
  | cons e t ih =>
    obtain ⟨k, w⟩ := e
    simp only [swfFrom, Bool.and_eq_true, decide_eq_true_eq] at h
    obtain ⟨⟨hk, hw⟩, ht⟩ := h
    unfold sset
    split
    · split
      · simp_all [swfFrom]
      · rename_i hlt hv
        simp only [swfFrom, Bool.and_eq_true, decide_eq_true_eq]
        exact ⟨⟨hi, hv⟩, ⟨by omega, hw⟩, ht⟩
    · split
      · split
        · exact swfFrom_mono ht (by omega)
        · rename_i hv
          simp only [swfFrom, Bool.and_eq_true, decide_eq_true_eq]
          exact ⟨⟨hi, hv⟩, swfFrom_mono ht (by omega)⟩
      · simp only [swfFrom, Bool.and_eq_true, decide_eq_true_eq]
        exact ⟨⟨hk, hw⟩, ih ht (by omega)⟩

/-- A write keeps the canonical form. -/
theorem swf_sset {d : α} {l : Sparse α} (h : swf d l = true) (i : Nat) (v : α) : swf d (sset d l i v) = true :=
  swfFrom_sset h i (Nat.zero_le i) v

theorem sget_below {d : α} {lo : Nat} {l : Sparse α} (h : swfFrom d lo l = true) (j : Nat) (hj : j < lo) :
    sget d l j = d := by
  cases l with
  | nil => rfl
  | cons e t =>
    obtain ⟨k, w⟩ := e
    simp only [swfFrom, Bool.and_eq_true, decide_eq_true_eq] at h
    unfold sget
    rw [if_neg (by omega), if_pos (by omega)]

/-- What a write left at a key, and at every other key. -/
theorem sget_sset {d : α} {l : Sparse α} (h : swf d l = true) (i : Nat) (v : α) (j : Nat) :
    sget d (sset d l i v) j = if j = i then v else sget d l j := by
  unfold swf at h
  generalize 0 = lo at h
  induction l generalizing lo with
  | nil =>
    unfold sset
    split
    · simp_all [sget]
    · unfold sget
      split
      · rfl
      · simp [sget]
  | cons e t ih =>
    obtain ⟨k, w⟩ := e
    simp only [swfFrom, Bool.and_eq_true, decide_eq_true_eq] at h
    obtain ⟨⟨hk, hw⟩, ht⟩ := h
    unfold sset
    split
    · rename_i hlt
      split
      · rename_i hv
        subst hv
        by_cases hj : j = i
        · subst hj
          rw [if_pos rfl]
          unfold sget
          rw [if_neg (by omega), if_pos hlt]
        · simp [hj]
      · by_cases hj : j = i
        · simp [sget, hj]
        · by_cases h2 : j < i
          · have : j ≠ k := by omega
            have h3 : j < k := by omega
            simp [sget, hj, h2, this, h3]
          · simp [sget, hj, h2]
    · split
      · rename_i hn heq
        subst heq
        split
        · rename_i hv
          subst hv
          by_cases hj : j = i
          · subst hj; simp [sget_below ht j (by omega)]
          · by_cases h2 : j < i
            · simp [sget, hj, h2, sget_below ht j (by omega)]
            · simp [sget, hj, h2]
        · by_cases hj : j = i
          · simp [sget, hj]
          · simp [sget, hj]
      · rename_i hn hne
        by_cases hj : j = k
        · have : j ≠ i := by omega
          simp [sget, hj]
          intro h'; omega
        · by_cases h2 : j < k
          · have : j ≠ i := by omega
            simp [sget, hj, h2, this]
          · simp only [sget, hj, h2, if_false]
            exact ih _ ht

/-- Writes one after the other keep the form. -/
theorem swf_foldl {β : Type} {d : α} (f : Sparse α → β → Sparse α) (hf : ∀ l b, swf d l = true → swf d (f l b) = true)
    (bs : List β) {l : Sparse α} (h : swf d l = true) : swf d (bs.foldl f l) = true := by
  induction bs generalizing l with
  | nil => exact h
  | cons b t ih => exact ih (hf l b h)

/-- Keys written one after the other keep the form. -/
theorem swf_run {d : α} (is : List Nat) {l : Sparse α} (h : swf d l = true) (g : Nat → Nat) (v : Nat → α) :
    swf d (is.foldl (fun l i => sset d l (g i) (v i)) l) = true :=
  swf_foldl _ (fun _ _ hl => swf_sset hl _ _) is h

/-- Bytes written keep the form. -/
theorem swf_storeBytes {m : List Host.Cell} (h : swf 0#8 m = true) (a n v : Nat) : swf 0#8 (storeBytes m a n v) = true := by
  induction n generalizing m a v with
  | zero => exact h
  | succ n ih => exact ih (swf_sset h a _) (a + 1) (v / 256)

/-! ## The parts of memory -/

theorem memory_wf {m : Memory} : m.wf = true ↔ swf 0#8 m.bytes = true ∧ swf uninitTag m.tags = true ∧
    swf false m.full = true ∧ swf false m.poison = true ∧ swf 0 m.keyed = true ∧ swf false m.held = true := by
  simp only [Memory.wf, Bool.and_eq_true, uninitTag, and_assoc]

theorem wf_bytes {m : Memory} (h : m.wf = true) (a n v : Nat) :
    Memory.wf { m with bytes := storeBytes m.bytes a n v } = true := by
  rw [memory_wf] at h ⊢
  exact ⟨swf_storeBytes h.1 a n v, h.2⟩

theorem wf_tags {m : Memory} (h : m.wf = true) (b : Nat) (t : Tag) :
    Memory.wf { m with tags := sset uninitTag m.tags b t } = true := by
  rw [memory_wf] at h ⊢
  exact ⟨h.1, swf_sset h.2.1 b t, h.2.2⟩

theorem wf_full {m : Memory} (h : m.wf = true) (k : Nat) (b : Bool) :
    Memory.wf { m with full := sset false m.full k b } = true := by
  rw [memory_wf] at h ⊢
  exact ⟨h.1, h.2.1, swf_sset h.2.2.1 k b, h.2.2.2⟩

theorem wf_poison {m : Memory} (h : m.wf = true) {q : Sparse Bool} (hq : swf false q = true) :
    Memory.wf { m with poison := q } = true := by
  rw [memory_wf] at h ⊢
  exact ⟨h.1, h.2.1, h.2.2.1, hq, h.2.2.2.2⟩

theorem wf_held {m : Memory} (h : m.wf = true) (k : Nat) (b : Bool) :
    Memory.wf { m with held := sset false m.held k b } = true := by
  rw [memory_wf] at h ⊢
  exact ⟨h.1, h.2.1, h.2.2.1, h.2.2.2.1, h.2.2.2.2.1, swf_sset h.2.2.2.2.2 k b⟩

theorem wf_keyed {m : Memory} (h : m.wf = true) (k v : Nat) :
    Memory.wf { m with keyed := sset 0 m.keyed k v } = true := by
  rw [memory_wf] at h ⊢
  exact ⟨h.1, h.2.1, h.2.2.1, h.2.2.2.1, swf_sset h.2.2.2.2.1 k v, h.2.2.2.2.2⟩

theorem poison_swf {m : Memory} (h : m.wf = true) : swf false m.poison = true := (memory_wf.mp h).2.2.2.1

theorem swf_clearCovered {q : Sparse Bool} (h : swf false q = true) (p n : Nat) : swf false (clearCovered q p n) = true := by
  unfold clearCovered
  split
  · exact swf_foldl _ (fun l b hl => swf_sset hl _ _) _ h
  · exact h

/-! ## The operations that write memory -/

theorem swf_setTags {t : Sparse Tag} (h : swf uninitTag t = true) (b : Nat) (d : LineBits) :
    swf uninitTag (setTags t b d) = true := swf_foldl _ (fun _ _ hl => swf_sset hl _ _) _ h

theorem swf_tagsAfter {m : Memory} (h : swf uninitTag m.tags = true) (p v : Nat) (l : Line) :
    swf uninitTag (tagsAfter m p v l) = true := by
  unfold tagsAfter
  cases tagsHeldAt m p with
  | none => exact swf_sset h _ _
  | some b => exact swf_sset (swf_setTags h b _) _ _

theorem wf_putLine {m : Memory} (h : m.wf = true) (p v : Nat) (l : Line) : (putLine m p v l).wf = true := by
  rw [memory_wf] at h ⊢
  have hb : swf 0#8 (if (tagsHeldAt m p).isNone then storeBytes m.bytes (128 * lineOf p) 128 l.data.toNat else m.bytes) = true := by
    split
    · exact swf_storeBytes h.1 _ _ _
    · exact h.1
  have hk : swf 0 (if (tagsHeldAt m p).isNone then sset 0 m.keyed (lineOf p) v else m.keyed) = true := by
    split
    · exact swf_sset h.2.2.2.2.1 _ _
    · exact h.2.2.2.2.1
  have hh : swf false (if isAperture p then sset false m.held (lineOf p) true else m.held) = true := by
    split
    · exact swf_sset h.2.2.2.2.2 _ _
    · exact h.2.2.2.2.2
  have hp := swf_run (List.range 16) h.2.2.2.1 (fun i => 16 * lineOf p + i) (fun _ => false)
  have ht := swf_tagsAfter h.2.1 p v l
  simp only [putLine]
  exact ⟨hb, ht, h.2.2.1, hp, hk, hh⟩

theorem wf_writeLine {s : State} (h : s.mem.wf = true) (p : Page) (va : Word) (l : Line) :
    (writeLine s p va l).mem.wf = true := wf_putLine h _ _ _

theorem wf_writeBytes {s : State} (h : s.mem.wf = true) (p : Page) (va : Word) (n v : Nat) :
    (writeBytes s p va n v).mem.wf = true :=
  wf_poison (wf_writeLine h _ _ _) (swf_clearCovered (poison_swf h) _ _)

theorem wf_writeDemoted {s : State} (h : s.mem.wf = true) (p : Page) (va : Word) (l : Line) :
    (writeDemoted s p va l).mem.wf = true := by
  unfold writeDemoted
  split
  · exact wf_writeLine h _ _ _
  · split <;> exact wf_putLine h _ _ _

theorem wf_clearWords {m : Memory} (h : m.wf = true) (pl : Nat) (ws : List Nat) : swf false (clearWords m.poison pl ws) = true :=
  swf_foldl _ (fun _ _ hl => swf_sset hl _ _) _ (poison_swf h)

theorem wf_mergeInto {s : State} (h : s.mem.wf = true) (p : Page) (va : Word) (l : Line) (ws : List Nat) :
    (mergeInto p va l ws s).mem.wf = true := wf_poison (wf_writeLine h _ _ _) (wf_clearWords h _ _)

theorem wf_scatterInto {s : State} (h : s.mem.wf = true) (p : Page) (va : Word) (t : Tag) (es : List (Nat × Nat)) :
    (scatterInto s p va t es).mem.wf = true := wf_mergeInto h _ _ _ _

theorem wf_tangentInto {s : State} (h : s.mem.wf = true) (p : Page) (va : Word) (f o n v : Nat) :
    (tangentInto s p va f o n v).mem.wf = true := wf_mergeInto h _ _ _ _

theorem wf_applyWrite {s : State} (h : s.mem.wf = true) (q : QueuedStore) : (applyWrite s q).mem.wf = true := by
  unfold applyWrite
  split
  · exact wf_writeBytes h _ _ _ _
  · exact wf_writeDemoted h _ _ _
  · exact wf_mergeInto h _ _ _ _
  · exact wf_scatterInto h _ _ _ _
  · exact wf_tangentInto h _ _ _ _ _ _
  · simp only
    split
    · exact wf_writeDemoted h _ _ _
    · exact wf_mergeInto h _ _ _ _

theorem wf_applyQueue (q kept : List QueuedStore) {s : State} (h : s.mem.wf = true) : (applyQueue q kept s).mem.wf = true := by
  induction q generalizing s kept with
  | nil => exact h
  | cons e rest ih =>
    unfold applyQueue
    split
    · exact ih _ (wf_applyWrite h e)
    · exact ih _ h

theorem wf_drainStores {s : State} (h : s.mem.wf = true) : (drainStores s).mem.wf = true := wf_applyQueue _ _ h

theorem wf_writeRingWord {s : State} (h : s.mem.wf = true) (e : Engine) (pos : BitVec 11) (w : IWord) :
    (writeRingWord s e pos w).mem.wf = true := wf_bytes h _ _ _

theorem wf_setFull {s : State} (h : s.mem.wf = true) (b : Bool) (pl : Nat) : (setFull b pl s).mem.wf = true :=
  wf_full h _ _

theorem wf_putScratch {s : State} (h : s.mem.wf = true) (off : Nat) (l : Line) : (putScratch s off l).mem.wf = true :=
  wf_putLine h _ _ _

theorem wf_scratchPut {s : State} (h : s.mem.wf = true) (off n v : Nat) : (scratchPut off n v s).mem.wf = true :=
  wf_poison (wf_putScratch h _ _) (swf_clearCovered (poison_swf h) _ _)

theorem wf_storeUnder {s : State} (h : s.mem.wf = true) (ver pa n v : Nat) : (storeUnder ver s pa n v).mem.wf = true :=
  wf_poison (wf_putLine h _ _ _) (swf_clearCovered (poison_swf h) _ _)

theorem wf_physStore {s : State} (h : s.mem.wf = true) (pa n v : Nat) : (physStore s pa n v).mem.wf = true :=
  wf_storeUnder h 0 pa n v

theorem wf_physWrite {s : State} (h : s.mem.wf = true) (pa n v : Nat) : (physWrite s pa n v).mem.wf = true :=
  wf_putLine h _ _ _

/-- Steps of memory one after the other keep the form. -/
theorem wf_steps {β : Type} (f : Memory → β → Memory) (hf : ∀ m b, m.wf = true → (f m b).wf = true) (bs : List β) {m : Memory}
    (h : m.wf = true) : (bs.foldl f m).wf = true := by
  induction bs generalizing m with
  | nil => exact h
  | cons b t ih => exact ih (hf m b h)

theorem wf_rawStore {m : Memory} (h : m.wf = true) (header : Bool) (a n v ver : Nat) : (rawStore m header a n v ver).wf = true :=
  wf_steps _ (fun _ _ hm => wf_putLine hm _ _ _) _ h

theorem wf_dropBlock {m : Memory} (h : m.wf = true) (p : Nat) : (dropBlock m p).wf = true := by
  unfold dropBlock
  generalize blockPlaces p = qs
  induction qs generalizing m with
  | nil => exact h
  | cons q t ih =>
    rw [List.foldl_cons]
    apply ih
    rw [memory_wf] at h ⊢
    have hb := swf_storeBytes h.1 q 128 0
    have ht := swf_sset h.2.1 (lineOf q) uninitTag
    have hk := swf_sset h.2.2.2.2.1 (lineOf q) 0
    have hh := swf_sset h.2.2.2.2.2 (lineOf q) false
    dsimp only
    exact ⟨hb, ht, h.2.2.1, h.2.2.2.1, hk, hh⟩

theorem wf_moveLine {s : State} (h : s.mem.wf = true) (ver src dst : Nat) : (moveLine s ver src dst).mem.wf = true := by
  have hq := swf_run (List.range 16) (poison_swf h) (fun i => 16 * lineOf dst + i)
    (fun i => sget false s.mem.poison (16 * lineOf src + i))
  have hm := wf_poison (wf_putLine h dst ver (clearLine s ver src)) hq
  simpa only [moveLine] using hm

theorem wf_moveEach (is : List Nat) (ver src dst : Nat) {s : State} (h : s.mem.wf = true) :
    (is.foldl (fun s i => moveLine s ver (src + 128 * i) (dst + 128 * i)) s).mem.wf = true := by
  induction is generalizing s with
  | nil => exact h
  | cons i rest ih =>
    rw [List.foldl_cons]
    exact ih (wf_moveLine h ver (src + 128 * i) (dst + 128 * i))

theorem wf_moveLines {s : State} (h : s.mem.wf = true) (ver src dst n : Nat) : (moveLines s ver src dst n).mem.wf = true := by
  have hm := wf_moveEach (List.range n) ver src dst h
  simpa only [moveLines] using hm

theorem wf_putLines (is : List Nat) (base : Nat) {m : Memory} (h : m.wf = true) :
    (is.foldl (fun m i => putLine m (base + 128 * i) 0 ⟨rawTag, 0⟩) m).wf = true := by
  induction is generalizing m with
  | nil => exact h
  | cons i rest ih =>
    rw [List.foldl_cons]
    exact ih (wf_putLine h (base + 128 * i) 0 ⟨rawTag, 0⟩)

theorem wf_writeChunks (base : Nat) (cs : List Chunk) {m : Memory} (h : m.wf = true) :
    Memory.wf { m with bytes := cs.foldl (fun b x => storeBytes b (base + x.1) x.2.1 x.2.2) m.bytes } = true := by
  rw [memory_wf] at h ⊢
  exact ⟨swf_foldl _ (fun l x hl => swf_storeBytes hl _ _ _) cs h.1, h.2⟩

theorem wf_writeImage {m : Memory} (h : m.wf = true) (base : Nat) (cs : List Chunk) : (writeImage m base cs).wf = true := by
  have hm := wf_writeChunks base cs (wf_putLines (List.range imageLines) base h)
  simpa only [writeImage] using hm

theorem wf_poisonWord {s : State} (h : s.mem.wf = true) (pl : Nat) : (poisonWord s pl).mem.wf = true :=
  wf_poison h (swf_sset (poison_swf h) _ _)

theorem wf_poisonLine {s : State} (h : s.mem.wf = true) (pl : Nat) : (poisonLine s pl).mem.wf = true := wf_tags h _ _

end Sys2Proof.Laws
end

