-- ==== Sys2Proof/Laws/Moves.lean ====
section
/-! SUPPORT. What the shared operations of moves can do: notes of accesses change no memory, a move that something holds back
changes nothing, and a copy's line lands with memory in its canonical form. -/

namespace Sys2Proof.Laws

open Sys2Proof.Machine

/-! ## Notes -/

@[simp] theorem meetHeld_mem (pl n : Nat) (s : State) : (meetHeld pl n s).mem = s.mem := rfl
@[simp] theorem meetHeld_core (pl n : Nat) (s : State) : (meetHeld pl n s).core = s.core := rfl
@[simp] theorem meetHeld_jobs (pl n : Nat) (s : State) : (meetHeld pl n s).jobs = s.jobs := rfl
@[simp] theorem noteAccess_mem (job : Nat) (p : Page) (va : Word) (s : State) : (noteAccess job p va s).mem = s.mem := rfl
@[simp] theorem noteAccess_core (job : Nat) (p : Page) (va : Word) (s : State) : (noteAccess job p va s).core = s.core := rfl
@[simp] theorem noteTables_mem (s : State) : (noteTables s).mem = s.mem := rfl
@[simp] theorem noteStored_mem (pl n : Nat) (s : State) : (noteStored pl n s).mem = s.mem := rfl

/-- A move sets `blocked`, and nothing else, where it meets bytes at which something waits. -/
theorem meetHeld_blocked (pl n : Nat) (s : State) : (meetHeld pl n s).blocked = (s.blocked || bytesHeld s pl n) := rfl

/-! ## Moves held back -/

/-- A move that answers a next state is made whole, or leaves the machine as it was because it met such bytes. -/
theorem heldBack_next {s t : State} {o : Out} (h : heldBack s o = .next t) :
    o = .next t ∨ (t = s ∧ ∃ u, o = .next u ∧ u.blocked = true ∧ s.blocked = false) := by
  cases o with
  | next u =>
    simp only [heldBack] at h
    split at h
    · rename_i hb
      simp only [Bool.and_eq_true, Bool.not_eq_true'] at hb
      exact .inr ⟨(Host.Outcome.next.inj h).symm, u, rfl, hb⟩
    · exact .inl h
  | fault f => cases h
  | refused r => cases h

/-- What holds before a move and after it holds after one that may be held back. -/
theorem heldBack_keeps {P : State → Prop} {s t : State} {o : Out} (hs : P s) (ho : ∀ u, o = .next u → P u)
    (h : heldBack s o = .next t) : P t := by
  obtain h | ⟨rfl, -⟩ := heldBack_next h
  · exact ho t h
  · exact hs

/-! ## Stores applied, and lines of copies -/

theorem wf_foldl_applyWrite (qs : List QueuedStore) {s : State} (h : s.mem.wf = true) : (qs.foldl applyWrite s).mem.wf = true := by
  induction qs generalizing s with
  | nil => exact h
  | cons q qs ih => exact ih (wf_applyWrite h q)

theorem wf_drainLine {s : State} (h : s.mem.wf = true) (pl : Nat) : (drainLine pl s).mem.wf = true :=
  wf_foldl_applyWrite _ h

theorem wf_countLanded {s : State} (h : s.mem.wf = true) (b : Option Nat) : (countLanded b s).mem.wf = true := by
  unfold countLanded
  split
  · exact h
  · dsimp only
    split
    · exact wf_setFull (wf_scratchPut h _ _ _) _ _
    · exact wf_scratchPut h _ _ _

theorem wf_landLine {y : YCommand} {s : State} (h : s.mem.wf = true) (b : Nat) : (landLine b (y, s)).2.mem.wf = true :=
  wf_countLanded h _

end Sys2Proof.Laws
end

