-- ==== Sys2Proof/Laws/PerInstr.lean ====
section
/-! SUPPORT. For every instruction: a well-formed instruction that has a word is decoded from that word. -/

namespace Sys2Proof.Laws.RoundTrip

open BitVec

/-- The decoder reads back a well-formed instruction from its word. -/
def Statement (i : Instr) : Prop := i.wellFormed = true → ∀ w, encode i = some w → decode w = .ok i

/-- A field that lies in the upper part of a joined word. -/
theorem fld_left {n m : Nat} (x : BitVec n) (y : BitVec m) (lo len : Nat) (h : m ≤ lo) :
    (x ++ y).extractLsb' lo len = x.extractLsb' (lo - m) len := by
  apply eq_of_getLsbD_eq
  intro i hi
  have hn : ¬ lo + i < m := by omega
  simp only [getLsbD_extractLsb', getLsbD_append, hi, decide_true, Bool.true_and, hn, if_false]
  congr 1
  omega

/-- A field that lies in the lower part of a joined word. -/
theorem fld_right {n m : Nat} (x : BitVec n) (y : BitVec m) (lo len : Nat) (h : lo + len ≤ m) :
    (x ++ y).extractLsb' lo len = y.extractLsb' lo len := by
  apply eq_of_getLsbD_eq
  intro i hi
  have hn : lo + i < m := by omega
  simp only [getLsbD_extractLsb', getLsbD_append, hi, decide_true, Bool.true_and, hn, if_true]

/-- A field that is the whole of its part. -/
theorem fld_all {n : Nat} (x : BitVec n) : x.extractLsb' 0 n = x := by simp

/-- What the fields say is what the decoder answers, where the values are ones the entry allows. -/
theorem of_fields {i : Instr} {w : IWord} (he : encode i = some w) (hd : decodeFields w = .ok i) : Statement i := by
  intro hi v hv
  rw [he] at hv
  cases hv
  simp [decode, hd, hi]

/-- An event or a command has no word. -/
theorem of_none {i : Instr} (he : encode i = none) : Statement i := by
  intro _ v hv
  rw [he] at hv
  cases hv

theorem fieldsC {w : IWord} {i : Instr} (h : fld w 29 3 = 0#3) (hr : decodeC (fld w 23 6) w = .ok i) :
    decodeFields w = .ok i := by
  simp [decodeFields, h, hr]

theorem fieldsA {w : IWord} {i : Instr} (h : fld w 29 3 = 1#3) (hr : decodeA (fld w 23 6) w = .ok i) :
    decodeFields w = .ok i := by
  simp [decodeFields, h, hr]

theorem fieldsX {w : IWord} {i : Instr} (h : fld w 29 3 = 2#3) (hr : decodeX (fld w 23 6) w = .ok i) :
    decodeFields w = .ok i := by
  simp [decodeFields, h, hr]

theorem fieldsM {w : IWord} {i : Instr} (h : fld w 29 3 = 3#3) (hr : decodeM (fld w 23 6) w = .ok i) :
    decodeFields w = .ok i := by
  simp [decodeFields, h, hr]

theorem fieldsY {w : IWord} {i : Instr} (h : fld w 29 3 = 4#3) (hr : decodeY (fld w 23 6) w = .ok i) :
    decodeFields w = .ok i := by
  simp [decodeFields, h, hr]

theorem fieldsZ {w : IWord} {i : Instr} (h : fld w 29 3 = 5#3) (hr : decodeZ (fld w 23 6) w = .ok i) :
    decodeFields w = .ok i := by
  simp [decodeFields, h, hr]

theorem fieldsP {w : IWord} {i : Instr} (h : fld w 29 3 = 6#3) (hr : decodeP (fld w 23 6) w = .ok i) :
    decodeFields w = .ok i := by
  simp [decodeFields, h, hr]

set_option maxRecDepth 4000
set_option linter.unusedSimpArgs false

theorem add (d : BitVec 5) (a : BitVec 5) (b : BitVec 5) : Statement (.add d a b) :=
  of_fields rfl (fieldsC (by simp (disch := decide) only [fld, fld_left, Nat.reduceSub, fld_all]; try rfl)
    (by simp (disch := decide) only [decodeC, fld, fld_left, fld_right, fld_all, Nat.reduceSub, reduceExtractLsb', reduceEq, ↓reduceIte]; try rfl))

theorem sub (d : BitVec 5) (a : BitVec 5) (b : BitVec 5) : Statement (.sub d a b) :=
  of_fields rfl (fieldsC (by simp (disch := decide) only [fld, fld_left, Nat.reduceSub, fld_all]; try rfl)
    (by simp (disch := decide) only [decodeC, fld, fld_left, fld_right, fld_all, Nat.reduceSub, reduceExtractLsb', reduceEq, ↓reduceIte]; try rfl))

theorem mul (d : BitVec 5) (a : BitVec 5) (b : BitVec 5) : Statement (.mul d a b) :=
  of_fields rfl (fieldsC (by simp (disch := decide) only [fld, fld_left, Nat.reduceSub, fld_all]; try rfl)
    (by simp (disch := decide) only [decodeC, fld, fld_left, fld_right, fld_all, Nat.reduceSub, reduceExtractLsb', reduceEq, ↓reduceIte]; try rfl))

theorem mulh (d : BitVec 5) (a : BitVec 5) (b : BitVec 5) : Statement (.mulh d a b) :=
  of_fields rfl (fieldsC (by simp (disch := decide) only [fld, fld_left, Nat.reduceSub, fld_all]; try rfl)
    (by simp (disch := decide) only [decodeC, fld, fld_left, fld_right, fld_all, Nat.reduceSub, reduceExtractLsb', reduceEq, ↓reduceIte]; try rfl))

theorem mulhu (d : BitVec 5) (a : BitVec 5) (b : BitVec 5) : Statement (.mulhu d a b) :=
  of_fields rfl (fieldsC (by simp (disch := decide) only [fld, fld_left, Nat.reduceSub, fld_all]; try rfl)
    (by simp (disch := decide) only [decodeC, fld, fld_left, fld_right, fld_all, Nat.reduceSub, reduceExtractLsb', reduceEq, ↓reduceIte]; try rfl))

theorem div (d : BitVec 5) (a : BitVec 5) (b : BitVec 5) : Statement (.div d a b) :=
  of_fields rfl (fieldsC (by simp (disch := decide) only [fld, fld_left, Nat.reduceSub, fld_all]; try rfl)
    (by simp (disch := decide) only [decodeC, fld, fld_left, fld_right, fld_all, Nat.reduceSub, reduceExtractLsb', reduceEq, ↓reduceIte]; try rfl))

theorem divu (d : BitVec 5) (a : BitVec 5) (b : BitVec 5) : Statement (.divu d a b) :=
  of_fields rfl (fieldsC (by simp (disch := decide) only [fld, fld_left, Nat.reduceSub, fld_all]; try rfl)
    (by simp (disch := decide) only [decodeC, fld, fld_left, fld_right, fld_all, Nat.reduceSub, reduceExtractLsb', reduceEq, ↓reduceIte]; try rfl))

theorem rem (d : BitVec 5) (a : BitVec 5) (b : BitVec 5) : Statement (.rem d a b) :=
  of_fields rfl (fieldsC (by simp (disch := decide) only [fld, fld_left, Nat.reduceSub, fld_all]; try rfl)
    (by simp (disch := decide) only [decodeC, fld, fld_left, fld_right, fld_all, Nat.reduceSub, reduceExtractLsb', reduceEq, ↓reduceIte]; try rfl))

theorem remu (d : BitVec 5) (a : BitVec 5) (b : BitVec 5) : Statement (.remu d a b) :=
  of_fields rfl (fieldsC (by simp (disch := decide) only [fld, fld_left, Nat.reduceSub, fld_all]; try rfl)
    (by simp (disch := decide) only [decodeC, fld, fld_left, fld_right, fld_all, Nat.reduceSub, reduceExtractLsb', reduceEq, ↓reduceIte]; try rfl))

theorem and (d : BitVec 5) (a : BitVec 5) (b : BitVec 5) : Statement (.and d a b) :=
  of_fields rfl (fieldsC (by simp (disch := decide) only [fld, fld_left, Nat.reduceSub, fld_all]; try rfl)
    (by simp (disch := decide) only [decodeC, fld, fld_left, fld_right, fld_all, Nat.reduceSub, reduceExtractLsb', reduceEq, ↓reduceIte]; try rfl))

theorem or (d : BitVec 5) (a : BitVec 5) (b : BitVec 5) : Statement (.or d a b) :=
  of_fields rfl (fieldsC (by simp (disch := decide) only [fld, fld_left, Nat.reduceSub, fld_all]; try rfl)
    (by simp (disch := decide) only [decodeC, fld, fld_left, fld_right, fld_all, Nat.reduceSub, reduceExtractLsb', reduceEq, ↓reduceIte]; try rfl))

theorem xor (d : BitVec 5) (a : BitVec 5) (b : BitVec 5) : Statement (.xor d a b) :=
  of_fields rfl (fieldsC (by simp (disch := decide) only [fld, fld_left, Nat.reduceSub, fld_all]; try rfl)
    (by simp (disch := decide) only [decodeC, fld, fld_left, fld_right, fld_all, Nat.reduceSub, reduceExtractLsb', reduceEq, ↓reduceIte]; try rfl))

theorem shl (d : BitVec 5) (a : BitVec 5) (b : BitVec 5) : Statement (.shl d a b) :=
  of_fields rfl (fieldsC (by simp (disch := decide) only [fld, fld_left, Nat.reduceSub, fld_all]; try rfl)
    (by simp (disch := decide) only [decodeC, fld, fld_left, fld_right, fld_all, Nat.reduceSub, reduceExtractLsb', reduceEq, ↓reduceIte]; try rfl))

theorem shrl (d : BitVec 5) (a : BitVec 5) (b : BitVec 5) : Statement (.shrl d a b) :=
  of_fields rfl (fieldsC (by simp (disch := decide) only [fld, fld_left, Nat.reduceSub, fld_all]; try rfl)
    (by simp (disch := decide) only [decodeC, fld, fld_left, fld_right, fld_all, Nat.reduceSub, reduceExtractLsb', reduceEq, ↓reduceIte]; try rfl))

theorem shra (d : BitVec 5) (a : BitVec 5) (b : BitVec 5) : Statement (.shra d a b) :=
  of_fields rfl (fieldsC (by simp (disch := decide) only [fld, fld_left, Nat.reduceSub, fld_all]; try rfl)
    (by simp (disch := decide) only [decodeC, fld, fld_left, fld_right, fld_all, Nat.reduceSub, reduceExtractLsb', reduceEq, ↓reduceIte]; try rfl))

theorem slt (d : BitVec 5) (a : BitVec 5) (b : BitVec 5) : Statement (.slt d a b) :=
  of_fields rfl (fieldsC (by simp (disch := decide) only [fld, fld_left, Nat.reduceSub, fld_all]; try rfl)
    (by simp (disch := decide) only [decodeC, fld, fld_left, fld_right, fld_all, Nat.reduceSub, reduceExtractLsb', reduceEq, ↓reduceIte]; try rfl))

theorem sltu (d : BitVec 5) (a : BitVec 5) (b : BitVec 5) : Statement (.sltu d a b) :=
  of_fields rfl (fieldsC (by simp (disch := decide) only [fld, fld_left, Nat.reduceSub, fld_all]; try rfl)
    (by simp (disch := decide) only [decodeC, fld, fld_left, fld_right, fld_all, Nat.reduceSub, reduceExtractLsb', reduceEq, ↓reduceIte]; try rfl))

theorem min (d : BitVec 5) (a : BitVec 5) (b : BitVec 5) : Statement (.min d a b) :=
  of_fields rfl (fieldsC (by simp (disch := decide) only [fld, fld_left, Nat.reduceSub, fld_all]; try rfl)
    (by simp (disch := decide) only [decodeC, fld, fld_left, fld_right, fld_all, Nat.reduceSub, reduceExtractLsb', reduceEq, ↓reduceIte]; try rfl))

theorem max (d : BitVec 5) (a : BitVec 5) (b : BitVec 5) : Statement (.max d a b) :=
  of_fields rfl (fieldsC (by simp (disch := decide) only [fld, fld_left, Nat.reduceSub, fld_all]; try rfl)
    (by simp (disch := decide) only [decodeC, fld, fld_left, fld_right, fld_all, Nat.reduceSub, reduceExtractLsb', reduceEq, ↓reduceIte]; try rfl))

theorem minu (d : BitVec 5) (a : BitVec 5) (b : BitVec 5) : Statement (.minu d a b) :=
  of_fields rfl (fieldsC (by simp (disch := decide) only [fld, fld_left, Nat.reduceSub, fld_all]; try rfl)
    (by simp (disch := decide) only [decodeC, fld, fld_left, fld_right, fld_all, Nat.reduceSub, reduceExtractLsb', reduceEq, ↓reduceIte]; try rfl))

theorem maxu (d : BitVec 5) (a : BitVec 5) (b : BitVec 5) : Statement (.maxu d a b) :=
  of_fields rfl (fieldsC (by simp (disch := decide) only [fld, fld_left, Nat.reduceSub, fld_all]; try rfl)
    (by simp (disch := decide) only [decodeC, fld, fld_left, fld_right, fld_all, Nat.reduceSub, reduceExtractLsb', reduceEq, ↓reduceIte]; try rfl))

theorem clz (d : BitVec 5) (a : BitVec 5) : Statement (.clz d a) :=
  of_fields rfl (fieldsC (by simp (disch := decide) only [fld, fld_left, Nat.reduceSub, fld_all]; try rfl)
    (by simp (disch := decide) only [decodeC, fld, fld_left, fld_right, fld_all, Nat.reduceSub, reduceExtractLsb', reduceEq, ↓reduceIte]; try rfl))

theorem ctz (d : BitVec 5) (a : BitVec 5) : Statement (.ctz d a) :=
  of_fields rfl (fieldsC (by simp (disch := decide) only [fld, fld_left, Nat.reduceSub, fld_all]; try rfl)
    (by simp (disch := decide) only [decodeC, fld, fld_left, fld_right, fld_all, Nat.reduceSub, reduceExtractLsb', reduceEq, ↓reduceIte]; try rfl))

theorem popc (d : BitVec 5) (a : BitVec 5) : Statement (.popc d a) :=
  of_fields rfl (fieldsC (by simp (disch := decide) only [fld, fld_left, Nat.reduceSub, fld_all]; try rfl)
    (by simp (disch := decide) only [decodeC, fld, fld_left, fld_right, fld_all, Nat.reduceSub, reduceExtractLsb', reduceEq, ↓reduceIte]; try rfl))

theorem bfx (d : BitVec 5) (a : BitVec 5) (p : BitVec 6) (l : BitVec 6) : Statement (.bfx d a p l) :=
  of_fields rfl (fieldsC (by simp (disch := decide) only [fld, fld_left, Nat.reduceSub, fld_all]; try rfl)
    (by simp (disch := decide) only [decodeC, fld, fld_left, fld_right, fld_all, Nat.reduceSub, reduceExtractLsb', reduceEq, ↓reduceIte]; try rfl))

theorem bfxs (d : BitVec 5) (a : BitVec 5) (p : BitVec 6) (l : BitVec 6) : Statement (.bfxs d a p l) :=
  of_fields rfl (fieldsC (by simp (disch := decide) only [fld, fld_left, Nat.reduceSub, fld_all]; try rfl)
    (by simp (disch := decide) only [decodeC, fld, fld_left, fld_right, fld_all, Nat.reduceSub, reduceExtractLsb', reduceEq, ↓reduceIte]; try rfl))

theorem bfi (d : BitVec 5) (a : BitVec 5) (p : BitVec 6) (l : BitVec 6) : Statement (.bfi d a p l) :=
  of_fields rfl (fieldsC (by simp (disch := decide) only [fld, fld_left, Nat.reduceSub, fld_all]; try rfl)
    (by simp (disch := decide) only [decodeC, fld, fld_left, fld_right, fld_all, Nat.reduceSub, reduceExtractLsb', reduceEq, ↓reduceIte]; try rfl))

theorem fshl (d : BitVec 5) (a : BitVec 5) (b : BitVec 5) (c : BitVec 5) : Statement (.fshl d a b c) :=
  of_fields rfl (fieldsC (by simp (disch := decide) only [fld, fld_left, Nat.reduceSub, fld_all]; try rfl)
    (by simp (disch := decide) only [decodeC, fld, fld_left, fld_right, fld_all, Nat.reduceSub, reduceExtractLsb', reduceEq, ↓reduceIte]; try rfl))

theorem fshr (d : BitVec 5) (a : BitVec 5) (b : BitVec 5) (c : BitVec 5) : Statement (.fshr d a b c) :=
  of_fields rfl (fieldsC (by simp (disch := decide) only [fld, fld_left, Nat.reduceSub, fld_all]; try rfl)
    (by simp (disch := decide) only [decodeC, fld, fld_left, fld_right, fld_all, Nat.reduceSub, reduceExtractLsb', reduceEq, ↓reduceIte]; try rfl))

theorem sel (d : BitVec 5) (a : BitVec 5) (b : BitVec 5) (c : BitVec 5) : Statement (.sel d a b c) :=
  of_fields rfl (fieldsC (by simp (disch := decide) only [fld, fld_left, Nat.reduceSub, fld_all]; try rfl)
    (by simp (disch := decide) only [decodeC, fld, fld_left, fld_right, fld_all, Nat.reduceSub, reduceExtractLsb', reduceEq, ↓reduceIte]; try rfl))

theorem addi (d : BitVec 5) (a : BitVec 5) (i : BitVec 13) : Statement (.addi d a i) :=
  of_fields rfl (fieldsC (by simp (disch := decide) only [fld, fld_left, Nat.reduceSub, fld_all]; try rfl)
    (by simp (disch := decide) only [decodeC, fld, fld_left, fld_right, fld_all, Nat.reduceSub, reduceExtractLsb', reduceEq, ↓reduceIte]; try rfl))

theorem andi (d : BitVec 5) (a : BitVec 5) (i : BitVec 13) : Statement (.andi d a i) :=
  of_fields rfl (fieldsC (by simp (disch := decide) only [fld, fld_left, Nat.reduceSub, fld_all]; try rfl)
    (by simp (disch := decide) only [decodeC, fld, fld_left, fld_right, fld_all, Nat.reduceSub, reduceExtractLsb', reduceEq, ↓reduceIte]; try rfl))

theorem ori (d : BitVec 5) (a : BitVec 5) (i : BitVec 13) : Statement (.ori d a i) :=
  of_fields rfl (fieldsC (by simp (disch := decide) only [fld, fld_left, Nat.reduceSub, fld_all]; try rfl)
    (by simp (disch := decide) only [decodeC, fld, fld_left, fld_right, fld_all, Nat.reduceSub, reduceExtractLsb', reduceEq, ↓reduceIte]; try rfl))

theorem xori (d : BitVec 5) (a : BitVec 5) (i : BitVec 13) : Statement (.xori d a i) :=
  of_fields rfl (fieldsC (by simp (disch := decide) only [fld, fld_left, Nat.reduceSub, fld_all]; try rfl)
    (by simp (disch := decide) only [decodeC, fld, fld_left, fld_right, fld_all, Nat.reduceSub, reduceExtractLsb', reduceEq, ↓reduceIte]; try rfl))

theorem shli (d : BitVec 5) (a : BitVec 5) (s : BitVec 6) : Statement (.shli d a s) :=
  of_fields rfl (fieldsC (by simp (disch := decide) only [fld, fld_left, Nat.reduceSub, fld_all]; try rfl)
    (by simp (disch := decide) only [decodeC, fld, fld_left, fld_right, fld_all, Nat.reduceSub, reduceExtractLsb', reduceEq, ↓reduceIte]; try rfl))

theorem shrli (d : BitVec 5) (a : BitVec 5) (s : BitVec 6) : Statement (.shrli d a s) :=
  of_fields rfl (fieldsC (by simp (disch := decide) only [fld, fld_left, Nat.reduceSub, fld_all]; try rfl)
    (by simp (disch := decide) only [decodeC, fld, fld_left, fld_right, fld_all, Nat.reduceSub, reduceExtractLsb', reduceEq, ↓reduceIte]; try rfl))

theorem shrai (d : BitVec 5) (a : BitVec 5) (s : BitVec 6) : Statement (.shrai d a s) :=
  of_fields rfl (fieldsC (by simp (disch := decide) only [fld, fld_left, Nat.reduceSub, fld_all]; try rfl)
    (by simp (disch := decide) only [decodeC, fld, fld_left, fld_right, fld_all, Nat.reduceSub, reduceExtractLsb', reduceEq, ↓reduceIte]; try rfl))

theorem slti (d : BitVec 5) (a : BitVec 5) (i : BitVec 13) : Statement (.slti d a i) :=
  of_fields rfl (fieldsC (by simp (disch := decide) only [fld, fld_left, Nat.reduceSub, fld_all]; try rfl)
    (by simp (disch := decide) only [decodeC, fld, fld_left, fld_right, fld_all, Nat.reduceSub, reduceExtractLsb', reduceEq, ↓reduceIte]; try rfl))

theorem lui (d : BitVec 5) (i : BitVec 18) : Statement (.lui d i) :=
  of_fields rfl (fieldsC (by simp (disch := decide) only [fld, fld_left, Nat.reduceSub, fld_all]; try rfl)
    (by simp (disch := decide) only [decodeC, fld, fld_left, fld_right, fld_all, Nat.reduceSub, reduceExtractLsb', reduceEq, ↓reduceIte]; try rfl))

theorem auipc (d : BitVec 5) (i : BitVec 18) : Statement (.auipc d i) :=
  of_fields rfl (fieldsC (by simp (disch := decide) only [fld, fld_left, Nat.reduceSub, fld_all]; try rfl)
    (by simp (disch := decide) only [decodeC, fld, fld_left, fld_right, fld_all, Nat.reduceSub, reduceExtractLsb', reduceEq, ↓reduceIte]; try rfl))

theorem beq (a : BitVec 5) (b : BitVec 5) (o : BitVec 13) : Statement (.beq a b o) :=
  of_fields rfl (fieldsC (by simp (disch := decide) only [fld, fld_left, Nat.reduceSub, fld_all]; try rfl)
    (by simp (disch := decide) only [decodeC, fld, fld_left, fld_right, fld_all, Nat.reduceSub, reduceExtractLsb', reduceEq, ↓reduceIte]; try rfl))

theorem bne (a : BitVec 5) (b : BitVec 5) (o : BitVec 13) : Statement (.bne a b o) :=
  of_fields rfl (fieldsC (by simp (disch := decide) only [fld, fld_left, Nat.reduceSub, fld_all]; try rfl)
    (by simp (disch := decide) only [decodeC, fld, fld_left, fld_right, fld_all, Nat.reduceSub, reduceExtractLsb', reduceEq, ↓reduceIte]; try rfl))

theorem blt (a : BitVec 5) (b : BitVec 5) (o : BitVec 13) : Statement (.blt a b o) :=
  of_fields rfl (fieldsC (by simp (disch := decide) only [fld, fld_left, Nat.reduceSub, fld_all]; try rfl)
    (by simp (disch := decide) only [decodeC, fld, fld_left, fld_right, fld_all, Nat.reduceSub, reduceExtractLsb', reduceEq, ↓reduceIte]; try rfl))

theorem bge (a : BitVec 5) (b : BitVec 5) (o : BitVec 13) : Statement (.bge a b o) :=
  of_fields rfl (fieldsC (by simp (disch := decide) only [fld, fld_left, Nat.reduceSub, fld_all]; try rfl)
    (by simp (disch := decide) only [decodeC, fld, fld_left, fld_right, fld_all, Nat.reduceSub, reduceExtractLsb', reduceEq, ↓reduceIte]; try rfl))

theorem bltu (a : BitVec 5) (b : BitVec 5) (o : BitVec 13) : Statement (.bltu a b o) :=
  of_fields rfl (fieldsC (by simp (disch := decide) only [fld, fld_left, Nat.reduceSub, fld_all]; try rfl)
    (by simp (disch := decide) only [decodeC, fld, fld_left, fld_right, fld_all, Nat.reduceSub, reduceExtractLsb', reduceEq, ↓reduceIte]; try rfl))

theorem bgeu (a : BitVec 5) (b : BitVec 5) (o : BitVec 13) : Statement (.bgeu a b o) :=
  of_fields rfl (fieldsC (by simp (disch := decide) only [fld, fld_left, Nat.reduceSub, fld_all]; try rfl)
    (by simp (disch := decide) only [decodeC, fld, fld_left, fld_right, fld_all, Nat.reduceSub, reduceExtractLsb', reduceEq, ↓reduceIte]; try rfl))

theorem jmp (o : BitVec 23) : Statement (.jmp o) :=
  of_fields rfl (fieldsC (by simp (disch := decide) only [fld, fld_left, Nat.reduceSub, fld_all]; try rfl)
    (by simp (disch := decide) only [decodeC, fld, fld_left, fld_right, fld_all, Nat.reduceSub, reduceExtractLsb', reduceEq, ↓reduceIte]; try rfl))

theorem jal (d : BitVec 5) (i : BitVec 18) : Statement (.jal d i) :=
  of_fields rfl (fieldsC (by simp (disch := decide) only [fld, fld_left, Nat.reduceSub, fld_all]; try rfl)
    (by simp (disch := decide) only [decodeC, fld, fld_left, fld_right, fld_all, Nat.reduceSub, reduceExtractLsb', reduceEq, ↓reduceIte]; try rfl))

theorem jr (a : BitVec 5) : Statement (.jr a) :=
  of_fields rfl (fieldsC (by simp (disch := decide) only [fld, fld_left, Nat.reduceSub, fld_all]; try rfl)
    (by simp (disch := decide) only [decodeC, fld, fld_left, fld_right, fld_all, Nat.reduceSub, reduceExtractLsb', reduceEq, ↓reduceIte]; try rfl))

theorem jalr (d : BitVec 5) (a : BitVec 5) (i : BitVec 13) : Statement (.jalr d a i) :=
  of_fields rfl (fieldsC (by simp (disch := decide) only [fld, fld_left, Nat.reduceSub, fld_all]; try rfl)
    (by simp (disch := decide) only [decodeC, fld, fld_left, fld_right, fld_all, Nat.reduceSub, reduceExtractLsb', reduceEq, ↓reduceIte]; try rfl))

theorem callt (a : BitVec 5) (s : BitVec 9) : Statement (.callt a s) :=
  of_fields rfl (fieldsC (by simp (disch := decide) only [fld, fld_left, Nat.reduceSub, fld_all]; try rfl)
    (by simp (disch := decide) only [decodeC, fld, fld_left, fld_right, fld_all, Nat.reduceSub, reduceExtractLsb', reduceEq, ↓reduceIte]; try rfl))

theorem ret : Statement .ret :=
  of_fields rfl (fieldsC (by simp (disch := decide) only [fld, fld_left, Nat.reduceSub, fld_all]; try rfl)
    (by simp (disch := decide) only [decodeC, fld, fld_left, fld_right, fld_all, Nat.reduceSub, reduceExtractLsb', reduceEq, ↓reduceIte]; try rfl))

theorem bqt (o : BitVec 23) : Statement (.bqt o) :=
  of_fields rfl (fieldsC (by simp (disch := decide) only [fld, fld_left, Nat.reduceSub, fld_all]; try rfl)
    (by simp (disch := decide) only [decodeC, fld, fld_left, fld_right, fld_all, Nat.reduceSub, reduceExtractLsb', reduceEq, ↓reduceIte]; try rfl))

theorem bqf (o : BitVec 23) : Statement (.bqf o) :=
  of_fields rfl (fieldsC (by simp (disch := decide) only [fld, fld_left, Nat.reduceSub, fld_all]; try rfl)
    (by simp (disch := decide) only [decodeC, fld, fld_left, fld_right, fld_all, Nat.reduceSub, reduceExtractLsb', reduceEq, ↓reduceIte]; try rfl))

theorem bqpop (d : BitVec 5) : Statement (.bqpop d) :=
  of_fields rfl (fieldsC (by simp (disch := decide) only [fld, fld_left, Nat.reduceSub, fld_all]; try rfl)
    (by simp (disch := decide) only [decodeC, fld, fld_left, fld_right, fld_all, Nat.reduceSub, reduceExtractLsb', reduceEq, ↓reduceIte]; try rfl))

theorem nop : Statement .nop :=
  of_fields rfl (fieldsC (by simp (disch := decide) only [fld, fld_left, Nat.reduceSub, fld_all]; try rfl)
    (by simp (disch := decide) only [decodeC, fld, fld_left, fld_right, fld_all, Nat.reduceSub, reduceExtractLsb', reduceEq, ↓reduceIte]; try rfl))

theorem seqlvl (l : BitVec 3) (a : BitVec 5) (r : BitVec 1) : Statement (.seqlvl l a r) :=
  of_fields rfl (fieldsZ (by simp (disch := decide) only [fld, fld_left, Nat.reduceSub, fld_all]; try rfl)
    (by simp (disch := decide) only [decodeZ, fld, fld_left, fld_right, fld_all, Nat.reduceSub, reduceExtractLsb', reduceEq, ↓reduceIte]; try rfl))

theorem seqlvlGetShadow (l : BitVec 3) (a : BitVec 5) : Statement (.seqlvlGetShadow l a) :=
  of_fields rfl (fieldsZ (by simp (disch := decide) only [fld, fld_left, Nat.reduceSub, fld_all]; try rfl)
    (by simp (disch := decide) only [decodeZ, fld, fld_left, fld_right, fld_all, Nat.reduceSub, reduceExtractLsb', reduceEq, ↓reduceIte]; try rfl))

theorem seqlvlGetActive (l : BitVec 3) (a : BitVec 5) : Statement (.seqlvlGetActive l a) :=
  of_fields rfl (fieldsZ (by simp (disch := decide) only [fld, fld_left, Nat.reduceSub, fld_all]; try rfl)
    (by simp (disch := decide) only [decodeZ, fld, fld_left, fld_right, fld_all, Nat.reduceSub, reduceExtractLsb', reduceEq, ↓reduceIte]; try rfl))

theorem seqlvlGetCounter (l : BitVec 3) (a : BitVec 5) : Statement (.seqlvlGetCounter l a) :=
  of_fields rfl (fieldsZ (by simp (disch := decide) only [fld, fld_left, Nat.reduceSub, fld_all]; try rfl)
    (by simp (disch := decide) only [decodeZ, fld, fld_left, fld_right, fld_all, Nat.reduceSub, reduceExtractLsb', reduceEq, ↓reduceIte]; try rfl))

theorem seqstr (l : BitVec 3) (a : BitVec 5) (n : BitVec 5) : Statement (.seqstr l a n) :=
  of_fields rfl (fieldsZ (by simp (disch := decide) only [fld, fld_left, Nat.reduceSub, fld_all]; try rfl)
    (by simp (disch := decide) only [decodeZ, fld, fld_left, fld_right, fld_all, Nat.reduceSub, reduceExtractLsb', reduceEq, ↓reduceIte]; try rfl))

theorem seqstrGetShadow (l : BitVec 3) (a : BitVec 5) (n : BitVec 5) : Statement (.seqstrGetShadow l a n) :=
  of_fields rfl (fieldsZ (by simp (disch := decide) only [fld, fld_left, Nat.reduceSub, fld_all]; try rfl)
    (by simp (disch := decide) only [decodeZ, fld, fld_left, fld_right, fld_all, Nat.reduceSub, reduceExtractLsb', reduceEq, ↓reduceIte]; try rfl))

theorem seqstrGetActive (l : BitVec 3) (a : BitVec 5) (n : BitVec 5) : Statement (.seqstrGetActive l a n) :=
  of_fields rfl (fieldsZ (by simp (disch := decide) only [fld, fld_left, Nat.reduceSub, fld_all]; try rfl)
    (by simp (disch := decide) only [decodeZ, fld, fld_left, fld_right, fld_all, Nat.reduceSub, reduceExtractLsb', reduceEq, ↓reduceIte]; try rfl))

theorem seqcap (n : BitVec 10) : Statement (.seqcap n) :=
  of_fields rfl (fieldsZ (by simp (disch := decide) only [fld, fld_left, Nat.reduceSub, fld_all]; try rfl)
    (by simp (disch := decide) only [decodeZ, fld, fld_left, fld_right, fld_all, Nat.reduceSub, reduceExtractLsb', reduceEq, ↓reduceIte]; try rfl))

theorem seqgo : Statement .seqgo :=
  of_fields rfl (fieldsZ (by simp (disch := decide) only [fld, fld_left, Nat.reduceSub, fld_all]; try rfl)
    (by simp (disch := decide) only [decodeZ, fld, fld_left, fld_right, fld_all, Nat.reduceSub, reduceExtractLsb', reduceEq, ↓reduceIte]; try rfl))

theorem seqbrk : Statement .seqbrk :=
  of_fields rfl (fieldsZ (by simp (disch := decide) only [fld, fld_left, Nat.reduceSub, fld_all]; try rfl)
    (by simp (disch := decide) only [decodeZ, fld, fld_left, fld_right, fld_all, Nat.reduceSub, reduceExtractLsb', reduceEq, ↓reduceIte]; try rfl))

theorem seqwait : Statement .seqwait :=
  of_fields rfl (fieldsZ (by simp (disch := decide) only [fld, fld_left, Nat.reduceSub, fld_all]; try rfl)
    (by simp (disch := decide) only [decodeZ, fld, fld_left, fld_right, fld_all, Nat.reduceSub, reduceExtractLsb', reduceEq, ↓reduceIte]; try rfl))

theorem rrbset (i : BitVec 10) : Statement (.rrbset i) :=
  of_fields rfl (fieldsZ (by simp (disch := decide) only [fld, fld_left, Nat.reduceSub, fld_all]; try rfl)
    (by simp (disch := decide) only [decodeZ, fld, fld_left, fld_right, fld_all, Nat.reduceSub, reduceExtractLsb', reduceEq, ↓reduceIte]; try rfl))

theorem spawn (d : BitVec 5) (a : BitVec 5) (b : BitVec 5) : Statement (.spawn d a b) :=
  of_fields rfl (fieldsZ (by simp (disch := decide) only [fld, fld_left, Nat.reduceSub, fld_all]; try rfl)
    (by simp (disch := decide) only [decodeZ, fld, fld_left, fld_right, fld_all, Nat.reduceSub, reduceExtractLsb', reduceEq, ↓reduceIte]; try rfl))

theorem join (d : BitVec 5) (a : BitVec 5) (b : BitVec 5) : Statement (.join d a b) :=
  of_fields rfl (fieldsZ (by simp (disch := decide) only [fld, fld_left, Nat.reduceSub, fld_all]; try rfl)
    (by simp (disch := decide) only [decodeZ, fld, fld_left, fld_right, fld_all, Nat.reduceSub, reduceExtractLsb', reduceEq, ↓reduceIte]; try rfl))

theorem exit : Statement .exit :=
  of_fields rfl (fieldsZ (by simp (disch := decide) only [fld, fld_left, Nat.reduceSub, fld_all]; try rfl)
    (by simp (disch := decide) only [decodeZ, fld, fld_left, fld_right, fld_all, Nat.reduceSub, reduceExtractLsb', reduceEq, ↓reduceIte]; try rfl))

theorem evset (d : BitVec 5) (a : BitVec 5) (i : BitVec 13) : Statement (.evset d a i) :=
  of_fields rfl (fieldsZ (by simp (disch := decide) only [fld, fld_left, Nat.reduceSub, fld_all]; try rfl)
    (by simp (disch := decide) only [decodeZ, fld, fld_left, fld_right, fld_all, Nat.reduceSub, reduceExtractLsb', reduceEq, ↓reduceIte]; try rfl))

theorem evclr (d : BitVec 5) (a : BitVec 5) (i : BitVec 13) : Statement (.evclr d a i) :=
  of_fields rfl (fieldsZ (by simp (disch := decide) only [fld, fld_left, Nat.reduceSub, fld_all]; try rfl)
    (by simp (disch := decide) only [decodeZ, fld, fld_left, fld_right, fld_all, Nat.reduceSub, reduceExtractLsb', reduceEq, ↓reduceIte]; try rfl))

theorem evtest (d : BitVec 5) (a : BitVec 5) (i : BitVec 13) : Statement (.evtest d a i) :=
  of_fields rfl (fieldsZ (by simp (disch := decide) only [fld, fld_left, Nat.reduceSub, fld_all]; try rfl)
    (by simp (disch := decide) only [decodeZ, fld, fld_left, fld_right, fld_all, Nat.reduceSub, reduceExtractLsb', reduceEq, ↓reduceIte]; try rfl))

theorem tile (d : BitVec 5) (a : BitVec 5) (c : BitVec 5) : Statement (.tile d a c) :=
  of_fields rfl (fieldsZ (by simp (disch := decide) only [fld, fld_left, Nat.reduceSub, fld_all]; try rfl)
    (by simp (disch := decide) only [decodeZ, fld, fld_left, fld_right, fld_all, Nat.reduceSub, reduceExtractLsb', reduceEq, ↓reduceIte]; try rfl))

theorem tilenext (d : BitVec 5) (a : BitVec 5) (c : BitVec 5) : Statement (.tilenext d a c) :=
  of_fields rfl (fieldsZ (by simp (disch := decide) only [fld, fld_left, Nat.reduceSub, fld_all]; try rfl)
    (by simp (disch := decide) only [decodeZ, fld, fld_left, fld_right, fld_all, Nat.reduceSub, reduceExtractLsb', reduceEq, ↓reduceIte]; try rfl))

theorem gbar : Statement .gbar :=
  of_fields rfl (fieldsZ (by simp (disch := decide) only [fld, fld_left, Nat.reduceSub, fld_all]; try rfl)
    (by simp (disch := decide) only [decodeZ, fld, fld_left, fld_right, fld_all, Nat.reduceSub, reduceExtractLsb', reduceEq, ↓reduceIte]; try rfl))

theorem csrr (d : BitVec 5) (c : BitVec 12) : Statement (.csrr d c) :=
  of_fields rfl (fieldsZ (by simp (disch := decide) only [fld, fld_left, Nat.reduceSub, fld_all]; try rfl)
    (by simp (disch := decide) only [decodeZ, fld, fld_left, fld_right, fld_all, Nat.reduceSub, reduceExtractLsb', reduceEq, ↓reduceIte]; try rfl))

theorem csrw (d : BitVec 5) (a : BitVec 5) (c : BitVec 12) : Statement (.csrw d a c) :=
  of_fields rfl (fieldsZ (by simp (disch := decide) only [fld, fld_left, Nat.reduceSub, fld_all]; try rfl)
    (by simp (disch := decide) only [decodeZ, fld, fld_left, fld_right, fld_all, Nat.reduceSub, reduceExtractLsb', reduceEq, ↓reduceIte]; try rfl))

theorem csrs (d : BitVec 5) (a : BitVec 5) (c : BitVec 12) : Statement (.csrs d a c) :=
  of_fields rfl (fieldsZ (by simp (disch := decide) only [fld, fld_left, Nat.reduceSub, fld_all]; try rfl)
    (by simp (disch := decide) only [decodeZ, fld, fld_left, fld_right, fld_all, Nat.reduceSub, reduceExtractLsb', reduceEq, ↓reduceIte]; try rfl))

theorem csrc (d : BitVec 5) (a : BitVec 5) (c : BitVec 12) : Statement (.csrc d a c) :=
  of_fields rfl (fieldsZ (by simp (disch := decide) only [fld, fld_left, Nat.reduceSub, fld_all]; try rfl)
    (by simp (disch := decide) only [decodeZ, fld, fld_left, fld_right, fld_all, Nat.reduceSub, reduceExtractLsb', reduceEq, ↓reduceIte]; try rfl))

theorem trap (i : BitVec 18) : Statement (.trap i) :=
  of_fields rfl (fieldsZ (by simp (disch := decide) only [fld, fld_left, Nat.reduceSub, fld_all]; try rfl)
    (by simp (disch := decide) only [decodeZ, fld, fld_left, fld_right, fld_all, Nat.reduceSub, reduceExtractLsb', reduceEq, ↓reduceIte]; try rfl))

theorem eret : Statement .eret :=
  of_fields rfl (fieldsZ (by simp (disch := decide) only [fld, fld_left, Nat.reduceSub, fld_all]; try rfl)
    (by simp (disch := decide) only [decodeZ, fld, fld_left, fld_right, fld_all, Nat.reduceSub, reduceExtractLsb', reduceEq, ↓reduceIte]; try rfl))

theorem spill : Statement .spill :=
  of_fields rfl (fieldsZ (by simp (disch := decide) only [fld, fld_left, Nat.reduceSub, fld_all]; try rfl)
    (by simp (disch := decide) only [decodeZ, fld, fld_left, fld_right, fld_all, Nat.reduceSub, reduceExtractLsb', reduceEq, ↓reduceIte]; try rfl))

theorem fill (a : BitVec 5) : Statement (.fill a) :=
  of_fields rfl (fieldsZ (by simp (disch := decide) only [fld, fld_left, Nat.reduceSub, fld_all]; try rfl)
    (by simp (disch := decide) only [decodeZ, fld, fld_left, fld_right, fld_all, Nat.reduceSub, reduceExtractLsb', reduceEq, ↓reduceIte]; try rfl))

theorem halt : Statement .halt :=
  of_fields rfl (fieldsZ (by simp (disch := decide) only [fld, fld_left, Nat.reduceSub, fld_all]; try rfl)
    (by simp (disch := decide) only [decodeZ, fld, fld_left, fld_right, fld_all, Nat.reduceSub, reduceExtractLsb', reduceEq, ↓reduceIte]; try rfl))

theorem tlbi (a : BitVec 5) (b : BitVec 5) : Statement (.tlbi a b) :=
  of_fields rfl (fieldsZ (by simp (disch := decide) only [fld, fld_left, Nat.reduceSub, fld_all]; try rfl)
    (by simp (disch := decide) only [decodeZ, fld, fld_left, fld_right, fld_all, Nat.reduceSub, reduceExtractLsb', reduceEq, ↓reduceIte]; try rfl))

theorem latinv : Statement .latinv :=
  of_fields rfl (fieldsZ (by simp (disch := decide) only [fld, fld_left, Nat.reduceSub, fld_all]; try rfl)
    (by simp (disch := decide) only [decodeZ, fld, fld_left, fld_right, fld_all, Nat.reduceSub, reduceExtractLsb', reduceEq, ↓reduceIte]; try rfl))

theorem isync : Statement .isync :=
  of_fields rfl (fieldsZ (by simp (disch := decide) only [fld, fld_left, Nat.reduceSub, fld_all]; try rfl)
    (by simp (disch := decide) only [decodeZ, fld, fld_left, fld_right, fld_all, Nat.reduceSub, reduceExtractLsb', reduceEq, ↓reduceIte]; try rfl))

theorem lds (d : BitVec 5) (b : BitVec 5) (z : BitVec 2) (x : BitVec 1) (o : BitVec 10) : Statement (.lds d b z x o) :=
  of_fields rfl (fieldsA (by simp (disch := decide) only [fld, fld_left, Nat.reduceSub, fld_all]; try rfl)
    (by simp (disch := decide) only [decodeA, fld, fld_left, fld_right, fld_all, Nat.reduceSub, reduceExtractLsb', reduceEq, ↓reduceIte]; try rfl))

theorem sts (d : BitVec 5) (b : BitVec 5) (z : BitVec 2) (o : BitVec 10) : Statement (.sts d b z o) :=
  of_fields rfl (fieldsA (by simp (disch := decide) only [fld, fld_left, Nat.reduceSub, fld_all]; try rfl)
    (by simp (disch := decide) only [decodeA, fld, fld_left, fld_right, fld_all, Nat.reduceSub, reduceExtractLsb', reduceEq, ↓reduceIte]; try rfl))

theorem lda (d : BitVec 5) (b : BitVec 5) (o : BitVec 10) : Statement (.lda d b o) :=
  of_fields rfl (fieldsA (by simp (disch := decide) only [fld, fld_left, Nat.reduceSub, fld_all]; try rfl)
    (by simp (disch := decide) only [decodeA, fld, fld_left, fld_right, fld_all, Nat.reduceSub, reduceExtractLsb', reduceEq, ↓reduceIte]; try rfl))

theorem sta (d : BitVec 5) (b : BitVec 5) (o : BitVec 10) : Statement (.sta d b o) :=
  of_fields rfl (fieldsA (by simp (disch := decide) only [fld, fld_left, Nat.reduceSub, fld_all]; try rfl)
    (by simp (disch := decide) only [decodeA, fld, fld_left, fld_right, fld_all, Nat.reduceSub, reduceExtractLsb', reduceEq, ↓reduceIte]; try rfl))

theorem ldf (d : BitVec 5) (b : BitVec 5) (o : BitVec 10) : Statement (.ldf d b o) :=
  of_fields rfl (fieldsA (by simp (disch := decide) only [fld, fld_left, Nat.reduceSub, fld_all]; try rfl)
    (by simp (disch := decide) only [decodeA, fld, fld_left, fld_right, fld_all, Nat.reduceSub, reduceExtractLsb', reduceEq, ↓reduceIte]; try rfl))

theorem ste (d : BitVec 5) (b : BitVec 5) (o : BitVec 10) : Statement (.ste d b o) :=
  of_fields rfl (fieldsA (by simp (disch := decide) only [fld, fld_left, Nat.reduceSub, fld_all]; try rfl)
    (by simp (disch := decide) only [decodeA, fld, fld_left, fld_right, fld_all, Nat.reduceSub, reduceExtractLsb', reduceEq, ↓reduceIte]; try rfl))

theorem ldft (d : BitVec 5) (b : BitVec 5) (o : BitVec 10) : Statement (.ldft d b o) :=
  of_fields rfl (fieldsA (by simp (disch := decide) only [fld, fld_left, Nat.reduceSub, fld_all]; try rfl)
    (by simp (disch := decide) only [decodeA, fld, fld_left, fld_right, fld_all, Nat.reduceSub, reduceExtractLsb', reduceEq, ↓reduceIte]; try rfl))

theorem feset (a : BitVec 5) (b : BitVec 5) (s : BitVec 5) : Statement (.feset a b s) :=
  of_fields rfl (fieldsA (by simp (disch := decide) only [fld, fld_left, Nat.reduceSub, fld_all]; try rfl)
    (by simp (disch := decide) only [decodeA, fld, fld_left, fld_right, fld_all, Nat.reduceSub, reduceExtractLsb', reduceEq, ↓reduceIte]; try rfl))

theorem adda (d : BitVec 5) (a : BitVec 5) (b : BitVec 5) : Statement (.adda d a b) :=
  of_fields rfl (fieldsA (by simp (disch := decide) only [fld, fld_left, Nat.reduceSub, fld_all]; try rfl)
    (by simp (disch := decide) only [decodeA, fld, fld_left, fld_right, fld_all, Nat.reduceSub, reduceExtractLsb', reduceEq, ↓reduceIte]; try rfl))

theorem suba (d : BitVec 5) (a : BitVec 5) (b : BitVec 5) : Statement (.suba d a b) :=
  of_fields rfl (fieldsA (by simp (disch := decide) only [fld, fld_left, Nat.reduceSub, fld_all]; try rfl)
    (by simp (disch := decide) only [decodeA, fld, fld_left, fld_right, fld_all, Nat.reduceSub, reduceExtractLsb', reduceEq, ↓reduceIte]; try rfl))

theorem addai (d : BitVec 5) (a : BitVec 5) (i : BitVec 13) : Statement (.addai d a i) :=
  of_fields rfl (fieldsA (by simp (disch := decide) only [fld, fld_left, Nat.reduceSub, fld_all]; try rfl)
    (by simp (disch := decide) only [decodeA, fld, fld_left, fld_right, fld_all, Nat.reduceSub, reduceExtractLsb', reduceEq, ↓reduceIte]; try rfl))

theorem shlai (d : BitVec 5) (a : BitVec 5) (s : BitVec 6) : Statement (.shlai d a s) :=
  of_fields rfl (fieldsA (by simp (disch := decide) only [fld, fld_left, Nat.reduceSub, fld_all]; try rfl)
    (by simp (disch := decide) only [decodeA, fld, fld_left, fld_right, fld_all, Nat.reduceSub, reduceExtractLsb', reduceEq, ↓reduceIte]; try rfl))

theorem mulai (d : BitVec 5) (a : BitVec 5) (i : BitVec 13) : Statement (.mulai d a i) :=
  of_fields rfl (fieldsA (by simp (disch := decide) only [fld, fld_left, Nat.reduceSub, fld_all]; try rfl)
    (by simp (disch := decide) only [decodeA, fld, fld_left, fld_right, fld_all, Nat.reduceSub, reduceExtractLsb', reduceEq, ↓reduceIte]; try rfl))

theorem andai (d : BitVec 5) (a : BitVec 5) (i : BitVec 13) : Statement (.andai d a i) :=
  of_fields rfl (fieldsA (by simp (disch := decide) only [fld, fld_left, Nat.reduceSub, fld_all]; try rfl)
    (by simp (disch := decide) only [decodeA, fld, fld_left, fld_right, fld_all, Nat.reduceSub, reduceExtractLsb', reduceEq, ↓reduceIte]; try rfl))

theorem movsa (d : BitVec 5) (a : BitVec 5) : Statement (.movsa d a) :=
  of_fields rfl (fieldsA (by simp (disch := decide) only [fld, fld_left, Nat.reduceSub, fld_all]; try rfl)
    (by simp (disch := decide) only [decodeA, fld, fld_left, fld_right, fld_all, Nat.reduceSub, reduceExtractLsb', reduceEq, ↓reduceIte]; try rfl))

theorem movas (d : BitVec 5) (a : BitVec 5) : Statement (.movas d a) :=
  of_fields rfl (fieldsA (by simp (disch := decide) only [fld, fld_left, Nat.reduceSub, fld_all]; try rfl)
    (by simp (disch := decide) only [decodeA, fld, fld_left, fld_right, fld_all, Nat.reduceSub, reduceExtractLsb', reduceEq, ↓reduceIte]; try rfl))

theorem vld (q : BitVec 3) (b : BitVec 5) (s : BitVec 4) (e : BitVec 3) (o : BitVec 8) : Statement (.vld q b s e o) :=
  of_fields rfl (fieldsA (by simp (disch := decide) only [fld, fld_left, Nat.reduceSub, fld_all]; try rfl)
    (by simp (disch := decide) only [decodeA, fld, fld_left, fld_right, fld_all, Nat.reduceSub, reduceExtractLsb', reduceEq, ↓reduceIte]; try rfl))

theorem vldp (q : BitVec 3) (b : BitVec 5) (s : BitVec 4) (e : BitVec 3) (o : BitVec 8) : Statement (.vldp q b s e o) :=
  of_fields rfl (fieldsA (by simp (disch := decide) only [fld, fld_left, Nat.reduceSub, fld_all]; try rfl)
    (by simp (disch := decide) only [decodeA, fld, fld_left, fld_right, fld_all, Nat.reduceSub, reduceExtractLsb', reduceEq, ↓reduceIte]; try rfl))

theorem vst (q : BitVec 3) (b : BitVec 5) (s : BitVec 4) (e : BitVec 3) (o : BitVec 8) : Statement (.vst q b s e o) :=
  of_fields rfl (fieldsA (by simp (disch := decide) only [fld, fld_left, Nat.reduceSub, fld_all]; try rfl)
    (by simp (disch := decide) only [decodeA, fld, fld_left, fld_right, fld_all, Nat.reduceSub, reduceExtractLsb', reduceEq, ↓reduceIte]; try rfl))

theorem vstp (q : BitVec 3) (b : BitVec 5) (s : BitVec 4) (o : BitVec 8) : Statement (.vstp q b s o) :=
  of_fields rfl (fieldsA (by simp (disch := decide) only [fld, fld_left, Nat.reduceSub, fld_all]; try rfl)
    (by simp (disch := decide) only [decodeA, fld, fld_left, fld_right, fld_all, Nat.reduceSub, reduceExtractLsb', reduceEq, ↓reduceIte]; try rfl))

theorem vldx (q : BitVec 3) (b : BitVec 5) (s : BitVec 4) (i : BitVec 3) : Statement (.vldx q b s i) :=
  of_fields rfl (fieldsA (by simp (disch := decide) only [fld, fld_left, Nat.reduceSub, fld_all]; try rfl)
    (by simp (disch := decide) only [decodeA, fld, fld_left, fld_right, fld_all, Nat.reduceSub, reduceExtractLsb', reduceEq, ↓reduceIte]; try rfl))

theorem vstx (q : BitVec 3) (b : BitVec 5) (s : BitVec 4) (i : BitVec 3) : Statement (.vstx q b s i) :=
  of_fields rfl (fieldsA (by simp (disch := decide) only [fld, fld_left, Nat.reduceSub, fld_all]; try rfl)
    (by simp (disch := decide) only [decodeA, fld, fld_left, fld_right, fld_all, Nat.reduceSub, reduceExtractLsb', reduceEq, ↓reduceIte]; try rfl))

theorem vldc (q : BitVec 3) (b : BitVec 5) (s : BitVec 4) (e : BitVec 3) (o : BitVec 8) : Statement (.vldc q b s e o) :=
  of_fields rfl (fieldsA (by simp (disch := decide) only [fld, fld_left, Nat.reduceSub, fld_all]; try rfl)
    (by simp (disch := decide) only [decodeA, fld, fld_left, fld_right, fld_all, Nat.reduceSub, reduceExtractLsb', reduceEq, ↓reduceIte]; try rfl))

theorem pref (n : BitVec 3) (b : BitVec 5) (s : BitVec 4) (o : BitVec 8) : Statement (.pref n b s o) :=
  of_fields rfl (fieldsA (by simp (disch := decide) only [fld, fld_left, Nat.reduceSub, fld_all]; try rfl)
    (by simp (disch := decide) only [decodeA, fld, fld_left, fld_right, fld_all, Nat.reduceSub, reduceExtractLsb', reduceEq, ↓reduceIte]; try rfl))

theorem strdef (s : BitVec 4) (b : BitVec 5) : Statement (.strdef s b) :=
  of_fields rfl (fieldsA (by simp (disch := decide) only [fld, fld_left, Nat.reduceSub, fld_all]; try rfl)
    (by simp (disch := decide) only [decodeA, fld, fld_left, fld_right, fld_all, Nat.reduceSub, reduceExtractLsb', reduceEq, ↓reduceIte]; try rfl))

theorem strgo (s : BitVec 4) (b : BitVec 5) (n : BitVec 5) : Statement (.strgo s b n) :=
  of_fields rfl (fieldsA (by simp (disch := decide) only [fld, fld_left, Nat.reduceSub, fld_all]; try rfl)
    (by simp (disch := decide) only [decodeA, fld, fld_left, fld_right, fld_all, Nat.reduceSub, reduceExtractLsb', reduceEq, ↓reduceIte]; try rfl))

theorem strstop (s : BitVec 4) (n : BitVec 5) : Statement (.strstop s n) :=
  of_fields rfl (fieldsA (by simp (disch := decide) only [fld, fld_left, Nat.reduceSub, fld_all]; try rfl)
    (by simp (disch := decide) only [decodeA, fld, fld_left, fld_right, fld_all, Nat.reduceSub, reduceExtractLsb', reduceEq, ↓reduceIte]; try rfl))

theorem strsink (s : BitVec 4) (b : BitVec 5) (n : BitVec 5) : Statement (.strsink s b n) :=
  of_fields rfl (fieldsA (by simp (disch := decide) only [fld, fld_left, Nat.reduceSub, fld_all]; try rfl)
    (by simp (disch := decide) only [decodeA, fld, fld_left, fld_right, fld_all, Nat.reduceSub, reduceExtractLsb', reduceEq, ↓reduceIte]; try rfl))

theorem sbar (c : BitVec 3) (a : BitVec 5) (b : BitVec 5) : Statement (.sbar c a b) :=
  of_fields rfl (fieldsA (by simp (disch := decide) only [fld, fld_left, Nat.reduceSub, fld_all]; try rfl)
    (by simp (disch := decide) only [decodeA, fld, fld_left, fld_right, fld_all, Nat.reduceSub, reduceExtractLsb', reduceEq, ↓reduceIte]; try rfl))

theorem bind (q : BitVec 3) (v : BitVec 3) : Statement (.bind q v) :=
  of_fields rfl (fieldsA (by simp (disch := decide) only [fld, fld_left, Nat.reduceSub, fld_all]; try rfl)
    (by simp (disch := decide) only [decodeA, fld, fld_left, fld_right, fld_all, Nat.reduceSub, reduceExtractLsb', reduceEq, ↓reduceIte]; try rfl))

theorem unbind (v : BitVec 3) : Statement (.unbind v) :=
  of_fields rfl (fieldsA (by simp (disch := decide) only [fld, fld_left, Nat.reduceSub, fld_all]; try rfl)
    (by simp (disch := decide) only [decodeA, fld, fld_left, fld_right, fld_all, Nat.reduceSub, reduceExtractLsb', reduceEq, ↓reduceIte]; try rfl))

theorem qstat (d : BitVec 5) (q : BitVec 3) : Statement (.qstat d q) :=
  of_fields rfl (fieldsA (by simp (disch := decide) only [fld, fld_left, Nat.reduceSub, fld_all]; try rfl)
    (by simp (disch := decide) only [decodeA, fld, fld_left, fld_right, fld_all, Nat.reduceSub, reduceExtractLsb', reduceEq, ↓reduceIte]; try rfl))

theorem aadd (d : BitVec 5) (b : BitVec 5) (c : BitVec 5) (t : BitVec 3) : Statement (.aadd d b c t) :=
  of_fields rfl (fieldsA (by simp (disch := decide) only [fld, fld_left, Nat.reduceSub, fld_all]; try rfl)
    (by simp (disch := decide) only [decodeA, fld, fld_left, fld_right, fld_all, Nat.reduceSub, reduceExtractLsb', reduceEq, ↓reduceIte]; try rfl))

theorem amin (d : BitVec 5) (b : BitVec 5) (c : BitVec 5) (t : BitVec 3) : Statement (.amin d b c t) :=
  of_fields rfl (fieldsA (by simp (disch := decide) only [fld, fld_left, Nat.reduceSub, fld_all]; try rfl)
    (by simp (disch := decide) only [decodeA, fld, fld_left, fld_right, fld_all, Nat.reduceSub, reduceExtractLsb', reduceEq, ↓reduceIte]; try rfl))

theorem amax (d : BitVec 5) (b : BitVec 5) (c : BitVec 5) (t : BitVec 3) : Statement (.amax d b c t) :=
  of_fields rfl (fieldsA (by simp (disch := decide) only [fld, fld_left, Nat.reduceSub, fld_all]; try rfl)
    (by simp (disch := decide) only [decodeA, fld, fld_left, fld_right, fld_all, Nat.reduceSub, reduceExtractLsb', reduceEq, ↓reduceIte]; try rfl))

theorem aand (d : BitVec 5) (b : BitVec 5) (c : BitVec 5) (t : BitVec 3) : Statement (.aand d b c t) :=
  of_fields rfl (fieldsA (by simp (disch := decide) only [fld, fld_left, Nat.reduceSub, fld_all]; try rfl)
    (by simp (disch := decide) only [decodeA, fld, fld_left, fld_right, fld_all, Nat.reduceSub, reduceExtractLsb', reduceEq, ↓reduceIte]; try rfl))

theorem aor (d : BitVec 5) (b : BitVec 5) (c : BitVec 5) (t : BitVec 3) : Statement (.aor d b c t) :=
  of_fields rfl (fieldsA (by simp (disch := decide) only [fld, fld_left, Nat.reduceSub, fld_all]; try rfl)
    (by simp (disch := decide) only [decodeA, fld, fld_left, fld_right, fld_all, Nat.reduceSub, reduceExtractLsb', reduceEq, ↓reduceIte]; try rfl))

theorem axor (d : BitVec 5) (b : BitVec 5) (c : BitVec 5) (t : BitVec 3) : Statement (.axor d b c t) :=
  of_fields rfl (fieldsA (by simp (disch := decide) only [fld, fld_left, Nat.reduceSub, fld_all]; try rfl)
    (by simp (disch := decide) only [decodeA, fld, fld_left, fld_right, fld_all, Nat.reduceSub, reduceExtractLsb', reduceEq, ↓reduceIte]; try rfl))

theorem aswap (d : BitVec 5) (b : BitVec 5) (c : BitVec 5) (t : BitVec 3) : Statement (.aswap d b c t) :=
  of_fields rfl (fieldsA (by simp (disch := decide) only [fld, fld_left, Nat.reduceSub, fld_all]; try rfl)
    (by simp (disch := decide) only [decodeA, fld, fld_left, fld_right, fld_all, Nat.reduceSub, reduceExtractLsb', reduceEq, ↓reduceIte]; try rfl))

theorem acas (d : BitVec 5) (b : BitVec 5) (c : BitVec 5) (e : BitVec 5) (t : BitVec 3) : Statement (.acas d b c e t) :=
  of_fields rfl (fieldsA (by simp (disch := decide) only [fld, fld_left, Nat.reduceSub, fld_all]; try rfl)
    (by simp (disch := decide) only [decodeA, fld, fld_left, fld_right, fld_all, Nat.reduceSub, reduceExtractLsb', reduceEq, ↓reduceIte]; try rfl))

theorem acont (d : BitVec 5) (b : BitVec 5) (c : BitVec 5) (e : BitVec 5) (t : BitVec 3) : Statement (.acont d b c e t) :=
  of_fields rfl (fieldsA (by simp (disch := decide) only [fld, fld_left, Nat.reduceSub, fld_all]; try rfl)
    (by simp (disch := decide) only [decodeA, fld, fld_left, fld_right, fld_all, Nat.reduceSub, reduceExtractLsb', reduceEq, ↓reduceIte]; try rfl))

theorem wapp (d : BitVec 5) (b : BitVec 5) (q : BitVec 3) (v : BitVec 3) : Statement (.wapp d b q v) :=
  of_fields rfl (fieldsA (by simp (disch := decide) only [fld, fld_left, Nat.reduceSub, fld_all]; try rfl)
    (by simp (disch := decide) only [decodeA, fld, fld_left, fld_right, fld_all, Nat.reduceSub, reduceExtractLsb', reduceEq, ↓reduceIte]; try rfl))

theorem fence (c : BitVec 3) (m : BitVec 2) : Statement (.fence c m) :=
  of_fields rfl (fieldsA (by simp (disch := decide) only [fld, fld_left, Nat.reduceSub, fld_all]; try rfl)
    (by simp (disch := decide) only [decodeA, fld, fld_left, fld_right, fld_all, Nat.reduceSub, reduceExtractLsb', reduceEq, ↓reduceIte]; try rfl))

theorem fencesc : Statement .fencesc :=
  of_fields rfl (fieldsA (by simp (disch := decide) only [fld, fld_left, Nat.reduceSub, fld_all]; try rfl)
    (by simp (disch := decide) only [decodeA, fld, fld_left, fld_right, fld_all, Nat.reduceSub, reduceExtractLsb', reduceEq, ↓reduceIte]; try rfl))

theorem rcfence : Statement .rcfence :=
  of_fields rfl (fieldsA (by simp (disch := decide) only [fld, fld_left, Nat.reduceSub, fld_all]; try rfl)
    (by simp (disch := decide) only [decodeA, fld, fld_left, fld_right, fld_all, Nat.reduceSub, reduceExtractLsb', reduceEq, ↓reduceIte]; try rfl))

theorem ownwait (a : BitVec 5) (b : BitVec 5) : Statement (.ownwait a b) :=
  of_fields rfl (fieldsA (by simp (disch := decide) only [fld, fld_left, Nat.reduceSub, fld_all]; try rfl)
    (by simp (disch := decide) only [decodeA, fld, fld_left, fld_right, fld_all, Nat.reduceSub, reduceExtractLsb', reduceEq, ↓reduceIte]; try rfl))

theorem vadd (d : BitVec 6) (a : BitVec 6) (b : BitVec 6) (m : BitVec 5) : Statement (.vadd d a b m) :=
  of_fields rfl (fieldsX (by simp (disch := decide) only [fld, fld_left, Nat.reduceSub, fld_all]; try rfl)
    (by simp (disch := decide) only [decodeX, fld, fld_left, fld_right, fld_all, Nat.reduceSub, reduceExtractLsb', reduceEq, ↓reduceIte]; try rfl))

theorem vsub (d : BitVec 6) (a : BitVec 6) (b : BitVec 6) (m : BitVec 5) : Statement (.vsub d a b m) :=
  of_fields rfl (fieldsX (by simp (disch := decide) only [fld, fld_left, Nat.reduceSub, fld_all]; try rfl)
    (by simp (disch := decide) only [decodeX, fld, fld_left, fld_right, fld_all, Nat.reduceSub, reduceExtractLsb', reduceEq, ↓reduceIte]; try rfl))

theorem vmul (d : BitVec 6) (a : BitVec 6) (b : BitVec 6) (m : BitVec 5) : Statement (.vmul d a b m) :=
  of_fields rfl (fieldsX (by simp (disch := decide) only [fld, fld_left, Nat.reduceSub, fld_all]; try rfl)
    (by simp (disch := decide) only [decodeX, fld, fld_left, fld_right, fld_all, Nat.reduceSub, reduceExtractLsb', reduceEq, ↓reduceIte]; try rfl))

theorem vfma (d : BitVec 6) (a : BitVec 6) (b : BitVec 6) (m : BitVec 5) : Statement (.vfma d a b m) :=
  of_fields rfl (fieldsX (by simp (disch := decide) only [fld, fld_left, Nat.reduceSub, fld_all]; try rfl)
    (by simp (disch := decide) only [decodeX, fld, fld_left, fld_right, fld_all, Nat.reduceSub, reduceExtractLsb', reduceEq, ↓reduceIte]; try rfl))

theorem vfms (d : BitVec 6) (a : BitVec 6) (b : BitVec 6) (m : BitVec 5) : Statement (.vfms d a b m) :=
  of_fields rfl (fieldsX (by simp (disch := decide) only [fld, fld_left, Nat.reduceSub, fld_all]; try rfl)
    (by simp (disch := decide) only [decodeX, fld, fld_left, fld_right, fld_all, Nat.reduceSub, reduceExtractLsb', reduceEq, ↓reduceIte]; try rfl))

theorem vfnma (d : BitVec 6) (a : BitVec 6) (b : BitVec 6) (m : BitVec 5) : Statement (.vfnma d a b m) :=
  of_fields rfl (fieldsX (by simp (disch := decide) only [fld, fld_left, Nat.reduceSub, fld_all]; try rfl)
    (by simp (disch := decide) only [decodeX, fld, fld_left, fld_right, fld_all, Nat.reduceSub, reduceExtractLsb', reduceEq, ↓reduceIte]; try rfl))

theorem vmin (d : BitVec 6) (a : BitVec 6) (b : BitVec 6) (m : BitVec 5) : Statement (.vmin d a b m) :=
  of_fields rfl (fieldsX (by simp (disch := decide) only [fld, fld_left, Nat.reduceSub, fld_all]; try rfl)
    (by simp (disch := decide) only [decodeX, fld, fld_left, fld_right, fld_all, Nat.reduceSub, reduceExtractLsb', reduceEq, ↓reduceIte]; try rfl))

theorem vmax (d : BitVec 6) (a : BitVec 6) (b : BitVec 6) (m : BitVec 5) : Statement (.vmax d a b m) :=
  of_fields rfl (fieldsX (by simp (disch := decide) only [fld, fld_left, Nat.reduceSub, fld_all]; try rfl)
    (by simp (disch := decide) only [decodeX, fld, fld_left, fld_right, fld_all, Nat.reduceSub, reduceExtractLsb', reduceEq, ↓reduceIte]; try rfl))

theorem vabs (d : BitVec 6) (a : BitVec 6) (m : BitVec 5) : Statement (.vabs d a m) :=
  of_fields rfl (fieldsX (by simp (disch := decide) only [fld, fld_left, Nat.reduceSub, fld_all]; try rfl)
    (by simp (disch := decide) only [decodeX, fld, fld_left, fld_right, fld_all, Nat.reduceSub, reduceExtractLsb', reduceEq, ↓reduceIte]; try rfl))

theorem vneg (d : BitVec 6) (a : BitVec 6) (m : BitVec 5) : Statement (.vneg d a m) :=
  of_fields rfl (fieldsX (by simp (disch := decide) only [fld, fld_left, Nat.reduceSub, fld_all]; try rfl)
    (by simp (disch := decide) only [decodeX, fld, fld_left, fld_right, fld_all, Nat.reduceSub, reduceExtractLsb', reduceEq, ↓reduceIte]; try rfl))

theorem vdiv (d : BitVec 6) (a : BitVec 6) (b : BitVec 6) (m : BitVec 5) : Statement (.vdiv d a b m) :=
  of_fields rfl (fieldsX (by simp (disch := decide) only [fld, fld_left, Nat.reduceSub, fld_all]; try rfl)
    (by simp (disch := decide) only [decodeX, fld, fld_left, fld_right, fld_all, Nat.reduceSub, reduceExtractLsb', reduceEq, ↓reduceIte]; try rfl))

theorem vsqrt (d : BitVec 6) (a : BitVec 6) (m : BitVec 5) : Statement (.vsqrt d a m) :=
  of_fields rfl (fieldsX (by simp (disch := decide) only [fld, fld_left, Nat.reduceSub, fld_all]; try rfl)
    (by simp (disch := decide) only [decodeX, fld, fld_left, fld_right, fld_all, Nat.reduceSub, reduceExtractLsb', reduceEq, ↓reduceIte]; try rfl))

theorem vrcp (d : BitVec 6) (a : BitVec 6) (m : BitVec 5) : Statement (.vrcp d a m) :=
  of_fields rfl (fieldsX (by simp (disch := decide) only [fld, fld_left, Nat.reduceSub, fld_all]; try rfl)
    (by simp (disch := decide) only [decodeX, fld, fld_left, fld_right, fld_all, Nat.reduceSub, reduceExtractLsb', reduceEq, ↓reduceIte]; try rfl))

theorem vrsq (d : BitVec 6) (a : BitVec 6) (m : BitVec 5) : Statement (.vrsq d a m) :=
  of_fields rfl (fieldsX (by simp (disch := decide) only [fld, fld_left, Nat.reduceSub, fld_all]; try rfl)
    (by simp (disch := decide) only [decodeX, fld, fld_left, fld_right, fld_all, Nat.reduceSub, reduceExtractLsb', reduceEq, ↓reduceIte]; try rfl))

theorem vexp2 (d : BitVec 6) (a : BitVec 6) (m : BitVec 5) : Statement (.vexp2 d a m) :=
  of_fields rfl (fieldsX (by simp (disch := decide) only [fld, fld_left, Nat.reduceSub, fld_all]; try rfl)
    (by simp (disch := decide) only [decodeX, fld, fld_left, fld_right, fld_all, Nat.reduceSub, reduceExtractLsb', reduceEq, ↓reduceIte]; try rfl))

theorem vlog2 (d : BitVec 6) (a : BitVec 6) (m : BitVec 5) : Statement (.vlog2 d a m) :=
  of_fields rfl (fieldsX (by simp (disch := decide) only [fld, fld_left, Nat.reduceSub, fld_all]; try rfl)
    (by simp (disch := decide) only [decodeX, fld, fld_left, fld_right, fld_all, Nat.reduceSub, reduceExtractLsb', reduceEq, ↓reduceIte]; try rfl))

theorem vsin (d : BitVec 6) (a : BitVec 6) (m : BitVec 5) : Statement (.vsin d a m) :=
  of_fields rfl (fieldsX (by simp (disch := decide) only [fld, fld_left, Nat.reduceSub, fld_all]; try rfl)
    (by simp (disch := decide) only [decodeX, fld, fld_left, fld_right, fld_all, Nat.reduceSub, reduceExtractLsb', reduceEq, ↓reduceIte]; try rfl))

theorem vcos (d : BitVec 6) (a : BitVec 6) (m : BitVec 5) : Statement (.vcos d a m) :=
  of_fields rfl (fieldsX (by simp (disch := decide) only [fld, fld_left, Nat.reduceSub, fld_all]; try rfl)
    (by simp (disch := decide) only [decodeX, fld, fld_left, fld_right, fld_all, Nat.reduceSub, reduceExtractLsb', reduceEq, ↓reduceIte]; try rfl))

theorem vtanh (d : BitVec 6) (a : BitVec 6) (m : BitVec 5) : Statement (.vtanh d a m) :=
  of_fields rfl (fieldsX (by simp (disch := decide) only [fld, fld_left, Nat.reduceSub, fld_all]; try rfl)
    (by simp (disch := decide) only [decodeX, fld, fld_left, fld_right, fld_all, Nat.reduceSub, reduceExtractLsb', reduceEq, ↓reduceIte]; try rfl))

theorem vconj (d : BitVec 6) (a : BitVec 6) (m : BitVec 5) : Statement (.vconj d a m) :=
  of_fields rfl (fieldsX (by simp (disch := decide) only [fld, fld_left, Nat.reduceSub, fld_all]; try rfl)
    (by simp (disch := decide) only [decodeX, fld, fld_left, fld_right, fld_all, Nat.reduceSub, reduceExtractLsb', reduceEq, ↓reduceIte]; try rfl))

theorem vcmulj (d : BitVec 6) (a : BitVec 6) (b : BitVec 6) (m : BitVec 5) : Statement (.vcmulj d a b m) :=
  of_fields rfl (fieldsX (by simp (disch := decide) only [fld, fld_left, Nat.reduceSub, fld_all]; try rfl)
    (by simp (disch := decide) only [decodeX, fld, fld_left, fld_right, fld_all, Nat.reduceSub, reduceExtractLsb', reduceEq, ↓reduceIte]; try rfl))

theorem vand (d : BitVec 6) (a : BitVec 6) (b : BitVec 6) (m : BitVec 5) : Statement (.vand d a b m) :=
  of_fields rfl (fieldsX (by simp (disch := decide) only [fld, fld_left, Nat.reduceSub, fld_all]; try rfl)
    (by simp (disch := decide) only [decodeX, fld, fld_left, fld_right, fld_all, Nat.reduceSub, reduceExtractLsb', reduceEq, ↓reduceIte]; try rfl))

theorem vor (d : BitVec 6) (a : BitVec 6) (b : BitVec 6) (m : BitVec 5) : Statement (.vor d a b m) :=
  of_fields rfl (fieldsX (by simp (disch := decide) only [fld, fld_left, Nat.reduceSub, fld_all]; try rfl)
    (by simp (disch := decide) only [decodeX, fld, fld_left, fld_right, fld_all, Nat.reduceSub, reduceExtractLsb', reduceEq, ↓reduceIte]; try rfl))

theorem vxor (d : BitVec 6) (a : BitVec 6) (b : BitVec 6) (m : BitVec 5) : Statement (.vxor d a b m) :=
  of_fields rfl (fieldsX (by simp (disch := decide) only [fld, fld_left, Nat.reduceSub, fld_all]; try rfl)
    (by simp (disch := decide) only [decodeX, fld, fld_left, fld_right, fld_all, Nat.reduceSub, reduceExtractLsb', reduceEq, ↓reduceIte]; try rfl))

theorem vnot (d : BitVec 6) (a : BitVec 6) (m : BitVec 5) : Statement (.vnot d a m) :=
  of_fields rfl (fieldsX (by simp (disch := decide) only [fld, fld_left, Nat.reduceSub, fld_all]; try rfl)
    (by simp (disch := decide) only [decodeX, fld, fld_left, fld_right, fld_all, Nat.reduceSub, reduceExtractLsb', reduceEq, ↓reduceIte]; try rfl))

theorem vshl (d : BitVec 6) (a : BitVec 6) (b : BitVec 6) (m : BitVec 5) : Statement (.vshl d a b m) :=
  of_fields rfl (fieldsX (by simp (disch := decide) only [fld, fld_left, Nat.reduceSub, fld_all]; try rfl)
    (by simp (disch := decide) only [decodeX, fld, fld_left, fld_right, fld_all, Nat.reduceSub, reduceExtractLsb', reduceEq, ↓reduceIte]; try rfl))

theorem vshr (d : BitVec 6) (a : BitVec 6) (b : BitVec 6) (m : BitVec 5) : Statement (.vshr d a b m) :=
  of_fields rfl (fieldsX (by simp (disch := decide) only [fld, fld_left, Nat.reduceSub, fld_all]; try rfl)
    (by simp (disch := decide) only [decodeX, fld, fld_left, fld_right, fld_all, Nat.reduceSub, reduceExtractLsb', reduceEq, ↓reduceIte]; try rfl))

theorem vclz (d : BitVec 6) (a : BitVec 6) (m : BitVec 5) : Statement (.vclz d a m) :=
  of_fields rfl (fieldsX (by simp (disch := decide) only [fld, fld_left, Nat.reduceSub, fld_all]; try rfl)
    (by simp (disch := decide) only [decodeX, fld, fld_left, fld_right, fld_all, Nat.reduceSub, reduceExtractLsb', reduceEq, ↓reduceIte]; try rfl))

theorem vpopc (d : BitVec 6) (a : BitVec 6) (m : BitVec 5) : Statement (.vpopc d a m) :=
  of_fields rfl (fieldsX (by simp (disch := decide) only [fld, fld_left, Nat.reduceSub, fld_all]; try rfl)
    (by simp (disch := decide) only [decodeX, fld, fld_left, fld_right, fld_all, Nat.reduceSub, reduceExtractLsb', reduceEq, ↓reduceIte]; try rfl))

theorem vcmp (c : BitVec 3) (p : BitVec 4) (a : BitVec 6) (b : BitVec 6) (g : BitVec 4) : Statement (.vcmp c p a b g) :=
  of_fields rfl (fieldsX (by simp (disch := decide) only [fld, fld_left, Nat.reduceSub, fld_all]; try rfl)
    (by simp (disch := decide) only [decodeX, fld, fld_left, fld_right, fld_all, Nat.reduceSub, reduceExtractLsb', reduceEq, ↓reduceIte]; try rfl))

theorem vsel (d : BitVec 6) (a : BitVec 6) (b : BitVec 6) (p : BitVec 4) : Statement (.vsel d a b p) :=
  of_fields rfl (fieldsX (by simp (disch := decide) only [fld, fld_left, Nat.reduceSub, fld_all]; try rfl)
    (by simp (disch := decide) only [decodeX, fld, fld_left, fld_right, fld_all, Nat.reduceSub, reduceExtractLsb', reduceEq, ↓reduceIte]; try rfl))

theorem pand (d : BitVec 4) (a : BitVec 4) (b : BitVec 4) : Statement (.pand d a b) :=
  of_fields rfl (fieldsX (by simp (disch := decide) only [fld, fld_left, Nat.reduceSub, fld_all]; try rfl)
    (by simp (disch := decide) only [decodeX, fld, fld_left, fld_right, fld_all, Nat.reduceSub, reduceExtractLsb', reduceEq, ↓reduceIte]; try rfl))

theorem por (d : BitVec 4) (a : BitVec 4) (b : BitVec 4) : Statement (.por d a b) :=
  of_fields rfl (fieldsX (by simp (disch := decide) only [fld, fld_left, Nat.reduceSub, fld_all]; try rfl)
    (by simp (disch := decide) only [decodeX, fld, fld_left, fld_right, fld_all, Nat.reduceSub, reduceExtractLsb', reduceEq, ↓reduceIte]; try rfl))

theorem pxor (d : BitVec 4) (a : BitVec 4) (b : BitVec 4) : Statement (.pxor d a b) :=
  of_fields rfl (fieldsX (by simp (disch := decide) only [fld, fld_left, Nat.reduceSub, fld_all]; try rfl)
    (by simp (disch := decide) only [decodeX, fld, fld_left, fld_right, fld_all, Nat.reduceSub, reduceExtractLsb', reduceEq, ↓reduceIte]; try rfl))

theorem pnot (d : BitVec 4) (a : BitVec 4) : Statement (.pnot d a) :=
  of_fields rfl (fieldsX (by simp (disch := decide) only [fld, fld_left, Nat.reduceSub, fld_all]; try rfl)
    (by simp (disch := decide) only [decodeX, fld, fld_left, fld_right, fld_all, Nat.reduceSub, reduceExtractLsb', reduceEq, ↓reduceIte]; try rfl))

theorem ptail (d : BitVec 4) (s : BitVec 5) : Statement (.ptail d s) :=
  of_fields rfl (fieldsX (by simp (disch := decide) only [fld, fld_left, Nat.reduceSub, fld_all]; try rfl)
    (by simp (disch := decide) only [decodeX, fld, fld_left, fld_right, fld_all, Nat.reduceSub, reduceExtractLsb', reduceEq, ↓reduceIte]; try rfl))

theorem pcnt (d : BitVec 4) (a : BitVec 4) (b : BitVec 4) : Statement (.pcnt d a b) :=
  of_fields rfl (fieldsX (by simp (disch := decide) only [fld, fld_left, Nat.reduceSub, fld_all]; try rfl)
    (by simp (disch := decide) only [decodeX, fld, fld_left, fld_right, fld_all, Nat.reduceSub, reduceExtractLsb', reduceEq, ↓reduceIte]; try rfl))

theorem pfirst (d : BitVec 4) (a : BitVec 4) (b : BitVec 4) : Statement (.pfirst d a b) :=
  of_fields rfl (fieldsX (by simp (disch := decide) only [fld, fld_left, Nat.reduceSub, fld_all]; try rfl)
    (by simp (disch := decide) only [decodeX, fld, fld_left, fld_right, fld_all, Nat.reduceSub, reduceExtractLsb', reduceEq, ↓reduceIte]; try rfl))

theorem vcvt (d : BitVec 6) (a : BitVec 6) (f : BitVec 5) (r : BitVec 3) (n : BitVec 1) (p : BitVec 2) : Statement (.vcvt d a f r n p) :=
  of_fields rfl (fieldsX (by simp (disch := decide) only [fld, fld_left, Nat.reduceSub, fld_all]; try rfl)
    (by simp (disch := decide) only [decodeX, fld, fld_left, fld_right, fld_all, Nat.reduceSub, reduceExtractLsb', reduceEq, ↓reduceIte]; try rfl))

theorem vcvth (d : BitVec 6) (a : BitVec 6) (f : BitVec 5) (h : BitVec 1) (m : BitVec 5) : Statement (.vcvth d a f h m) :=
  of_fields rfl (fieldsX (by simp (disch := decide) only [fld, fld_left, Nat.reduceSub, fld_all]; try rfl)
    (by simp (disch := decide) only [decodeX, fld, fld_left, fld_right, fld_all, Nat.reduceSub, reduceExtractLsb', reduceEq, ↓reduceIte]; try rfl))

theorem vscale (d : BitVec 6) (a : BitVec 6) (s : BitVec 5) (m : BitVec 5) : Statement (.vscale d a s m) :=
  of_fields rfl (fieldsX (by simp (disch := decide) only [fld, fld_left, Nat.reduceSub, fld_all]; try rfl)
    (by simp (disch := decide) only [decodeX, fld, fld_left, fld_right, fld_all, Nat.reduceSub, reduceExtractLsb', reduceEq, ↓reduceIte]; try rfl))

theorem vqnt (d : BitVec 6) (a : BitVec 6) (f : BitVec 5) (r : BitVec 3) (n : BitVec 1) (p : BitVec 2) : Statement (.vqnt d a f r n p) :=
  of_fields rfl (fieldsX (by simp (disch := decide) only [fld, fld_left, Nat.reduceSub, fld_all]; try rfl)
    (by simp (disch := decide) only [decodeX, fld, fld_left, fld_right, fld_all, Nat.reduceSub, reduceExtractLsb', reduceEq, ↓reduceIte]; try rfl))

theorem vtag (d : BitVec 6) (a : BitVec 6) (s : BitVec 5) : Statement (.vtag d a s) :=
  of_fields rfl (fieldsX (by simp (disch := decide) only [fld, fld_left, Nat.reduceSub, fld_all]; try rfl)
    (by simp (disch := decide) only [decodeX, fld, fld_left, fld_right, fld_all, Nat.reduceSub, reduceExtractLsb', reduceEq, ↓reduceIte]; try rfl))

theorem vtagq (a : BitVec 6) : Statement (.vtagq a) :=
  of_fields rfl (fieldsX (by simp (disch := decide) only [fld, fld_left, Nat.reduceSub, fld_all]; try rfl)
    (by simp (disch := decide) only [decodeX, fld, fld_left, fld_right, fld_all, Nat.reduceSub, reduceExtractLsb', reduceEq, ↓reduceIte]; try rfl))

theorem vred (d : BitVec 6) (a : BitVec 6) (i : BitVec 6) (p : BitVec 4) : Statement (.vred d a i p) :=
  of_fields rfl (fieldsX (by simp (disch := decide) only [fld, fld_left, Nat.reduceSub, fld_all]; try rfl)
    (by simp (disch := decide) only [decodeX, fld, fld_left, fld_right, fld_all, Nat.reduceSub, reduceExtractLsb', reduceEq, ↓reduceIte]; try rfl))

theorem vscan (d : BitVec 6) (a : BitVec 6) (i : BitVec 6) (m : BitVec 5) : Statement (.vscan d a i m) :=
  of_fields rfl (fieldsX (by simp (disch := decide) only [fld, fld_left, Nat.reduceSub, fld_all]; try rfl)
    (by simp (disch := decide) only [decodeX, fld, fld_left, fld_right, fld_all, Nat.reduceSub, reduceExtractLsb', reduceEq, ↓reduceIte]; try rfl))

theorem vperm (d : BitVec 6) (a : BitVec 6) (b : BitVec 6) (m : BitVec 5) : Statement (.vperm d a b m) :=
  of_fields rfl (fieldsX (by simp (disch := decide) only [fld, fld_left, Nat.reduceSub, fld_all]; try rfl)
    (by simp (disch := decide) only [decodeX, fld, fld_left, fld_right, fld_all, Nat.reduceSub, reduceExtractLsb', reduceEq, ↓reduceIte]; try rfl))

theorem vrgath (d : BitVec 6) (a : BitVec 6) (b : BitVec 6) (m : BitVec 5) : Statement (.vrgath d a b m) :=
  of_fields rfl (fieldsX (by simp (disch := decide) only [fld, fld_left, Nat.reduceSub, fld_all]; try rfl)
    (by simp (disch := decide) only [decodeX, fld, fld_left, fld_right, fld_all, Nat.reduceSub, reduceExtractLsb', reduceEq, ↓reduceIte]; try rfl))

theorem vslide (d : BitVec 6) (a : BitVec 6) (k : BitVec 6) (m : BitVec 5) : Statement (.vslide d a k m) :=
  of_fields rfl (fieldsX (by simp (disch := decide) only [fld, fld_left, Nat.reduceSub, fld_all]; try rfl)
    (by simp (disch := decide) only [decodeX, fld, fld_left, fld_right, fld_all, Nat.reduceSub, reduceExtractLsb', reduceEq, ↓reduceIte]; try rfl))

theorem vbcast (d : BitVec 6) (f : BitVec 5) (s : BitVec 5) (m : BitVec 5) : Statement (.vbcast d f s m) :=
  of_fields rfl (fieldsX (by simp (disch := decide) only [fld, fld_left, Nat.reduceSub, fld_all]; try rfl)
    (by simp (disch := decide) only [decodeX, fld, fld_left, fld_right, fld_all, Nat.reduceSub, reduceExtractLsb', reduceEq, ↓reduceIte]; try rfl))

theorem viota (d : BitVec 6) (p : BitVec 4) : Statement (.viota d p) :=
  of_fields rfl (fieldsX (by simp (disch := decide) only [fld, fld_left, Nat.reduceSub, fld_all]; try rfl)
    (by simp (disch := decide) only [decodeX, fld, fld_left, fld_right, fld_all, Nat.reduceSub, reduceExtractLsb', reduceEq, ↓reduceIte]; try rfl))

theorem vmov (d : BitVec 6) (a : BitVec 6) (m : BitVec 5) : Statement (.vmov d a m) :=
  of_fields rfl (fieldsX (by simp (disch := decide) only [fld, fld_left, Nat.reduceSub, fld_all]; try rfl)
    (by simp (disch := decide) only [decodeX, fld, fld_left, fld_right, fld_all, Nat.reduceSub, reduceExtractLsb', reduceEq, ↓reduceIte]; try rfl))

theorem vpart (d : BitVec 6) (a : BitVec 6) (b : BitVec 6) (p : BitVec 4) : Statement (.vpart d a b p) :=
  of_fields rfl (fieldsX (by simp (disch := decide) only [fld, fld_left, Nat.reduceSub, fld_all]; try rfl)
    (by simp (disch := decide) only [decodeX, fld, fld_left, fld_right, fld_all, Nat.reduceSub, reduceExtractLsb', reduceEq, ↓reduceIte]; try rfl))

theorem vappend (d : BitVec 6) (a : BitVec 6) (p : BitVec 4) : Statement (.vappend d a p) :=
  of_fields rfl (fieldsX (by simp (disch := decide) only [fld, fld_left, Nat.reduceSub, fld_all]; try rfl)
    (by simp (disch := decide) only [decodeX, fld, fld_left, fld_right, fld_all, Nat.reduceSub, reduceExtractLsb', reduceEq, ↓reduceIte]; try rfl))

theorem vtget (d : BitVec 6) (a : BitVec 6) (t : BitVec 2) (m : BitVec 5) : Statement (.vtget d a t m) :=
  of_fields rfl (fieldsX (by simp (disch := decide) only [fld, fld_left, Nat.reduceSub, fld_all]; try rfl)
    (by simp (disch := decide) only [decodeX, fld, fld_left, fld_right, fld_all, Nat.reduceSub, reduceExtractLsb', reduceEq, ↓reduceIte]; try rfl))

theorem vtset (d : BitVec 6) (a : BitVec 6) (t : BitVec 2) (m : BitVec 5) : Statement (.vtset d a t m) :=
  of_fields rfl (fieldsX (by simp (disch := decide) only [fld, fld_left, Nat.reduceSub, fld_all]; try rfl)
    (by simp (disch := decide) only [decodeX, fld, fld_left, fld_right, fld_all, Nat.reduceSub, reduceExtractLsb', reduceEq, ↓reduceIte]; try rfl))

theorem vtzero (d : BitVec 6) (t : BitVec 2) (p : BitVec 4) : Statement (.vtzero d t p) :=
  of_fields rfl (fieldsX (by simp (disch := decide) only [fld, fld_left, Nat.reduceSub, fld_all]; try rfl)
    (by simp (disch := decide) only [decodeX, fld, fld_left, fld_right, fld_all, Nat.reduceSub, reduceExtractLsb', reduceEq, ↓reduceIte]; try rfl))

theorem vbq (m : BitVec 4) (a : BitVec 4) (b : BitVec 4) : Statement (.vbq m a b) :=
  of_fields rfl (fieldsX (by simp (disch := decide) only [fld, fld_left, Nat.reduceSub, fld_all]; try rfl)
    (by simp (disch := decide) only [decodeX, fld, fld_left, fld_right, fld_all, Nat.reduceSub, reduceExtractLsb', reduceEq, ↓reduceIte]; try rfl))

theorem mcfg (f : BitVec 5) (g : BitVec 5) : Statement (.mcfg f g) :=
  of_fields rfl (fieldsM (by simp (disch := decide) only [fld, fld_left, Nat.reduceSub, fld_all]; try rfl)
    (by simp (disch := decide) only [decodeM, fld, fld_left, fld_right, fld_all, Nat.reduceSub, reduceExtractLsb', reduceEq, ↓reduceIte]; try rfl))

theorem mma (w : BitVec 4) (r : BitVec 4) (e : BitVec 5) (f : BitVec 5) (g : BitVec 5) : Statement (.mma w r e f g) :=
  of_fields rfl (fieldsM (by simp (disch := decide) only [fld, fld_left, Nat.reduceSub, fld_all]; try rfl)
    (by simp (disch := decide) only [decodeM, fld, fld_left, fld_right, fld_all, Nat.reduceSub, reduceExtractLsb', reduceEq, ↓reduceIte]; try rfl))

theorem mxv (w : BitVec 4) (r : BitVec 4) (e : BitVec 5) (f : BitVec 5) (g : BitVec 5) : Statement (.mxv w r e f g) :=
  of_fields rfl (fieldsM (by simp (disch := decide) only [fld, fld_left, Nat.reduceSub, fld_all]; try rfl)
    (by simp (disch := decide) only [decodeM, fld, fld_left, fld_right, fld_all, Nat.reduceSub, reduceExtractLsb', reduceEq, ↓reduceIte]; try rfl))

theorem mldc (w : BitVec 4) (r : BitVec 4) (e : BitVec 5) (f : BitVec 5) (g : BitVec 5) : Statement (.mldc w r e f g) :=
  of_fields rfl (fieldsM (by simp (disch := decide) only [fld, fld_left, Nat.reduceSub, fld_all]; try rfl)
    (by simp (disch := decide) only [decodeM, fld, fld_left, fld_right, fld_all, Nat.reduceSub, reduceExtractLsb', reduceEq, ↓reduceIte]; try rfl))

theorem mzero (w : BitVec 4) (r : BitVec 4) (e : BitVec 5) (f : BitVec 5) : Statement (.mzero w r e f) :=
  of_fields rfl (fieldsM (by simp (disch := decide) only [fld, fld_left, Nat.reduceSub, fld_all]; try rfl)
    (by simp (disch := decide) only [decodeM, fld, fld_left, fld_right, fld_all, Nat.reduceSub, reduceExtractLsb', reduceEq, ↓reduceIte]; try rfl))

theorem mdrain (w : BitVec 4) (r : BitVec 4) (e : BitVec 5) (f : BitVec 5) (g : BitVec 5) : Statement (.mdrain w r e f g) :=
  of_fields rfl (fieldsM (by simp (disch := decide) only [fld, fld_left, Nat.reduceSub, fld_all]; try rfl)
    (by simp (disch := decide) only [decodeM, fld, fld_left, fld_right, fld_all, Nat.reduceSub, reduceExtractLsb', reduceEq, ↓reduceIte]; try rfl))

theorem cpy (w : BitVec 4) (r : BitVec 4) (e : BitVec 5) (f : BitVec 5) (g : BitVec 5) : Statement (.cpy w r e f g) :=
  of_fields rfl (fieldsY (by simp (disch := decide) only [fld, fld_left, Nat.reduceSub, fld_all]; try rfl)
    (by simp (disch := decide) only [decodeY, fld, fld_left, fld_right, fld_all, Nat.reduceSub, reduceExtractLsb', reduceEq, ↓reduceIte]; try rfl))

theorem cpyz (w : BitVec 4) (r : BitVec 4) (e : BitVec 5) (f : BitVec 5) (g : BitVec 5) : Statement (.cpyz w r e f g) :=
  of_fields rfl (fieldsY (by simp (disch := decide) only [fld, fld_left, Nat.reduceSub, fld_all]; try rfl)
    (by simp (disch := decide) only [decodeY, fld, fld_left, fld_right, fld_all, Nat.reduceSub, reduceExtractLsb', reduceEq, ↓reduceIte]; try rfl))

theorem cpyb (w : BitVec 4) (r : BitVec 4) (e : BitVec 5) (f : BitVec 5) : Statement (.cpyb w r e f) :=
  of_fields rfl (fieldsY (by simp (disch := decide) only [fld, fld_left, Nat.reduceSub, fld_all]; try rfl)
    (by simp (disch := decide) only [decodeY, fld, fld_left, fld_right, fld_all, Nat.reduceSub, reduceExtractLsb', reduceEq, ↓reduceIte]; try rfl))

theorem cpyq (w : BitVec 4) (r : BitVec 4) (e : BitVec 5) : Statement (.cpyq w r e) :=
  of_fields rfl (fieldsY (by simp (disch := decide) only [fld, fld_left, Nat.reduceSub, fld_all]; try rfl)
    (by simp (disch := decide) only [decodeY, fld, fld_left, fld_right, fld_all, Nat.reduceSub, reduceExtractLsb', reduceEq, ↓reduceIte]; try rfl))

theorem cpycan (w : BitVec 4) (r : BitVec 4) (e : BitVec 5) : Statement (.cpycan w r e) :=
  of_fields rfl (fieldsY (by simp (disch := decide) only [fld, fld_left, Nat.reduceSub, fld_all]; try rfl)
    (by simp (disch := decide) only [decodeY, fld, fld_left, fld_right, fld_all, Nat.reduceSub, reduceExtractLsb', reduceEq, ↓reduceIte]; try rfl))

theorem dual (n : BitVec 2) : Statement (.dual n) :=
  of_fields rfl (fieldsP (by simp (disch := decide) only [fld, fld_left, Nat.reduceSub, fld_all]; try rfl)
    (by simp (disch := decide) only [decodeP, fld, fld_left, fld_right, fld_all, Nat.reduceSub, reduceExtractLsb', reduceEq, ↓reduceIte]; try rfl))

theorem tkn (w : BitVec 4) (r : BitVec 4) : Statement (.tkn w r) :=
  of_fields rfl (fieldsP (by simp (disch := decide) only [fld, fld_left, Nat.reduceSub, fld_all]; try rfl)
    (by simp (disch := decide) only [decodeP, fld, fld_left, fld_right, fld_all, Nat.reduceSub, reduceExtractLsb', reduceEq, ↓reduceIte]; try rfl))

theorem ext (i : BitVec 23) : Statement (.ext i) :=
  of_fields rfl (fieldsP (by simp (disch := decide) only [fld, fld_left, Nat.reduceSub, fld_all]; try rfl)
    (by simp (disch := decide) only [decodeP, fld, fld_left, fld_right, fld_all, Nat.reduceSub, reduceExtractLsb', reduceEq, ↓reduceIte]; try rfl))

theorem seqf (l : BitVec 3) : Statement (.seqf l) :=
  of_fields rfl (fieldsP (by simp (disch := decide) only [fld, fld_left, Nat.reduceSub, fld_all]; try rfl)
    (by simp (disch := decide) only [decodeP, fld, fld_left, fld_right, fld_all, Nat.reduceSub, reduceExtractLsb', reduceEq, ↓reduceIte]; try rfl))

theorem seql (l : BitVec 3) : Statement (.seql l) :=
  of_fields rfl (fieldsP (by simp (disch := decide) only [fld, fld_left, Nat.reduceSub, fld_all]; try rfl)
    (by simp (disch := decide) only [decodeP, fld, fld_left, fld_right, fld_all, Nat.reduceSub, reduceExtractLsb', reduceEq, ↓reduceIte]; try rfl))

theorem seqAdvance : Statement .seqAdvance := of_none rfl

theorem generatorStep (st : BitVec 4) : Statement (.generatorStep st) := of_none rfl

theorem sinkStep (st : BitVec 4) : Statement (.sinkStep st) := of_none rfl

theorem commandComplete (k : Nat) : Statement (.commandComplete k) := of_none rfl

theorem copyLineLanded (k : Nat) : Statement (.copyLineLanded k) := of_none rfl

theorem trapTaken : Statement .trapTaken := of_none rfl

theorem waittimeout : Statement .waittimeout := of_none rfl

theorem heartbeatTick : Statement .heartbeatTick := of_none rfl

theorem gbarComplete : Statement .gbarComplete := of_none rfl

theorem gangPreemptEvent : Statement .gangPreemptEvent := of_none rfl

theorem launchQueueDrain (slice : Nat) : Statement (.launchQueueDrain slice) := of_none rfl

theorem deferredLaunchApply : Statement .deferredLaunchApply := of_none rfl

theorem admitJob (die : Nat) : Statement (.admitJob die) := of_none rfl

theorem dispatch : Statement .dispatch := of_none rfl

theorem gangReserve (die : Nat) : Statement (.gangReserve die) := of_none rfl

theorem eventRelease (die : Nat) (job : Nat) (ev : BitVec 16) : Statement (.eventRelease die job ev) := of_none rfl

theorem spillwayReenter (die : Nat) (job : Nat) : Statement (.spillwayReenter die job) := of_none rfl

theorem vfPeriodEnd : Statement .vfPeriodEnd := of_none rfl

theorem queueAge (queue : Nat) : Statement (.queueAge queue) := of_none rfl

theorem weirGrant : Statement .weirGrant := of_none rfl

theorem migrationEpoch : Statement .migrationEpoch := of_none rfl

theorem migratePage : Statement .migratePage := of_none rfl

theorem blockWriteback (line : Nat) : Statement (.blockWriteback line) := of_none rfl

theorem noriaRecodeLine (die : Nat) : Statement (.noriaRecodeLine die) := of_none rfl

theorem selfTest (unit : Nat) : Statement (.selfTest unit) := of_none rfl

theorem culvertRemap (core : Nat) : Statement (.culvertRemap core) := of_none rfl

theorem errorDetected (e : ErrorReport) : Statement (.errorDetected e) := of_none rfl

theorem moduleReset : Statement .moduleReset := of_none rfl

theorem netAck (k : Nat) : Statement (.netAck k) := of_none rfl

theorem netqFail (qp : Nat) (refused : Bool) : Statement (.netqFail qp refused) := of_none rfl

theorem incomingRdma (r : RemoteAccess) : Statement (.incomingRdma r) := of_none rfl

theorem cxlMemRequest (r : PeerAccess) : Statement (.cxlMemRequest r) := of_none rfl

theorem dataWrite (fn : Nat) (off : Nat) (w : HostWrite) : Statement (.dataWrite fn off w) := of_none rfl

theorem dataRead (fn : Nat) (off : Nat) (n : Nat) : Statement (.dataRead fn off n) := of_none rfl

theorem registerWrite (fn : Nat) (off : Nat) (w : HostWrite) : Statement (.registerWrite fn off w) := of_none rfl

theorem jobcreate (fn : Nat) (o : CmdOps) : Statement (.jobcreate fn o) := of_none rfl

theorem jobstop (fn : Nat) (o : CmdOps) : Statement (.jobstop fn o) := of_none rfl

theorem jobdestroy (fn : Nat) (o : CmdOps) : Statement (.jobdestroy fn o) := of_none rfl

theorem qcreate (fn : Nat) (o : CmdOps) : Statement (.qcreate fn o) := of_none rfl

theorem qdestroy (fn : Nat) (o : CmdOps) : Statement (.qdestroy fn o) := of_none rfl

theorem qpush (fn : Nat) (o : CmdOps) : Statement (.qpush fn o) := of_none rfl

theorem spilladd (fn : Nat) (o : CmdOps) : Statement (.spilladd fn o) := of_none rfl

theorem evhostSet (fn : Nat) (o : CmdOps) : Statement (.evhostSet fn o) := of_none rfl

theorem evhostClear (fn : Nat) (o : CmdOps) : Statement (.evhostClear fn o) := of_none rfl

theorem rqset (fn : Nat) (o : CmdOps) : Statement (.rqset fn o) := of_none rfl

theorem vfslice (fn : Nat) (o : CmdOps) : Statement (.vfslice fn o) := of_none rfl

theorem speedset (fn : Nat) (o : CmdOps) : Statement (.speedset fn o) := of_none rfl

theorem ptecas (fn : Nat) (o : CmdOps) : Statement (.ptecas fn o) := of_none rfl

theorem inval (fn : Nat) (o : CmdOps) : Statement (.inval fn o) := of_none rfl

theorem clean (fn : Nat) (o : CmdOps) : Statement (.clean fn o) := of_none rfl

theorem migcfg (fn : Nat) (o : CmdOps) : Statement (.migcfg fn o) := of_none rfl

theorem migfree (fn : Nat) (o : CmdOps) : Statement (.migfree fn o) := of_none rfl

theorem compset (fn : Nat) (o : CmdOps) : Statement (.compset fn o) := of_none rfl

theorem ovfset (fn : Nat) (o : CmdOps) : Statement (.ovfset fn o) := of_none rfl

theorem ovfadd (fn : Nat) (o : CmdOps) : Statement (.ovfadd fn o) := of_none rfl

theorem norset (fn : Nat) (o : CmdOps) : Statement (.norset fn o) := of_none rfl

theorem norpush (fn : Nat) (o : CmdOps) : Statement (.norpush fn o) := of_none rfl

theorem srslice (fn : Nat) (o : CmdOps) : Statement (.srslice fn o) := of_none rfl

theorem keyjob (fn : Nat) (o : CmdOps) : Statement (.keyjob fn o) := of_none rfl

theorem cxlrange (fn : Nat) (o : CmdOps) : Statement (.cxlrange fn o) := of_none rfl

theorem load (fn : Nat) (o : CmdOps) : Statement (.load fn o) := of_none rfl

theorem preempt (fn : Nat) (o : CmdOps) : Statement (.preempt fn o) := of_none rfl

theorem tagset (fn : Nat) (o : CmdOps) : Statement (.tagset fn o) := of_none rfl

theorem tagget (fn : Nat) (o : CmdOps) : Statement (.tagget fn o) := of_none rfl

theorem featset (fn : Nat) (o : CmdOps) : Statement (.featset fn o) := of_none rfl

theorem keysetStage (fn : Nat) (o : CmdOps) : Statement (.keysetStage fn o) := of_none rfl

theorem keysetInstall (fn : Nat) (o : CmdOps) : Statement (.keysetInstall fn o) := of_none rfl

theorem vkeysetStage (fn : Nat) (o : CmdOps) : Statement (.vkeysetStage fn o) := of_none rfl

theorem vkeysetInstall (fn : Nat) (o : CmdOps) : Statement (.vkeysetInstall fn o) := of_none rfl

theorem svninc (fn : Nat) (o : CmdOps) : Statement (.svninc fn o) := of_none rfl

theorem intmap (fn : Nat) (o : CmdOps) : Statement (.intmap fn o) := of_none rfl

theorem netqpCreate (fn : Nat) (o : CmdOps) : Statement (.netqpCreate fn o) := of_none rfl

theorem netqpDestroy (fn : Nat) (o : CmdOps) : Statement (.netqpDestroy fn o) := of_none rfl

theorem fwstage (fn : Nat) (o : CmdOps) : Statement (.fwstage fn o) := of_none rfl

theorem longCommandDone (fn : Nat) : Statement (.longCommandDone fn) := of_none rfl

theorem telread (fn : Nat) (o : CmdOps) : Statement (.telread fn o) := of_none rfl

theorem pwrcap (fn : Nat) (o : CmdOps) : Statement (.pwrcap fn o) := of_none rfl

theorem illegalWord (w : BitVec 32) : Statement (.illegalWord w) := of_none rfl

theorem accessApplied : Statement .accessApplied := of_none rfl

theorem shapeRecordCacheEviction (k : Nat) : Statement (.shapeRecordCacheEviction k) := of_none rfl

end Sys2Proof.Laws.RoundTrip
end

