-- ==== Sys2Proof/Tests/Slice0.lean ====
section
/-! SUPPORT. The author's tests: ill-formed terms, words written out, one step of some instructions, and for each statement with
hypotheses a state and operands that meet them. -/

open Sys2Proof Sys2Proof.Machine

namespace Sys2Proof.Tests

set_option synthInstance.maxSize 5000
set_option synthInstance.maxHeartbeats 200000
set_option Elab.async false

/-! ## Ill-formed terms are refused (R69 to R72, R78, R82 and the entries) -/

theorem test_ill_formed_control :
    [Instr.bfx 1 2 60 4, .bfxs 1 2 63 1, .bfi 1 2 0x3F 0x3F, .seqlvl 6 1 0, .seqlvlGetShadow 7 1, .seqlvlGetActive 6 1,
      .seqlvlGetCounter 6 1, .seqstr 6 1 0, .seqstr 0 1 16, .seqstrGetShadow 0 1 16, .seqstrGetActive 6 1 0, .seqcap 0, .seqcap 65,
      .rrbset 24, .spawn 1 3 2, .spawn 1 29 2, .csrr 1 0x007, .csrr 1 0x40E, .csrr 1 0x806, .csrw 1 2 0xC00, .csrs 1 2 0xC00,
      .csrc 1 2 0xC00, .csrw 1 2 0xBFF, .dual 0, .seqf 6, .seql 7].all (fun i => !i.wellFormed) = true := by decide

theorem test_ill_formed_access :
    [Instr.lds 1 2 3 1 0, .feset 1 2 2, .vld 6 1 0 0 0, .vldp 7 1 0 0 0, .vldc 6 1 0 0 0, .vst 5 1 0 0 0, .vstp 0 1 0 0, .vldx 6 1 0 6,
      .vldx 0 1 0 5, .vstx 5 1 0 6, .vstx 6 1 0 5, .vstx 7 1 0 7, .sbar 5 1 2, .fence 5 0, .fence 0 3, .aadd 1 2 3 6, .amin 1 2 3 7,
      .amax 1 2 3 6, .aand 1 2 3 2, .aor 1 2 3 5, .axor 1 2 3 6, .aswap 1 2 4 6, .aswap 2 2 3 6, .aswap 1 2 3 7, .acas 2 2 4 5 6,
      .acas 1 2 3 4 7, .acont 1 2 3 31 0, .acont 1 2 3 4 6, .wapp 1 2 5 0, .wapp 1 2 6 2].all (fun i => !i.wellFormed) = true := by
  decide

theorem test_ill_formed_vector :
    [Instr.vcvt 1 2 0x16 0 0 0, .vcvt 1 2 10 5 0 0, .vcvth 1 2 0x1F 0 0, .vqnt 1 2 0x16 0 0 0, .vqnt 1 2 13 6 0 0, .vred 1 2 6 0,
      .vscan 1 2 63 0, .vrgath 1 4 2 0, .vrgath 1 56 2 0, .vbcast 1 0x14 2 0, .vbcast 1 0x16 2 0, .vtget 1 2 0 0, .vtset 1 2 0 0,
      .vbq 3 0 1].all (fun i => !i.wellFormed) = true := by decide

theorem test_ill_formed_events :
    [Instr.launchQueueDrain 512, .admitJob 4, .gangReserve 4, .eventRelease 4 1 1, .spillwayReenter 4 1, .queueAge 4096,
      .noriaRecodeLine 4, .culvertRemap 1024, .netqFail 1024 false, .incomingRdma ⟨1024, 0, 0, .read 8⟩,
      .cxlMemRequest ⟨1, false, 0, 0⟩, .dataWrite 33 0 .other, .dataRead 33 0 8, .registerWrite 33 0 .other,
      .longCommandDone 33].all (fun i => !i.wellFormed) = true := by decide

def noOps : CmdOps := ⟨0, 0, 0, 0, 0, 0, 0, 0⟩

theorem test_ill_formed_commands :
    [Instr.jobcreate 33 noOps, .jobstop 33 noOps, .jobdestroy 33 noOps, .qcreate 33 noOps, .qdestroy 33 noOps, .qpush 33 noOps,
      .spilladd 33 noOps, .evhostSet 33 noOps, .evhostClear 33 noOps, .rqset 33 noOps, .vfslice 33 noOps, .speedset 33 noOps,
      .ptecas 33 noOps, .inval 33 noOps, .clean 33 noOps, .migcfg 33 noOps, .migfree 33 noOps, .compset 33 noOps, .ovfset 33 noOps,
      .ovfadd 33 noOps, .norset 33 noOps, .norpush 33 noOps, .srslice 33 noOps, .keyjob 33 noOps, .cxlrange 33 noOps, .load 33 noOps,
      .preempt 33 noOps, .tagset 33 noOps, .tagget 33 noOps, .featset 33 noOps, .keysetStage 33 noOps, .keysetInstall 33 noOps,
      .vkeysetStage 33 noOps, .vkeysetInstall 33 noOps, .svninc 33 noOps, .intmap 33 noOps, .netqpCreate 33 noOps,
      .netqpDestroy 33 noOps, .fwstage 33 noOps, .telread 33 noOps, .pwrcap 33 noOps].all (fun i => !i.wellFormed) = true := by decide

/-! ## Words written out from the encoding tables (R69 to R73) -/

/-- The word decodes to the instruction. -/
def reads (q : IWord × Instr) : Bool := match decode q.1 with | .ok i => decide (i = q.2) | .error _ => false

/-- Words that the manual writes out: R89's BFX s6, s4, 8, 16, TRAP 5, SEQLVL l0, s10 with ROT, SEQSTR l1, st1, s13, VLD q0, [a3], st1,
SEQF l0 and NOP. -/
theorem test_words_of_the_manual :
    [(0x0C98841E, Instr.bfx 6 4 8 15), (0xB0000005, .trap 5), (0xA0850001, .seqlvl 0 10 1), (0xA1168400, .seqstr 1 13 1),
      (0x28818800, .vld 0 3 1 0 0), (0xC2000000, .seqf 0), (0x1F800000, .nop)].all reads = true := by decide

/-- R78: reserved cells, reserved fields and refused values are rejected by name. -/
theorem test_words_refused :
    let refuses (w : IWord) (r : Reject) : Bool := match decode w with | .ok _ => false | .error e => decide (e = r)
    refuses 0xE0000000 .engine = true ∧ refuses 0x00000000 .opcode = true ∧ refuses 0x009D2A01 .fields = true ∧
    refuses 0x0C9D3FFE .value = true := by decide

theorem test_words_of_control_1 : [
    (0x009D2A00, .add 7 9 10),
    (0x011D2A00, .sub 7 9 10),
    (0x019D2A00, .mul 7 9 10),
    (0x021D2A00, .mulh 7 9 10),
    (0x029D2A00, .mulhu 7 9 10),
    (0x031D2A00, .div 7 9 10),
    (0x039D2A00, .divu 7 9 10),
    (0x041D2A00, .rem 7 9 10),
    (0x049D2A00, .remu 7 9 10),
    (0x051D2A00, .and 7 9 10),
    (0x059D2A00, .or 7 9 10),
    (0x061D2A00, .xor 7 9 10),
    (0x069D2A00, .shl 7 9 10),
    (0x071D2A00, .shrl 7 9 10),
    (0x079D2A00, .shra 7 9 10),
    (0x081D2A00, .slt 7 9 10),
    (0x089D2A00, .sltu 7 9 10),
    (0x091D2A00, .min 7 9 10),
    (0x099D2A00, .max 7 9 10),
    (0x0A1D2A00, .minu 7 9 10),
    (0x0A9D2A00, .maxu 7 9 10),
    (0x0B1D2000, .clz 7 9),
    (0x0B9D2000, .ctz 7 9),
    (0x0C1D2000, .popc 7 9)].all reads = true := by decide

theorem test_words_of_control_2 : [
    (0x0C9D342E, .bfx 7 9 40 23),
    (0x0D1D3F80, .bfxs 7 9 63 0),
    (0x0D9D207E, .bfi 7 9 0 63),
    (0x0E1D2A60, .fshl 7 9 10 12),
    (0x0E9D2A60, .fshr 7 9 10 12),
    (0x0F1D2A60, .sel 7 9 10 12),
    (0x101D296B, .addi 7 9 0x96b),
    (0x109D296B, .andi 7 9 0x96b),
    (0x111D296B, .ori 7 9 0x96b),
    (0x119D296B, .xori 7 9 0x96b),
    (0x121D202B, .shli 7 9 43),
    (0x129D202B, .shrli 7 9 43),
    (0x131D202B, .shrai 7 9 43),
    (0x139D296B, .slti 7 9 0x96b),
    (0x141ED2D3, .lui 7 0x2d2d3),
    (0x149ED2D3, .auipc 7 0x2d2d3),
    (0x1825496B, .beq 9 10 0x96b),
    (0x18A5496B, .bne 9 10 0x96b),
    (0x1925496B, .blt 9 10 0x96b),
    (0x19A5496B, .bge 9 10 0x96b),
    (0x1A25496B, .bltu 9 10 0x96b),
    (0x1AA5496B, .bgeu 9 10 0x96b),
    (0x1B25A5A5, .jmp 0x25a5a5),
    (0x1B9ED2D3, .jal 7 0x2d2d3)].all reads = true := by decide

theorem test_words_of_control_3 : [
    (0x1C012000, .jr 9),
    (0x1C9D296B, .jalr 7 9 0x96b),
    (0x1D25A600, .callt 9 211),
    (0x1D800000, .ret),
    (0x1E25A5A5, .bqt 0x25a5a5),
    (0x1EA5A5A5, .bqf 0x25a5a5),
    (0x1F1C0000, .bqpop 7),
    (0x1F800000, .nop)].all reads = true := by decide

theorem test_words_of_access_1 : [
    (0x209D57FD, .lds 7 10 2 1 0x3fd),
    (0x211D59A8, .sts 7 10 3 0x1a8),
    (0x219D596B, .lda 7 10 0x16b),
    (0x221D596B, .sta 7 10 0x16b),
    (0x229D596B, .ldf 7 10 0x16b),
    (0x231D596B, .ste 7 10 0x16b),
    (0x239D596B, .ldft 7 10 0x16b),
    (0x24012A08, .feset 9 10 1),
    (0x249D2A00, .adda 7 9 10),
    (0x251D2A00, .suba 7 9 10),
    (0x259D296B, .addai 7 9 0x96b),
    (0x261D202B, .shlai 7 9 43),
    (0x269D296B, .mulai 7 9 0x96b),
    (0x271D296B, .andai 7 9 0x96b),
    (0x279D2000, .movsa 7 9),
    (0x281D2000, .movas 7 9),
    (0x28C55ED6, .vld 4 10 11 6 214),
    (0x29455ED6, .vldp 4 10 11 6 214),
    (0x29E55ED6, .vst 6 10 11 6 214),
    (0x2A6558A8, .vstp 6 10 11 168),
    (0x2AC55F00, .vldx 4 10 11 7),
    (0x2B655F00, .vstx 6 10 11 7),
    (0x2BC55ED6, .vldc 4 10 11 6 214),
    (0x2C5558A8, .pref 5 10 11 168)].all reads = true := by decide

theorem test_words_of_access_2 : [
    (0x2CAA8000, .strdef 5 10),
    (0x2D2A9600, .strgo 5 10 11),
    (0x2DA82600, .strstop 5 19),
    (0x2E2A9600, .strsink 5 10 11),
    (0x2EC12A00, .sbar 4 9 10),
    (0x2F001580, .bind 5 3),
    (0x2F800280, .unbind 5),
    (0x301C0C00, .qstat 7 3),
    (0x309D4C04, .aadd 7 10 12 4),
    (0x311D4C04, .amin 7 10 12 4),
    (0x319D4C04, .amax 7 10 12 4),
    (0x321D4C04, .aand 7 10 12 4),
    (0x329D4C04, .aor 7 10 12 4),
    (0x331D4C04, .axor 7 10 12 4),
    (0x33994C06, .aswap 6 10 12 6),
    (0x34194C76, .acas 6 10 12 14 6),
    (0x349D4CF4, .acont 7 10 12 30 4),
    (0x351D5880, .wapp 7 10 6 1),
    (0x35C80000, .fence 4 2),
    (0x36000000, .fencesc),
    (0x36800000, .rcfence),
    (0x37012A00, .ownwait 9 10)].all reads = true := by decide

theorem test_words_of_vector_1 : [
    (0x408E4948, .vadd 7 9 10 8),
    (0x410E4948, .vsub 7 9 10 8),
    (0x418E4948, .vmul 7 9 10 8),
    (0x420E4948, .vfma 7 9 10 8),
    (0x428E4948, .vfms 7 9 10 8),
    (0x430E4948, .vfnma 7 9 10 8),
    (0x438E4948, .vmin 7 9 10 8),
    (0x440E4948, .vmax 7 9 10 8),
    (0x448E480B, .vabs 7 9 11),
    (0x450E480B, .vneg 7 9 11),
    (0x458E4948, .vdiv 7 9 10 8),
    (0x460E480B, .vsqrt 7 9 11),
    (0x468E480B, .vrcp 7 9 11),
    (0x470E480B, .vrsq 7 9 11),
    (0x478E480B, .vexp2 7 9 11),
    (0x480E480B, .vlog2 7 9 11),
    (0x488E480B, .vsin 7 9 11),
    (0x490E480B, .vcos 7 9 11),
    (0x498E480B, .vtanh 7 9 11),
    (0x4A0E480B, .vconj 7 9 11),
    (0x4A8E4948, .vcmulj 7 9 10 8),
    (0x4B0E4948, .vand 7 9 10 8),
    (0x4B8E4948, .vor 7 9 10 8),
    (0x4C0E4948, .vxor 7 9 10 8)].all reads = true := by decide

theorem test_words_of_vector_2 : [
    (0x4C8E480B, .vnot 7 9 11),
    (0x4D0E4948, .vshl 7 9 10 8),
    (0x4D8E4948, .vshr 7 9 10 8),
    (0x4E0E480B, .vclz 7 9 11),
    (0x4E8E480B, .vpopc 7 9 11),
    (0x4F4324A6, .vcmp 4 3 9 10 6),
    (0x4F8E4948, .vsel 7 9 10 8),
    (0x503CD000, .pand 7 9 10),
    (0x50BCD000, .por 7 9 10),
    (0x513CD000, .pxor 7 9 10),
    (0x51BC8000, .pnot 7 9),
    (0x523804C0, .ptail 7 19),
    (0x52BCD000, .pcnt 7 9 10),
    (0x533CD000, .pfirst 7 9 10),
    (0x538E4D66, .vcvt 7 9 21 4 1 2),
    (0x540E4D76, .vcvth 7 9 21 1 22),
    (0x548E4968, .vscale 7 9 11 8),
    (0x550E4D66, .vqnt 7 9 21 4 1 2),
    (0x558E4960, .vtag 7 9 11),
    (0x56004800, .vtagq 9),
    (0x568E48A8, .vred 7 9 5 8),
    (0x570E48A8, .vscan 7 9 5 8),
    (0x578E4948, .vperm 7 9 10 8),
    (0x580F8148, .vrgath 7 48 10 8)].all reads = true := by decide

theorem test_words_of_vector_3 : [
    (0x588E4D68, .vslide 7 9 43 8),
    (0x590EA968, .vbcast 7 21 11 8),
    (0x598E0003, .viota 7 3),
    (0x5A0E480B, .vmov 7 9 11),
    (0x5A8E4948, .vpart 7 9 10 8),
    (0x5B0E480B, .vappend 7 9 11),
    (0x5B8E4868, .vtget 7 9 3 8),
    (0x5C0E4868, .vtset 7 9 3 8),
    (0x5C8E006B, .vtzero 7 3 11),
    (0x5D14D000, .vbq 2 9 10)].all reads = true := by decide

theorem test_words_of_matrix : [
    (0x608000B3, .mcfg 5 19),
    (0x6129B916, .mma 5 3 14 8 22),
    (0x61A9B916, .mxv 5 3 14 8 22),
    (0x6229B916, .mldc 5 3 14 8 22),
    (0x62A9B900, .mzero 5 3 14 8),
    (0x6329B916, .mdrain 5 3 14 8 22)].all reads = true := by decide

theorem test_words_of_copy : [
    (0x80A9B916, .cpy 5 3 14 8 22),
    (0x8129B916, .cpyz 5 3 14 8 22),
    (0x81A9B900, .cpyb 5 3 14 8),
    (0x8229B800, .cpyq 5 3 14),
    (0x82A9B800, .cpycan 5 3 14)].all reads = true := by decide

theorem test_words_of_scheduling_1 : [
    (0xA0D48001, .seqlvl 5 9 1),
    (0xA0D48100, .seqlvlGetShadow 5 9),
    (0xA0D48200, .seqlvlGetActive 5 9),
    (0xA0D48300, .seqlvlGetCounter 5 9),
    (0xA154B400, .seqstr 5 9 13),
    (0xA154B500, .seqstrGetShadow 5 9 13),
    (0xA154B600, .seqstrGetActive 5 9 13),
    (0xA1800040, .seqcap 64),
    (0xA2000000, .seqgo),
    (0xA2800000, .seqbrk),
    (0xA3000000, .seqwait),
    (0xA3800017, .rrbset 23),
    (0xA41F8A00, .spawn 7 28 10),
    (0xA49D2A00, .join 7 9 10),
    (0xA5000000, .exit),
    (0xA59D296B, .evset 7 9 0x96b),
    (0xA61D296B, .evclr 7 9 0x96b),
    (0xA69D296B, .evtest 7 9 0x96b),
    (0xA71D2060, .tile 7 9 12),
    (0xA79D2060, .tilenext 7 9 12),
    (0xA8000000, .gbar),
    (0xAC1C0C00, .csrr 7 0xc00),
    (0xAC9D2804, .csrw 7 9 0x804),
    (0xAD1D2804, .csrs 7 9 0x804)].all reads = true := by decide

theorem test_words_of_scheduling_2 : [
    (0xAD9D2804, .csrc 7 9 0x804),
    (0xB001A5A5, .trap 0x1a5a5),
    (0xB0800000, .eret),
    (0xB1000000, .spill),
    (0xB1812000, .fill 9),
    (0xB2000000, .halt),
    (0xB2812A00, .tlbi 9 10),
    (0xB3000000, .latinv),
    (0xB3800000, .isync)].all reads = true := by decide

theorem test_words_of_prefix : [
    (0xC0C00000, .dual 2),
    (0xC1298000, .tkn 5 3),
    (0xC1A5A5A5, .ext 0x25a5a5),
    (0xC2500000, .seqf 5),
    (0xC2D00000, .seql 5)].all reads = true := by decide

/-! ## States that meet the hypotheses of the statements -/

/-- Bytes of T0 memory with the tag of raw data. -/
def poke (m : Memory) (a n v : Nat) : Memory :=
  { m with bytes := storeBytes m.bytes a n v, tags := sset uninitTag m.tags (lineOf a) rawTag }

/-- Tables that map the first GiB of job 1 to the first GiB of T0: a pointer at level 3 and a writable, executable leaf at
level 2; function tables of slots 0 and 63. -/
def tables : Memory :=
  poke (poke (poke (poke Memory.reset 0x100000 8 0x106401) 0x101000 8 7)
    0x230000 16 (0x240000 + 0x11223344 * 2 ^ 48)) 0x230080 16 0x250000

def job : Job :=
  { owner := 1, weight := 2, deficit := 5, ptb := 0x100000, latb := 0x200000, evbase := 0x210000, fqbase := 0x220000,
    age := 10, q := 6, waitlim := 100, stopped := false,
    slots := [(0, ⟨0x230000, 1, 3, true, false⟩), (63, ⟨0x230080, 1, 0, false, false⟩)],
    freeBlocks := 0, chainHead := 0, chainTail := 0, kid := 0, blocks := 0, spillDie := [] }

/-- Core 0 in a run of job 1 at user level; its own scratchpad is mapped at 0x8000_0000. -/
def world : State :=
  { State.reset with
    mem := tables, jobs := [(1, job)],
    core := { Core.idle with
      run := some ⟨1, 0, 0, 0, 0x230000, 1, none⟩, pc := 0x1000,
      tlb := [⟨1, ⟨0x27, 0, 2 ^ 16, 0x80000000⟩⟩]
      csr := { Csrs.initial with ptb := 0x0001000000100000#64 } } }

/-- The world with its core changed. -/
def worldC (f : Core → Core) : State := world.onCore f

/-- The world in supervisor state. -/
def ruler : State := worldC (fun c => { c with csr := { c.csr with status := 2 } })

/-- Registers s[k] = v for the pairs given. -/
def regs (l : List (Nat × Word)) (c : Core) : Core := l.foldl (fun c p => { c with s := c.s.setIfInBounds p.1 p.2 }) c

/-- Registers a[k] = v for the pairs given. -/
def addrs (l : List (Nat × Word)) (c : Core) : Core := l.foldl (fun c p => { c with a := c.a.setIfInBounds p.1 p.2 }) c

/-- The answer is there and is as asked. -/
def got {α : Type} (e : Chk α) (f : α → Bool) : Bool := match e with | .ok v => f v | .error _ => false

/-- The option holds a value that is as asked. -/
def has {α : Type} (o : Option α) (f : α → Bool) : Bool := match o with | some v => f v | none => false

/-- Core 0 in the trap handler of its run, with PPEND as given. -/
def handling (ppend : Bool) : State :=
  worldC (fun c => { c with csr := { c.csr with status := if ppend then 0b11010 else 0b01010 } })

/-- The page that maps the first GiB. -/
def flat : Page := ⟨7, 0, 2 ^ 30, 0⟩

/-- The page of the core's own scratchpad. -/
def own : Page := ⟨0x27, 0, 2 ^ 16, 0x80000000⟩

/-- A word of a core of job 1 that waits unperformed at an address of a page. -/
def waiting (core : Nat) (va : Word) (p : Page) : Stalled := ⟨core, .join, va, p, 1, 0⟩

/-- A FENCESC in a ring, at position and place n. -/
def standing (n : Nat) : RingEntry := ⟨n, BitVec.ofNat 11 n, none, 0x36000000, [], 0, [], false, false⟩

/-- A line of zeros with a tag at a place. -/
def lineAt (pl : Nat) (t : Tag) (s : State) : State := { s with mem := putLine s.mem pl 0 ⟨t, 0⟩ }

theorem witness_ArithmeticWordsWriteTheirResult : Settled world [1, 2, 0] := by unfold Settled Unstopped; decide +kernel

theorem witness_FieldAndImmediateWordsWriteTheirResult :
    Settled world [1, 2, 3, 4] ∧ (0#6).toNat + (63#6).toNat ≤ 63 ∧ (63#6).toNat + (0#6).toNat ≤ 63 := by
  unfold Settled Unstopped; decide +kernel

theorem witness_ConditionalBranchesGoWhereTheyCompare :
    let s := worldC (regs [(1, 5), (2, -3)])
    Settled s [1, 2] ∧ sreg s.core 2 = sreg s.core 2 ∧ sreg s.core 1 ≠ sreg s.core 2 ∧
    (sreg s.core 2).toInt < (sreg s.core 1).toInt ∧ (sreg s.core 1).toNat < (sreg s.core 2).toNat := by
  unfold Settled Unstopped; decide +kernel

theorem witness_TransfersAndBranchQueueWords :
    let s := worldC (regs [(1, 8), (2, 7)])
    let e := worldC (fun c => { c with bq := [0x80000000, 0] })
    Settled s [1, 2, 1] ∧ (sreg s.core 1).toNat % 4 = 0 ∧ (sreg s.core 2).toNat % 4 ≠ 0 ∧
    Settled e [1] ∧ e.core.bq = 0x80000000 :: [0] ∧ s.core.bq = [] := by
  unfold Settled Unstopped; decide +kernel

theorem witness_SequencerSetsAndSeqcap :
    let s : State := worldC (fun c => { c with icache := [(0x1004, 0x279D2000)] })
    Settled world [1] ∧ (5#3).toNat ≤ 5 ∧ (15#5).toNat ≤ 15 ∧ Settled s [] ∧
    got (fetchWords 1 (s.core.pc + 4) (passed s)) (fun q =>
      captureFault ((encode (.seqcap 1)).getD 0) q.1 == none && q.1.length == 1 &&
      q.1.all (fun w => (wordCaptures w).all (fun r => pendingS q.2.core r == false))) = true := by
  unfold Settled Unstopped; decide +kernel

/-- A nest of two words at its end: counts 3 and 2, both counters 0. -/
def nest : Sequencer :=
  let set : SeqSet := { SeqSet.zero with
    n := #v[3, 2, 0, 0, 0, 0], rot := #v[true, false, false, false, false, false]
    block := [⟨0x1F800000, []⟩, ⟨0x1F800000, []⟩] }
  { Sequencer.zero with shadow := set, active := set, p := 2, running := true }

theorem witness_NestsStartAdvanceAndEnd :
    let s := worldC (fun c => { c with seq := nest })
    let filled := worldC (fun c => { c with seq := { nest with running := false } })
    Settled s [] ∧ Settled world [] ∧ Settled filled [] ∧
    (filled.core.seq.running = false ∧ filled.core.seq.shadow.block ≠ []) ∧
    (world.core.seq.running = false ∧ world.core.seq.shadow.block = []) ∧ s.core.seq.running = true ∧
    nest.active.block.length ≤ nest.p ∧ s.core.csr.status.getLsbD 3 = false ∧
    (nest.brk = false ∧ (nest.i[0]?.getD 0).toNat + 1 < max 1 (nest.active.n[0]?.getD 0).toNat) ∧
    (let last := { nest with i := #v[2, 0, 0, 0, 0, 0] }
     ¬(last.i[0]?.getD 0).toNat + 1 < max 1 (last.active.n[0]?.getD 0).toNat ∧
     (last.i[1]?.getD 0).toNat + 1 < max 1 (last.active.n[1]?.getD 0).toNat) ∧
    (let over_ := { nest with i := #v[2, 1, 0, 0, 0, 0] }
     ∀ m < 6, ¬(over_.i[m]?.getD 0).toNat + 1 < max 1 (over_.active.n[m]?.getD 0).toNat) := by
  unfold Settled Unstopped; decide +kernel

/-- Queue 5 of job 1, of 16 entries, in T0 memory, with t entries in it. -/
def queueOf (t : Nat) (s : State) : State := { s with queues := [(5, ⟨1, 0, 3, 4, 0x260000, 0, t, 3⟩)] }

def spawning (d0 n : Word) : State := queueOf 0 (worldC (regs [(4, d0), (8, n)]))

theorem witness_SpawnChecksThenPushes :
    let r : RunInfo := ⟨1, 0, 0, 0, 0x230000, 1, none⟩
    let s (k : Nat) : State := spawning (#v[0, 1, 0x100000, 0x40000000, 0][k]?.getD 0) (if k = 4 then 6 else 5)
    (∀ k < 5, Settled (s k) [9, 4, 5, 6, 7, 8] ∧ Released (s k) ∧ (released (s k)).core.run = some r ∧
      slotRevoked (released (s k)) r = false) ∧
    sfind (released (s 4)).queues 6 = none ∧ (sfind (released (s 0)).queues 5).isSome = true ∧
    got (readFunc 0 (released (s 0))) (fun q => q.1.reserved == false && q.1.gang == false &&
      got (checkedPage q.2 .store 0x260000 1) (fun p => bytesStalled q.2 (p.place 0x260000) 64 == false)) = true := by
  unfold Settled Unstopped Released; decide +kernel

/-- Core 0's scratchpad, at VA 0x80000000, with a counter of n in its first line. -/
def counting (n amount : Nat) (launch : Sparse (List Entry)) : State :=
  let s := worldC (fun c => regs [(1, 0x80000000), (2, BitVec.ofNat 64 amount)]
    { c with run := some ⟨1, 0, 0, 0x80000000, 0x230000, 1, none⟩ })
  { s with mem := poke s.mem (placeScratch 0 0) 8 n, launch := launch }

/-- What JOIN and EXIT find in such a state: the page, the old value, and whether the launch queue has room. -/
def findsCounter (s : State) (old : Word) (room : Bool) : Bool :=
  let s1 := released s
  let va : Word := 0x80000000
  got (checkedPage s1 .atomic va 1) (fun p => bytesStalled s1 (p.place va) 8 == false &&
    bytesPoisoned s1 (p.place va) 8 == false && tagVc (plainLine s1 p va).tag == 0 &&
    (touchPage p va s1).core.run.isSome && lineWord (plainLine s1 p va).data (p.place va) == old &&
    launchRoom (touchPage p va s1) (launchQueueOf p (p.place va)) == room)

theorem witness_JoinAndExitLowerTheCounter :
    let full : Sparse (List Entry) := [(0, List.replicate 16 ⟨0, 0, 0, 0, 2, 0, 1⟩)]
    (Settled (counting 1 1 []) [3, 1, 2] ∧ Released (counting 1 1 []) ∧ (0x80000000 : Word).toNat % 64 = 0) ∧
    findsCounter (counting 0 1 []) 0 true = true ∧ findsCounter (counting 5 2 []) 5 true = true ∧
    findsCounter (counting 1 1 []) 1 true = true ∧ findsCounter (counting 1 1 full) 1 false = true ∧
    Released world ∧ (world.core.run.map RunInfo.d2) = some 0 := by
  unfold Settled Unstopped Released; decide +kernel

/-- The world with an event number in s1, the byte of its event poked. -/
def eventful (e : Word) : State :=
  let s := worldC (regs [(1, e)])
  { s with mem := poke s.mem 0x210000 8 0xFF00 }

theorem witness_EventWordsReadAndWriteOneBit :
    let s := eventful 9
    Settled s [2, 1] ∧ Released s ∧ ((released s).core.run.map RunInfo.job = some 1 ∧ sfind (released s).jobs 1 = some job) ∧
    ((passed s).core.run.map RunInfo.job = some 1 ∧ sfind (passed s).jobs 1 = some job) ∧
    ((sreg s.core 1 + immediate s (0 : BitVec 13)).setWidth 16 : BitVec 16) ≠ 0 ∧
    ((sreg (eventful 0).core 1 + immediate s (0 : BitVec 13)).setWidth 16 : BitVec 16) = 0 ∧
    (let free (u : State) (k : AccessKind) : Bool :=
       got (checkedPage u k (eventVa job 9) 1) (fun p => bytesStalled u (p.place (eventVa job 9)) 1 == false)
     free (released s) .store = true ∧ free (passed s) .store = true ∧ free (passed s) .load = true) := by
  unfold Settled Unstopped Released; decide +kernel

/-- A gang of the core that moves and of core 1, at classes 5 and 6; `here` and `there` say when each arrived. -/
def gang : Gang := ⟨0, [0, 1], [5, 6], 0, 2⟩
def ganged (here there : Option Nat) (g : Gang) : State :=
  let member (c : Core) (at_ : Option Nat) : Core :=
    { c with run := some ⟨1, 0, 0, 0, 0x230000, 1, some 0⟩, arrived := at_ }
  { world with gangs := [(0, g)], core := regs [(1, 10)] (member world.core here), parked := [(1, member world.core there)] }

theorem witness_TileWordsShareTheWork :
    let s := ganged none none gang
    Settled s [2, 1, 3] ∧ gangOf (passed s) = some (0, gang) ∧ s.core.csr.gid.toNat < gang.classes.length ∧
    ([2100, 2150] : List Nat) ≠ [] ∧ (∀ f ∈ [2100, 2150], 0 < f) ∧ gang.classes ≠ [] ∧
    (∃ j < gang.classes.length, 1850 + 50 * gang.classes.getD j 0 = 2100) ∧
    (∀ j < gang.classes.length, 2100 ≤ 1850 + 50 * gang.classes.getD j 0) ∧
    gang.counter.toNat < (sreg s.core 1).toNat % 2 ^ 48 ∧
    (let done := { gang with counter := 10 }
     gangOf (passed (ganged none none done)) = some (0, done) ∧ (sreg s.core 1).toNat % 2 ^ 48 ≤ done.counter.toNat) := by
  unfold Settled Unstopped; decide +kernel

theorem witness_GbarArrivesAndCompletes :
    (world.core.pending = none ∧ world.core.arrived = none ∧ Released world ∧ gangOf (drainStores world) = none ∧
      (drainStores world).core.pending = none) ∧
    (∀ at_ ∈ [none, some 7],
      let s := ganged none at_ gang
      s.core.pending = none ∧ s.core.arrived = none ∧ Released s ∧ gangOf (drainStores s) = some (0, gang)) ∧
    (let arrive (s : State) : State := { s with core := { s.core with arrived := some 5 } }
     barrierFull (arrive (drainStores (ganged none (some 7) gang))) 0 gang = true ∧
     barrierFull (arrive (drainStores (ganged none none gang))) 0 gang = false) ∧
    fullBarrier (ganged (some 5) (some 7) gang) = some (0, gang) ∧ gang.members.Nodup := by
  unfold Released; decide +kernel

/-- The world with another entry 0 in its function table, and its index in s1. -/
def tabled (entry : Nat) (index : Word) : State :=
  let s := worldC (regs [(1, index)])
  { s with mem := poke s.mem 0x230000 16 entry }

theorem witness_CalltChecksTheEntryAndCalls :
    let entry (s : State) (ok : FuncEntry → Bool) : Bool :=
      decide ((sreg s.core 2).toNat < tableLength (passed s)) && got (readFunc 0 (passed s)) (fun q => ok q.1)
    Settled world [2, 1] ∧ tableLength (passed (tabled 0 1)) ≤ (sreg (tabled 0 1).core 1).toNat ∧
    entry (tabled (2 ^ 83) 0) (fun f => f.reserved) = true ∧
    entry (tabled (2 ^ 48) 0) (fun f => f.reserved == false && f.sig.setWidth 64 != unsignedImmediate world (0 : BitVec 9)) = true ∧
    entry (tabled 0x240002 0) (fun f => f.reserved == false && f.sig.setWidth 64 == unsignedImmediate world (0 : BitVec 9) &&
      decide (f.addr.toNat % 4 ≠ 0)) = true ∧
    entry (tabled 0x240000 0) (fun f => f.reserved == false && f.sig.setWidth 64 == unsignedImmediate world (0 : BitVec 9) &&
      decide (f.addr.toNat % 4 = 0)) = true := by
  unfold Settled Unstopped; decide +kernel

theorem witness_CsrWordsReadAndWriteTheRegister :
    (∀ n ∈ [0x000, 0x003, 0x005, 0x006, 0x400, 0x409, 0x40A, 0x40D], Settled world [1] ∧
      CsrAllowed (BitVec.ofNat 12 n) false world ∧ CsrReady (BitVec.ofNat 12 n) false world) ∧
    (∀ n ∈ [0x000, 0x003, 0x005, 0x006, 0x401, 0x40A, 0x40D, 0x800, 0x801, 0x802, 0x803, 0x804, 0x805], Settled ruler [1, 2] ∧
      CsrAllowed (BitVec.ofNat 12 n) true ruler ∧ CsrReady (BitVec.ofNat 12 n) true ruler) ∧
    (∀ q ∈ (csrState 0x003 true ruler).core.flumes, q = []) ∧ (csrState 0x003 true ruler).core.flight = [] ∧
    (let ring : Ring := ⟨2, 0, [standing 0, standing 1]⟩
     ring.entries = [standing 0] ++ standing 1 :: [] ∧
     (1 : BitVec 11) ≠ ring.wrp ∧ ∀ w ∈ ring.entries, w.pos ≠ 5) := by
  unfold Settled Unstopped CsrAllowed CsrReady; decide +kernel

theorem witness_PrivilegedWordsFaultAtUserLevel :
    world.core.pending = none ∧ world.core.csr.status.getLsbD 1 = false ∧ (0x800#12).extractLsb' 10 2 = 2 ∧
    (0x400#12).extractLsb' 10 2 = 1 := by decide +kernel

/-- A load in flight that has still to read a line. -/
def barred : Flight :=
  ⟨0, false, 0, 0, .load ⟨0, .reg 0 false, 0x270000, 0, 0, 1, false, [(0x270000, flat)], []⟩⟩

/-- The world with a fault that waits for the words before place n, and with an A word of place 0 in its ring. -/
def faulting (n : Nat) : State :=
  worldC (fun c => { c with
    pending := some ⟨n, 0, ⟨1, 0, false, 0⟩⟩
    user := { c.user with a := ⟨1, 0, [standing 0]⟩ } })

theorem witness_TrapsSaveAndEnterOrEndTheRun :
    (world.core.csr.status.getLsbD 3 = false ∧ handlerEntry world = some 0x250000) ∧
    ((worldC (fun c => { c with csr := { c.csr with status := 0b01010 } })).core.csr.status.getLsbD 3 = true ∧
      world.core.storeQ = [] ∧ world.core.flight = []) ∧
    (let bare := { world with jobs := [] }
     handlerEntry bare = none ∧ bare.core.storeQ = [] ∧ bare.core.flight = []) ∧
    (world.core.pending = none ∧ settledBefore world.core 0 = true ∧ accessesDone world.core = true) ∧
    (let s := { faulting 1 with core := { (faulting 1).core with pending := none } }
     s.core.pending = none ∧ settledBefore s.core 1 = false) ∧
    ((faulting 1).core.pending = some ⟨1, 0, ⟨1, 0, false, 0⟩⟩ ∧ settledBefore (faulting 1).core (min 1 2) = false) ∧
    (let s := (faulting 0).onCore (fun c => { c with issued := some [] })
     s.core.issued ≠ none ∧ s.core.user.a.entries.head? = some (standing 0)) ∧
    (accessesDone (faulting 0).core = true ∧ accessesDone ((faulting 0).onCore (fun c => { c with flight := [barred] })).core = false) ∧
    (∀ e, earlierMoves (faulting 0) 0 ≠ some e ∧ earlierMoves ((faulting 0).onCore (fun c => { c with flight := [barred] })) 0 ≠ some e) := by
  refine ⟨by decide +kernel, by decide +kernel, by decide +kernel, by decide +kernel, by decide +kernel, by decide +kernel,
    by decide +kernel, by decide +kernel, ?_⟩
  intro e
  cases e <;> decide +kernel

theorem witness_TrapTakesItsTrap :
    Settled world [] ∧ settledBefore world.core world.core.ord = true ∧ accessesDone world.core = true ∧ world.core.csr.status.getLsbD 3 = false ∧
    handlerEntry world = some 0x250000 := by unfold Settled Unstopped; decide +kernel

theorem witness_EretReturnsFromTheHandler :
    ∀ b, let s := handling b
      Settled s [] ∧ s.core.csr.status.getLsbD 1 = true ∧ s.core.filled = false ∧
      (∀ e ∈ engines, (s.core.trap.get e).entries = []) ∧ s.core.mcmd = none ∧ s.core.ycmds = [] ∧
      accessesDone s.core = true ∧ s.core.csr.status.getLsbD 4 = b := by unfold Settled Unstopped; decide +kernel

/-- A saved image of a run of job 1 at 0x400000: registers of zeros, and the M configuration of reset. -/
def imaged : State :=
  let zeros := 0x507F0000 * ((2 ^ 1024 - 1) / (2 ^ 32 - 1))
  { ruler with
    mem := poke (poke (poke (poke (poke (poke ruler.mem 0x44C400 128 zeros) 0x44C480 128 zeros) 0x44CA40 8 1) 0x44C300 96
      (zeros % 2 ^ 512 + (1 + 2 ^ 32 + 2 ^ 64 + 2 ^ 96) * 2 ^ 640)) 0x44C360 8 0x0001010040004030) 0x44CA58 8 0x100
    core := { ruler.core with tlb := [⟨1, ⟨0x7, 0, 2 ^ 30, 0⟩⟩], s := ruler.core.s.setIfInBounds 1 0x400000 } }

/-- An M command in progress. -/
def mcommand : MCommand :=
  { ord := 0, trap := false, word := (encode (.mma 0 0 0 1 2)).getD 0, caps := [0, 0x30000], dual := 0, counts := [64, 64, 64, 64],
    pages := [], job := 1, todo := [], got := [], writes := [], flags := 0, raise := 0, claims := [], locks := [] }

/-- The M command in progress, with lines to read and to write. -/
def matrixBusy (todo : List Nat) (writes : List MWrite) : State :=
  { ruler with core := { ruler.core with mcmd := some { mcommand with todo := todo, writes := writes } } }

def busyM : State := matrixBusy [] []

theorem witness_SpillAndFillMoveTheImage :
    (Settled ruler [] ∧ ruler.core.csr.status.getLsbD 1 = true ∧ spillReady ruler.core = true ∧ ruler.core.mcmd = none) ∧
    (Settled busyM [] ∧ spillReady busyM.core = false ∧ busyM.core.mcmd ≠ none) ∧
    (Settled imaged [1] ∧ imaged.core.csr.status.getLsbD 1 = true ∧ spillReady imaged.core = true ∧
      (sreg imaged.core 1).toNat % 128 = 0 ∧ (released imaged).core.run.map RunInfo.job = some 1 ∧
      imageBytes (released imaged) 0x400000 0x4CA40 8 % 2 ^ 10 = 1 ∧ (imageSlot (released imaged) 1 0).isSome = true) ∧
    (let other := { imaged with mem := poke imaged.mem 0x44CA40 8 2 }
     imageBytes (released other) 0x400000 0x4CA40 8 % 2 ^ 10 ≠ 1) := by unfold Settled Unstopped; decide +kernel

theorem witness_SpillAndFillMoveTheImage_readable :
    got (imageReadable (released imaged) 0x400000) (fun _ => true) = true := by decide +kernel

theorem witness_SpillAndFillMoveTheImage_range :
    imageInRange (imageBytes (released imaged) 0x400000) = true := by decide +kernel

theorem witness_MaintenanceWordsActOnTheCaches :
    Settled ruler [1, 2] ∧ storesMade ruler.core = true ∧ drainable ruler = true ∧ (released ruler).core.run.map RunInfo.job = some 1 ∧
    ruler.core.csr.status.getLsbD 1 = true ∧ rangeBusy (released ruler) 1 0 (2 ^ 20) = false ∧
    ((activeRings ruler.core).get .X).entries = [] := by unfold Settled Unstopped; decide +kernel

/-- The world with the word that stands at pc + 4 in the instruction cache. -/
def before (w : IWord) (tmode : BitVec 2) : State :=
  worldC (fun c => { c with icache := [(0x1004, w)], csr := { c.csr with tmode := tmode } })

theorem witness_PrefixesAndUndecodableWords :
    let vadd : IWord := 0x408E4940
    let adda : IWord := (encode (.adda 1 2 3)).getD 0
    let mma : IWord := (encode (.mma 0 0 0 1 2)).getD 0
    let addi : IWord := (encode (.addi 1 2 3)).getD 0
    let next (w : IWord) (tm : BitVec 2) (ok : IWord → Core → Bool) : Bool :=
      (before w tm).core.pending.isNone && !(before w tm).core.seq.running &&
      got (fetchWord ((before w tm).core.pc + 4) (before w tm)) (fun q => ok q.1 q.2.core)
    next vadd 3 (fun w c => decide (w.extractLsb' 29 3 = 2 ∧ (3 : BitVec 2).toNat ≤ c.csr.tmode.toNat) && c.csr.features.getLsbD 0) = true ∧
    next vadd 0 (fun w c => decide (w.extractLsb' 29 3 = 2 ∧ c.csr.tmode.toNat < (1 : BitVec 2).toNat)) = true ∧
    next mma 1 (fun w c => decide (w.extractLsb' 29 3 = 3 ∧ w.extractLsb' 23 6 = 2) && c.csr.features.getLsbD 0) = true ∧
    next adda 0 (fun w _ => decide (w.extractLsb' 29 3 = 1)) = true ∧
    next addi 0 (fun w _ => extendableCode w && decide (w.extractLsb' 29 3 ≠ 2 ∧ w.extractLsb' 29 3 ≠ 3 ∧ w.extractLsb' 29 3 ≠ 1)) = true ∧
    next vadd 0 (fun w _ => extendableCode w == false) = true ∧
    (let q : IWord := (encode (.seqf 1)).getD 0
     let r : IWord := (encode (.seql 0)).getD 0
     let block (w : IWord) : List SeqWord := [⟨w, []⟩, ⟨vadd, []⟩]
     (block q).drop 0 = ⟨q, []⟩ :: ⟨vadd, []⟩ :: [] ∧ (block r).drop 0 = ⟨r, []⟩ :: ⟨vadd, []⟩ :: [] ∧
     encode (.seqf 1) = some q ∧ encode (.seql 0) = some r) ∧
    (let running := worldC (fun c => { c with seq := nest })
     running.core.seq.running = true ∧ inTrap running.core = false ∧ running.core.pending = none ∧
     (adda.extractLsb' 29 3 ≠ 0 ∧ adda.extractLsb' 29 3 ≠ 5 ∧ adda.extractLsb' 29 3 ≠ 7)) ∧
    (let off := worldC (fun c => { c with pc := 0x40000000 })
     off.core.seq.running = false ∧ (match fetchWord (off.core.pc + 4) off with | .error (.fault _) => true | _ => false) = true) := by
  decide +kernel

theorem witness_EngineWordsPassThroughTheirRing :
    let s := worldC (fun c => { c with pfx := some ((encode (.tkn 3 0)).getD 0), tokens := c.tokens.setIfInBounds 3 1 })
    EngineReady .A (.adda 1 2 3) (.adda 1 2 3) s ∧ s.core.storeQ = [] ∧ swf 0#8 s.mem.bytes = true ∧
    EngineReady .A (.adda 1 2 3) (.adda 1 2 3) (handling false) ∧ inTrap (handling false).core = true := by
  unfold EngineReady Unstopped; decide +kernel

theorem witness_AddressWordsWriteTheirResult :
    EngineReady .A (.mulai 1 2 3) (.mulai 1 2 3) world ∧ EngineReady .A (.movsa 1 2) (.movsa 1 2) world ∧
    EngineReady .A (.movas 1 2) (.movas 1 2) world := by unfold EngineReady Unstopped; decide +kernel

/-- The world with an address in a2 and s2, a value in s3 and s4, and a line of raw data at 0x270000 and in the scratchpad. -/
def pointing (va : Word) : State :=
  let s := worldC (fun c => addrs [(2, va)] (regs [(1, 2), (2, va), (3, 7), (4, 7)] c))
  { s with mem := poke (poke s.mem 0x270000 8 7) (placeScratch 0 0x400) 8 7 }

/-- An A word is ready there, nothing holds stream 0, its access is checked, and the line is as asked. -/
def reaches (i : Instr) (k : AccessKind) (va : Word) (n : Nat) (ok : State → Page → Bool) (s : State) : Prop :=
  EngineReady .A i i s ∧ (streamReady (carriesA i s) 0 (actsA i s)).isOk = true ∧
    got (reach (carriesA i s) 0 va k va n (actsA i s)) (fun q => ok q.2 q.1) = true

/-- The same of an access at its home, after the core's own queued stores to the line. -/
def homes (i : Instr) (k : AccessKind) (va : Word) (n : Nat) (ok : State → Page → Bool) (s : State) : Prop :=
  EngineReady .A i i s ∧ (streamReady (carriesA i s) 0 (actsA i s)).isOk = true ∧
    got (reachHome (carriesA i s) 0 va k va n (actsA i s)) (fun q => ok q.2 q.1) = true

/-- The A word's store is checked, and nothing holds it back. -/
def storesAt (i : Instr) (va : Word) (n : Nat) (s : State) : Prop :=
  EngineReady .A i i s ∧ (streamReady (carriesA i s) 0 (actsA i s)).isOk = true ∧
    got (checkLine (carriesA i s) va .store va n (actsA i s)) (fun p =>
      let u := touchPage p va (actsA i s)
      u.core.holdAccess.isEmpty && u.core.storeQ.isEmpty && u.core.holdStore.isEmpty && !lineHeld u (p.place va) &&
      !accessHeld u.core.flight (carriesA i s).ord (carriesA i s).trap 0 false) = true

theorem witness_ScalarLoadsAndStoresMoveTheBytes :
    let s := pointing 0x270000
    let finds (u : State) (p : Page) : Option Flt := loadFault (ownView (settleOwn (p.place 0x270000) u) (p.place 0x270000)) p 0x270000 8
    reaches (.lds 1 2 3 0 0) .load 0x270000 8 (fun u p => (finds u p).isNone) s ∧
    reaches (.lds 1 2 3 0 0) .load 0x270000 8 (fun u p => (finds u p).isSome)
      { s with mem := { s.mem with poison := sset false s.mem.poison (0x270000 / 8) true } } ∧
    reaches (.lda 1 2 0) .load 0x270000 8 (fun u p => (finds u p).isNone) s ∧
    storesAt (.sts 1 2 0 0) 0x270000 1 s ∧ storesAt (.sta 1 2 0) 0x270000 8 s ∧
    (let t := pointing 0x270001
     EngineReady .A (.sts 1 2 1 0) (.sts 1 2 1 0) t ∧ (0x270001 : Word).toNat % 2 ≠ 0 ∧
     (checkedPage (actsA (.sts 1 2 1 0) t) .store 0x270001 1).isOk = true ∧
     EngineReady .A (.lds 1 2 1 1 0) (.lds 1 2 1 1 0) t ∧ (checkedPage (actsA (.lds 1 2 1 1 0) t) .load 0x270001 1).isOk = true) := by
  unfold reaches storesAt EngineReady Unstopped; decide +kernel

theorem witness_FullEmptyWordsActOnTheirBits :
    let s := pointing 0x80000400
    let fullAt (s : State) : State := { s with mem := { s.mem with full := sset false s.mem.full (placeScratch 0 0x400 / 8) true } }
    let va : Word := 0x80000400
    let at_ (i : Instr) (k : AccessKind) (t : State) (ok : State → Nat → Bool) (s : State) : Prop :=
      EngineReady .A i i s ∧ (streamReady (carriesA i s) 0 (actsA i s)).isOk = true ∧
      got (checkLine (carriesA i s) va k va 8 (actsA i s)) (fun p => got (reach (carriesA i s) 0 va k va 8 t) (fun q =>
        decide (q.1 = p) && ok q.2 (p.place va) && (loadFault (leaveHome q.2) p va 8).isNone)) = true
    let full (u : State) (pl : Nat) : Bool := sget false u.mem.full (pl / 8)
    let released (i : Instr) (s : State) : Prop := AccessesReleased (actsA i s) s.core.ord
    let ld (i : Instr) (ok : State → Nat → Bool) (s : State) : Prop := at_ i .core (actsA i s) ok s
    let st (ok : State → Nat → Bool) (s : State) : Prop :=
      released (.ste 1 2 0) s ∧ at_ (.ste 1 2 0) .coreStore (drainStores (actsA (.ste 1 2 0) s)) ok s
    ld (.ldf 1 2 0) (fun u pl => full u pl && firstAtHome u pl true) (fullAt s) ∧ ld (.ldf 1 2 0) (fun u pl => !full u pl) s ∧
    ld (.ldft 1 2 0) (fun u pl => full u pl && firstAtHome u pl true) (fullAt s) ∧ ld (.ldft 1 2 0) (fun u pl => !full u pl) s ∧
    st (fun u pl => !full u pl && firstAtHome u pl false) s ∧ st (fun u pl => full u pl) (fullAt s) ∧
    (let i : Instr := .feset 2 1 1
     EngineReady .A i i s ∧ (streamReady (carriesA i s) 0 (actsA i s)).isOk = true ∧ (sreg s.core 1).toNat ≠ 0 ∧
     (sreg world.core 1).toNat = 0 ∧ (areg s.core 2).toNat % 8 = 0 ∧ (areg (pointing 0x80000401).core 2).toNat % 8 ≠ 0 ∧
     released i s ∧ accessHeld (actsA i s).core.flight s.core.ord (inTrap s.core) 0 false = false ∧
     got (corePages .core 8 true none (actsA i s) (2 / 8192 + 2) va 2)
       (fun parts => !partsHeld (actsA i s) (carriesA i s) 8 parts) = true) := by
  unfold AccessesReleased EngineReady Unstopped; decide +kernel

theorem witness_AtomicsDeliverTheOldValue :
    let s := pointing 0x270000
    let atomic (i : Instr) (n : Nat) (ty : BitVec 3) : Prop :=
      homes i .atomic 0x270000 n (fun u p => (atomChecked u p 0x270000 ty).isOk) s
    s.core.csr.features.getLsbD 2 = true ∧ atomic (.aadd 1 2 3 0) 4 0 ∧ atomic (.amin 1 2 3 2) 4 2 ∧ atomic (.amax 1 2 3 5) 8 5 ∧
    atomic (.axor 1 2 3 4) 8 4 ∧ atomic (.aswap 2 2 4 6) 16 6 ∧ atomic (.acas 2 2 4 6 6) 16 6 := by
  unfold homes EngineReady Unstopped; decide +kernel

/-- The world with a continuation's template at 0x270020, of the function at index 0, whose table entry allows it. -/
def continuing (launch : Sparse (List Entry)) : State :=
  let s := worldC (fun c => addrs [(2, 0x80000400)] (regs [(3, 7), (4, 9), (5, 0x270020)] c))
  { s with
    mem := poke (poke (poke s.mem 0x270020 24 0) (placeScratch 0 0x400) 8 7) 0x230000 16 (0x240000 + 2 ^ 80)
    launch := launch }

theorem witness_AcontComparesAndLaunches :
    let full : Sparse (List Entry) := [(0, List.replicate 16 ⟨0, 0, 0, 0, 2, 0, 1⟩)]
    let i : Instr := .acont 1 2 3 4 3
    let finds (s : State) (x : Nat) (room held page : Bool) : Bool :=
      let tp := sreg s.core 5
      got (consumeBytes (carriesA i s) tp 8 (actsA i s)) (fun q => got (contChecked (BitVec.ofNat 64 q.1) q.2) (fun u2 =>
        got (reachHome (carriesA i s) 0 0x80000400 .atomic 0x80000400 8 u2) (fun z => got (atomChecked z.2 z.1 0x80000400 3) (fun m =>
          decide (m = x) && (match z.2.core.run with
          | some r => launchRoom z.2 (launchQueueOf z.1 (z.1.place 0x80000400)) == room && templateHeld z.2 r tp == held &&
            (templatePage (unstall (writeBytes z.2 z.1 0x80000400 8 9)) r tp).isSome == page
          | none => false)))))
    let seen (e : TlbEntry) : State := (continuing []).onCore (fun c => { c with tlb := e :: c.tlb })
    let lost : State := (seen ⟨1, ⟨7, 0, 2 ^ 30, 0x40000000⟩⟩).onCore (regs [(5, 0x40270020)])
    let held : State :=
      let s := seen ⟨1, ⟨0x280007, 0, 2 ^ 16, 0x270000⟩⟩
      { s with mem := poke s.mem 0x280020 24 0, stalled := [waiting 1 0x270020 flat] }
    EngineReady .A i i (continuing []) ∧ (streamReady (carriesA i (continuing [])) 0 (actsA i (continuing []))).isOk = true ∧
    (continuing []).core.csr.features.getLsbD 1 = true ∧ (sreg (continuing []).core 5).toNat % 32 = 0 ∧
    finds (continuing []) 7 true false true = true ∧ finds (continuing full) 7 false false true = true ∧
    finds lost 7 true false false = true ∧ finds held 7 true true true = true ∧ EngineReady .A i i lost ∧ EngineReady .A i i held ∧
    (EngineReady .A i i (continuing full) ∧ (sreg (continuing []).core 3).toNat = 7 ∧ (sreg (continuing []).core 4).toNat ≠ 7) := by
  unfold EngineReady Unstopped; decide +kernel

theorem witness_FencesWaitForEarlierAccesses :
    let passes (i : Instr) (b : Barrier) (s : State) : Prop :=
      let t := actsA i s
      EngineReady .A i i s ∧ sinkFault t.core b.before.toNat = none ∧ t.core.holdAccess = [] ∧
      barrierWaits t.core.flight s.core.ord (inTrap s.core) b t.core = false ∧
      storesWait s.core.ord b (drainFor b t).core = false
    passes (.sbar 4 1 2) ⟨0, false, 0, false⟩ world ∧
    (let s := worldC (regs [(1, 0xFFFF)])
     let i : Instr := .sbar 0 1 2
     passes i ⟨0xFFFF, false, 0, false⟩ s ∧
     ∀ st < 16, (0xFFFF).testBit st = true → (runOf (actsA i s).core st).kind = .sink →
       runHolds (actsA i s).core s.core.ord st = false) ∧
    (∀ m ∈ [0, 1, 2], passes (.fence 4 (BitVec.ofNat 2 m)) ⟨0xFFFF, m == 0, 0xFFFF, m == 1⟩ world) ∧
    earlierSinks (actsA (.fence 4 2) world).core world.core.ord = false ∧
    (EngineReady .A .fencesc .fencesc world ∧ sinkFault (actsA .fencesc world).core 0xFFFF = none) ∧
    (EngineReady .A .rcfence .rcfence world ∧ earlierSinks (actsA .rcfence world).core world.core.ord = false ∧
      storesFly world.core = false ∧ drainable (actsA .rcfence world) = true) ∧
    (let i : Instr := .ownwait 2 1
     let s := pointing 0x80000400
     EngineReady .A i i s ∧ (streamReady (carriesA i s) 0 (actsA i s)).isOk = true ∧
     got (corePages .core 1 false none (actsA i s) (2 / 65536 + 2) 0x80000400 2)
       (fun parts => !partsHeld (actsA i s) (carriesA i s) 1 parts) = true ∧
     EngineReady .A i i world ∧ (sreg world.core 1).toNat = 0) ∧
    (let s := worldC (fun c => { c with user := { c.user with a := ⟨1, 0, [standing 0]⟩ } })
     s.parked = [] ∧ s.core.run.isSome = true ∧ s.core.storeQ = [] ∧ s.core.pending = none ∧
     (activeRings s.core).a.entries = [standing 0] ∧ (standing 0).pfx = none ∧ encode .fencesc = some (standing 0).word ∧
     sinkFault s.core 0xFFFF = none ∧ earlierRuns s.core (standing 0).ord = false ∧ accessesDone s.core = true) := by
  unfold EngineReady Unstopped; decide +kernel

theorem witness_BindingWordsAndQstat :
    let s := worldC (fun c => { c with bnd := [(58, 3)] })
    (∀ e ∈ s.core.bnd, e.1 ≠ 56 + (1 : BitVec 3).toNat ∧ e.2 ≠ 4) ∧ EngineReady .A (.bind 4 1) (.bind 4 1) s ∧
    (∃ e ∈ s.core.bnd, e.1 = 56 + (2 : BitVec 3).toNat ∨ e.2 = 4) ∧ EngineReady .A (.bind 4 2) (.bind 4 2) s ∧
    EngineReady .A (.unbind 2) (.unbind 2) s ∧ EngineReady .A (.qstat 1 3) (.qstat 1 3) s := by
  unfold EngineReady Unstopped; decide +kernel

/-- A store of a byte at 0x270000 in the queue. -/
def queued : QueuedStore := ⟨0, 0, 0x270000, flat, 1, .bytes 1 1⟩

/-- The world with stream 5 stepping over T0 lines into or out of flume q. -/
def streaming (kind : RunKind) (q : Nat) (va : Word) (entries : List FlumeEntry) : State :=
  let s := worldC (fun c => { c with
    desc := c.desc.setIfInBounds 5 (BitVec.ofNat 256 (128 * 2 ^ 64 + q))
    runs := c.runs.setIfInBounds 5 ⟨kind, va, 0, 2, 0, none, 0, none⟩
    flumes := c.flumes.setIfInBounds q entries })
  { s with mem := poke s.mem 0x270000 128 7 }

theorem witness_StreamsAreDefinedAndStep :
    (let i : Instr := .strdef 5 2
     let s := pointing 0x270000
     let bad : State := { s with mem := poke s.mem 0x270000 32 8 }
     EngineReady .A i i s ∧ (streamReady (carriesA i s) 5 (actsA i s)).isOk = true ∧
     (streamReady (carriesA i s) 0 (actsA i s)).isOk = true ∧
     got (consumeBytes (carriesA i s) 0x270000 32 (actsA i s)) (fun q => descRefused (BitVec.ofNat 256 q.1) == false) = true ∧
     got (consumeBytes (carriesA i bad) 0x270000 32 (actsA i bad)) (fun q => descRefused (BitVec.ofNat 256 q.1)) = true) ∧
    (let i : Instr := .strgo 5 2 1
     let s := worldC (regs [(1, 2)])
     EngineReady .A i i s ∧ sinkFault (actsA i s).core (2 ^ 5) = none ∧ sreg s.core 1 ≠ 0 ∧
     ((actsA i s).core.desc[5]?.getD 0).toNat % 8 ≤ 5 ∧ ((actsA i s).core.runs[5]?.getD StreamRun.idle).kind = .none ∧
     EngineReady .A i i world ∧ sreg world.core 1 = 0) ∧
    (let i : Instr := .strsink 5 2 1
     let s := worldC (fun c => { regs [(1, 2)] c with desc := c.desc.setIfInBounds 5 6 })
     EngineReady .A i i s ∧ 6 ≤ ((actsA i s).core.desc[5]?.getD 0).toNat % 8 ∧
     EngineReady .A (.strstop 5 1) (.strstop 5 1) s ∧ sinkFault (actsA (.strstop 5 1) s).core (2 ^ 5) = none) ∧
    (let tried (s : State) (load : Bool) : Chk State :=
       let r := s.core.runs[5]?.getD StreamRun.idle
       let d := s.core.desc[5]?.getD 0
       if load then issueLoad 5 (stepCtx r) d (stepVa d r.base r.next.toNat) s
       else issueStore 5 (stepCtx r) d (stepVa d r.base r.next.toNat) s
     let faults (t : Chk State) : Bool := match t with | .error (.fault _) => true | _ => false
     let zero : FlumeEntry := entryFor 0 VReg.zero []
     (tried (streaming .generator 2 0x270000 []) true).isOk = true ∧
     (tried (streaming .sink 6 0x270000 [zero]) false).isOk = true ∧
     faults (tried (streaming .generator 2 0x40000000 []) true) = true ∧
     faults (tried (streaming .sink 6 0x40000000 [zero]) false) = true ∧
     inTrap (streaming .generator 2 0x270000 []).core = false ∧ inTrap (handling false).core = true) ∧
    (let r := (streaming .generator 2 0x270000 []).core.runs[5]?.getD StreamRun.idle
     r.left ≠ 0 ∧ r.flt = none ∧ r.kind = .generator) ∧
    (let s := worldC (fun c => { c with storeQ := [queued] })
     flyingParts s = [] ∧ matrixParts s = [] ∧ copyPartsOf s = [] ∧ s.core.storeQ = queued :: [] ∧ storeHeld s queued = false) ∧
    (flyingParts (worldC (fun c => { c with flight := [barred] })))[0]? = some (.read 0 0) := by
  unfold EngineReady Unstopped; decide +kernel

/-- A lattice in which every format computes in itself. -/
def lattice : BitVec 8192 := BitVec.ofNat 8192 ((List.range 22).foldl (fun v f => v + f * 256 ^ (33 * f)) 0)

/-- The world with zeros of format f in v1, v2 and v4, and of format g in v3; s3 = 2. -/
def vectors (f g : Nat) (tmode : BitVec 2) : State :=
  worldC (fun c => { regs [(3, 2)] c with
    lattice := lattice, csr := { c.csr with tmode := tmode }
    v := (((c.v.setIfInBounds 1 ⟨0, plainTag f⟩).setIfInBounds 2 ⟨0, plainTag f⟩).setIfInBounds 4 ⟨0, plainTag f⟩).setIfInBounds 3
      ⟨0, plainTag g⟩ })

/-- The X word's sources ns are read, none is INVALID, and they are as asked. -/
def sources (i : Instr) (ns : List (BitVec 6)) (s : State) (ok : Core → List Src → Bool) : Bool :=
  got (readAllV (carriesX i s) ns (actsX i s)) (fun rs => (consume (actsX i s).core rs).isOk && ok (actsX i s).core rs)

/-- vd may be written: no claim holds it and no flume is bound to it. -/
def free (i : Instr) (ns : List (BitVec 6)) (d : BitVec 6) (s : State) : Bool :=
  (bindingOf (carriesX i s).bnd d.toNat).isNone &&
    !(lockedFor (popSources (carriesX i s) ns (actsX i s)).core (carriesX i s).ord).contains d.toNat

/-- The destination v1 may be read as the old value of a result with the tag, and written. -/
def delivers (i : Instr) (ns : List (BitVec 6)) (t : Tag) (s : State) : Bool :=
  (oldReg (carriesX i s) 1 true t (actsX i s)).isOk && free i ns 1 s

/-- The word computes in a format that it takes, and delivers. -/
def computes (ok : Nat → Bool) (s : State) (i : Instr) (ns : List (BitVec 6)) : Bool :=
  sources i ns s (fun c rs => got (computeFormat (carriesX i s) c rs) (fun q => ok q.1 && delivers i ns (plainTag q.1) s))

theorem witness_VectorArithmeticComputesEachLane :
    let s := vectors 10 10 1
    (∀ i ∈ ([.vadd 1 2 3 1, .vsub 1 2 3 0, .vmul 1 2 3 0, .vmin 1 2 3 0, .vmax 1 2 3 0, .vcmulj 1 2 3 0, .vdiv 1 2 3 0] : List Instr),
      XReady i s ∧ computes floatFmtOf s i [2, 3] = true) ∧
    (∀ i ∈ ([.vfma 1 2 3 0, .vfms 1 2 3 0, .vfnma 1 2 3 0] : List Instr), XReady i s ∧ computes anyFmt s i [2, 3, 1] = true) ∧
    (∀ i ∈ ([.vabs 1 2 0, .vneg 1 2 0, .vconj 1 2 0, .vsqrt 1 2 0, .vrcp 1 2 0, .vrsq 1 2 0, .vexp2 1 2 0, .vlog2 1 2 0,
        .vsin 1 2 0, .vcos 1 2 0, .vtanh 1 2 0, .vscale 1 2 3 0] : List Instr),
      XReady i s ∧ computes floatFmtOf s i [2] = true) ∧
    (XReady (.vadd 1 2 3 0) (vectors 5 5 0) ∧ computes isInt (vectors 5 5 0) (.vadd 1 2 3 0) [2, 3] = true) := by
  unfold XReady EngineReady Unstopped; decide +kernel

theorem witness_LanesWrapOrRound :
    (let l : Lane := ⟨5, .rne, true, true, true, decodeElem 5 (2 ^ 31), decodeElem 5 (2 ^ 32 - 1), decodeElem 5 0⟩
     isInt l.f = true ∧ l.allInt = true ∧ 2 ^ 31 < 2 ^ elemBits l.f ∧ 2 ^ 32 - 1 < 2 ^ elemBits l.f ∧
     l.a = decodeElem l.f (2 ^ 31) ∧ l.b = decodeElem l.f (2 ^ 32 - 1) ∧ l.c = decodeElem l.f 0) := by decide +kernel

theorem witness_BitwiseWordsComputeOnStoredBits :
    let s := vectors 5 5 0
    let goes (i : Instr) (ns : List (BitVec 6)) : Bool := sources i ns s (fun _ _ => delivers i ns (plainTag 5) s)
    (∀ i ∈ ([.vand 1 2 3 16, .vor 1 2 3 0, .vxor 1 2 3 0, .vshl 1 2 3 0, .vshr 1 2 3 0] : List Instr),
      XReady i s ∧ goes i [2, 3] = true) ∧
    (∀ i ∈ ([.vnot 1 2 0, .vclz 1 2 0, .vpopc 1 2 0] : List Instr), XReady i s ∧ goes i [2] = true) ∧
    (let i : Instr := .vand 1 2 3 0
     let t := vectors 5 6 0
     XReady i t ∧ sources i [2, 3] t (fun _ rs => decide (tagFmt (srcOf rs 0).tag ≠ tagFmt (srcOf rs 1).tag)) = true) ∧
    (let i : Instr := .vclz 1 2 0
     let t := vectors 10 10 0
     XReady i t ∧ sources i [2] t (fun _ rs => !isInt (srcOf rs 0).fmt && decide ((srcOf rs 0).fmt ≠ 0)) = true) := by
  unfold XReady EngineReady Unstopped; decide +kernel

theorem witness_PredicatesAreComparedCombinedAndQueued :
    let s := vectors 10 10 0
    let full := s.onCore (fun c => { c with bq := List.replicate 16 0 })
    (XReady (.vcmp 5 1 2 3 0) s ∧ computes (fun f => !isComplex f) s (.vcmp 5 1 2 3 0) [2, 3] = true) ∧
    (let t := vectors 21 21 0
     XReady (.vcmp 1 1 2 3 0) t ∧ computes isComplex t (.vcmp 1 1 2 3 0) [2, 3] = true) ∧
    (XReady (.vsel 1 2 3 0) s ∧ sources (.vsel 1 2 3 0) [2, 3] s (fun _ rs =>
      tagsAgree (srcOf rs 0).tag (srcOf rs 1).tag && delivers (.vsel 1 2 3 0) [2, 3] (plainTag 10) s) = true) ∧
    (∀ i ∈ ([.pand 1 2 3, .por 1 2 3, .pxor 1 2 3, .pnot 1 2, .ptail 1 3, .pcnt 1 2 3, .pfirst 1 2 3, .vtagq 2, .vbq 2 1 3] :
      List Instr), XReady i s) ∧
    ((readAllV (carriesX (.vtagq 2) s) [2] (actsX (.vtagq 2) s)).isOk = true ∧ (actsX (.vbq 2 1 3) s).core.bq.length < 16) ∧
    (XReady (.vbq 0 1 3) full ∧ 16 ≤ (actsX (.vbq 0 1 3) full).core.bq.length) := by
  unfold XReady EngineReady Unstopped; decide +kernel

theorem witness_ConversionWordsConvertEachLane :
    let s := vectors 10 10 0
    let one (s : State) (i : Instr) (ok : Core → Src → Bool) : Bool :=
      sources i [2] s (fun c rs => match rs with | [va] => ok c va | _ => false)
    (∀ i ∈ ([.vcvt 1 2 10 4 0 0, .vqnt 1 2 10 0 1 0] : List Instr),
      XReady i s ∧ one s i (fun _ va => !convForbidden va.fmt 10 && delivers i [2] (plainTag 10) s) = true) ∧
    (XReady (.vcvt 1 2 0 0 0 0) s ∧ one s (.vcvt 1 2 0 0 0 0) (fun _ va => convForbidden va.fmt 0) = true) ∧
    (let t := vectors 11 11 0
     let i : Instr := .vcvth 1 2 9 1 0
     XReady i t ∧ one t i (fun _ va => !convForbidden va.fmt 9 && decide (2 * regCount 9 = va.count)) = true) ∧
    (let t := vectors 9 9 0
     let i : Instr := .vcvth 3 2 10 1 0
     let u := t.onCore (fun c => { c with v := c.v.setIfInBounds 3 ⟨0, plainTag 10⟩ })
     XReady i u ∧ one u i (fun _ va => !convForbidden va.fmt 10 && decide (regCount 10 = 2 * va.count)) = true ∧
     (oldReg (carriesX i u) 3 true (plainTag 10) (actsX i u)).isOk = true ∧ free i [2] 3 u = true) ∧
    (XReady (.vcvth 1 2 10 0 0) s ∧ one s (.vcvth 1 2 10 0 0) (fun _ va =>
      !convForbidden va.fmt 10 && decide (2 * regCount 10 ≠ va.count ∧ regCount 10 ≠ 2 * va.count)) = true) ∧
    (let tagging (v : Word) : State := s.onCore (regs [(5, v)])
     let i : Instr := .vtag 1 2 5
     ∀ v ∈ [0x507F0000, 0xB07F0000], XReady i (tagging (BitVec.ofNat 64 v)) ∧ free i [2] 1 (tagging (BitVec.ofNat 64 v)) = true ∧
       one (tagging (BitVec.ofNat 64 v)) i (fun _ _ =>
         tagMalformed (BitVec.ofNat 32 v) == decide (v = 0xB07F0000)) = true) := by
  unfold XReady EngineReady Unstopped; decide +kernel

theorem witness_ReductionsAndMovesPlaceEachLane :
    let s := vectors 10 5 0
    (∀ i ∈ ([.vred 1 2 5 0, .vscan 1 2 5 0] : List Instr), XReady i (vectors 5 5 0) ∧
      sources i [2] (vectors 5 5 0) (fun c rs => rs.length == 1 && got (computeFormat (carriesX i (vectors 5 5 0)) c rs)
        (fun q => redAllowed 5 q.1 && delivers i [2] (plainTag q.1) (vectors 5 5 0))) = true) ∧
    (let i : Instr := .vperm 1 2 3 0
     XReady i s ∧ sources i [2, 3] s (fun _ rs => decide ((srcOf rs 1).fmt = 5) && delivers i [2, 3] (plainTag 10) s) = true) ∧
    (let i : Instr := .vslide 1 2 63 0
     XReady i s ∧ sources i [2] s (fun _ rs => rs.length == 1) = true) ∧
    (let i : Instr := .vrgath 1 8 3 0
     XReady i s ∧ got (readAllV (carriesX i s) [8, 3] (actsX i s)) (fun rs => decide ((srcOf rs 1).fmt = 5) &&
       got (readAllV (carriesX i s) ([0].map (gatherName 8)) (actsX i s)) (fun qs =>
         (consume (actsX i s).core (qs ++ [srcOf rs 1])).isOk)) = true) ∧
    (∀ i ∈ ([.vbcast 1 10 3 0, .viota 1 0, .vmov 1 2 0] : List Instr), XReady i s) ∧
    delivers (.vbcast 1 10 3 0) [] (plainTag 10) s = true ∧
    (readAllV (carriesX (.vmov 1 2 0) s) [2] (actsX (.vmov 1 2 0) s)).isOk = true := by
  unfold XReady EngineReady Unstopped; decide +kernel

theorem witness_PartitionsAndTangentWordsWriteTheirLanes :
    let s := (vectors 10 5 1).onCore (fun c => { c with bnd := [(60, 6)] })
    let room (i : Instr) (ns : List (BitVec 6)) (n : Nat) : Prop :=
      TakesEntries (carriesX i s) 6 n (popSources (carriesX i s) ns (actsX i s))
    (let i : Instr := .vpart 60 2 3 0
     XReady i s ∧ bindingOf (carriesX i s).bnd 60 = some 6 ∧ room i [2, 3] 4 ∧
     sources i [2, 3] s (fun _ rs => !isScaled (srcOf rs 0).fmt && decide ((srcOf rs 1).fmt = 5)) = true ∧
     XReady (.vpart 1 2 3 0) s ∧ bindingOf (carriesX (.vpart 1 2 3 0) s).bnd 1 = none) ∧
    (let i : Instr := .vappend 60 2 0
     XReady i s ∧ bindingOf (carriesX i s).bnd 60 = some 6 ∧ room i [2] 1 ∧
     sources i [2] s (fun _ rs => !isScaled (srcOf rs 0).fmt) = true ∧
     XReady (.vappend 1 2 0) s ∧ bindingOf (carriesX (.vappend 1 2 0) s).bnd 1 = none) ∧
    (let i : Instr := .vtget 1 2 1 0
     XReady i s ∧ (1 : BitVec 2).toNat ≤ (actsX i s).core.csr.tmode.toNat ∧
     sources i [2] s (fun _ _ => delivers i [2] (plainTag 10) s) = true ∧ XReady (.vtget 1 2 2 0) s ∧
     (actsX (.vtget 1 2 2 0) s).core.csr.tmode.toNat < (2 : BitVec 2).toNat) ∧
    (let i : Instr := .vtset 1 2 1 0
     XReady i s ∧ sources i [2] s (fun c rs => decide ((srcOf rs 0).fmt = tangentFmt 10) &&
       decide (tagFmt (c.v[1]?.getD VReg.zero).tag = 10)) = true ∧ (lockedFor (actsX i s).core (carriesX i s).ord).contains 1 = false) ∧
    (∀ t ∈ ([0, 1] : List (BitVec 2)), XReady (.vtzero 1 t 0) s ∧ t.toNat ≤ (actsX (.vtzero 1 t 0) s).core.csr.tmode.toNat) ∧
    (lockedFor (actsX (.vtzero 1 0 0) s).core (carriesX (.vtzero 1 0 0) s).ord).contains 1 = false := by
  unfold XReady EngineReady Unstopped TakesEntries; decide +kernel

/-- The world with a2 at 0x270000, five lines of tag t from there, and flumes 6 and 7 as given. -/
def lined (t : Tag) (q6 q7 : List FlumeEntry) : State :=
  let s := worldC (fun c => { addrs [(2, 0x270000)] c with flumes := (c.flumes.setIfInBounds 6 q6).setIfInBounds 7 q7 })
  (List.range 5).foldl (fun s k => lineAt (0x270000 + 128 * k) t s) s

/-- An A word that is ready, with its stream, and the rest as asked. -/
def readyWith (i : Instr) (st : Nat) (s : State) (ok : Ctx → State → Bool) : Prop :=
  EngineReady .A i i s ∧ (streamReady (carriesA i s) st (actsA i s)).isOk = true ∧ ok (carriesA i s) (actsA i s) = true

/-- An entry of zeros with a tag. -/
def entry (t : Tag) : FlumeEntry := ⟨0, t, false, [], none⟩

theorem witness_VectorLoadsPushRegisters :
    let va : Word := 0x270000
    let nothing (u : State) : Bool := u.core.flight.isEmpty && u.core.storeQ.isEmpty && u.core.holdAccess.isEmpty &&
      u.core.holdStore.isEmpty && u.stalled.isEmpty && u.pool.isNone
    let loads (check : State → Word → Word → Chk Page) (r : Reading) (n : Nat) (s : State) : Bool :=
      flumeRoom s.core 2 n 0 && got (loadOver (checkReader check) (fun a => (rawTag, a)) s.core.csr.tmode.toNat r (s, []))
        (fun q => q.1.length == n && nothing q.2.2.1)
    let straight (ea : Word) (x : Ctx) (s : State) (start va : Word) : Chk Page := checkFrom x ea start .load va 128 s
    readyWith (.vld 2 2 5 1 0) 5 (lined (plainTag 1) [] []) (fun x s =>
      loads (straight va x) (readingOf s.core 5 2 (.reg 1 false) va false) 1 s) ∧
    readyWith (.vld 2 2 5 1 0) 5 (lined (plainTag 10) [] []) (fun x s =>
      loads (straight va x) (readingOf s.core 5 2 (.reg 1 false) va false) 1 s) ∧
    readyWith (.vldc 2 2 5 1 0) 5 (worldC (addrs [(2, 0x80000000)])) (fun x s =>
      loads (fun t _ a => chainedLine x 0x80000000 a t) (readingOf s.core 5 2 (.reg 1 false) 0x80000000 false) 1 s) ∧
    (∀ f ∈ [17, 3, 10], readyWith (.vldp 2 2 5 0 0) 5 (lined (plainTag f) [] []) (fun x s =>
      loads (straight va x) (readingOf s.core 5 2 (.reg 0 true) va false) 2 s)) ∧
    EngineReady .A (.pref 2 2 5 0) (.pref 2 2 5 0) world ∧
    readyWith (.vldx 2 2 5 7) 5 (lined (plainTag 10) [] [entry (plainTag 6)]) (fun x s =>
      (gatherBase va).isOk && (flumeOf s.core 7).length == 1 && (indexChecked s.core (entry (plainTag 6))).isOk &&
      (let (c, m) := gatherCount s (entry (plainTag 6)) va
       loads (straight va x) (readingOf s.core 5 2 (.gather (entry (plainTag 6)) c m) va false) 1 (s.onCore (setFlume 7 [])) &&
       !(targets (entry (plainTag 6)) va c m).isEmpty)) := by
  unfold readyWith EngineReady Unstopped; decide +kernel

theorem witness_VectorLoadsPushRegisters_lines :
    let va : Word := 0x270000
    let s := worldC (fun c => { c with flight := [barred] })
    let r : Reading := ⟨0, .reg 0 false, va, 0, 0, 1, false, [(va, flat)], []⟩
    let read : Reading := { r with todo := [], got := [(va, ⟨plainTag 1, 0⟩)] }
    let rd (t : Tag) : LineReader State := fun _ _ s => .ok (⟨t, 0⟩, s)
    let ix := entry (plainTag 6)
    (s.core.flight[0]? = some barred ∧ barred.work = .load r ∧ r.todo[0]? = some (va, flat) ∧ read.todo = [] ∧
      (loadOver (gotReader read.got) (fun k => (Config.lateTag k, k + 1)) 0 read 0).isOk = true) ∧
    (rd (plainTag 1) va va s).isOk = true ∧ 64 ≤ tagCount (plainTag 1) ∧ tagCount (plainTag 10) < 64 ∧
    ([plainTag 1, plainTag 10].all (fun t => got (loadReg (rd t) va va 0 s) (fun x =>
      got (loadReg (rd t) va (va + 128) 0 x.2) (fun y => got (allTangents (rd t) 0 [x.1] 0 y.2) (fun z => z.1.length == 1) &&
        got (allTangents (rd t) 0 [x.1, y.1] 0 y.2) (fun z => z.1.length == 2))))) = true ∧
    (let f := tagFmt (plainTag 10)
     va = BitVec.ofNat 64 1 * 0 + BitVec.ofNat 64 1 * va + BitVec.ofNat 64 (256 / regCount f * 0)) ∧
    (match targets ix va 8 32 with | [] => true | w :: _ => isReserved (tagFmt (lineFor [] w.va).tag)) = false := by
  decide +kernel

/-- The world with a table of one header at 0x270000, and its work vector of INT32 elements at 0x271000: room for 40, 20 written. -/
def appending : State :=
  let s := lined rawTag [entry (plainTag 5)] []
  { s with mem := poke (poke (poke (poke s.mem 0x270000 8 0x271000) 0x271000 8 20) 0x271008 8 40) 0x271018 4 (plainTag 5).toNat }

theorem witness_VectorStoresPopAndWrite :
    let va : Word := 0x270000
    let e8 := entry (plainTag 1)
    let checks (x : Ctx) (ws : List (Word × Word × QueuedWrite)) (s : State) : Bool := got (checkStores x 5 va ws s) (fun q =>
      q.1.length == ws.length && q.2.core.flight.isEmpty && q.2.core.storeQ.isEmpty && q.2.core.holdAccess.isEmpty &&
      q.2.core.holdStore.isEmpty && q.2.stalled.isEmpty && q.2.pool.isNone)
    (∀ f ∈ [1, 13, 10], let t := plainTag f
      let writes : List (Word × Word × QueuedWrite) := if f = 1 then [(va, va, .half false 0 t)]
        else if f = 13 then [(va, va, .line 0 (mkTag 13 0 true 127 0))] else [(va, va, .line 0 t), (va, va + 128, .line 0 t)]
      readyWith (.vst 6 2 5 0 0) 5 (lined rawTag [entry t] []) (fun x s => (flumeOf s.core 6).length == 1 &&
        checks x (writes ++ entryTangents s.core 5 (entry t) va 0) (s.onCore (setFlume 6 [])))) ∧
    readyWith (.vst 6 2 5 2 0) 5 (lined rawTag [e8] []) (fun x s => (checkLine x va .store va 128 s).isOk) ∧
    readyWith (.vstp 6 2 5 0) 5 (lined rawTag [e8, e8] []) (fun x s => pairFmt (tagFmt e8.tag) && tagVc e8.tag == 0 &&
      checks x [(va, va, .line (pairLine .rne e8 e8).2.1 (pairLine .rne e8 e8).1)] (s.onCore (setFlume 6 [])) && tangentCount s.core 5 == 0) ∧
    readyWith (.vstp 6 2 5 0) 5 (lined rawTag [entry (plainTag 10), entry (plainTag 10)] []) (fun x s =>
      !pairFmt 10 && (checkLine x va .store va 128 s).isOk) ∧
    readyWith (.vstx 6 2 5 7) 5 (lined rawTag [entry (plainTag 10)] [entry (plainTag 6)]) (fun x s =>
      (gatherBase va).isOk && (indexChecked s.core (entry (plainTag 6))).isOk && !isScaled 10 &&
      (let ts := targets (entry (plainTag 6)) va (nativeCount 10) (regCount 10)
       got (scatterPages x va (distinctLines (ts.map Target.va)) s) (fun ps => tangentCount ps.2.core 5 == 0 &&
         got (scatterPages x va [] ps.2) (fun qs => ps.1.all (fun p => (scatterRefused qs.2 10 p.2 p.1).isNone))))) ∧
    readyWith (.wapp 1 2 6 1) 0 appending (fun x s => decide (1 ≤ (flumeOf s.core 6).length) &&
      s.core.append.isNone && got (wappChecked x va ((flumeOf s.core 6).take 1) s) (fun q =>
        got (appendAll x q.1 9 true q.2) (fun u => match u.core.append with
          | some a => decide (a.dropped + a.written = 64)
          | none => false))) := by
  unfold readyWith EngineReady Unstopped; decide +kernel

/-- The world with a small configuration of the matrix engine, BF16 lines in both bank groups, FP32 rows at 0x1000, a BF16 line at
VA 0x270000, BF16 zeros in v0, and what the words name in s1 to s5. -/
def matrixed (pfx : Option IWord) : State :=
  let s := worldC (fun c => { regs [(1, 0), (2, 0x30000), (3, 0x270000), (4, 0x1000), (5, 10)] c with
    pfx := pfx, mcfg := ⟨1, 1, 64, 1, 1, 0⟩, v := c.v.setIfInBounds 0 ⟨0, plainTag 12⟩ })
  lineAt (placeScratch 0 0) (plainTag 12) (lineAt (placeScratch 0 0x30000) (plainTag 12) (lineAt 0x270000 (plainTag 12)
    (lineAt (placeScratch 0 0x1000) (plainTag 10) (lineAt (placeScratch 0 0x1080) (plainTag 10) s))))

/-- The M word is ready, and the matrix engine takes it for its tiles. -/
def startsM (i : Instr) (tiles : Ctx → State → List Nat) (s : State) (ok : Ctx → State → Bool) : Prop :=
  EngineReady .M i i s ∧ (matrixFree (carried .M i i s) (tiles (carried .M i i s) (acting .M i i s)) (acting .M i i s)).isOk = true ∧
    ok (carried .M i i s) (acting .M i i s) = true

theorem witness_MatrixWordsActOnTiles :
    let s := matrixed none
    let inside (ls : List Nat) : Bool := ls.all (fun q => decide (q < scratchEnd))
    let none_ (_ : Ctx) (_ : State) : List Nat := []
    let ofMma (x : Ctx) (u : State) : List Nat := tilesOf (matrixLines u settledLines u.core.mcfg x.dual x.caps (.mma 0 0 0 0 0))
    let operands (x : Ctx) (u : State) : Bool :=
      let m := u.core.mcfg
      let dual := decide (x.dual ≠ 0)
      let ops := mmaOperands m dual 0 0x30000 ([0, 0x30000, dualOff m 0, dualOff m 0x30000].map (operandCount u))
      let tags (o : List (List Nat)) : List Tag := o.flatten.map (fun q => (scratchLine u q).tag)
      ops.all (fun o => inside o.flatten) && bankRule ops &&
      (ops.zip [aFormat, bFormat, aFormat, bFormat]).all (fun q => (uniformTags q.2 (tags q.1)).isOk) &&
      (consumeTags u.core ((ops.map tags).flatten ++ [tileTag (tileOf u.core 0)] ++
        (if dual then [tileTag (tileOf u.core 2)] else []))).isOk
    (let t := s.onCore (regs [(2, mcfgF MatrixConfig.initial)])
     startsM (.mcfg 2 1) none_ t (fun _ _ => !mcfgRefused (mcfgF MatrixConfig.initial) 0) ∧
     startsM (.mcfg 1 1) none_ t (fun _ _ => mcfgRefused 0 0)) ∧
    startsM (.mma 0 0 0 1 2) ofMma s (fun x u => decide (x.dual = 0) && !tileAbsent u.core 0 && operands x u) ∧
    startsM (.mma 0 0 0 1 2) ofMma (matrixed (some ((encode (.dual 1)).getD 0))) (fun x u => decide (x.dual ≠ 0) &&
      !tileAbsent u.core 0 && !tileAbsent u.core 2 && decide ((tileOf u.core 2).af = (tileOf u.core 0).af) && operands x u) ∧
    startsM (.mxv 0 0 0 3 1) none_ s (fun x u => !batchPending u.core x.ord (batchRegs 0) && (bindingOf x.bnd 0).isNone &&
      !tileAbsent u.core 0 && got (enginePages u [0x270000]) (fun ps => got (gatherLines ps false u) (fun v =>
        decide (tagCount (gatheredLine v.core 0x270000).tag = 64) && got (gatherLines ps true v) (fun r =>
          let ls := ps.map (fun p => (gatheredLine r.core (BitVec.ofNat 64 p.1)).tag)
          (batchRegs 0).all (fun k => aFormat (tagFmt (r.core.v[k]?.getD VReg.zero).tag)) && (uniformTags bFormat ls).isOk &&
          (consumeTags u.core ((batchRegs 0).map (fun k => (r.core.v[k]?.getD VReg.zero).tag) ++ ls ++
            [tileTag (tileOf u.core 0)])).isOk)))) ∧
    startsM (.mzero 0 0 3 5) none_ (s.onCore (regs [(5, 2)])) (fun _ u => !reformatRefused 3 2 && u.core.holdCommand.isEmpty) ∧
    (∀ tiles ∈ [tilesOf (rowLines 0x1000 10 1)],
      startsM (.mldc 0 0 2 4 1) (fun _ _ => tiles) s (fun _ u => !reformatRefused 2 0 && inside (rowLines 0x1000 10 1) &&
        decide (tagFmt (scratchLine u 0x1000).tag = 10) && rowFormat (tagFmt (rowTag u 0x1000)) && (consumeTags u.core [rowTag u 0x1000]).isOk) ∧
      startsM (.mdrain 0 0 0 4 5) (fun _ _ => tiles) s
        (fun _ u => !tileAbsent u.core 0 && inside (rowLines 0x1000 10 1) && rowFormat 10)) ∧
    (s.onCore (fun c => { c with holdCommand := [true] })).core.holdCommand = true :: [] := by
  unfold startsM EngineReady Unstopped; decide +kernel

theorem witness_MatrixWordsActOnTiles_lines :
    let m (w : Instr) (caps : List Word) (todo : List Nat) : MCommand :=
      { mcommand with word := (encode w).getD 0, caps := caps, todo := todo }
    let busy (m : MCommand) (at_ : Nat) : State :=
      (matrixed none).onCore (fun c => { c with mcmd := some { m with todo := [at_], pages := m.pages } })
    let drained : MWrite := ⟨0x1000, 10, plainTag 10, [(0, 1)], none⟩
    (∀ k ∈ [0, 0x1000], lineHeld (busy mcommand k) (mcommand.place (busy mcommand k) k) = false ∧
      lineHeld { busy mcommand k with stalled := [waiting 0 (0x80000000 + BitVec.ofNat 64 k) own] } (mcommand.place (busy mcommand k) k) = true) ∧
    (let s := matrixed none
     (∀ q ∈ s.core.gathered.getD [], q.1 ≠ (0x270000 : Word).toNat) ∧ lineHeld s (flat.place 0x270000) = false ∧
     (readNow flat 0x270000 (touchPage flat 0x270000 s)).2.core.holdCommand = []) ∧
    (∀ w ∈ ([.mma 0 0 0 1 2, .mxv 0 0 0 3 1, .mldc 0 0 2 4 1] : List Instr), placedInstr (m w [0, 0] [0]).word = some w) ∧
    decide (((matrixed none).core.tiles[2]?.getD Tile.zero).af = 0) = decide ((0 : BitVec 2) = 0) ∧
    (let s := matrixBusy [] [drained]
     s.core.mcmd = some { mcommand with writes := [drained] } ∧ ([drained] : List MWrite)[0]? = some drained ∧ drained.whole = none ∧
     lineHeld s (placeScratch s.cur drained.off) = false ∧ busyM.core.mcmd = some mcommand ∧ mcommand.todo = [] ∧ mcommand.writes = []) := by
  decide +kernel

/-- The world with the record of a tensor of one line at VA 0x270000 in s1, and s2 to s5 as given. -/
def copying (l : List (Nat × Word)) : State :=
  let s := worldC (regs ((1, 0x280000) :: l))
  lineAt 0x270000 rawTag { s with
    mem := poke s.mem 0x280000 64 (0x270000 + (1 + 2 ^ 32) * 2 ^ 64 + (1 + 2 ^ 32) * 2 ^ 128 + 2 ^ 192) }

/-- A Y word that is ready, and the rest as asked. -/
def startsY (i : Instr) (s : State) (ok : Ctx → State → Bool) : Prop :=
  EngineReady .Y i i s ∧ threadHolds (acting .Y i i s) (carried .Y i i s).ord
    (copyTiles (acting .Y i i s) (carried .Y i i s).caps i) = false ∧ ok (carried .Y i i s) (acting .Y i i s) = true

/-- A fill of two lines at 0x4000 that has landed so many bytes. -/
def filling (landed : Nat) : YCommand :=
  { kind := .cpyz, ord := 0, trap := false, se := 0x4000, sf := 256, sg := 0x007F0000, shape := [], rowTags := [], pages := [], extra := [],
    job := 0, landed := landed, above := [], issued := landed, got := [], written := [], size := 256,
    gen := 0, drawn := 0, barrier := none, flags := 0, raise := 0, claims := [4], pos := 0, qp := none, ticket := 0 }

theorem witness_CopyWordsStartLandAndComplete :
    let copies (stores : Bool) (start : Nat) (x : Ctx) (u : State) : Bool :=
      decide (u.core.ycmds.length < 8) && !rcfenceBefore u.core x.ord &&
      !spansHeld u ((recordRead u 0x280000).map (fun q => (q.2.2.place 0x280000, q.2.2.place 0x280000 + 64))) [] &&
      got (readRecord 0x280000 u) (fun q =>
        let h := shapeOf (fixRounding q.2.core.csr.rmode.toNat q.1)
        (shapeFault 0x280000 (shapeOf q.1)).isNone && (netQueueOf h.base).isNone && decide (h.size = 128) && u.core.holdCommand.isEmpty &&
        (rangeFault (0x4000 + start) (0x4000 + h.size)).isNone &&
        (decide (h.size ≤ start) || got (memorySide h none stores start q.2) (fun r => r.2.2.1.length == 1)))
    startsY (.cpy 0 0 1 2 3) (copying [(2, 0x4000), (3, 0)]) (copies false 0) ∧
    startsY (.cpy 0 0 1 2 3) (copying [(2, 0x104000), (3, 0)]) (copies true 0) ∧
    startsY (.cpy 0 0 1 2 3) (copying [(2, 0x4000), (3, 128)]) (copies false 128) ∧
    startsY (.cpyz 0 0 2 3 4) (copying [(2, 0x4000), (3, 256), (4, 0x007F0000)]) (fun _ u => decide (u.core.ycmds.length < 8) &&
      (rangeFault 0x4000 0x4100).isNone && !tagMalformed 0x007F0000 && tagVc 0x007F0000 != 3 &&
      !spansHeld u [] [(placeScratch 0 0x4000, placeScratch 0 0x4100)]) ∧
    startsY (.cpyz 0 0 2 3 4) (copying [(2, 0x4000), (4, 0x007F0000)]) (fun _ u => decide (u.core.ycmds.length < 8) &&
      (rangeFault 0x4000 0x4000).isNone) ∧
    (EngineReady .Y (.cpyb 0 0 2 3) (.cpyb 0 0 2 3) (copying [(2, 0x8000000000000000)]) ∧
     startsY (.cpyb 0 0 2 3) (copying [(2, 0x4010), (3, 128)]) (fun _ u => (rangeFault 0x4010 0x4020).isNone &&
      !spansHeld u [] [(placeScratch 0 0x4010, placeScratch 0 0x4010 + 16)])) ∧
    (let quiet (y : YCommand) : Bool := decide (y.kind ≠ .report ∧ y.issued ≤ y.landed) && y.above.isEmpty
     let some := (copying [(2, 0x4000)]).onCore (fun c => { c with ycmds := [filling 128] })
     startsY (.cpyq 0 0 2) some (fun _ u => (rangeFault 0x4000 0x4080).isNone && u.core.ycmds.all quiet && u.core.ycmds.length == 1) ∧
     startsY (.cpyq 0 0 2) (copying [(2, 0x4000)]) (fun _ u => (rangeFault 0x4000 0x4080).isNone && u.core.ycmds.all quiet) ∧
     startsY (.cpycan 0 0 2) ((copying [(2, 0x10000)]).onCore (fun c => { c with ycmds := [filling 128] })) (fun _ u =>
       u.core.ycmds.all quiet && decide ((0x10000 : Word).toNat < 2 ^ 17))) ∧
    (let s := worldC (fun c => { c with ycmds := [filling 0, filling 256] })
     s.core.ycmds[0]? = some (filling 0) ∧ (filling 0).qp = none ∧ (filling 0).kind = .cpyz ∧
     s.core.ycmds[1]? = some (filling 256) ∧ (filling 256).size ≤ (filling 256).landed ∧
     landReady (filling 0) s = true ∧ landReady (filling 0) { s with stalled := [waiting 0 0x80004000 own] } = false ∧
     flyingParts s = [] ∧ matrixParts s = [] ∧ (copyPartsOf s)[s.pick]? = some (0, .write 0) ∧
     (filling 0).above = [] ∧ 0 % 128 = 0 ∧ (filling 128).landed % 128 = 0) ∧
    (world.core.holdCommand = [] ∧ (worldC (fun c => { c with holdCommand := [true] })).core.holdCommand = true :: []) := by
  unfold startsY EngineReady Unstopped; decide +kernel

/-- A copy of shape ds, its scratchpad side at 0x4000, a store where bit 20 of sf is set; nothing has landed. -/
def copyOf (sf : Word) (ds : List Word) : YCommand :=
  { filling 0 with kind := .cpy, sf := sf, sg := 0, shape := ds, pages := [(0x270000, flat)], size := 128 }

theorem witness_CopyWordsStartLandAndComplete_lines :
    let shape (org n : Nat) (cvt : Word) : List Word := [0x270000 + cvt, BitVec.ofNat 64 (n + 2 ^ 32), 1 + 2 ^ 32, 1, 0,
      BitVec.ofNat 64 ((n - 1) * 2 ^ 40), BitVec.ofNat 64 org, 0]
    let cvt : Word := 0x002A000000000000
    let free (y : YCommand) : Bool :=
      let s := worldC (fun c => { c with ycmds := [y] })
      s.core.ycmds[0]? == some y && y.qp.isNone && landReady y s && decide (y.kind = .cpy)
    ([0x4000, 0x104000].all (fun sf => [shape 0 1 0, shape 1 1 0, shape 0 1 cvt, shape 0 32 cvt].all (fun ds =>
      free (copyOf sf ds)))) = true ∧
    ((shapeOf (shape 0 1 0)).cvt = false ∧ (shapeOf (shape 0 1 cvt)).cvt = true) ∧
    ((shapeOf (shape 1 1 0)).sources 0).headD none = none ∧ ((shapeOf (shape 0 1 0)).sources 0).headD none = some (0, 0) ∧
    ((shapeOf (shape 0 1 0)).lineVa 1 0 0).toNat = 0x270000 ∧
    (piecesOf (shapeOf (shape 0 32 cvt)) 0 0 0).length = 32 ∧ (piecesOf (shapeOf (shape 0 1 cvt)) 0 0 0).length = 1 ∧
    nativeCount 10 = 32 ∧ ((shapeOf (shape 0 1 cvt)).rowBase 0).toNat = 0x270000 ∧
    (let h := shapeOf (shape 0 1 (cvt + 4 * 2 ^ 59))
     (h.cvt && decide (roundSel h.rm = .sr)) = true ∧ (copyOf 0x4000 []).drawn = 0) ∧
    ((copyOf 0x4000 []).pages.find? (fun p => p.1 == (0x270000 : Word).toNat) = some (0x270000, flat)) ∧
    (feedsDetail 10 [⟨⟨mkInvalid 10 3, 0⟩, 0, plainTag 10⟩]).isSome = true ∧ feedsDetail 10 [] = none := by
  decide +kernel

/-- The world with 64 KiB pages of job 1 at VA 0x40000000: one in T0, one in T1, one that is compressed, and one in host memory. -/
def paged : State :=
  let leaves := 0x10007 + 0x22007 * 2 ^ 64 + 0x30047 * 2 ^ 128 + 0x44037 * 2 ^ 192
  { world with mem := poke (poke (poke world.mem 0x101008 8 0x106801) 0x102000 8 0x106C01) 0x103000 32 leaves }

/-- A command's operands. -/
def ops (l : List Word) : CmdOps := ⟨0, l.getD 0 0, l.getD 1 0, l.getD 2 0, l.getD 3 0, l.getD 4 0, l.getD 5 0, l.getD 6 0⟩

def every : Word := BitVec.allOnes 64

/-- Every bit of the operands may be set. -/
def anyMask : List Word := [every, every, every, every, every, every, every]

/-- The world with an INVAL of function 1 that waits. -/
def invalWaits : State := setHostFn world 1 { HostFn.reset with done := false, pending := some (0x202, ops [1, 0, 1]) }

theorem witness_CommandsAreRefusedByTheirFrame :
    let off := { State.reset with bootState := 0 }
    let busy := setHostFn State.reset 32 { HostFn.reset with done := false }
    off.bootState ≠ 1 ∧ (busy.bootState = 1 ∧ (hostFn busy 32).done = false) ∧
    (invalWaits.bootState = 1 ∧ (hostFn invalWaits 0).done = true ∧ hostWaits invalWaits = true) ∧
    (State.reset.bootState = 1 ∧ (hostFn State.reset 32).done = true ∧ hostWaits State.reset = false ∧ operandsOk (ops [0x400]) [0x3FF] = false ∧
      operandsOk (ops [0x200]) [0x1F, 0x11F] = false) := by decide +kernel

theorem witness_JobAndQueueCommandsAct :
    let s := queueOf 0 world
    let fits (fn : Nat) (masks l : List Word) (s : State) : Prop := Accepts fn masks (ops l) s
    fits 1 [0xFF03FF, every, every, every, every, 0x00000F00000FFFFF, 0xFFFFFFFF] [0x103FF] s ∧
    (operand (0x103FF : Word) 16 8 ≠ 0 ∧ sfind s.jobs (operand (0x103FF : Word) 0 10) = none ∧ sfind s.jobs 1 ≠ none) ∧
    (fits 1 [0x3FF] [1] s ∧ ownJob s 1 (operand (1 : Word) 0 10) = some job ∧ ownJob s 2 1 = none ∧ jobRuns s 1 = true ∧
      (let idle := { s with core := { s.core with run := none }, jobs := [(1, { job with stopped := true })] }
       (ownJob idle 1 1).isSome = true ∧ jobRuns idle 1 = false ∧ jobRecords idle 1 = false)) ∧
    (fits 1 [0x000F030703FF0FFF, every] [0x0003000300010FFF, 0x270000] s ∧ sfind s.queues 0xFFF = none ∧ sfind s.queues 5 ≠ none) ∧
    (fits 1 [0xFFF] [5] s ∧ (has (ownQueue s 1 5) (fun q => q.head == q.tail)) = true ∧
      has (ownQueue (queueOf 16 world) 1 5) (fun q => q.head != q.tail && decide (2 ^ q.k ≤ q.tail - q.head)) = true ∧
      ownQueue s 1 6 = none) ∧
    (fits 1 [0x3F0FFF, every, every, every, every] [0x000005] s ∧
      has (ownQueue s 1 5) (fun q => decide (q.tail - q.head < 2 ^ q.k) && (jobWrite s q.job q.base 64 0 true).isSome) = true) ∧
    (fits 1 [0x3FF, every] [1, 0x270000] s ∧ (jobWrite s 1 0x270000 24 0 true).isSome = true) ∧
    (fits 1 [0x1FFFF03FF] [0x50001] s ∧ (putEventBit s 1 job 5 false).isSome = true) := by
  unfold Accepts; decide +kernel

theorem witness_SettingCommandsAct :
    let s := queueOf 0 world
    let fits (masks l : List Word) (s : State) : Prop := Accepts 0 masks (ops l) s
    (fits [0x0000001F00000003, every] [0x0000000A00000003, 0x300000] s ∧ sget false s.dispatched 3 = false ∧
      (let d := { s with dispatched := [(3, true)] }
       sget false d.dispatched 3 = true)) ∧
    fits [0x1F, every] [31, 256000] s ∧
    (fits [0x10F03FF] [0x10503FF] s ∧ ¬((classOf s 0x3FF).toNat < 5 ∨ (isFenced s 0x3FF = true ∧ true = false)) ∧
      (classOf s 0x3FF).toNat < 6) ∧
    fits [every, every, every] [0x270000] s ∧
    (Accepts 1 [0x80000000000003FF, every, every] (ops [1, 0, 2 ^ 20]) s ∧ ownJob s 1 1 ≠ none ∧ rangeBusy s 1 0 (2 ^ 20) = false ∧
      (let t := s.onCore (fun c => { c with storeQ := [queued] })
       Accepts 1 [0x80000000000003FF, every, every] (ops [1, 0x270000, 1]) t ∧ rangeBusy t 1 0x270000 1 = true)) ∧
    fits [0x0000FFFFFFFF0001, every] [1, 1000000] s ∧
    (fits [1, every] [1, 0x10000] s ∧ s.mig.freeT1.length < 4096 ∧ s.mig.freeT0.length < 4096) ∧
    (fits [every, every, every] [0x10000, 0x1000, 2 ^ 24] s ∧ someLeaf s (fun e => leafComp e.leaf) = false ∧
      someLeaf paged (fun e => leafComp e.leaf) = true) ∧
    (let p : Pool := ⟨0x10000, 0x1000, 128, 1, [], false, []⟩
     (let t := { s with pool := some p }
      t.pool = some p) ∧ 0 < p.depth ∧ p.depth + 128 ≤ { p with capacity := 129 }.capacity ∧ fits [every] [0x10000] { s with pool := some p } ∧
     (let q := { p with capacity := 127 }
      q.capacity < q.depth + 128)) ∧
    (fits [0xF0003, every] [0x80003, 0x1000] s ∧ (dieOf s 3).noriaQ = []) ∧
    (let t := setDie s 3 { dieOf s 3 with noria := some (4, 0x1000) }
     let w : Word := 0x00000001000D0001
     Accepts 1 [3, 0x000000FFFFFF03FF, every, every, every] (ops [3, w, 0x270000, 1]) t ∧ operand w 21 3 = 0 ∧
     narrowFmt (operand w 16 5) = true ∧ operand w 24 16 ≠ 0 ∧ (dieOf t 3).noria = some (4, 0x1000) ∧
     ownJob t 1 (operand w 0 10) ≠ none ∧ (dieOf t 3).noriaQ.length < 2 ^ 4) ∧
    (fits [0x81FF, 0xFFFFFFFF] [0x1FF, 0] s ∧ fits [0x81FF, 0xFFFFFFFF] [0x8000, 5] s) ∧
    (fits [0x3F03FF] [0x3F0001] s ∧ sfind s.jobs 1 = some job ∧ sfind s.jobs 2 = none ∧
      ∃ e ∈ [(2, { job with kid := 63 })], e.1 ≠ 1 ∧ e.2.kid = (63 : BitVec 6)) ∧
    (fits [0x301, every, every] [0x201, 0, 2 ^ 30] s ∧ operand (0x201 : Word) 8 2 ≠ 3 ∧
      someLeaf s (fun e => leafTier e.leaf == 1) = false ∧ someLeaf paged (fun e => leafTier e.leaf == 1) = true) ∧
    fits [0x1F, 0x11F] [31, 0x11F] s ∧
    (Accepts 1 [0x3F03FF00FF] (ops [0x3F00010001]) s ∧ operand (0x3F00010001 : Word) 0 8 = 1 ∧ ownJob s 1 1 ≠ none ∧
      Accepts 1 [0x3F03FF00FF] (ops [4]) s) ∧
    fits [0xFFF] [2400] s := by
  unfold Accepts; decide +kernel

/-- The world with a code object at 0x280000: one ZERO section of 128 bytes for 0x300000. -/
def objects (magic : Nat) : State :=
  let head := magic + 2 ^ 32 + 2 ^ 128 + 128 * 2 ^ 256
  let entry := 6 + 128 * 2 ^ 128 + 0x300000 * 2 ^ 192
  { world with mem := poke (poke world.mem 0x280000 128 head) 0x280080 32 entry }

theorem witness_SystemCommandsAct_load :
    let s := objects 0x4F435849
    let o := ops [0x10001, 0x280000, 256]
    Accepts 1 [0x3F03FF, every, every] o s ∧ ownJob s 1 1 = some job ∧ (Image.mk 1 0x280000 256).readable s = true ∧
    slotRuns s 1 1 = false ∧ loadStatus s job.owner ⟨1, 0x280000, 256⟩ = 0 ∧ slotRuns s 1 0 = true ∧
    loadStatus (objects 0) job.owner ⟨1, 0x280000, 256⟩ ≠ 0 := by
  unfold Accepts; decide +kernel

theorem witness_SystemCommandsAct :
    let s := lineAt 0x270000 rawTag world
    let g := ganged none none gang
    let fits (fn : Nat) (masks l : List Word) (s : State) : Prop := Accepts fn masks (ops l) s
    (let late (p : Option (Nat × CmdOps)) : State := setHostFn s 1 { HostFn.reset with done := false, pending := p }
     (hostFn (late none) 1).done = false ∧ (hostFn (late none) 1).pending = none ∧
     (let o := ops [1, 0, 1]
      (hostFn (late (some (0x202, o))) 1).pending = some (0x202, o) ∧
      (match invalBody 1 o (late (some (0x202, o))) with | .done _ _ => true | _ => false) = true ∧
      (let q := (late (some (0x202, o))).onCore (fun c => { c with storeQ := [{ queued with job := 1 }] })
       (match invalBody 1 (ops [1, 0x270000, 1]) q with | .later c _ => c == 0x202 | _ => false) = true)) ∧
     (let o := ops [0x50001, 0x270000, 1]
      (match cleanBody 1 o (late (some (0x203, o))) with | .finishLater _ _ => true | _ => false) = true)) ∧
    (fits 1 [0x80000000000003FF, 0x3FF] [1] s ∧ ownJob s 1 1 ≠ none ∧ jobGangs s 1 = [] ∧
      (jobGangs g 1).filter (fun k => (liveMembers g k.1 k.2).any (fun k => k.2 == 0)) ≠ []) ∧
    (fits 1 [0x3FF, every, 0xFFFFFFFF] [1, 0x270000, 0x007F0000] s ∧ (jobPage s 1 .store 0x270000).isSome = true ∧
      fits 1 [0x3FF, every] [1, 0x270000] s ∧ (jobPage s 1 .load 0x270000).isSome = true) ∧
    (let k : State := { s with keys := [(63, ⟨0, 0, some 7⟩)] }
     fits 0 [0x13F, every, every, every, every] [63] k ∧ sfind k.keys 63 = some ⟨0, 0, some 7⟩ ∧ (keySlotOf s 1).staged = none) ∧
    (let v : State := { s with vkeyX := [(7, 5)] }
     fits 0 [0x107, every, every, every, every, every, every] [7] v ∧ sfind v.vkeyX 7 = some 5 ∧ sfind s.vkeyX 7 = none) ∧
    (fits 0 [0xFFFFFFFF] [1] s ∧ s.svnCount.toNat < 1) ∧
    (let q : NetQueue := ⟨0, 1, 0x270000, [0, 0, 0, 0], 0, true, false, 0, 0⟩
     let masks : List Word := [0x13FFF03FF, every, 0xFFFFFFFF00FFFFFF, every, every, every, 0xFFFFFFFF]
     fits 1 masks [0x1003FF, 0x270000] s ∧ ownJob s 1 (operand (0x1003FF : Word) 20 10) ≠ none ∧ sfind s.netqs 0x3FF = none ∧
     (jobWrite s 1 0x270000 8 0 false).isSome = true ∧
     (let t := { s with netqs := [(0x3FF, q)] }
      sfind t.netqs 0x3FF = some q) ∧
     (allCores s).any (fun c => c.2.ycmds.any (fun y => y.qp == some 0x3FF)) = false) ∧
    (fits 1 [0xFFFF03FF, every, every] [0x50001, 0x270000, 1] s ∧ (cleanLines s 1 0x270000 1).isOk = true) ∧
    (let old : Word := 0x10007
     let va : Word := 0x40000000
     fits 0 [0x1FFFF03FF, every, every, every] [0x100050001, va, 0x8000, old] paged ∧ sfind paged.jobs 1 = some job ∧ leafComp old ≠ true ∧
     leafV old = true ∧ leafMalformed 0 old = false ∧ leafMalformed 0 (withComp (withFrame old 0x8000) true) = false ∧
     rangeBusy paged 1 va 1 = false ∧ has (walkFrom paged 1 va 3 (ptbBase job.ptb)) (fun q => q.1.leaf == old && q.1.size == 2 ^ 16) = true ∧
     has (walkFrom paged 1 0 3 (ptbBase job.ptb)) (fun q => q.1.leaf != old) = true ∧
     walkFrom paged 1 0x80000000 3 (ptbBase job.ptb) = none) ∧
    ((hostFn s 0).done = true ∧ hostWaits s = false ∧ operandsOk (ops [0x270000, 128]) [every, every] = true) ∧
    (fits 0 [0x3FFFF] [0] s ∧ (telemetry s 0 0).isSome = true ∧ telemetry s 255 0 = none) := by
  unfold Accepts; decide +kernel

/-- A record of function 0 of slot 0 of job 1, which waits for event w. -/
def record_ (w : Nat) (d0 : Word) : Entry := ⟨d0 + BitVec.ofNat 64 (w * 2 ^ 32), 0, 0, 0, 1, 0, 1⟩

/-- Die 0 with a ready queue of 16 entries that holds the records given; queue 5 of job 1 holds one record. -/
def readied (es : List Entry) (s : State) : State :=
  let s := queueOf 1 s
  let s := setDie s 0 { dieOf s 0 with ready := some ⟨4, 0x300000, 0, 0⟩ }
  es.foldl (fun s e => readyPush s 0 e) s

/-- A job with one block on its spillway, where a READY record stands. -/
def spilling : State :=
  let s := readied [] { world with jobs := [(1, { job with freeBlocks := 0x290000, blocks := 1 })] }
  spill s 0 (record_ 0 0) true

theorem witness_RecordsAreAdmittedAndReadied :
    let s := readied [] world
    let d := dieOf s 0
    let es := eligible s 0
    ((∀ e ∈ es, e.2.2.owner < 33) ∧ d.lastVf < 33 ∧ chooseVf s d es = some 1 ∧ sfind s.jobs 1 = some job ∧
      chooseJob es = some 1 ∧ List.Pairwise (fun e f => e.1 < f.1) es ∧ (chooseQueue d 1 es).isSome = true) ∧
    (readyRoom (dieOf world 0) = false ∧ readyRoom d = true ∧ spillingJob s 0 = none ∧ readyCount d < (freeCores s (dieCores 0)).length ∧
      spillingJob spilling 0 = some 1 ∧ readyRoom (dieOf spilling 0) = true ∧ spilledReady s 0 1 = [] ∧ jobStopped spilling 1 = false ∧
      (spillWalk spilling 1).2 = none ∧ has (spilledReady spilling 0 1).head? (fun q => match spillRelease spilling 1 q with
        | .ok u => has (sfind u.jobs 1) (fun k => eventBit u 1 k (entryEvw q.entry) == some true)
        | .error _ => false) = true ∧
      (let lost := { spilling with jobs := [(1, { job with chainHead := 0x40000000, blocks := 1 })] }
       (spillWalk lost 1).2 = some 0x40000000)) ∧
    (let none_ := { s with fenced := (List.range 256).map (fun n => (n, true)) }
     spillingJob none_ 0 = none ∧ (freeCores none_ (dieCores 0)).length ≤ readyCount (dieOf none_ 0)) ∧
    (let u := refill s 1 es
     chooseJob (eligible u 0) = some 1 ∧ (chooseQueue d 1 (eligible u 0)).isSome = true) ∧
    (entryEvw (record_ 0 0) = 0 ∧ entryEvw (record_ 9 0) ≠ 0 ∧ eventBit s 1 job (entryEvw (record_ 9 0)) = some false ∧
      (let set := { s with mem := poke s.mem 0x210000 8 0xFF00 }
       eventBit set 1 job (entryEvw (record_ 9 0)) = some true) ∧ d.waiting.length < 8192 ∧ job.stopped = false ∧
       (let stopped := { job with stopped := true }
        stopped.stopped = true)) ∧
    (d.ready.isSome = true ∧ launchQueue { s with launch := [(3, [record_ 0 0])] } 3 = record_ 0 0 :: [] ∧ launchQueue s 3 = []) := by
  decide +kernel

/-- Core 0 of die 0 idle, with a record at the head of the ready queue. -/
def popping (e : Entry) (j : Job) : State :=
  readied [e] { world with core := { world.core with run := none }, jobs := [(1, j)] }

theorem witness_PoppedEntriesAreCheckedAndStart :
    let e := record_ 0 0
    let pops (s : State) (e : Entry) : Prop :=
      coreFree s s.cur = true ∧ reservationFor s s.cur = none ∧ readyHead s 0 = some e ∧ entryGsz e = 0
    let popped (s : State) (e : Entry) : State := notePopped e (readyPop s 0)
    let empty := { world with core := { world.core with run := none } }
    (coreFree empty 0 = true ∧ reservationFor empty 0 = none ∧ readyHead empty 0 = none) ∧
    (pops (popping e job) e ∧ sfind (popping e job).jobs 1 = some job ∧ sfind job.slots 0 = some ⟨0x230000, 1, 3, true, false⟩ ∧
      operand e.d0 0 20 < 1 ∧ (jobRead (popped (popping e job) e) 1 0x230000 16).isSome = true ∧ operand e.d0 28 2 = 0) ∧
    (let f := { e with job := 2 }
     pops (popping f job) f ∧ sfind (popping f job).jobs 2 = none) ∧
    (let k := { job with stopped := true }
     pops (popping e k) e ∧ k.stopped = true) ∧
    (let f := { e with slot := 5 }
     pops (popping f job) f ∧ sfind job.slots 5 = none) ∧
    (let k := { job with slots := [(0, ⟨0x230000, 1, 3, true, true⟩)] }
     pops (popping e k) e ∧ sfind k.slots 0 = some ⟨0x230000, 1, 3, true, true⟩) ∧
    (pops (popping (record_ 0 1) job) (record_ 0 1) ∧ 1 ≤ operand (record_ 0 1).d0 0 20) ∧
    (let k := { job with slots := [(0, ⟨0x40000000, 1, 3, true, false⟩)] }
     pops (popping e k) e ∧ jobRead (popped (popping e k) e) 1 0x40000000 16 = none) ∧
    (let f := record_ 0 0x10000000
     let s := { popping f job with featMask := [(1, 0x1E)] }
     pops s f ∧ ¬(operand f.d0 28 2 = 0 ∨ (featuresOf s 1).getLsbD 0 = true)) ∧
    ((255 : Nat) < 256 ∧ (256 : Nat) ≤ 256 ∧ (0x1002 : BitVec 48).toNat % 4 ≠ 0) := by decide +kernel

/-- Slot 0's entry allows gangs; the record asks for 2, or for 9, cores. -/
def gangs (members : Nat) : State :=
  let e := record_ 0 (BitVec.ofNat 64 ((members - 1) * 2 ^ 20))
  let s := popping e job
  { s with mem := poke s.mem 0x230000 16 (0x240000 + 2 ^ 81) }

theorem witness_GangsReserveTheirCores :
    let e (n : Nat) : Entry := record_ 0 (BitVec.ofNat 64 ((n - 1) * 2 ^ 20))
    let runs (s : State) (e : Entry) : Bool := match checkEntry s e with | .run _ _ f => f.gang | _ => false
    let faults (s : State) (e : Entry) : Bool := match checkEntry s e with | .fault _ _ => true | _ => false
    let fence (s : State) : State := { s with fenced := (List.range 256).map (fun n => (n, true)) }
    let popped (n : Nat) : State := notePopped (e n) (readyPop (gangs n) 0)
    (pickCluster (gangs 2) 0 8 = some 0) ∧
    ((dieOf (gangs 2) 0).reservation = none ∧ readyHead (gangs 2) 0 = some (e 2) ∧ readyHead world 0 = none ∧
      readyHead (gangs 1) 0 = some (e 1) ∧ runs (popped 2) (e 2) = true ∧ faults (popped 2) { e 2 with slot := 5 } = true ∧
      runs (popped 9) (e 9) = true ∧ operand (e 9).d0 20 8 + 1 = 9 ∧ 9 ≤ unfenced (popped 9) (dieCores 0) ∧
      pickCluster (fence (gangs 2)) 0 2 = none ∧ unfenced (fence (gangs 9)) (dieCores 0) < 9 ∧ runs (fence (popped 2)) (e 2) = true) ∧
    (let held (k : Option Nat) (n : Nat) : State :=
       setDie (gangs n) 0 { dieOf (gangs n) 0 with reservation := some (e n), reserveCluster := k, reserved := [] }
     let busy (s : State) : State := { s with
       parked := (List.range 8).map (fun k => (k + 1, { Core.idle with run := some ⟨1, 0, 0, 0, 0, 1, none⟩ })) }
     (dieOf (held (some 0) 2) 0).reservation = some (e 2) ∧ 2 ≤ unfenced (held (some 0) 2) (clusterCores 0) ∧
     unfenced (fence (held (some 0) 2)) (clusterCores 0) < 2 ∧
     2 ≤ ((freeCores (held (some 0) 2) (clusterCores 0)).take 2).length ∧
     ((freeCores (held (some 0) 2) (clusterCores 0)).take 2).all (fun m => !testPending (held (some 0) 2) m) = true ∧
     (let tested : State := { gangs 2 with fleet := { (gangs 2).fleet with tests := [⟨.registerFile 0 0, 3, false⟩] } }
      testPending tested 0 = true) ∧
     ((freeCores (busy (held (some 0) 2)) (clusterCores 0)).take 2).length < 2 ∧
     (let freed := notePopped (e 2) (setDie (held (some 0) 2) 0
        { dieOf (held (some 0) 2) 0 with reservation := none, reserveCluster := none, reserved := [] })
      runs freed (e 2) = true ∧ faults { freed with jobs := [(1, { job with stopped := true })] } (e 2) = true) ∧
     (held (some 0) 2).cur / 256 = 0 ∧ (clusterCores 0).contains (held (some 0) 2).cur = true ∧ coreFree (held (some 0) 2) 0 = true) := by
  decide +kernel

theorem witness_PeriodsAgeingAndPreemption :
    let s := queueOf 1 world
    let full : Sparse (List Entry) := [(3, List.replicate 16 (record_ 0 0))]
    let w : Stalled := { waiting 0 0 flat with queue := 3 }
    (sfind s.queues 6 = none ∧ has (sfind s.queues 5) (fun q => decide (q.head < q.tail) && (sfind s.jobs q.job).isSome) = true ∧
      job.age ≠ 0 ∧ has (sfind (queueOf 0 world).queues 5) (fun q => decide (q.tail ≤ q.head)) = true) ∧
    ((∀ w ∈ world.stalled, launchRoom world w.queue = false) ∧
      (let t := { world with stalled := [w], launch := full }
       ∀ w ∈ t.stalled, launchRoom t w.queue = false) ∧
      (let t := { world with stalled := [w] }
       t.stalled = w :: [] ∧ launchRoom t w.queue = true)) ∧
    (gangOf world = none ∧ gangOf (ganged none none gang) = some (0, gang)) ∧
    (world.core.run ≠ none ∧ world.core.csr.status.getLsbD 3 = false ∧ world.core.pending = none ∧ world.core.append = none ∧
      (let t := worldC (fun c => { c with append := some ⟨[], none, 0, 0⟩ })
       t.core.run ≠ none ∧ t.core.append ≠ none) ∧
      (handling false).core.run ≠ none ∧ (handling false).core.csr.status.getLsbD 3 = true) := by decide +kernel

/-- The world with 64 KiB pages that may migrate: one in T0, and one in a range of T1; the engine is on. -/
def migrating (cands : List MigCount) (m : Option PageMove) : State :=
  let leaves := 0x8000000000010007 + 0x8000000000022007 * 2 ^ 64
  { paged with
    mem := { poke paged.mem 0x103000 16 leaves with ranges := [⟨0, .shadow, 0, 2 ^ 30⟩] }
    mig := { Migration.reset with enabled := true, candidates := cands, moving := m, freeT0 := [0x50000], freeT1 := [0x60000] } }

theorem witness_MemoryMoversActAtTheHomes :
    let up : MigCount := ⟨0x103008, 1, 0x40010000, 3⟩
    let down : MigCount := ⟨0x103000, 1, 0x40000000, 0⟩
    let move : PageMove := ⟨down, 0x8000000000010007, 0x60000⟩
    (world.mig.enabled = false ∧ world.mig.moving = none ∧ (migrating [] none).mig.enabled = true) ∧
    ((migrating [up] none).mig.moving = none ∧ (migrating [up] none).mig.candidates = up :: [] ∧
      has (moveLeaf (migrating [up] none) up) (fun l => leafTier l == 1) = true ∧
      has (moveLeaf (migrating [down] none) down) (fun l => leafTier l == 0) = true ∧
      (migrating [down] none).mig.freeT1.find? (carriesTags (migrating [down] none)) = some 0x60000 ∧
      carriesTags world 0x60000 = false) ∧
    (tableEntry (migrating [] (some move)) 0x103000 = move.leaf ∧ accessesHeld (migrating [] (some move)) 1 0x40000000 1 = false ∧
      tableEntry (migrating [] (some { move with leaf := 7 })) 0x103000 ≠ 7 ∧
      (let q : QueuedStore := ⟨0, 0, 0x40000000, ⟨0x8000000000010007, 0, 2 ^ 16, 0x40000000⟩, 1, .bytes 8 1⟩
       let busy := (migrating [] (some move)).onCore (fun c => { c with storeQ := [q] })
       accessesHeld busy 1 0x40000000 1 = true)) ∧
    (let p := 2 ^ 44
     let held := { world with mem := { world.mem with held := sset false world.mem.held (p / 128) true } }
     isAperture 0 = false ∧ isAperture p = true ∧ blockHeld world p = false ∧ blockHeld held p = true ∧ (storeBlock held false p).isSome = true) := by
  decide +kernel

theorem witness_MemoryMoversActAtTheHomes_noria :
    let w : Word := 0x00000001000D0001
    let s (va n : Word) (t : Tag) : State :=
      let u := lineAt 0x270000 t world
      setDie u 0 { dieOf u 0 with noriaQ := [[w, va, n, 0]] }
    (dieOf world 0).noriaQ = [] ∧ (dieOf (s 0x270000 2 rawTag) 0).noriaQ = [w, 0x270000, 2, 0] :: [] ∧
    sfind world.jobs (operand w 0 10) = some job ∧ job.stopped = false ∧ unappliedLine 0 0 [] = 0 ∧ unappliedLine 0 2 [] = 2 ∧
    (jobPage (s 0x40000000 1 rawTag) 1 .store 0x40000000) = none ∧
    has (jobPage (s 0x270000 2 rawTag) 1 .store 0x270000) (fun p =>
      let l (t : Tag) : Line := clearLine (s 0x270000 2 t) (pageVersion (s 0x270000 2 t) p) (p.place 0x270000)
      !lineHeld (s 0x270000 2 rawTag) (p.place 0x270000) &&
      lineHeld { s 0x270000 2 rawTag with stalled := [waiting 0 0x270000 p] } (p.place 0x270000) &&
      (l rawTag).tag == rawTag && tagFmt (l (plainTag 12)).tag == 0x0C && tagVc (l (plainTag 12)).tag == 0 &&
      !untaggedAt (s 0x270000 2 (plainTag 12)) (p.place 0x270000) && !linePoisoned (s 0x270000 2 (plainTag 12)).mem (p.place 0x270000) &&
      !tagMalformed (l (plainTag 12)).tag) = true := by decide +kernel

theorem witness_ErrorsTestsGrantsAndReset :
    let tests (l : List SelfTest) : State := { world with fleet := { Fleet.reset with tests := l } }
    world.fleet.tests[0]? = none ∧ (⟨.registerFile 0 0, 3, false⟩ : SelfTest) ∈ (tests [⟨.registerFile 0 0, 3, false⟩]).fleet.tests ∧
    (let t := tests [⟨.registerFile 1 0, 3, false⟩]
     t.fleet.tests[0]? = some ⟨.registerFile 1 0, 3, false⟩ ∧ (coreOf t 1).run = none) ∧
    (let t := tests [⟨.registerFile 0 0, 3, false⟩]
     t.fleet.tests[0]? = some ⟨.registerFile 0 0, 3, false⟩ ∧ (coreOf t 0).run ≠ none) ∧
    (let due (t : SelfTest) : Bool := t.due && (match t.site with | .culvert c _ => c == 1 | _ => false)
     world.fleet.tests.any due = false ∧
     (tests [⟨.culvert 1 3, 0, true⟩]).fleet.tests.find? due = some ⟨.culvert 1 3, 0, true⟩) := by decide +kernel

/-- A copy of one line over network queue 3, a store where bit 20 of sf is set. -/
def netCopy (sf : Word) (landed : Nat) : YCommand :=
  { copyOf sf [BitVec.ofNat 64 (netBase % 2 ^ 48), 1 + 2 ^ 32, 1 + 2 ^ 32, 1, 0, 0, 0, 0] with
    landed := landed, issued := 128, pages := [], qp := some 3 }

/-- The world with queue 3, and copies in flight on it. -/
def netting (ready : Bool) (ys : List YCommand) : State :=
  { worldC (fun c => { c with ycmds := ys }) with netqs := [(3, ⟨0, 1, 0x270000, [0, 0, 0, 0], 0, ready, false, 0, 0⟩)] }

theorem witness_NetworkAnswersAndTimeouts :
    let late : YCommand := { netCopy 0 0 with ticket := 1 }
    let s := netting true [late, netCopy 0 0]
    world.core.ycmds[0]? = none ∧ (netCopy 0 128).size ≤ (netCopy 0 128).landed ∧ (filling 0).qp = none ∧
    s.core.ycmds[0]? = some late ∧ s.core.ycmds[1]? = some (netCopy 0 0) ∧ (netCopy 0 0).qp = late.qp ∧
    (netCopy 0 0).landed < (netCopy 0 0).size ∧ ¬late.ticket ≤ (netCopy 0 0).ticket ∧
    landReady (netCopy 0x104000 0) { netting true [netCopy 0x104000 0] with stalled := [waiting 0 0x80004000 own] } = false := by decide +kernel

theorem witness_NetworkAnswersAndTimeouts_lines :
    ([0x4000, 0x104000].all (fun sf =>
      let y := netCopy sf 0
      let s := netting true [y]
      s.core.ycmds[0]? == some y && y.qp == some 3 && decide (y.landed < y.size) && s.parked.isEmpty && !quiesced s y &&
      !lineHeld s (placeScratch s.cur 0x4000) && y.pages.isEmpty && y.above.isEmpty && y.got.isEmpty && y.written.isEmpty &&
      decide (y.kind = .cpy) && !(shapeOf y.shape).cvt && (sfind s.netqs 3).isSome && feeders (shapeOf y.shape) 0 0 0 == [0] &&
      ((shapeOf y.shape).sources 0).headD none == some (0, 0))) = true := by decide +kernel

theorem witness_NetworkAnswersAndTimeouts_failing :
    (sfind world.netqs 3).isNone = true ∧ has (sfind (netting false []).netqs 3) (fun q => !q.ready) = true ∧
    ([[], [netCopy 0 0]].all (fun ys => has (sfind (netting true ys).netqs 3) (fun q => q.ready &&
      has (jobWrite (netting true ys) q.job q.statusVa 8 1 false) (fun u => sfind u.jobs q.job == some job)))) = true := by decide +kernel

theorem witness_NetworkAnswersAndTimeouts_waits :
    let timed (k : Nat) (w : Waiting) (c : Core) : State :=
      { world with core := { c with csr := { c.csr with waitlim := 2 }, waits := c.waits.setIfInBounds k w } }
    let r : RingEntry := { standing 0 with word := (encode (.vst 6 2 0 0 0)).getD 0 }
    let t := timed 0 ⟨2, 6, 3⟩ { world.core with
      a := world.core.a.setIfInBounds 2 0x270000, user := { world.core.user with a := ⟨1, 0, [r]⟩ } }
    let c := { world.core with icache := [(0x1000, (encode (.bqpop 1)).getD 0)] }
    let b := timed 4 ⟨6, 0, 3⟩ c
    let g := timed 4 ⟨7, 0, 3⟩ { c with arrived := some 0 }
    State.reset.core.run = none ∧ world.core.run ≠ none ∧ world.core.csr.waitlim = 0 ∧
    headOf t.core .A = some r ∧ (match startHead .A r t with | .error (.wait w) => decide (w.detail ≠ 0) | _ => false) = true ∧
    t.core.issued = none ∧ headWait t .A = some ⟨2, 6⟩ ∧ lateWaits t = [⟨3, r.ord, 1, ⟨2, 6⟩⟩] ∧
    (lateWaits b).all (fun l => l.ring == 0) = true ∧ (lateWaits g).all (fun l => l.ring == 0) = true ∧
    b.core.csr.waitlim ≠ 0 ∧ b.core.arrived = none ∧ waitsOnBq b = true ∧ g.core.arrived ≠ none := by decide +kernel

theorem witness_WindowPeersAndRemotesReachMemory :
    let win (w : Word) : State := setHostFn world 1 { HostFn.reset with winctl := w }
    let phys : Word := 2 ^ 53
    let virt (page : Nat) : Word := BitVec.ofNat 64 (2 ^ 54 + page * 2 ^ 15)
    let open_ (p : Page) : Bool := p.home != 2 && leafTier p.leaf != 2 && !lineHeld (win (virt 0x4E)) (p.place 0x270000)
    ({ world with bootState := 0 }.bootState ≠ 1 ∧ world.bootState = 1 ∧ (0x10 : Nat) % 8 = 0 ∧ (0x40 : Nat) % 64 = 0) ∧
    (let h : HostFn := { HostFn.reset with msixPending := 1 }
     h.msixPending.getLsbD (1 / 2) = true ∧ (0 : Word).getLsbD 32 = false ∧ HostFn.reset.msixPending.getLsbD (1 / 2) = false) ∧
    (lineHeld (win phys) 0x270000 = false ∧ lineHeld { win phys with stalled := [waiting 0 0x270000 flat] } 0x270000 = true ∧
      hostWaits (win phys) = false ∧ hostWaits invalWaits = true) ∧
    ((hostFn (win (phys + 0x270000)) 1).winctl.getLsbD 53 = true ∧
      operand ((hostFn (win (phys + 0x270000)) 1).winctl) 15 33 * 2 ^ 15 + 0x7FF8 < 2 ^ 44 ∧
      2 ^ 44 ≤ operand ((hostFn (win (phys + 2 ^ 44)) 1).winctl) 15 33 * 2 ^ 15 + 0) ∧
    ((hostFn (win (virt 0x4E)) 1).winctl.getLsbD 53 = false ∧ operand ((hostFn (win (virt 0x4E)) 1).winctl) 54 10 = 1 ∧
      ownJob (win (virt 0x4E)) 1 1 ≠ none ∧ ownJob (win (virt 0x4E)) 2 1 = none ∧ jobPage world 1 .store 0x40000000 = none ∧
      has (jobPage (win (virt 0x4E)) 1 .store 0x270000) open_ = true ∧ has (jobPage (win (virt 0x4E)) 1 .load 0x270000) open_ = true ∧
      has (jobPage paged 1 .store 0x40030000) (fun p => leafTier p.leaf == 2) = true) ∧
    (let q : NetQueue := ⟨0, 1, 0x270000, [0, 0, 0, 0], 77, true, false, 0, 0⟩
     let s := { world with netqs := [(3, q)] }
     sfind s.netqs 4 = none ∧ sfind s.netqs 3 = some q ∧ q.localKey = 77 ∧ min 8 (128 - (0x270000 : Word).toNat % 128) ≠ 128 ∧
     min 128 (128 - (0x270000 : Word).toNat % 128) = 128 ∧ has (jobPage s 1 .store 0x270000) (fun p => !lineHeld s (p.place 0x270000)) = true ∧
     has (jobPage s 1 .load 0x270000) (fun p => !lineHeld s (p.place 0x270000)) = true ∧ jobPage s 1 .store 0x40000000 = none) := by
  decide +kernel

theorem witness_AStepRunsTheWordAtTheProgramCounter :
    let s := worldC (fun c => { c with icache := [(0x1000, 0x009D2A00)] })
    (s.agenda = [] ∧ (∀ st < 16, (runOf s.core st).kind = .none) ∧ s.core.seq.running = false ∧ s.core.flight = [] ∧
      s.core.run ≠ none ∧ s.core.pending = none ∧ s.core.mcmd = none ∧ s.core.ycmds = [] ∧ s.core.storeQ = [] ∧
      got (fetchWord s.core.pc s) (fun q => reads (q.1, .add 7 9 10)) = true) ∧
    (let t := { s with agenda := [.split, .event .heartbeatTick] }
     t.agenda = .split :: [.event .heartbeatTick]) ∧
    s.core.icache.find? (fun e => e.1 == 0x1000) = some (0x1000, 0x009D2A00) ∧
    (world.core.icache.find? (fun e => e.1 == 0x1000) = none ∧ (checkedPage world .fetch 0x1000 4).isOk = true ∧
      (match checkedPage world .fetch 0x40000000 4 with | .error (.fault _) => true | _ => false) = true) := by decide +kernel

theorem witness_SplitterMoves : SplitterMoves world := by
  refine ⟨by decide +kernel, by decide +kernel, fun e => ?_, by decide +kernel, by decide +kernel, by decide +kernel, by decide +kernel,
    by decide +kernel⟩
  cases e <;> decide +kernel

theorem witness_DecodingReadsBackEveryEncoding :
    (Instr.bfx 1 2 63 0).wellFormed = true ∧ encode (.bfx 1 2 63 0) = some 0x0C845F80 := by decide +kernel

theorem witness_EveryDecodedWordIsItsInstructions : reads (0x009D2A00, .add 7 9 10) = true := by decide +kernel

theorem witness_RegistersAndMemoryReadBack : swf 0#8 tables.bytes = true := by decide +kernel

theorem witness_EveryStepKeepsMemoryCanonical :
    world.mem.wf = true ∧ (match step world with | .next t => t.mem.wf | _ => false) = true := by decide +kernel

/-! ## One step each -/

/-- The state that the instruction leaves, as `f` reads it. -/
def after {α : Type} (i : Instr) (s : State) (f : State → α) : Option α :=
  match exec i s with | .next t => some (f t) | _ => none

def sees (k : BitVec 5) (t : State) : Word := sreg t.core k

/-- s1 and s2 given. -/
def two (x y : Word) : State := worldC (regs [(1, x), (2, y)])

/-- R87: modulo 2^64. -/
theorem test_add_wraps : after (.add 3 1 2) (two (-1) 1) (sees 3) = some 0 := by decide +kernel

/-- R87: (2^64 - 1)^2 = 2^128 - 2^65 + 1; as signed numbers the product of -1 and -1 is 1. -/
theorem test_mulh_signs : after (.mulhu 3 1 2) (two (-1) (-1)) (sees 3) = some 0xFFFFFFFFFFFFFFFE ∧
    after (.mulh 3 1 2) (two (-1) (-1)) (sees 3) = some 0 := by decide +kernel

/-- R88: toward zero; the remainder has the dividend's sign; by zero, all ones, the dividend and DIVZERO. -/
theorem test_div_truncates : after (.div 3 1 2) (two (-7) 2) (sees 3) = some (-3) ∧
    after (.rem 3 1 2) (two (-7) 2) (sees 3) = some (-1) := by decide +kernel
theorem test_div_by_zero : after (.divu 3 1 2) (two 7 0) (fun t => (sees 3 t, t.core.csr.flags)) = some (-1, 2) ∧
    after (.rem 3 1 2) (two (-7) 0) (fun t => (sees 3 t, t.core.csr.flags)) = some (-7, 2) := by decide +kernel

/-- R87: the shift amount is taken modulo 64. -/
theorem test_shra_amount : after (.shra 3 1 2) (two (-8) 65) (sees 3) = some (-4) := by decide +kernel

/-- R89: bits 15 to 8 of s1 replaced by bits 7 to 0 of itself. -/
theorem test_bfi_source_is_destination : after (.bfi 1 1 8 7) (two 0x12AB 0) (sees 1) = some 0xABAB := by decide +kernel

/-- R90: the EXT payload stands above the 13 bits. -/
theorem test_addi_with_ext : after (.addi 3 1 1) ((two 0 0).onCore (fun c => { c with pfx := some ((encode (.ext 3)).getD 0) }))
    (sees 3) = some 0x6001 := by decide +kernel

/-- R92: -1 is below 1 as a signed number and above it as an unsigned one; -4 words back. -/
theorem test_branch_signs : after (.blt 1 2 0x1FFC) (two (-1) 1) (fun t => t.core.pc) = some 0xFF0 ∧
    after (.bltu 1 2 0x1FFC) (two (-1) 1) (fun t => t.core.pc) = some 0x1004 := by decide +kernel

/-- R93: the target is read before the link is written. -/
theorem test_jalr_same_register : after (.jalr 1 1 4) (two 0x2000 0) (fun t => (t.core.pc, sees 1 t)) = some (0x2004, 0x1004) := by
  decide +kernel

/-- R81: s0 discards what is written. -/
theorem test_s0_reads_zero : after (.addi 0 1 1) (two 5 0) (sees 0) = some 0 := by decide +kernel

/-- R79: SPILL at user level enters the handler with CODE 2; R302: TRAP with CODE 13. -/
theorem test_spill_at_user_level : after .spill world (fun t => (t.core.csr.cause, t.core.pc)) = some (2, 0x250000) := by decide +kernel
theorem test_trap_saves : after (.trap 5) world (fun t => (t.core.csr.cause, t.core.csr.tval, t.core.csr.epc)) = some (13, 5, 0x1004) := by
  decide +kernel

/-- R120: a byte 0x80 is sign-extended, or zero-extended with ZX; STS writes 2 bytes, the low one first. -/
theorem test_lds_extends :
    let s := { pointing 0x270000 with mem := poke (pointing 0x270000).mem 0x270000 2 0x7F80 }
    after (.lds 1 2 0 0 0) s (sees 1) = some 0xFFFFFFFFFFFFFF80 ∧ after (.lds 1 2 0 1 1) s (sees 1) = some 0x7F := by decide +kernel
theorem test_sts_little_endian :
    after (.sts 3 2 1 2) ((pointing 0x270000).onCore (regs [(3, 0x1234567)])) (fun t => loadBytes t.mem.bytes 0x270000 8) =
      some 0x45670007 := by decide +kernel

/-- R137: the old value is delivered, and replaced where it is the one expected. -/
theorem test_acas_replaces :
    after (.acas 1 2 3 5 4) ((pointing 0x270000).onCore (regs [(5, 9)]))
      (fun t => (sees 1 t, loadBytes t.mem.bytes 0x270000 8)) = some (7, 9) := by decide +kernel

/-- R159: 1.5 + 2.25 = 3.75 in FP32; INT32 wraps. -/
def lanesOf (f a b : Nat) : State :=
  (vectors f f 0).onCore (fun c => { c with
    v := (c.v.setIfInBounds 2 ⟨BitVec.ofNat 2048 a, plainTag f⟩).setIfInBounds 3 ⟨BitVec.ofNat 2048 b, plainTag f⟩ })
def lane0 (t : State) : Nat := ((t.core.v[1]?.getD VReg.zero).data.toNat) % 2 ^ 32
theorem test_vadd_fp32 : after (.vadd 1 2 3 0) (lanesOf 10 0x3FC00000 0x40100000) lane0 = some 0x40700000 := by decide +kernel
theorem test_vadd_int32_wraps : after (.vadd 1 2 3 0) (lanesOf 5 0xFFFFFFFF 2) lane0 = some 1 := by decide +kernel

/-- R161: 1 / 0 is infinity with DIVZERO; R163: a quiet comparison with NaN is unordered. -/
theorem test_vdiv_by_zero :
    after (.vdiv 1 2 3 16) (lanesOf 10 0x3F800000 0) (fun t => (lane0 t, t.core.csr.flags.getLsbD 1)) = some (0x7F800000, true) := by
  decide +kernel
theorem test_vcmp_unordered :
    after (.vcmp 6 1 2 3 0) (lanesOf 10 0x7FC00000 0) (fun t => (t.core.p[1]?.getD 0).getLsbD 0) = some true := by decide +kernel

/-- R187: the FP32 tile's position (0, 0) takes 1.0 × 2.0 in BF16. -/
theorem test_mma_one_product :
    let s := matrixed none
    let line (pl v : Nat) (s : State) : State := { s with mem := putLine s.mem pl 0 ⟨plainTag 12, BitVec.ofNat 1024 v⟩ }
    after (.mma 0 0 0 1 2) (line (placeScratch 0 0) 0x3F80 (line (placeScratch 0 0x30000) 0x4000 s))
      (fun t => sget 0 (t.core.tiles[0]?.getD Tile.zero).data 0) = some 0x40000000 := by decide +kernel

/-- R68, R116: an entry whose ADDR is no multiple of 4 faults ALIGN before the run's first word (the model's reading, log 73). -/
theorem test_dispatch_of_a_misaligned_entry :
    let s := popping (record_ 0 0) job
    after .dispatch { s with mem := poke s.mem 0x230000 16 0x240002 }
      (fun t => (t.core.csr.cause, t.core.csr.tval, t.core.csr.epc, t.core.pc)) = some (3, 0x240002, 0x240000, 0x250000) := by
  decide +kernel

/-- R291: a range declared inside another leaves the parts on either side (the model's reading, log 76). -/
theorem test_cxlrange_leaves_the_rest :
    after (.cxlrange 0 (ops [0x200, 2 ^ 30, 2 ^ 30])) { world with mem := { world.mem with ranges := [⟨0, .shadow, 0, 2 ^ 32⟩] } }
      (fun t => t.mem.ranges) = some [⟨0, .shadow, 0, 2 ^ 30⟩, ⟨0, .shadow, 2 ^ 31, 2 ^ 31⟩, ⟨0, .untagged, 2 ^ 30, 2 ^ 30⟩] := by
  decide +kernel

/-- R286: the AES-256 example of FIPS-197, C.3, byte 0 low. -/
theorem test_aes256_block :
    let k := roundKeys 0x1f1e1d1c1b1a191817161514131211100f0e0d0c0b0a09080706050403020100
    encryptBlock k 0xffeeddccbbaa99887766554433221100 = 0x8960494b9049fceabf456751cab7a28e ∧
    decryptBlock k 0x8960494b9049fceabf456751cab7a28e = 0xffeeddccbbaa99887766554433221100 := by
  decide +kernel

/-- R238: the SHA-384 example of FIPS 180, "abc". -/
theorem test_sha384_abc : sha384 [0x61, 0x62, 0x63] =
    0xcb00753f45a35e8bb5a03d699ac65007272c32ab0eded1631a8b605a43ff5bed8086072ba1e7cc2358baeca134c825a7 := by decide +kernel

/-- R68: the first word after reset, ADD s4, s5, s6, leaves the program counter at 4. -/
theorem test_first_step_after_reset :
    (match step (State.reset.withFetchWord 32 0x0090A600) with | .next t => t.core.pc | _ => 0) = 4 := by decide +kernel

end Sys2Proof.Tests
end

section
/-! SUPPORT. The conditional branches (R92): what one does that is not held back, said once for the six, and O3. -/

namespace Sys2Proof.Proofs.Branches

open Sys2Proof.Machine Sys2Proof.Laws

/-- An offset counts words of four bytes (R69). -/
theorem wordTarget_eq (pc off : Word) : wordTarget pc off = pc + 4 * off := by
  unfold wordTarget
  bv_omega

theorem jumpTo_passed (target : Word) (s : State) : jumpTo target (passed s) = goingOn target s := rfl

theorem branch_settled {i : Instr} {a b : BitVec 5} {o : BitVec 13} {f : Word → Word → Bool} {s : State}
    (h : Settled s [a, b]) :
    branch i a b o f s =
      .next (if f (sreg s.core a) (sreg s.core b) then goingOn (s.core.pc + 4 * immediate s o) s else passed s) :=
  control_ok h (by rw [ext_signed, wordTarget_eq, jumpTo_passed]; rfl)

/-- A word that is a branch on the test `f` goes to its target where what `f` decides holds, and to the next word where it
does not. -/
theorem branch_goes {i : Instr} {a b : BitVec 5} {o : BitVec 13} {f : Word → Word → Bool} {s : State} {holds : Prop}
    (h : Settled s [a, b]) (hexec : exec i s = branch i a b o f s)
    (hf : f (sreg s.core a) (sreg s.core b) = true ↔ holds) :
    (holds → exec i s = .next (goingOn (s.core.pc + 4 * immediate s o) s)) ∧ (¬holds → exec i s = .next (passed s)) := by
  rw [hexec, branch_settled h]
  constructor
  · intro hh
    rw [if_pos (hf.mpr hh)]
  · intro hh
    rw [if_neg (mt hf.mp hh)]

theorem not_slt_iff_toInt_le (x y : Word) : (!x.slt y) = true ↔ y.toInt ≤ x.toInt := by
  rw [Bool.not_eq_true', ← Bool.not_eq_true, BitVec.slt_iff_toInt_lt, Int.not_lt]

theorem not_ult_iff_toNat_le (x y : Word) : (!x.ult y) = true ↔ y.toNat ≤ x.toNat := by
  rw [Bool.not_eq_true', ← Bool.not_eq_true, BitVec.ult_iff_lt, BitVec.lt_def, Nat.not_lt]

/-- Settles O3: the six tests are the six comparisons, each branch goes by its test, and each word is read back by the decoder's
round trip. -/
theorem conditionalBranchesGoWhereTheyCompare : Obligations.ConditionalBranchesGoWhereTheyCompare := by
  unfold Obligations.ConditionalBranchesGoWhereTheyCompare
  intro s a b o h
  refine ⟨?beq, ?bne, ?blt, ?bge, ?bltu, ?bgeu, ?words⟩
  case beq => exact branch_goes h rfl beq_iff_eq
  case bne => exact branch_goes h rfl bne_iff_ne
  case blt => exact branch_goes h rfl BitVec.slt_iff_toInt_lt
  case bge => exact branch_goes (f := fun x y => !x.slt y) h rfl (not_slt_iff_toInt_le _ _)
  case bltu => exact branch_goes h rfl BitVec.ult_iff_lt
  case bgeu => exact branch_goes (f := fun x y => !x.ult y) h rfl (not_ult_iff_toNat_le _ _)
  case words =>
    exact ⟨RoundTrip.beq a b o rfl _ rfl, RoundTrip.bne a b o rfl _ rfl, RoundTrip.blt a b o rfl _ rfl,
      RoundTrip.bge a b o rfl _ rfl, RoundTrip.bltu a b o rfl _ rfl, RoundTrip.bgeu a b o rfl _ rfl⟩

end Sys2Proof.Proofs.Branches
end

section
/-! SUPPORT. TRAP (R302): the fault of a word that nothing waits before, what a trap taken outside a handler saves, and O16. -/

namespace Sys2Proof.Proofs.Traps

open Sys2Proof.Machine Sys2Proof.Laws

/-- An immediate read unsigned, as the operation of the model reads it (R75). -/
theorem ext_unsigned {n : Nat} (s : State) (f : BitVec n) : extUnsigned (extOf s.core.pfx) f = unsignedImmediate s f := by
  rw [ext_of]; rfl

/-! ## What taking a trap saves (R296, R298) -/

@[simp] theorem addToken_pc (k : BitVec 4) (c : Core) : (addToken k c).pc = c.pc := by
  dsimp only [addToken]
  split_ifs <;> rfl

@[simp] theorem addToken_pfx (k : BitVec 4) (c : Core) : (addToken k c).pfx = c.pfx := by
  dsimp only [addToken]
  split_ifs <;> rfl

@[simp] theorem unissue_core_pc (s : State) : (unissue s).core.pc = s.core.pc := addToken_pc _ _

@[simp] theorem unissue_core_pfx (s : State) : (unissue s).core.pfx = s.core.pfx := addToken_pfx _ _

@[simp] theorem resumePc_unissue (s : State) : resumePc (unissue s).core = resumePc s.core := by
  simp [resumePc]

/-- EPC holds bits [47:2] of the address (R298). -/
theorem mkEpc_eq_and (pc : Word) : mkEpc pc = pc &&& 0x0000FFFFFFFFFFFC := by
  have hmask : ∀ i < 64, (0x0000FFFFFFFFFFFC : Word).getLsbD i = (decide (2 ≤ i) && decide (i < 48)) := by decide
  refine BitVec.eq_of_getLsbD_eq fun i hi => ?_
  rw [BitVec.getLsbD_and, hmask i hi]
  unfold mkEpc
  rcases Nat.lt_or_ge i 2 with hlow | hlow
  · simp [hlow, Nat.not_le.mpr hlow]
  · have hplace : 2 + (i - 2) = i := by omega
    have hhigh : i - 2 < 46 ↔ i < 48 := by omega
    simp [hlow, hi, hplace, hhigh, Nat.not_lt.mpr hlow, Bool.and_comm]

/-- Outside a handler, and with an entry to go to, a trap is entered: the splitter goes to the entry, and CAUSE, TVAL and EPC
are those of the fault. -/
theorem takeTrap_enters {f : Flt} {ring : BitVec 3} {s : State} {entry : Word}
    (huser : inTrap s.core = false) (hentry : handlerEntry s = some entry) :
    (takeTrap f ring s).core.pc = entry ∧ (takeTrap f ring s).core.csr.cause = mkCause f ring ∧
    (takeTrap f ring s).core.csr.tval = f.tval ∧
    (takeTrap f ring s).core.csr.epc = mkEpc (if f.code = cTRAPI then s.core.pc + 4 else resumePc s.core) := by
  unfold takeTrap
  simp [huser, hentry]

/-! ## A fault that is taken at once (R300) -/

/-- With no fault pending, every earlier word started and every access done, a fault other than PAGE is taken. -/
theorem raiseFault_taken {ord : Nat} {ring : BitVec 3} {f : Flt} {s : State} (hcode : f.code ≠ cPAGE)
    (hfree : s.core.pending = none) (hsettled : settledBefore s.core ord = true) (hdone : accessesDone s.core = true) :
    raiseFault ord ring f s = takeTrap f ring s := by
  unfold raiseFault
  simp [hcode, hfree, hsettled, hdone]

/-! ## TRAP -/

/-- CAUSE of TRAP: CODE 13, and no other bit (R298, R302). -/
theorem mkCause_trap (v : Word) : mkCause ⟨13, v, false, 0⟩ 0 = 13 := by
  dsimp only [mkCause]
  decide

/-- The fault of TRAP: CODE 13, with the immediate in TVAL. -/
theorem exec_trap_settled {s : State} {i : BitVec 18} (h : Settled s []) :
    exec (.trap i) s = faultsAtWord s 13 (unsignedImmediate s i) 0 := by
  rw [← ext_unsigned]
  change execTrap i s = _
  unfold execTrap
  exact control_fault h rfl

theorem exec_trap_taken {s : State} {i : BitVec 18} (h : Settled s []) (hsettled : settledBefore s.core s.core.ord = true)
    (hdone : accessesDone s.core = true) :
    exec (.trap i) s = .next (takeTrap ⟨13, unsignedImmediate s i, false, 0⟩ 0 s) := by
  have hfree : s.core.pending = none := h.1.1
  have hcode : (13 : BitVec 8) ≠ cPAGE := by decide
  rw [exec_trap_settled h, faultsAtWord, raiseFault_taken hcode hfree hsettled hdone]

/-- Settles O16: TRAP's word is read back by the decoder's round trip, its fault is taken at once where no earlier word is left,
and the trap entered saves CODE 13, the immediate, and the address past the word. -/
theorem trapTakesItsTrap : Obligations.TrapTakesItsTrap := by
  unfold Obligations.TrapTakesItsTrap
  intro s i h
  refine ⟨RoundTrip.trap i rfl _ rfl, exec_trap_settled h, fun hsettled hdone => ⟨exec_trap_taken h hsettled hdone, ?_⟩⟩
  intro entry huser hentry
  obtain ⟨hpc, hcause, htval, hepc⟩ := takeTrap_enters (f := ⟨13, unsignedImmediate s i, false, 0⟩) (ring := 0) huser hentry
  refine ⟨_, exec_trap_taken h hsettled hdone, hpc, hcause.trans (mkCause_trap _), htval, hepc.trans ?_⟩
  exact mkEpc_eq_and (s.core.pc + 4)

end Sys2Proof.Proofs.Traps
end
